-- ==== Sys2Proof/Word.lean ====
section
/-! DEFINITION. The word types of the device and its plainest vocabulary: bytes, 32-bit and 64-bit words, slices, scopes. -/
namespace Sys2Proof

/-- One byte of memory (R8). -/
abbrev Byte := BitVec 8
/-- A 32-bit register or queue value (R11, R40). -/
abbrev W32 := BitVec 32
/-- A 64-bit register, address or instruction word (R8, R11). -/
abbrev W64 := BitVec 64

/-- The two slices of a core (R10). -/
inductive Slice
  | execute
  | access
  deriving DecidableEq, Repr

/-- The ordering scopes of Table 1.1 and Table 8.1. -/
inductive Scope
  | thread
  | warp
  | crew
  | cluster
  | die
  | domain
  deriving DecidableEq, Repr

/-- The other slice of a warp pair. -/
def Slice.other : Slice → Slice
  | .execute => .access
  | .access => .execute

/-- The code of a scope in an instruction word (Table 8.1); wider scopes have higher codes. -/
def Scope.code : Scope → Nat
  | .thread => 0
  | .warp => 1
  | .crew => 2
  | .cluster => 3
  | .die => 4
  | .domain => 5

/-- The direction of a declared queue (R40). -/
inductive QDir
  | fwd
  | ret
  | sd
  deriving DecidableEq, Repr

end Sys2Proof
end

