-- ==== Sys2Proof/Syntax.lean ====
section
/-! DEFINITION. The abstract syntax of Chrodo 3: operands and modifiers (02), one argument record per encoding shape, and Instr with one constructor per row of the table of operations and events. -/
namespace Sys2Proof

/-- The guard of an instruction: a predicate of the issuing slice, possibly negated (R55, R71). -/
structure Guard where
  neg : Bool
  k : BitVec 4
  deriving DecidableEq, Repr

/-- Operand codes of Table 2.3, and `none` for a field that the instruction does not use (R56). -/
inductive Opnd
  | none
  | v (n : BitVec 8)
  | l (n : BitVec 2)
  | q (n : BitVec 4)
  | s (n : BitVec 6)
  | a (n : BitVec 4)
  | c (n : BitVec 4)
  deriving DecidableEq, Repr

/-- Type codes of Table 2.5. -/
inductive Ty
  | dflt
  | s8 | s16 | s32 | s64
  | z8 | z16 | z32 | z64
  | b32 | b64
  | f16 | bf16 | f32 | f64
  | e4m3 | e5m2 | e3m2 | e2m3 | e2m1
  | e8
  | m2 | m3 | m4 | m5 | m6 | m7 | m8
  | f16x2 | bf16x2
  deriving DecidableEq, Repr

/-- Rounding modes of Table 2.4. -/
inductive Rnd
  | rn | rz | rd | ru
  deriving DecidableEq, Repr

/-- Condition codes of Table 6.7. -/
inductive Cond
  | eq | ne | lt | le | gt | ge | ord | unord
  deriving DecidableEq, Repr

/-- Memory access sizes of Table 8.2. -/
inductive Size
  | b32 | z8 | s8 | z16 | s16 | b64 | s32
  deriving DecidableEq, Repr

/-- Orderings of loads, stores and atomics (Table 8.1, R239). -/
inductive Ord
  | none | acq | rel | ar
  deriving DecidableEq, Repr

/-- Matrix element formats of Table 9.1 (every A format; B takes eight of them). -/
inductive MFmt
  | m2 | m3 | m4 | m5 | m6 | m7 | m8 | e4m3 | e5m2 | e3m2 | e2m3 | e2m1
  deriving DecidableEq, Repr

/-- `kop` operations (R182). -/
inductive KopOp
  | and | or | xor | andn
  deriving DecidableEq, Repr

/-- `shfl` modes (R206). -/
inductive ShflMode
  | idx | up | down | xor
  deriving DecidableEq, Repr

/-- `vote` modes (R208). -/
inductive VoteMode
  | all | any | uni
  deriving DecidableEq, Repr

/-- Reduction operations of Table 7.8. -/
inductive RedOp
  | add | min | max | and | or | xor
  deriving DecidableEq, Repr

/-- `escl` operations (R204). -/
inductive EsclOp
  | get | apply | mul
  deriving DecidableEq, Repr

/-- `atom` operations (R239). -/
inductive AtomOp
  | add | min | max | and | or | xor | exch
  deriving DecidableEq, Repr

/-- `atom` types (R239). -/
inductive AtomTy
  | b32 | s32 | z32 | b64 | s64 | z64
  deriving DecidableEq, Repr

/-- Barrier modes of Table 5.2 that `binit` accepts (R285). -/
inductive BarMode
  | bytes | rows | arrivals
  deriving DecidableEq, Repr

/-- The phase field of `bwait` and `byld` (Table 10.1). -/
inductive Phase
  | recorded | p0 | p1
  deriving DecidableEq, Repr

/-! ### Argument records -/

/-- `nop`, and the never-execute words of R71, which change nothing; `long` tells a never-execute word of form 0b10, whose length is 16 bytes. -/
structure NopArgs where
  g : Guard
  long : Bool
  deriving DecidableEq, Repr

/-- Instructions with a guard and nothing else. -/
structure BareArgs where
  g : Guard
  deriving DecidableEq, Repr

/-- `bra` (R64, R156). -/
structure BraArgs where
  g : Guard
  disp : BitVec 28
  deriving DecidableEq, Repr

/-- `brx` and `ret` (R157). -/
structure BrxArgs where
  g : Guard
  t : Opnd
  deriving DecidableEq, Repr

/-- `call` (R159). -/
structure CallArgs where
  g : Guard
  nwb : Bool
  link : Opnd
  disp : BitVec 28
  deriving DecidableEq, Repr

/-- `calx` (R158). -/
structure CalxArgs where
  g : Guard
  nwb : Bool
  link : Opnd
  t : Opnd
  deriving DecidableEq, Repr

/-- `rcv` (R161). -/
structure RcvArgs where
  g : Guard
  disp : BitVec 19
  deriving DecidableEq, Repr

/-- `setw` (R165); `req` is the request code. -/
structure SetwArgs where
  g : Guard
  nwb : Bool
  d : Opnd
  req : BitVec 2
  deriving DecidableEq, Repr

/-- A guard and one destination: `pyld`. -/
structure DestArgs where
  g : Guard
  nwb : Bool
  d : Opnd
  deriving DecidableEq, Repr

/-- `loop` (R162). -/
structure LoopArgs where
  g : Guard
  nwb : Bool
  x : Opnd
  disp : BitVec 28
  deriving DecidableEq, Repr

/-- The common layout of groups 1 to 7 (Tables 2.2 and 2.4): destination, up to three sources, type, rounding, flush, and the one-bit modifier in mod[9] (.sat, .sx, .x, .excl, .first, the source choice of `fdot2`). -/
structure AluArgs where
  g : Guard
  nwb : Bool
  d : Opnd
  a : Opnd
  b : Opnd
  c : Opnd
  ty : Ty
  rnd : Rnd
  ftz : Bool
  flag : Bool
  deriving DecidableEq, Repr

/-- `iaddc` and `isubb` (R170). -/
structure CarryArgs where
  g : Guard
  nwb : Bool
  d : Opnd
  a : Opnd
  b : Opnd
  ty : Ty
  ko : BitVec 4
  ki : BitVec 4
  cin : Bool
  deriving DecidableEq, Repr

/-- Immediate variants (R63, Table 2.12); `a` is `none` for `mov`. -/
structure ImmArgs where
  g : Guard
  nwb : Bool
  d : Opnd
  a : Opnd
  imm : BitVec 28
  deriving DecidableEq, Repr

/-- `movi` (R172). -/
structure MoviArgs where
  g : Guard
  nwb : Bool
  d : Opnd
  ty : Ty
  imm : BitVec 64
  deriving DecidableEq, Repr

/-- `bfn` (R175). -/
structure BfnArgs where
  g : Guard
  nwb : Bool
  d : Opnd
  a : Opnd
  b : Opnd
  ty : Ty
  table : BitVec 8
  deriving DecidableEq, Repr

/-- `icmp` and `fcmp` (R178, R179). -/
structure CmpArgs where
  g : Guard
  a : Opnd
  b : Opnd
  ty : Ty
  ftz : Bool
  kd : BitVec 4
  cc : Cond
  deriving DecidableEq, Repr

/-- `sel` (R181). -/
structure SelArgs where
  g : Guard
  nwb : Bool
  d : Opnd
  a : Opnd
  b : Opnd
  ty : Ty
  kn : BitVec 4
  deriving DecidableEq, Repr

/-- `kop` (R182). -/
structure KopArgs where
  g : Guard
  op : KopOp
  kd : BitVec 4
  ka : BitVec 4
  neg : Bool
  deriving DecidableEq, Repr

/-- The three forms of `kmov` (Table 6.8). -/
inductive KmovForm
  | toReg (nwb : Bool) (d : Opnd) (kn : BitVec 4)
  | ofReg (a : Opnd) (kn : BitVec 4)
  | copy (kd : BitVec 4) (kn : BitVec 4) (neg : Bool)
  deriving DecidableEq, Repr

/-- `kmov` (R183). -/
structure KmovArgs where
  g : Guard
  ty : Ty
  form : KmovForm
  deriving DecidableEq, Repr

/-- `cvt` (R198); `ty` is the destination type, `st` the source type, `sat` the .sat modifier. -/
structure CvtArgs where
  g : Guard
  nwb : Bool
  d : Opnd
  a : Opnd
  ty : Ty
  st : Ty
  rnd : Rnd
  ftz : Bool
  sat : Bool
  deriving DecidableEq, Repr

/-- `fpk` (R200). -/
structure FpkArgs where
  g : Guard
  nwb : Bool
  d : Opnd
  a : Opnd
  b : Opnd
  ty : Ty
  rnd : Rnd
  ftz : Bool
  j : BitVec 2
  deriving DecidableEq, Repr

/-- `fupk` (R201). -/
structure FupkArgs where
  g : Guard
  nwb : Bool
  d : Opnd
  a : Opnd
  ty : Ty
  ftz : Bool
  j : BitVec 3
  deriving DecidableEq, Repr

/-- `escl` (R204). -/
structure EsclArgs where
  g : Guard
  nwb : Bool
  d : Opnd
  a : Opnd
  b : Opnd
  ty : Ty
  rnd : Rnd
  ftz : Bool
  op : EsclOp
  deriving DecidableEq, Repr

/-- `shfl` (R206). -/
structure ShflArgs where
  g : Guard
  nwb : Bool
  d : Opnd
  a : Opnd
  b : Opnd
  ty : Ty
  mode : ShflMode
  deriving DecidableEq, Repr

/-- `vote` (R208). -/
structure VoteArgs where
  g : Guard
  mode : VoteMode
  kd : BitVec 4
  ka : BitVec 4
  neg : Bool
  deriving DecidableEq, Repr

/-- `ballot` (R209). -/
structure BallotArgs where
  g : Guard
  nwb : Bool
  d : Opnd
  ka : BitVec 4
  neg : Bool
  deriving DecidableEq, Repr

/-- `redx` and `scan` (R211); `excl` for `scan` only. -/
structure RedArgs where
  g : Guard
  nwb : Bool
  d : Opnd
  a : Opnd
  ty : Ty
  ftz : Bool
  op : RedOp
  excl : Bool
  deriving DecidableEq, Repr

/-- `regroup` (R212); `key` is `none` in the unkeyed form of the access slice. -/
structure RegroupArgs where
  g : Guard
  nwb : Bool
  d : Opnd
  key : Opnd
  live : Opnd
  deriving DecidableEq, Repr

/-- Group 8 loads, stores and prefetch (Tables 8.1 and 8.3). `d` is the destination of a load, `v` the value, store-data queue or device operand in srcb; `x` is .nf, .sp or .l2. -/
structure MemArgs where
  g : Guard
  d : Opnd
  base : Opnd
  v : Opnd
  sz : Size
  ord : Ord
  scope : Scope
  x : Bool
  ro : Bool
  disp : BitVec 9
  deriving DecidableEq, Repr

/-- `lea` in the full form (R227). -/
structure LeaArgs where
  g : Guard
  d : Opnd
  base : Opnd
  disp : BitVec 19
  deriving DecidableEq, Repr

/-- `lea` in the long form (R227). -/
structure LeaLongArgs where
  g : Guard
  d : Opnd
  base : Opnd
  disp : BitVec 64
  deriving DecidableEq, Repr

/-- `qpush` (R230). -/
structure QpushArgs where
  g : Guard
  nwb : Bool
  qd : Opnd
  v : Opnd
  en : Bool
  neg : Bool
  kt : BitVec 4
  deriving DecidableEq, Repr

/-- `qpop` (R231): the queue is an operand code. -/
structure QpopArgs where
  g : Guard
  nwb : Bool
  d : Opnd
  q : Opnd
  kt : BitVec 4
  deriving DecidableEq, Repr

/-- `qpeek` (R231): the queue is named in mod. -/
structure QpeekArgs where
  g : Guard
  nwb : Bool
  d : Opnd
  n : BitVec 4
  kt : BitVec 4
  deriving DecidableEq, Repr

/-- `qend` (R230); `v` is `none` when the value enable is 0. -/
structure QendArgs where
  g : Guard
  nwb : Bool
  qd : Opnd
  v : Opnd
  deriving DecidableEq, Repr

/-- `qstat` (R233). -/
structure QstatArgs where
  g : Guard
  nwb : Bool
  d : Opnd
  clr : Bool
  n : BitVec 4
  deriving DecidableEq, Repr

/-- `qdrop` (R232); `cnt` is count − 1 and 0 under `all`. -/
structure QdropArgs where
  g : Guard
  all : Bool
  cnt : BitVec 6
  n : BitVec 4
  deriving DecidableEq, Repr

/-- `atom` (R239). -/
structure AtomArgs where
  g : Guard
  d : Opnd
  base : Opnd
  v : Opnd
  op : AtomOp
  ord : Ord
  scope : Scope
  ty : AtomTy
  disp : BitVec 8
  deriving DecidableEq, Repr

/-- `acas` (R239); `wide` tells .b64. -/
structure AcasArgs where
  g : Guard
  d : Opnd
  base : Opnd
  cmp : Opnd
  new : Opnd
  ord : Ord
  scope : Scope
  wide : Bool
  deriving DecidableEq, Repr

/-- `fence` (R241). -/
structure FenceArgs where
  g : Guard
  sem : Ord
  scope : Scope
  deriving DecidableEq, Repr

/-- `upd` (R242). -/
structure UpdArgs where
  g : Guard
  base : Opnd
  v : Opnd
  disp : BitVec 16
  deriving DecidableEq, Repr

/-- Range instructions `uflush`, `cinv`, `cwb`, `icinv` (R246, R249, R313); `flag` is .inv of `cwb` and .all of `icinv`. -/
structure RangeArgs where
  g : Guard
  base : Opnd
  len : Opnd
  flag : Bool
  deriving DecidableEq, Repr

/-- `ubind` and `uunbind` (R247, R248); `base` is `none` for `uunbind`. -/
structure BindArgs where
  g : Guard
  base : Opnd
  n : BitVec 6
  deriving DecidableEq, Repr

/-- `stld`, `stsp`, `stinv` (R255, R256); `off` is `none` for `stinv`. -/
structure StampArgs where
  g : Guard
  off : Opnd
  j : BitVec 9
  deriving DecidableEq, Repr

/-- `mma` and `mmac` (R253). -/
structure MmaArgs where
  g : Guard
  a : Opnd
  klen : Opnd
  fa : MFmt
  fb : MFmt
  ftz : Bool
  t : BitVec 2
  j : BitVec 9
  deriving DecidableEq, Repr

/-- `msca` (R265). -/
structure MscaArgs where
  g : Guard
  e : Opnd
  shift : BitVec 5
  ftz : Bool
  u : BitVec 2
  t : BitVec 2
  j : BitVec 9
  deriving DecidableEq, Repr

/-- `mzero` (R266). -/
structure MzeroArgs where
  g : Guard
  pm : BitVec 4
  mm : BitVec 4
  deriving DecidableEq, Repr

/-- `mrd` and `mst` (R267, R270); `clr` for `mrd` only. -/
structure MrdArgs where
  g : Guard
  d : Opnd
  ty : Ty
  clr : Bool
  u : BitVec 2
  col : BitVec 3
  deriving DecidableEq, Repr

/-- `mrdx` (R268). -/
structure MrdxArgs where
  g : Guard
  d : Opnd
  c : Opnd
  r : Opnd
  ty : Ty
  ftz : Bool
  u : BitVec 2
  col : BitVec 3
  st : Bool
  deriving DecidableEq, Repr

/-- `mrmax` and `mrsum` (R269). -/
structure MredArgs where
  g : Guard
  nwb : Bool
  d : Opnd
  u : BitVec 2
  deriving DecidableEq, Repr

/-- `mflag` (R271). -/
structure MflagArgs where
  g : Guard
  nwb : Bool
  d : Opnd
  mask : BitVec 4
  deriving DecidableEq, Repr

/-- `smx` (R272). -/
structure SmxArgs where
  g : Guard
  nwb : Bool
  d : Opnd
  rold : Opnd
  mx : Opnd
  c : Opnd
  ty : Ty
  ftz : Bool
  deriving DecidableEq, Repr

/-- `kvmap`, `kvapp`, `kvsel`, `kvpack` and `kvacc` (Table 9.8): header, second operand and weight, `none` where unused. -/
structure KvArgs where
  g : Guard
  d : Opnd
  h : Opnd
  b : Opnd
  w : Opnd
  deriving DecidableEq, Repr

/-- `kvscl` (R274). -/
structure KvsclArgs where
  g : Guard
  nwb : Bool
  d : Opnd
  a : Opnd
  e : Opnd
  ty : Ty
  ftz : Bool
  deriving DecidableEq, Repr

/-- `xpost` (R286); `n` is the count − 1. -/
structure XpostArgs where
  g : Guard
  base : Opnd
  n : BitVec 8
  deriving DecidableEq, Repr

/-- `xgath` (R289) with the fields of its descriptor (Table 10.2). -/
structure XgathArgs where
  g : Guard
  a : Opnd
  cont : Bool
  ro : Bool
  bar : BitVec 19
  esize : BitVec 6
  dst : BitVec 23
  deriving DecidableEq, Repr

/-- `xstat` (R288). -/
structure XstatArgs where
  g : Guard
  d : Opnd
  clr : Bool
  deriving DecidableEq, Repr

/-- `xcp` (R291); `sz` codes 4, 8, 16, 32 bytes. -/
structure XcpArgs where
  g : Guard
  d : Opnd
  s : Opnd
  n : Opnd
  ro : Bool
  sz : BitVec 2
  tag : BitVec 3
  deriving DecidableEq, Repr

/-- `xtwait` (R293). -/
structure XtwaitArgs where
  g : Guard
  m : BitVec 8
  tag : BitVec 3
  deriving DecidableEq, Repr

/-- `binit` (R295). -/
structure BinitArgs where
  g : Guard
  b : Opnd
  mode : BarMode
  exp : BitVec 16
  deriving DecidableEq, Repr

/-- `barr` (R296). -/
structure BarrArgs where
  g : Guard
  b : Opnd
  n : BitVec 16
  deriving DecidableEq, Repr

/-- `bwait` and `byld` (R297, R298); `t` is `none` for `bwait`. -/
structure BwaitArgs where
  g : Guard
  b : Opnd
  t : Opnd
  ph : Phase
  deriving DecidableEq, Repr

/-- `emit` (R301). -/
structure EmitArgs where
  g : Guard
  e : Opnd
  fh : Opnd
  n : BitVec 4
  deriving DecidableEq, Repr

/-- `wqpop` and `wqsteal` (R302, R303); `c` is `none` for `wqpop`. -/
structure WqArgs where
  g : Guard
  d : Opnd
  c : Opnd
  kt : BitVec 4
  deriving DecidableEq, Repr

/-- `trap` and `brk` (R307). -/
structure TrapArgs where
  g : Guard
  n : BitVec 6
  deriving DecidableEq, Repr

/-- `rds` (R310). -/
structure RdsArgs where
  g : Guard
  nwb : Bool
  d : Opnd
  idx : BitVec 8
  deriving DecidableEq, Repr

/-- `wrs` (R311). -/
structure WrsArgs where
  g : Guard
  a : Opnd
  idx : BitVec 8
  deriving DecidableEq, Repr

/-- Pair opcodes of Table 2.8. -/
inductive PairOp
  | mov | iadd | isub | imin | imax | and | or | xor | shl | shr | sra
  | fadd | fsub | fmul | fmin | fmax
  deriving DecidableEq, Repr

/-- One slot of a pair word (Table 2.7); `ty` and `ftz` are what pmod selects. -/
structure PairSlot where
  op : PairOp
  k : BitVec 4
  nwb : Bool
  d : BitVec 8
  b : BitVec 8
  ty : Ty
  ftz : Bool
  deriving DecidableEq, Repr

/-- A pair word (R68). -/
structure PairArgs where
  s0 : PairSlot
  s1 : PairSlot
  deriving DecidableEq, Repr

/-! ### Arguments of the events -/

/-- A split of a warp, the thing a pipe issues: the crew's placement identity, the warp pair, the slice and the split's identity. -/
structure UnitRef where
  crew : Nat
  pair : Nat
  slice : Slice
  split : Nat
  deriving DecidableEq, Repr

/-- What the fabric reports for one remote request (R331, Table 14.4). -/
inductive RemoteResult
  | ok
  | unreachable
  | fault
  | lost
  | check
  deriving DecidableEq, Repr

/-- What a lost remote request was made for (R456). -/
inductive RemoteRef
  | lane (crew pair load lane : Nat)
  | row (core cmd row : Nat)
  deriving DecidableEq, Repr

/-- A remote request from another device (R455). -/
structure RemoteReq where
  sender : BitVec 10
  tag : BitVec 16
  addr : W64
  len : Nat
  write : Bool
  data : List Byte
  deriving DecidableEq, Repr

/-- What the background patrol reads next (R367). -/
inductive PatrolUnit
  | scratchRow (core row : Nat)
  | hbmUnit (addr : Nat)
  deriving DecidableEq, Repr

/-- SPDM request codes the device answers (R462), and any other code. -/
inductive SpdmCode
  | getVersion | getCapabilities | negotiateAlgorithms
  | getDigests | getCertificate
  | challenge | getMeasurements
  | keyExchange | finish
  | installKeys (link : Bool) (transport : Bool)
  | other (code : BitVec 8)
  deriving DecidableEq, Repr

/-- An SPDM request at the DOE mailbox; `secured` tells whether it came inside a secured session, `param` is its first parameter, `proof` a FINISH message's verify data. -/
structure SpdmReq where
  code : SpdmCode
  secured : Bool
  param : BitVec 8
  proof : List Byte
  deriving DecidableEq, Repr

/-- The operations and events of the device: one constructor per row of the table of operations and events (spec/opcode_table.json). The first 173 are instructions; the rest are steps of other agents, which reach the machine through State.agenda. -/
inductive Instr
  /-- NOP (R167). -/
  | nop (x : NopArgs)
  /-- BRA (R156). -/
  | bra (x : BraArgs)
  /-- BRX (R157). -/
  | brx (x : BrxArgs)
  /-- CALL (R159). -/
  | call (x : CallArgs)
  /-- CALX (R158). -/
  | calx (x : CalxArgs)
  /-- RET (R158). -/
  | ret (x : BrxArgs)
  /-- EXIT (R160). -/
  | exit (x : BareArgs)
  /-- RCV (R161). -/
  | rcv (x : RcvArgs)
  /-- SETW (R165). -/
  | setw (x : SetwArgs)
  /-- PYLD (R166). -/
  | pyld (x : DestArgs)
  /-- LOOP (R162). -/
  | loop (x : LoopArgs)
  /-- IADD (R169). -/
  | iadd (x : AluArgs)
  /-- ISUB (R169). -/
  | isub (x : AluArgs)
  /-- IADDC (R170). -/
  | iaddc (x : CarryArgs)
  /-- ISUBB (R170). -/
  | isubb (x : CarryArgs)
  /-- IMUL (R169). -/
  | imul (x : AluArgs)
  /-- IMULH (R169). -/
  | imulh (x : AluArgs)
  /-- IMAD (R169). -/
  | imad (x : AluArgs)
  /-- IDIV (R171). -/
  | idiv (x : AluArgs)
  /-- IREM (R171). -/
  | irem (x : AluArgs)
  /-- IABS (R169). -/
  | iabs (x : AluArgs)
  /-- INEG (R169). -/
  | ineg (x : AluArgs)
  /-- IMIN (R169). -/
  | imin (x : AluArgs)
  /-- IMAX (R169). -/
  | imax (x : AluArgs)
  /-- ISAD (R169). -/
  | isad (x : AluArgs)
  /-- ICLAMP (R169). -/
  | iclamp (x : AluArgs)
  /-- MOV (R172). -/
  | mov (x : AluArgs)
  /-- MOVI (R172). -/
  | movi (x : MoviArgs)
  /-- IADD_IMM (R63). -/
  | iaddImm (x : ImmArgs)
  /-- ISUB_IMM (R63). -/
  | isubImm (x : ImmArgs)
  /-- IMUL_IMM (R63). -/
  | imulImm (x : ImmArgs)
  /-- IMIN_IMM (R63). -/
  | iminImm (x : ImmArgs)
  /-- IMAX_IMM (R63). -/
  | imaxImm (x : ImmArgs)
  /-- MOV_IMM (R80). -/
  | movImm (x : ImmArgs)
  /-- AND_IMM (R63). -/
  | andImm (x : ImmArgs)
  /-- OR_IMM (R63). -/
  | orImm (x : ImmArgs)
  /-- XOR_IMM (R63). -/
  | xorImm (x : ImmArgs)
  /-- SHL_IMM (R63). -/
  | shlImm (x : ImmArgs)
  /-- SHR_IMM (R63). -/
  | shrImm (x : ImmArgs)
  /-- SRA_IMM (R63). -/
  | sraImm (x : ImmArgs)
  /-- ROTL_IMM (R63). -/
  | rotlImm (x : ImmArgs)
  /-- AND (R174). -/
  | andB (x : AluArgs)
  /-- OR (R174). -/
  | orB (x : AluArgs)
  /-- XOR (R174). -/
  | xorB (x : AluArgs)
  /-- NOT (R174). -/
  | notB (x : AluArgs)
  /-- BFN (R175). -/
  | bfn (x : BfnArgs)
  /-- SHL (R174). -/
  | shl (x : AluArgs)
  /-- SHR (R174). -/
  | shr (x : AluArgs)
  /-- SRA (R174). -/
  | sra (x : AluArgs)
  /-- ROTL (R174). -/
  | rotl (x : AluArgs)
  /-- POPC (R174). -/
  | popc (x : AluArgs)
  /-- CLZ (R174). -/
  | clz (x : AluArgs)
  /-- CTZ (R174). -/
  | ctz (x : AluArgs)
  /-- BREV (R174). -/
  | brev (x : AluArgs)
  /-- BEXT (R176). -/
  | bext (x : AluArgs)
  /-- BINS (R176). -/
  | bins (x : AluArgs)
  /-- BSEL (R174). -/
  | bsel (x : AluArgs)
  /-- ICMP (R178). -/
  | icmp (x : CmpArgs)
  /-- FCMP (R179). -/
  | fcmp (x : CmpArgs)
  /-- FCLASS (R180). -/
  | fclass (x : AluArgs)
  /-- SEL (R181). -/
  | sel (x : SelArgs)
  /-- KOP (R182). -/
  | kop (x : KopArgs)
  /-- KMOV (R183). -/
  | kmov (x : KmovArgs)
  /-- FADD (R189). -/
  | fadd (x : AluArgs)
  /-- FSUB (R189). -/
  | fsub (x : AluArgs)
  /-- FMUL (R189). -/
  | fmul (x : AluArgs)
  /-- FMA (R189). -/
  | fma (x : AluArgs)
  /-- FMIN (R190). -/
  | fmin (x : AluArgs)
  /-- FMAX (R190). -/
  | fmax (x : AluArgs)
  /-- FABS (R191). -/
  | fabs (x : AluArgs)
  /-- FNEG (R191). -/
  | fneg (x : AluArgs)
  /-- FCLAMP (R190). -/
  | fclamp (x : AluArgs)
  /-- FRCP (R189). -/
  | frcp (x : AluArgs)
  /-- FRSQ (R189). -/
  | frsq (x : AluArgs)
  /-- FSQRT (R189). -/
  | fsqrt (x : AluArgs)
  /-- FDIV (R189). -/
  | fdiv (x : AluArgs)
  /-- FDOT2 (R192). -/
  | fdot2 (x : AluArgs)
  /-- FRND (R193). -/
  | frnd (x : AluArgs)
  /-- DADD (R195). -/
  | dadd (x : AluArgs)
  /-- DSUB (R195). -/
  | dsub (x : AluArgs)
  /-- DMUL (R195). -/
  | dmul (x : AluArgs)
  /-- DFMA (R195). -/
  | dfma (x : AluArgs)
  /-- DMIN (R195). -/
  | dmin (x : AluArgs)
  /-- DMAX (R195). -/
  | dmax (x : AluArgs)
  /-- DDIV (R195). -/
  | ddiv (x : AluArgs)
  /-- DSQRT (R195). -/
  | dsqrt (x : AluArgs)
  /-- FEX2 (R196). -/
  | fex2 (x : AluArgs)
  /-- FLG2 (R196). -/
  | flg2 (x : AluArgs)
  /-- FSIN (R196). -/
  | fsin (x : AluArgs)
  /-- FCOS (R196). -/
  | fcos (x : AluArgs)
  /-- FTANH (R196). -/
  | ftanh (x : AluArgs)
  /-- CVT (R198). -/
  | cvt (x : CvtArgs)
  /-- FPK (R200). -/
  | fpk (x : FpkArgs)
  /-- FUPK (R201). -/
  | fupk (x : FupkArgs)
  /-- BFQ (R202). -/
  | bfq (x : AluArgs)
  /-- BFD (R203). -/
  | bfd (x : AluArgs)
  /-- ESCL (R204). -/
  | escl (x : EsclArgs)
  /-- SHFL (R206). -/
  | shfl (x : ShflArgs)
  /-- VOTE (R208). -/
  | vote (x : VoteArgs)
  /-- BALLOT (R209). -/
  | ballot (x : BallotArgs)
  /-- REDX (R211). -/
  | redx (x : RedArgs)
  /-- SCAN (R211). -/
  | scan (x : RedArgs)
  /-- MATCH (R210). -/
  | matchL (x : AluArgs)
  /-- BCAST (R207). -/
  | bcast (x : AluArgs)
  /-- REGROUP (R213). -/
  | regroup (x : RegroupArgs)
  /-- LQ (R219). -/
  | lq (x : MemArgs)
  /-- LA (R221). -/
  | la (x : MemArgs)
  /-- SA (R223). -/
  | sa (x : MemArgs)
  /-- SD (R224). -/
  | sd (x : MemArgs)
  /-- LSQ (R219). -/
  | lsq (x : MemArgs)
  /-- LSA (R221). -/
  | lsa (x : MemArgs)
  /-- SSA (R223). -/
  | ssa (x : MemArgs)
  /-- PF (R226). -/
  | pf (x : MemArgs)
  /-- RLQ (R228). -/
  | rlq (x : MemArgs)
  /-- LEA (R227). -/
  | lea (x : LeaArgs)
  /-- LEA_LONG (R227). -/
  | leaLong (x : LeaLongArgs)
  /-- QPUSH (R230). -/
  | qpush (x : QpushArgs)
  /-- QPOP (R231). -/
  | qpop (x : QpopArgs)
  /-- QPEEK (R231). -/
  | qpeek (x : QpeekArgs)
  /-- QEND (R230). -/
  | qend (x : QendArgs)
  /-- QSTAT (R233). -/
  | qstat (x : QstatArgs)
  /-- QDROP (R232). -/
  | qdrop (x : QdropArgs)
  /-- ATOM (R240). -/
  | atom (x : AtomArgs)
  /-- ACAS (R240). -/
  | acas (x : AcasArgs)
  /-- FENCE (R241). -/
  | fence (x : FenceArgs)
  /-- UPD (R242). -/
  | upd (x : UpdArgs)
  /-- UFLUSH (R246). -/
  | uflush (x : RangeArgs)
  /-- UBIND (R247). -/
  | ubind (x : BindArgs)
  /-- UUNBIND (R248). -/
  | uunbind (x : BindArgs)
  /-- CINV (R249). -/
  | cinv (x : RangeArgs)
  /-- CWB (R249). -/
  | cwb (x : RangeArgs)
  /-- STLD (R255). -/
  | stld (x : StampArgs)
  /-- STSP (R255). -/
  | stsp (x : StampArgs)
  /-- STINV (R256). -/
  | stinv (x : StampArgs)
  /-- MMA (R262). -/
  | mma (x : MmaArgs)
  /-- MMAC (R263). -/
  | mmac (x : MmaArgs)
  /-- MSCA (R265). -/
  | msca (x : MscaArgs)
  /-- MZERO (R266). -/
  | mzero (x : MzeroArgs)
  /-- MRD (R267). -/
  | mrd (x : MrdArgs)
  /-- MRDX (R268). -/
  | mrdx (x : MrdxArgs)
  /-- MRMAX (R269). -/
  | mrmax (x : MredArgs)
  /-- MRSUM (R269). -/
  | mrsum (x : MredArgs)
  /-- MST (R270). -/
  | mst (x : MrdArgs)
  /-- MFLAG (R271). -/
  | mflag (x : MflagArgs)
  /-- SMX (R272). -/
  | smx (x : SmxArgs)
  /-- KVMAP (R275). -/
  | kvmap (x : KvArgs)
  /-- KVAPP (R277). -/
  | kvapp (x : KvArgs)
  /-- KVACC (R278). -/
  | kvacc (x : KvArgs)
  /-- KVSEL (R279). -/
  | kvsel (x : KvArgs)
  /-- KVPACK (R280). -/
  | kvpack (x : KvArgs)
  /-- KVSCL (R274). -/
  | kvscl (x : KvsclArgs)
  /-- XPOST (R286). -/
  | xpost (x : XpostArgs)
  /-- XGATH (R289). -/
  | xgath (x : XgathArgs)
  /-- XSTAT (R288). -/
  | xstat (x : XstatArgs)
  /-- XCP (R291). -/
  | xcp (x : XcpArgs)
  /-- XTWAIT (R293). -/
  | xtwait (x : XtwaitArgs)
  /-- BINIT (R295). -/
  | binit (x : BinitArgs)
  /-- BARR (R296). -/
  | barr (x : BarrArgs)
  /-- BWAIT (R297). -/
  | bwait (x : BwaitArgs)
  /-- BYLD (R298). -/
  | byld (x : BwaitArgs)
  /-- CBAR (R300). -/
  | cbar (x : BareArgs)
  /-- EMIT (R301). -/
  | emit (x : EmitArgs)
  /-- WQPOP (R302). -/
  | wqpop (x : WqArgs)
  /-- WQSTEAL (R303). -/
  | wqsteal (x : WqArgs)
  /-- TRAP (R307). -/
  | trap (x : TrapArgs)
  /-- TFENCE (R308). -/
  | tfence (x : BareArgs)
  /-- RTE (R309). -/
  | rte (x : BareArgs)
  /-- RDS (R310). -/
  | rds (x : RdsArgs)
  /-- WRS (R311). -/
  | wrs (x : WrsArgs)
  /-- BRK (R307). -/
  | brk (x : TrapArgs)
  /-- ICINV (R313). -/
  | icinv (x : RangeArgs)
  /-- ISYNC (R312). -/
  | isync (x : BareArgs)
  /-- PAIR_WORD (R68). -/
  | pairWord (x : PairArgs)
  /-- LOAD_VALUE_ARRIVAL (R219). -/
  | loadValueArrival (crew pair load lane : Nat) (err : Bool)
  /-- STORE_PAIRING (R223). -/
  | storePairing (crew pair q : Nat)
  /-- STORE_QUEUE_DRAIN (R222). -/
  | storeQueueDrain (crew pair : Nat)
  /-- MISS_REJECTION_AGED (R350). -/
  | missRejectionAged (crew pair : Nat)
  /-- COMMAND_ACCEPTANCE (R286). -/
  | commandAcceptance (core : Nat)
  /-- ENGINE_ROW_FINISH (R135); `r` and `data` are what the fabric answers a row of a remote read, and nothing to any other row. -/
  | engineRowFinish (core cmd row : Nat) (r : RemoteResult) (data : List Byte)
  /-- REMOTE_WRITE_ACK (R331). -/
  | remoteWriteAck (core cmd row : Nat) (r : RemoteResult)
  /-- REMOTE_REPLY (R228). -/
  | remoteReply (crew pair load lane : Nat) (r : RemoteResult) (data : W64)
  /-- REMOTE_TIMEOUT (R456). -/
  | remoteTimeout (r : RemoteRef)
  /-- REMOTE_REQUEST (R455). -/
  | remoteRequest (r : RemoteReq)
  /-- XCP_COMPLETE (R292). -/
  | xcpComplete (crew pair idx : Nat)
  /-- UPDATE_ACCEPT (R363). -/
  | updateAccept (crew pair : Nat)
  /-- CONTINUATION_PACK (R385). -/
  | continuationPack (core deque : Nat)
  /-- CLOCK_GATE (R386). -/
  | clockGate (core : Nat)
  /-- CORE_WAKE (R387). -/
  | coreWake (core : Nat) (reason : BitVec 4)
  /-- UNIT_BOOST (R383). -/
  | unitBoost (u : UnitRef)
  /-- PREEMPTION_REQUEST (R389). -/
  | preemptionRequest (queue : Nat)
  /-- DEADLINE_EXPIRY (R388). -/
  | deadlineExpiry (crew : Nat)
  /-- CREW_SAVE (R411). -/
  | crewSave (crew : Nat)
  /-- CREW_RESUME (R417). -/
  | crewResume (crew : Nat)
  /-- CREW_PLACEMENT (R381). -/
  | crewPlacement (queue : Nat)
  /-- MACHINE_CHECK_DELIVERY (R408). -/
  | machineCheckDelivery (u : UnitRef)
  /-- PATROL_READ (R367). -/
  | patrolRead (p : PatrolUnit)
  /-- BANK_FAIL_MARK (R347). -/
  | bankFailMark (core bank : Nat)
  /-- LAUNCH (R376). -/
  | launch (queue : Nat)
  /-- EVENT_WAIT (R376). -/
  | eventWait (queue : Nat)
  /-- EVENT_WAIT_POLL (R376). -/
  | eventWaitPoll (queue : Nat)
  /-- EVENT_WRITE (R376). -/
  | eventWrite (queue : Nat)
  /-- NO_OP_RECORD (R375). -/
  | noOpRecord (queue : Nat)
  /-- LAUNCH_COMPLETION (R335). -/
  | launchCompletion (queue : Nat)
  /-- QUEUE_SWITCH_IN (R377). -/
  | queueSwitchIn (queue : Nat)
  /-- QUEUE_SWITCH_OUT (R377). -/
  | queueSwitchOut (queue : Nat)
  /-- TAIL (R373). -/
  | tailW (queue : Nat) (val : W64)
  /-- CFG (R370). -/
  | cfgW (queue : Nat) (val : W64)
  /-- HOLD (R390). -/
  | holdW (queue : Nat)
  /-- REL (R390). -/
  | relW (queue : Nat)
  /-- CLR (R375). -/
  | clrW (queue : Nat)
  /-- MAILBOX_QUERY (R436). -/
  | mailboxQuery
  /-- MAILBOX_LOAD (R436). -/
  | mailboxLoad
  /-- MAILBOX_UNLOAD (R441). -/
  | mailboxUnload
  /-- MAILBOX_EVICT (R441). -/
  | mailboxEvict
  /-- TRANSLATION_INVALIDATE (R451). -/
  | translationInvalidate (ctl : W64)
  /-- INVALIDATION_COMPLETE (R362). -/
  | invalidationComplete
  /-- DEBUG_HALT (R422). -/
  | debugHalt (ctx : Nat) (cmd : W64)
  /-- DEBUG_RESUME (R422). -/
  | debugResume (ctx : Nat) (cmd : W64)
  /-- DEBUG_STEP (R423). -/
  | debugStep (ctx : Nat) (cmd : W64)
  /-- DEBUG_READ (R424). -/
  | debugRead (ctx : Nat) (cmd : W64)
  /-- DEBUG_WRITE (R424). -/
  | debugWrite (ctx : Nat) (cmd : W64)
  /-- FAULT_CLEAR (R399). -/
  | faultClear (ctx : Nat)
  /-- MCHECK_CLEAR (R399). -/
  | mcheckClear (ctx : Nat)
  /-- CONTEXT_ENTRY_WRITE (R450). -/
  | contextEntryWrite (ctx : Nat) (off : Nat) (val : W64)
  /-- INJECTION_REGISTER_WRITE (R369). -/
  | injectionRegisterWrite (block : Nat) (val : W64)
  /-- FAILED_BANK_MASK_WRITE (R368). -/
  | failedBankMaskWrite (core : Nat) (mask : W32)
  /-- DOMAIN_ID_WRITE (R452). -/
  | domainIdWrite (val : W64)
  /-- ASTAT_CLEAR (R448). -/
  | astatClear
  /-- FUSE_RAISE (R464). -/
  | fuseRaise
  /-- REGISTER_WRITE (R448). -/
  | registerWrite (off : Nat) (val : W64)
  /-- GO (R460). -/
  | goW (val : W64)
  /-- POWER_ON (R460). -/
  | powerOn
  /-- CXL_RESET (R460). -/
  | cxlReset
  /-- CONVENTIONAL_RESET (R460). -/
  | conventionalReset
  /-- THERMAL_TRIP (R466). -/
  | thermalTrip
  /-- THROTTLE (R465). -/
  | throttle (power tj : Nat)
  /-- HOST_MEM_READ (R338). -/
  | hostMemRead (addr len : Nat)
  /-- HOST_MEM_WRITE (R338). -/
  | hostMemWrite (addr : Nat) (data : List Byte)
  /-- PORT_DOWN (R454). -/
  | portDown (port : Nat)
  /-- MATRIX_PASS (R264). -/
  | matrixPass (core bank : Nat)
  /-- SPDM_REQUEST (R462). -/
  | spdmRequest (r : SpdmReq)
  /-- POWER_LOSS (R460). -/
  | powerLoss
  deriving DecidableEq, Repr

end Sys2Proof
end

