-- ==== Sys2Proof/Machine/Shapes.lean ====
section
/-! DEFINITION. The operand kinds and modifier sets each encoding shape accepts (Tables 6.1 to 10.5), stated once for the decoder, the well-formedness check and the register checks. -/
namespace Sys2Proof

/-- What one operand field may name. -/
inductive OpKind
  /-- any register, latch or queue -/
  | src
  /-- any register or queue -/
  | dst
  /-- any register -/
  | reg
  /-- a v or an a register -/
  | per
  /-- a v or an a register, or a queue -/
  | perQ
  /-- an s or a c register -/
  | uni
  /-- a queue -/
  | queue
  /-- any register or a latch -/
  | regL
  deriving DecidableEq, Repr

def Opnd.isUniform : Opnd → Bool
  | .s _ | .c _ => true
  | _ => false

def Opnd.isPer : Opnd → Bool
  | .v _ | .a _ => true
  | _ => false

def Opnd.isQueue : Opnd → Bool
  | .q _ => true
  | _ => false

def Opnd.isLatch : Opnd → Bool
  | .l _ => true
  | _ => false

def Opnd.isNone : Opnd → Bool
  | .none => true
  | _ => false

/-- Table 2.3: the operand codes that each slice has. -/
def Opnd.inSlice (sl : Slice) : Opnd → Bool
  | .none => true
  | .q _ => true
  | .v _ | .l _ | .s _ => sl == .execute
  | .a _ | .c _ => sl == .access

def OpKind.ok : OpKind → Opnd → Bool
  | .src, o => !o.isNone
  | .dst, o => o.isPer || o.isUniform || o.isQueue
  | .reg, o => o.isPer || o.isUniform
  | .per, o => o.isPer
  | .perQ, o => o.isPer || o.isQueue
  | .uni, o => o.isUniform
  | .queue, o => o.isQueue
  | .regL, o => o.isPer || o.isUniform || o.isLatch

/-- One operand field is legal: its kind is accepted, its slice has it, and an execute-slice queue is no 64-bit operand (R57, R58, R152). -/
def opOk (sl : Slice) (k : OpKind) (wide : Bool) (o : Opnd) : Bool :=
  k.ok o && o.inSlice sl && !(wide && o.isQueue && sl == .execute)

/-- R59: a uniform destination needs uniform register sources. -/
def uniformOk (d : Opnd) (srcs : List Opnd) : Bool :=
  !d.isUniform || srcs.all (fun o => o.isNone || o.isUniform)

/-- R58: nwb is refused in the access slice. -/
def nwbOk (sl : Slice) (nwb : Bool) : Bool := !nwb || sl == .execute

/-- Types of 64 bits. -/
def Ty.wide : Ty → Bool
  | .s64 | .z64 | .b64 | .f64 => true
  | _ => false

/-- Whether one operand of a shape is taken at the type's width. -/
inductive Width
  | narrow
  | byType
  | wide
  deriving DecidableEq, Repr

/-- The default type that code 0x00 selects (R62). -/
inductive Dflt
  | int
  | bits
  | f32
  | f64
  | none
  deriving DecidableEq, Repr

def Dflt.ty (sl : Slice) : Dflt → Ty
  | .int => if sl = .access then .s64 else .s32
  | .bits => if sl = .access then .b64 else .b32
  | .f32 => .f32
  | .f64 => .f64
  | .none => .dflt

/-- R62: the type in force. -/
def Ty.resolve (sl : Slice) (d : Dflt) (t : Ty) : Ty := if t = .dflt then d.ty sl else t

def Width.isWide (w : Width) (t : Ty) : Bool :=
  match w with
  | .narrow => false
  | .byType => t.wide
  | .wide => true

/-- One instruction of the common layout of groups 1 to 7: operands, their kinds and widths, and the modifiers it accepts. -/
structure AluShape where
  arity : Nat
  tys : List Ty
  dflt : Dflt
  rnd : Bool
  ftz : Bool
  flag : Bool
  dk : OpKind
  dw : Width
  aw : Width
  bw : Width
  cw : Width
  /-- mod[8:0] is a zero modifier field and no operand position (R177) -/
  zeroMod : Bool
  deriving DecidableEq, Repr

def tysI : List Ty := [.dflt, .s32, .z32, .s64, .z64]
def tysS : List Ty := [.dflt, .s32, .s64]
def tysB : List Ty := [.dflt, .b32, .b64]
def tysIB : List Ty := [.dflt, .s32, .z32, .s64, .z64, .b32, .b64]
def tysF : List Ty := [.dflt, .f32, .f16, .bf16, .f64]
def tysH : List Ty := [.dflt, .f32, .f16, .bf16, .f16x2, .bf16x2]
def tysD : List Ty := [.dflt, .f64]
def tysR : List Ty := [.dflt, .f32]
def tysM : List Ty := [.m2, .m3, .m4, .m5, .m6, .m7, .m8]

/-- Integer operations of Table 6.3. -/
def shInt (arity : Nat) (sat : Bool) : AluShape :=
  { arity := arity, tys := tysI, dflt := .int, rnd := false, ftz := false, flag := sat, dk := .dst,
    dw := .byType, aw := .byType, bw := .byType, cw := .byType, zeroMod := false }

/-- `iabs` and `ineg`. -/
def shIntS : AluShape := { shInt 1 true with tys := tysS }

/-- `mov`. -/
def shMov : AluShape := { shInt 1 false with tys := tysIB, dflt := .bits }

/-- Bit operations of Table 6.5. -/
def shBits (arity : Nat) : AluShape := { shInt arity false with tys := tysB, dflt := .bits }

/-- Shifts and `rotl`, whose count is a 32-bit operand (R174). A queue as the count in the access slice is accepted and popped, which R174 leaves open (DESIGN CHOICE, log 76). -/
def shShift : AluShape := { shBits 2 with bw := .narrow }

/-- `bext`, with .sx (R176). -/
def shBext : AluShape := { shBits 2 with bw := .narrow, flag := true }

/-- `bins` (R176). -/
def shBins : AluShape := { shBits 3 with cw := .narrow }

/-- `fclass` (R180). -/
def shFclass : AluShape :=
  { shInt 1 false with tys := tysF, dflt := .f32, dw := .narrow, zeroMod := true }

/-- Group 4 operations of Table 7.1. -/
def shF (arity : Nat) (rnd : Bool) : AluShape :=
  { shInt arity false with tys := tysH, dflt := .f32, rnd := rnd, ftz := true }

/-- `fdot2` (R192): the flag chooses .bf16x2. -/
def shFdot2 : AluShape := { shF 3 true with tys := tysR, flag := true }

/-- `frnd` (R193): the flag is .x. -/
def shFrnd : AluShape := { shF 1 true with flag := true }

/-- Group 5 FP64 operations of Table 7.2. -/
def shD (arity : Nat) (rnd : Bool) : AluShape := { shF arity rnd with tys := tysD, dflt := .f64 }

/-- `bfq` (R202): d is a v register or a queue. -/
def shBfq : AluShape :=
  { shF 1 false with tys := tysM, dflt := .none, dk := .perQ }

/-- `bfd` (R203). -/
def shBfd : AluShape := { shF 1 false with tys := tysM, dflt := .none, ftz := false }

/-- `match` (R210): d is a per-thread mask operand. -/
def shMatch : AluShape := { shBits 1 with dk := .per, dw := .wide }

/-- `bcast` (R207): b is a uniform 32-bit index, absent under .first; d is per-thread. -/
def shBcast (first : Bool) : AluShape :=
  { shBits (if first then 1 else 2) with dk := .perQ, bw := .narrow, flag := true }

/-- The operands of an instruction of the common layout are legal. -/
def AluShape.operandsOk (sh : AluShape) (sl : Slice) (bk : OpKind) (t : Ty) (nwb : Bool) (d a b c : Opnd) : Bool :=
  opOk sl sh.dk (sh.dw.isWide t) d && opOk sl .src (sh.aw.isWide t) a
    && (if 2 ≤ sh.arity then opOk sl bk (sh.bw.isWide t) b else b.isNone)
    && (if 3 ≤ sh.arity then opOk sl .src (sh.cw.isWide t) c else c.isNone)
    && uniformOk d [a, b, c] && nwbOk sl nwb

/-- The modifiers of an instruction of the common layout are legal (R56, R61). -/
def AluShape.modsOk (sh : AluShape) (t : Ty) (r : Rnd) (ftz flag : Bool) : Bool :=
  sh.tys.contains t && (sh.rnd || r == .rn) && (sh.ftz || !ftz) && (sh.flag || !flag)

/-- Classes of `cvt` types in Table 7.5: 0 wide float, 1 narrow float, 2 integer, 3 never accepted. -/
def Ty.cvtClass : Ty → Nat
  | .f64 | .f32 | .f16 | .bf16 => 0
  | .e5m2 | .e4m3 | .e3m2 | .e2m3 | .e2m1 => 1
  | .s8 | .s16 | .s32 | .s64 | .z8 | .z16 | .z32 | .z64 => 2
  | _ => 3

/-- R198, Table 7.5: accepted conversions with their modifiers. -/
def cvtOk (dt st : Ty) (ftz sat : Bool) : Bool :=
  let x := dt.cvtClass
  let y := st.cvtClass
  x < 3 && y < 3 && !(x == 1 && y == 2) && !(x == 2 && y == 1)
    && (!sat || (x == 2 && y == 2)) && (!ftz || x < 2 || y < 2)

/-- Table 7.6: elements per register, 0 for a type not in the table. -/
def Ty.elems : Ty → Nat
  | .f16 | .bf16 => 2
  | .e5m2 | .e4m3 | .e3m2 | .e2m3 => 4
  | .e2m1 => 8
  | _ => 0

/-- Table 7.8: operation and type pairs of `redx` and `scan`. -/
def redOk (op : RedOp) (t : Ty) (ftz : Bool) : Bool :=
  match op with
  | .add | .min | .max =>
    [Ty.dflt, .f32, .f16, .bf16, .f64, .s32, .z32, .s64, .z64].contains t
      && (!ftz || [Ty.dflt, .f32, .f16, .bf16, .f64].contains t)
  | _ => [Ty.dflt, .b32, .b64].contains t && !ftz

/-- R211: the type in force of `redx` and `scan`. -/
def redTy (op : RedOp) (t : Ty) : Ty :=
  if t = .dflt then (match op with | .add | .min | .max => .f32 | _ => .b32) else t

/-- What Table 8.3 allows one group 8 instruction. -/
structure MemShape where
  dk : Option OpKind
  vk : Option OpKind
  wide : Bool
  word : Bool
  ords : List Ord
  x : Bool
  ro : Bool
  deriving DecidableEq, Repr

def mshLq : MemShape := ⟨some .queue, none, false, false, [.none, .acq], true, true⟩
def mshLa : MemShape := ⟨some .reg, none, true, false, [.none, .acq], false, true⟩
def mshSa : MemShape := ⟨none, some .queue, false, false, [.none, .rel], false, false⟩
def mshSd : MemShape := ⟨none, some .reg, true, false, [.none, .rel], true, false⟩
def mshLsq : MemShape := ⟨some .queue, none, false, false, [.none, .acq], false, false⟩
def mshLsa : MemShape := ⟨some .reg, none, true, false, [.none, .acq], false, false⟩
def mshPf : MemShape := ⟨none, none, false, true, [.none], true, false⟩
def mshRlq : MemShape := ⟨some .queue, some .reg, false, false, [.none], false, false⟩

def optOk (sl : Slice) (k : Option OpKind) (o : Opnd) : Bool :=
  match k with
  | none => o.isNone
  | some k => opOk sl k false o

/-- Operands of a group 8 instruction; a uniform destination needs a uniform base (R218). -/
def MemShape.operandsOk (sh : MemShape) (d base v : Opnd) : Bool :=
  optOk .access sh.dk d && opOk .access .reg false base && optOk .access sh.vk v
    && uniformOk d [base]

/-- R214: size, ordering, scope and hints accepted. -/
def MemShape.modsOk (sh : MemShape) (sz : Size) (o : Ord) (sc : Scope) (x ro : Bool) : Bool :=
  (if sh.word then sz == .b32 else (sh.wide || sz != .b64)) && sh.ords.contains o
    && (o != .none || sc == .thread) && (sh.x || !x) && (sh.ro || !ro)

/-- R239: min and max are refused on .b types. -/
def atomOk (op : AtomOp) (t : AtomTy) : Bool :=
  match op, t with
  | .min, .b32 | .min, .b64 | .max, .b32 | .max, .b64 => false
  | _, _ => true

/-- The eight B formats of Table 9.1. -/
def MFmt.isB : MFmt → Bool
  | .m2 | .m4 | .m8 | .e4m3 | .e5m2 | .e3m2 | .e2m3 | .e2m1 => true
  | _ => false

/-- Table 9.6: registers of a read-out type, 0 when not in the table. -/
def Ty.readRegs : Ty → Nat
  | .dflt | .f32 => 8
  | .f16x2 | .bf16x2 => 4
  | .e4m3 | .e5m2 => 2
  | _ => 0

/-- A v register whose number is a multiple of m. -/
def Opnd.vMultiple (m : Nat) : Opnd → Bool
  | .v n => n.toNat % m == 0
  | _ => false

/-- Table 2.8: the types a pair opcode's pmod selects. -/
def PairOp.tyOk (p : PairOp) (t : Ty) (ftz : Bool) : Bool :=
  match p with
  | .iadd | .isub | .imin | .imax => (t == .s32 || t == .z32) && !ftz
  | .fadd | .fsub | .fmul | .fmin | .fmax => t == .f32 || t == .f16x2 || t == .bf16x2
  | _ => t == .b32 && !ftz

/-- The instructions of the common layout (Tables 6.3, 6.5, 7.1, 7.2 and their kin): opcode (Table 2.10), shape and arguments. `bcast` stands apart because its arity hangs on its flag. -/
def Instr.alu : Instr → Option (Nat × AluShape × AluArgs)
  | .iadd x => some (0x040, shInt 2 true, x)
  | .isub x => some (0x041, shInt 2 true, x)
  | .imul x => some (0x044, shInt 2 false, x)
  | .imulh x => some (0x045, shInt 2 false, x)
  | .imad x => some (0x046, shInt 3 false, x)
  | .idiv x => some (0x047, shInt 2 false, x)
  | .irem x => some (0x048, shInt 2 false, x)
  | .iabs x => some (0x049, shIntS, x)
  | .ineg x => some (0x04A, shIntS, x)
  | .imin x => some (0x04B, shInt 2 false, x)
  | .imax x => some (0x04C, shInt 2 false, x)
  | .isad x => some (0x04D, shInt 3 false, x)
  | .iclamp x => some (0x04E, shInt 3 false, x)
  | .mov x => some (0x04F, shMov, x)
  | .andB x => some (0x080, shBits 2, x)
  | .orB x => some (0x081, shBits 2, x)
  | .xorB x => some (0x082, shBits 2, x)
  | .notB x => some (0x083, shBits 1, x)
  | .shl x => some (0x085, shShift, x)
  | .shr x => some (0x086, shShift, x)
  | .sra x => some (0x087, shShift, x)
  | .rotl x => some (0x088, shShift, x)
  | .popc x => some (0x089, shBits 1, x)
  | .clz x => some (0x08A, shBits 1, x)
  | .ctz x => some (0x08B, shBits 1, x)
  | .brev x => some (0x08C, shBits 1, x)
  | .bext x => some (0x08D, shBext, x)
  | .bins x => some (0x08E, shBins, x)
  | .bsel x => some (0x08F, shBits 3, x)
  | .fclass x => some (0x0C2, shFclass, x)
  | .fadd x => some (0x100, shF 2 true, x)
  | .fsub x => some (0x101, shF 2 true, x)
  | .fmul x => some (0x102, shF 2 true, x)
  | .fma x => some (0x103, shF 3 true, x)
  | .fmin x => some (0x104, shF 2 false, x)
  | .fmax x => some (0x105, shF 2 false, x)
  | .fabs x => some (0x106, shF 1 false, x)
  | .fneg x => some (0x107, shF 1 false, x)
  | .fclamp x => some (0x108, shF 3 false, x)
  | .frcp x => some (0x109, shF 1 true, x)
  | .frsq x => some (0x10A, shF 1 true, x)
  | .fsqrt x => some (0x10B, shF 1 true, x)
  | .fdiv x => some (0x10C, shF 2 true, x)
  | .fdot2 x => some (0x10D, shFdot2, x)
  | .frnd x => some (0x10E, shFrnd, x)
  | .dadd x => some (0x140, shD 2 true, x)
  | .dsub x => some (0x141, shD 2 true, x)
  | .dmul x => some (0x142, shD 2 true, x)
  | .dfma x => some (0x143, shD 3 true, x)
  | .dmin x => some (0x144, shD 2 false, x)
  | .dmax x => some (0x145, shD 2 false, x)
  | .ddiv x => some (0x146, shD 2 true, x)
  | .dsqrt x => some (0x147, shD 1 true, x)
  | .fex2 x => some (0x148, shF 1 false, x)
  | .flg2 x => some (0x149, shF 1 false, x)
  | .fsin x => some (0x14A, shF 1 false, x)
  | .fcos x => some (0x14B, shF 1 false, x)
  | .ftanh x => some (0x14C, shF 1 false, x)
  | .bfq x => some (0x183, shBfq, x)
  | .bfd x => some (0x184, shBfd, x)
  | .matchL x => some (0x1C5, shMatch, x)
  | .bcast x => some (0x1C6, shBcast x.flag, x)
  | _ => none

/-- The same table read from the opcode, without `bcast`. -/
def aluCtor : Nat → Option (AluShape × (AluArgs → Instr))
  | 0x040 => some (shInt 2 true, .iadd)
  | 0x041 => some (shInt 2 true, .isub)
  | 0x044 => some (shInt 2 false, .imul)
  | 0x045 => some (shInt 2 false, .imulh)
  | 0x046 => some (shInt 3 false, .imad)
  | 0x047 => some (shInt 2 false, .idiv)
  | 0x048 => some (shInt 2 false, .irem)
  | 0x049 => some (shIntS, .iabs)
  | 0x04A => some (shIntS, .ineg)
  | 0x04B => some (shInt 2 false, .imin)
  | 0x04C => some (shInt 2 false, .imax)
  | 0x04D => some (shInt 3 false, .isad)
  | 0x04E => some (shInt 3 false, .iclamp)
  | 0x04F => some (shMov, .mov)
  | 0x080 => some (shBits 2, .andB)
  | 0x081 => some (shBits 2, .orB)
  | 0x082 => some (shBits 2, .xorB)
  | 0x083 => some (shBits 1, .notB)
  | 0x085 => some (shShift, .shl)
  | 0x086 => some (shShift, .shr)
  | 0x087 => some (shShift, .sra)
  | 0x088 => some (shShift, .rotl)
  | 0x089 => some (shBits 1, .popc)
  | 0x08A => some (shBits 1, .clz)
  | 0x08B => some (shBits 1, .ctz)
  | 0x08C => some (shBits 1, .brev)
  | 0x08D => some (shBext, .bext)
  | 0x08E => some (shBins, .bins)
  | 0x08F => some (shBits 3, .bsel)
  | 0x0C2 => some (shFclass, .fclass)
  | 0x100 => some (shF 2 true, .fadd)
  | 0x101 => some (shF 2 true, .fsub)
  | 0x102 => some (shF 2 true, .fmul)
  | 0x103 => some (shF 3 true, .fma)
  | 0x104 => some (shF 2 false, .fmin)
  | 0x105 => some (shF 2 false, .fmax)
  | 0x106 => some (shF 1 false, .fabs)
  | 0x107 => some (shF 1 false, .fneg)
  | 0x108 => some (shF 3 false, .fclamp)
  | 0x109 => some (shF 1 true, .frcp)
  | 0x10A => some (shF 1 true, .frsq)
  | 0x10B => some (shF 1 true, .fsqrt)
  | 0x10C => some (shF 2 true, .fdiv)
  | 0x10D => some (shFdot2, .fdot2)
  | 0x10E => some (shFrnd, .frnd)
  | 0x140 => some (shD 2 true, .dadd)
  | 0x141 => some (shD 2 true, .dsub)
  | 0x142 => some (shD 2 true, .dmul)
  | 0x143 => some (shD 3 true, .dfma)
  | 0x144 => some (shD 2 false, .dmin)
  | 0x145 => some (shD 2 false, .dmax)
  | 0x146 => some (shD 2 true, .ddiv)
  | 0x147 => some (shD 1 true, .dsqrt)
  | 0x148 => some (shF 1 false, .fex2)
  | 0x149 => some (shF 1 false, .flg2)
  | 0x14A => some (shF 1 false, .fsin)
  | 0x14B => some (shF 1 false, .fcos)
  | 0x14C => some (shF 1 false, .ftanh)
  | 0x183 => some (shBfq, .bfq)
  | 0x184 => some (shBfd, .bfd)
  | 0x1C5 => some (shMatch, .matchL)
  | _ => none

/-- Group 8 instructions of Table 8.3. -/
def Instr.mem : Instr → Option (Nat × MemShape × MemArgs)
  | .lq x => some (0x200, mshLq, x)
  | .la x => some (0x201, mshLa, x)
  | .sa x => some (0x202, mshSa, x)
  | .sd x => some (0x203, mshSd, x)
  | .lsq x => some (0x204, mshLsq, x)
  | .lsa x => some (0x205, mshLsa, x)
  | .ssa x => some (0x206, mshSa, x)
  | .pf x => some (0x207, mshPf, x)
  | .rlq x => some (0x208, mshRlq, x)
  | _ => none

/-- Table 8.3 read from the opcode. -/
def memCtor : Nat → Option (MemShape × (MemArgs → Instr))
  | 0x200 => some (mshLq, .lq)
  | 0x201 => some (mshLa, .la)
  | 0x202 => some (mshSa, .sa)
  | 0x203 => some (mshSd, .sd)
  | 0x204 => some (mshLsq, .lsq)
  | 0x205 => some (mshLsa, .lsa)
  | 0x206 => some (mshSa, .ssa)
  | 0x207 => some (mshPf, .pf)
  | 0x208 => some (mshRlq, .rlq)
  | _ => none

/-- Immediate variants of Table 2.12. -/
def Instr.imm : Instr → Option (Nat × ImmArgs)
  | .iaddImm x => some (0x060, x)
  | .isubImm x => some (0x061, x)
  | .imulImm x => some (0x064, x)
  | .iminImm x => some (0x06B, x)
  | .imaxImm x => some (0x06C, x)
  | .movImm x => some (0x06F, x)
  | .andImm x => some (0x0A0, x)
  | .orImm x => some (0x0A1, x)
  | .xorImm x => some (0x0A2, x)
  | .shlImm x => some (0x0A5, x)
  | .shrImm x => some (0x0A6, x)
  | .sraImm x => some (0x0A7, x)
  | .rotlImm x => some (0x0A8, x)
  | _ => none

/-- Table 2.12 read from the opcode. -/
def immCtor : Nat → Option (ImmArgs → Instr)
  | 0x060 => some .iaddImm
  | 0x061 => some .isubImm
  | 0x064 => some .imulImm
  | 0x06B => some .iminImm
  | 0x06C => some .imaxImm
  | 0x06F => some .movImm
  | 0x0A0 => some .andImm
  | 0x0A1 => some .orImm
  | 0x0A2 => some .xorImm
  | 0x0A5 => some .shlImm
  | 0x0A6 => some .shrImm
  | 0x0A7 => some .sraImm
  | 0x0A8 => some .rotlImm
  | _ => none

/-- Table 2.11: of the common layout, `fclass` and groups 4 to 6 run in the execute slice only. -/
def aluExecuteOnly (op : Nat) : Bool := op == 0x0C2 || (0x100 ≤ op && op < 0x1C0)

/-- Whether an instruction of the common layout runs in the execute slice only. -/
def Instr.executeOnly (i : Instr) : Bool :=
  match i.alu with
  | some (op, _, _) => aluExecuteOnly op
  | none => false

end Sys2Proof
end

