-- ==== Sys2Proof/WellFormed.lean ====
section
/-! DEFINITION. Which instruction terms are well formed in a slice: exactly those an encoding can name and the decode checks of R77 on operands and modifiers accept. -/
namespace Sys2Proof

/-- A guard that is not the never-execute guard (R71). -/
def Guard.live (g : Guard) : Bool := !(g.neg && g.k == 0)

/-- The guard of a crew-collective (R72), of `rcv` (R161) and of `rte` (R305). -/
def Guard.isK0 (g : Guard) : Bool := !g.neg && g.k == 0

def AluArgs.wf (sl : Slice) (sh : AluShape) (bk : OpKind) (x : AluArgs) : Bool :=
  x.g.live && sh.operandsOk sl bk (x.ty.resolve sl sh.dflt) x.nwb x.d x.a x.b x.c
    && sh.modsOk x.ty x.rnd x.ftz x.flag

def MemArgs.wf (sl : Slice) (sh : MemShape) (x : MemArgs) : Bool :=
  sl == .access && x.g.live && sh.operandsOk x.d x.base x.v && sh.modsOk x.sz x.ord x.scope x.x x.ro

def ImmArgs.wf (sl : Slice) (mov : Bool) (x : ImmArgs) : Bool :=
  x.g.live && opOk sl .dst false x.d
    && (if mov then x.a.isNone else opOk sl .src false x.a)
    && uniformOk x.d [x.a] && nwbOk sl x.nwb

/-- A register destination with its nwb bit. -/
def destOk (sl : Slice) (k : OpKind) (wide nwb : Bool) (d : Opnd) (srcs : List Opnd) : Bool :=
  opOk sl k wide d && uniformOk d srcs && nwbOk sl nwb

def KmovArgs.wf (sl : Slice) (x : KmovArgs) : Bool :=
  x.g.live && tysB.contains x.ty &&
  match x.form with
  | .toReg nwb d kn =>
    destOk sl .dst (x.ty.resolve sl .bits).wide nwb d [] && (!d.isUniform || kn == 0)
  | .ofReg a _ => opOk sl .src (x.ty.resolve sl .bits).wide a
  | .copy _ _ _ => true

def CmpArgs.wf (sl : Slice) (tys : List Ty) (df : Dflt) (ftz : Bool) (x : CmpArgs) : Bool :=
  x.g.live && opOk sl .src (x.ty.resolve sl df).wide x.a && opOk sl .src (x.ty.resolve sl df).wide x.b
    && tys.contains x.ty && (ftz || !x.ftz)

/-- R200: the destination of `fpk` to a format of n elements a register: a queue only for formats of two, and of those outside Table 7.6, whose type code is refused later. -/
def fpkDest (n : Nat) : OpKind := if n = 2 ∨ n = 0 then .dst else .reg

/-- The special registers of Table 1.4 that are 64 bits wide. -/
def wideSpecial (n : BitVec 8) : Bool := [0x12, 0x18, 0x1C, 0x1D, 0x21, 0x22, 0x23, 0x24].contains n.toNat

/-- An index passes the checks of R44 that come before any other of `rds` (R310): Table 1.4 has it, and this slice has the register. -/
def specialHere (sl : Slice) (n : BitVec 8) : Bool :=
  match n.toNat with
  | 0x10 | 0x11 => sl == .execute
  | 0x1D => sl == .access
  | n => decide (n ≤ 9) || decide (0x12 ≤ n ∧ n ≤ 0x14) || n == 0x18 || n == 0x1C || decide (0x20 ≤ n ∧ n ≤ 0x26)

/-- R152, R310: where `rds` may write: no queue in the access slice, nor for a 64-bit register in the execute slice; an index that R44 refuses is refused first (log 89). -/
def rdsDest (sl : Slice) (n : BitVec 8) : OpKind := if specialHere sl n = false ∨ (sl = .execute ∧ wideSpecial n = false) then .dst else .reg

def AcasArgs.wf (x : AcasArgs) : Bool :=
  x.g.live && opOk .access .uni false x.d && opOk .access .uni false x.base
    && opOk .access .uni false x.cmp && opOk .access .uni false x.new

def PairSlot.wf (x : PairSlot) : Bool := x.op.tyOk x.ty x.ftz

/-- R69: the slots' d registers, and their b registers, lie in different banks. -/
def PairArgs.banksOk (x : PairArgs) : Bool :=
  x.s0.d.toNat % 4 != x.s1.d.toNat % 4 && x.s0.b.toNat % 4 != x.s1.b.toNat % 4

/-- Well-formedness of an instruction in a slice; an event row has no encoding, so it is not well formed as an instruction. Register counts (R31), pair alignment and queue roles (R41) hang on a warp's declarations and are checked in Decode. -/
def Instr.wf (sl : Slice) (i : Instr) : Bool :=
  match i with
  | .nop x => !x.long || !x.g.live
  | .bra x => x.g.live
  | .brx x | .ret x => x.g.live && opOk sl .regL true x.t
  | .call x => x.g.live && destOk sl .reg true x.nwb x.link []
  | .calx x => x.g.live && destOk sl .reg true x.nwb x.link [x.t] && opOk sl .regL true x.t
  | .exit x | .tfence x | .isync x => x.g.live
  | .cbar x | .rte x => x.g.isK0
  | .rcv x => x.g.isK0
  | .setw x => x.g.isK0 && destOk sl .reg false x.nwb x.d []
  | .pyld x => x.g.isK0 && destOk sl .reg false x.nwb x.d []
  | .loop x => x.g.live && destOk sl .reg false x.nwb x.x [x.x]
  | .iaddc x | .isubb x =>
    x.g.live && destOk sl .dst (x.ty.resolve sl .int).wide x.nwb x.d [x.a, x.b]
      && opOk sl .src (x.ty.resolve sl .int).wide x.a && opOk sl .src (x.ty.resolve sl .int).wide x.b
      && tysI.contains x.ty && (x.cin || x.ki == 0)
  | .movi x => x.g.live && destOk sl .dst (x.ty.resolve sl .bits).wide x.nwb x.d [] && tysB.contains x.ty
  | .bfn x =>
    x.g.live && destOk sl .reg (x.ty.resolve sl .bits).wide x.nwb x.d [x.a, x.b]
      && opOk sl .src (x.ty.resolve sl .bits).wide x.a && opOk sl .src (x.ty.resolve sl .bits).wide x.b
      && tysB.contains x.ty
  | .icmp x => x.wf sl tysI .int false && x.cc != .ord && x.cc != .unord
  | .fcmp x => sl == .execute && x.wf sl tysF .f32 true
  | .sel x =>
    x.g.live && destOk sl .dst (x.ty.resolve sl .bits).wide x.nwb x.d [x.a, x.b]
      && opOk sl .src (x.ty.resolve sl .bits).wide x.a && opOk sl .src (x.ty.resolve sl .bits).wide x.b
      && tysIB.contains x.ty && (!x.d.isUniform || x.kn == 0)
  | .kop x => x.g.live
  | .kmov x => x.wf sl
  | .cvt x =>
    sl == .execute && x.g.live && destOk sl .dst x.ty.wide x.nwb x.d [x.a] && opOk sl .src x.st.wide x.a
      && cvtOk x.ty x.st x.ftz x.sat
  | .fpk x =>
    sl == .execute && x.g.live
      && destOk sl (fpkDest x.ty.elems) false x.nwb x.d [x.a, x.b]
      && opOk sl .src false x.a && opOk sl .src false x.b
      && (if x.ty.elems = 2 then x.j == 0 else decide (2 * x.j.toNat < x.ty.elems))
  | .fupk x =>
    sl == .execute && x.g.live && destOk sl .dst false x.nwb x.d [x.a] && opOk sl .src false x.a
      && decide (x.j.toNat < x.ty.elems)
  | .escl x =>
    sl == .execute && x.g.live && destOk sl .dst false x.nwb x.d [x.a, x.b] && opOk sl .src false x.a
      && (if x.op = .get then x.b.isNone && x.rnd == .rn else opOk sl .src false x.b)
      && (x.op != .mul || (x.rnd == .rn && !x.ftz)) && tysR.contains x.ty
  | .shfl x =>
    x.g.live && destOk sl .perQ (x.ty.resolve sl .bits).wide x.nwb x.d [x.a, x.b]
      && opOk sl .src (x.ty.resolve sl .bits).wide x.a && opOk sl .src false x.b && tysB.contains x.ty
  | .vote x => x.g.live
  | .ballot x => x.g.live && destOk sl .reg true x.nwb x.d []
  | .redx x =>
    sl == .execute && x.g.live && destOk sl .perQ (redTy x.op x.ty).wide x.nwb x.d [x.a]
      && opOk sl .src (redTy x.op x.ty).wide x.a && redOk x.op x.ty x.ftz && !x.excl
  | .scan x =>
    sl == .execute && x.g.live && destOk sl .perQ (redTy x.op x.ty).wide x.nwb x.d [x.a]
      && opOk sl .src (redTy x.op x.ty).wide x.a && redOk x.op x.ty x.ftz
  | .regroup x =>
    x.g.isK0 && destOk sl .per false x.nwb x.d []
      && (if sl = .execute then opOk sl .per false x.key && opOk sl .uni true x.live
          else x.key.isNone && opOk sl .uni false x.live)
  | .lea x =>
    sl == .access && x.g.live && opOk sl .reg false x.d && opOk sl .reg false x.base && uniformOk x.d [x.base]
  | .leaLong x =>
    sl == .access && x.g.live && opOk sl .reg false x.d && opOk sl .reg false x.base && uniformOk x.d [x.base]
  | .qpush x =>
    x.g.live && opOk sl .queue false x.qd && opOk sl .reg false x.v && nwbOk sl x.nwb
      && (x.en || (!x.neg && x.kt == 0))
  | .qpop x => x.g.live && destOk sl .per false x.nwb x.d [] && opOk sl .queue false x.q
  | .qpeek x => x.g.live && destOk sl .per false x.nwb x.d []
  | .qend x =>
    x.g.live && opOk sl .queue false x.qd && (x.v.isNone || opOk sl .reg false x.v) && nwbOk sl x.nwb
  | .qstat x => x.g.live && destOk sl .reg false x.nwb x.d []
  | .qdrop x => x.g.live && (!x.all || x.cnt == 0)
  | .atom x =>
    sl == .access && x.g.live && opOk sl .uni false x.d && opOk sl .uni false x.base
      && opOk sl .uni false x.v && atomOk x.op x.ty
  | .acas x => sl == .access && x.wf
  | .fence x => x.g.live && x.sem != .none
  | .upd x => sl == .access && x.g.live && opOk sl .reg false x.base && opOk sl .dst false x.v
  | .uflush x | .cinv x =>
    sl == .access && x.g.live && opOk sl .reg false x.base && opOk sl .reg false x.len && !x.flag
  | .cwb x => sl == .access && x.g.live && opOk sl .reg false x.base && opOk sl .reg false x.len
  | .icinv x =>
    x.g.live && (if x.flag then x.base.isNone && x.len.isNone
      else opOk sl .reg true x.base && opOk sl .reg true x.len)
  | .ubind x => sl == .access && x.g.live && opOk sl .uni false x.base
  | .uunbind x => sl == .access && x.g.live && x.base.isNone
  | .stld x | .stsp x => sl == .execute && x.g.live && opOk sl .uni false x.off
  | .stinv x => sl == .execute && x.g.live && x.off.isNone
  | .mma x | .mmac x =>
    sl == .execute && x.g.live && (x.a.isQueue || x.a.vMultiple 4) && opOk sl .reg false x.klen && x.fb.isB
  | .msca x => sl == .execute && x.g.live && opOk sl .dst false x.e
  | .mzero x => sl == .execute && x.g.live && (x.pm != 0 || x.mm != 0)
  | .mrd x => sl == .execute && x.g.live && x.d.vMultiple x.ty.readRegs && x.ty.readRegs != 0
  | .mst x => sl == .execute && x.g.live && x.d.isQueue && tysR.contains x.ty && !x.clr
  | .mrdx x =>
    sl == .execute && x.g.live && x.d.vMultiple 8 && opOk sl .dst false x.c && opOk sl .dst false x.r
      && tysR.contains x.ty
  | .mrmax x | .mrsum x => sl == .execute && x.g.live && opOk sl .perQ false x.d
  | .mflag x => sl == .execute && x.g.live && opOk sl .per false x.d
  | .smx x =>
    sl == .execute && x.g.live && opOk sl .per true x.d && opOk sl .dst false x.rold
      && opOk sl .perQ false x.mx && opOk sl .reg false x.c && tysR.contains x.ty
  | .kvmap x =>
    sl == .access && x.g.live && opOk sl .reg false x.d && opOk sl .reg false x.h && opOk sl .reg false x.b
      && x.w.isNone && uniformOk x.d [x.h, x.b]
  | .kvapp x | .kvpack x =>
    sl == .access && x.g.live && x.d.isNone && opOk sl .uni false x.h && opOk sl .uni false x.b && x.w.isNone
  | .kvacc x =>
    sl == .access && x.g.live && x.d.isNone && opOk sl .reg false x.h && opOk sl .reg false x.b
      && opOk sl .dst false x.w
  | .kvsel x =>
    sl == .access && x.g.live && opOk sl .reg false x.d && opOk sl .uni false x.h && x.b.isNone && x.w.isNone
  | .kvscl x =>
    sl == .execute && x.g.live && destOk sl .perQ false x.nwb x.d [x.a] && opOk sl .per false x.a
      && opOk sl .per false x.e && [Ty.dflt, .m8].contains x.ty
  | .xpost x => sl == .access && x.g.live && opOk sl .reg false x.base
  | .xgath x => sl == .access && x.g.live && opOk sl .per false x.a
  | .xstat x => sl == .access && x.g.live && opOk sl .reg false x.d
  | .xcp x =>
    sl == .access && x.g.live && opOk sl .per false x.d && opOk sl .per false x.s && opOk sl .reg false x.n
  | .xtwait x => sl == .access && x.g.live
  | .binit x => x.g.live && opOk sl .uni false x.b && (x.mode == .arrivals || x.exp == 0)
  | .barr x => x.g.live && opOk sl .uni false x.b && x.n != 0
  | .bwait x => x.g.live && opOk sl .uni false x.b && x.t.isNone
  | .byld x => x.g.live && opOk sl .uni false x.b && opOk sl .uni true x.t
  | .emit x =>
    sl == .access && x.g.live && opOk sl .reg false x.e && opOk sl .reg false x.fh && decide (x.n.toNat ≤ 9)
  | .wqpop x =>
    sl == .access && x.g.live && (match x.d with | .a n => decide (n.toNat ≤ 8) | _ => false) && x.c.isNone
  | .wqsteal x =>
    sl == .access && x.g.live && (match x.d with | .a n => decide (n.toNat ≤ 8) | _ => false)
      && opOk sl .reg false x.c
  | .trap x | .brk x => x.g.live
  | .rds x => x.g.live && opOk sl (rdsDest sl x.idx) false x.d && nwbOk sl x.nwb
  | .wrs x => x.g.live && opOk sl .reg false x.a
  | .pairWord x => sl == .execute && x.s0.wf && x.s1.wf && x.banksOk
  | .bcast x => x.wf sl (shBcast x.flag) .uni
  | i =>
    match i.alu, i.mem, i.imm with
    | some (_, sh, x), _, _ => (sl == .execute || !i.executeOnly) && x.wf sl sh .src
    | _, some (_, sh, x), _ => x.wf sl sh
    | _, _, some (op, x) => x.wf sl (op == 0x06F)
    | _, _, _ => false

end Sys2Proof
end

