-- ==== Sys2Proof/Decode.lean ====
section
/-! DEFINITION. The decoder of R77, total on any words, and after it the encoder written from the same encoding tables; the register and queue-role checks; the word numbering of the opcode table. -/
namespace Sys2Proof

/-- Why decode refuses a word: the causes of 02, in the names of Table 14.1. -/
inductive DecodeErr
  | reservedForm
  | illegalOpcode
  | wrongSlice
  | guardOnCollective
  | illegalOperand
  | illegalModifier
  | illegalPair
  | pairBankConflict
  | registerBeyondCount
  | misalignedPair
  | queueDirection
  deriving DecidableEq, Repr

abbrev Dec := Except DecodeErr

def need (b : Bool) (e : DecodeErr) : Dec Unit := if b then .ok () else .error e

def getOpt {α : Type} (x : Option α) (e : DecodeErr) : Dec α :=
  match x with
  | some y => .ok y
  | none => .error e

/-! ### The fields of a full word (Table 2.2) -/

structure Fields where
  op : BitVec 10
  neg : Bool
  gk : BitVec 4
  nwb : Bool
  dest : BitVec 9
  srca : BitVec 9
  srcb : BitVec 9
  mod : BitVec 19
  deriving DecidableEq, Repr

def Fields.ofWord (w : W64) : Fields :=
  { op := w.extractLsb' 52 10, neg := w.getLsbD 51, gk := w.extractLsb' 47 4, nwb := w.getLsbD 46,
    dest := w.extractLsb' 37 9, srca := w.extractLsb' 28 9, srcb := w.extractLsb' 19 9,
    mod := w.extractLsb' 0 19 }

def bit (b : Bool) : BitVec 1 := BitVec.ofBool b

/-- The word of form `form` that holds the fields f. -/
def Fields.word (form : BitVec 2) (f : Fields) : W64 :=
  form ++ f.op ++ bit f.neg ++ f.gk ++ bit f.nwb ++ f.dest ++ f.srca ++ f.srcb ++ f.mod

def Fields.guard (f : Fields) : Guard := ⟨f.neg, f.gk⟩

/-- Bits hi-from-lo of mod. -/
def Fields.m (f : Fields) (lo w : Nat) : BitVec w := f.mod.extractLsb' lo w

def Fields.flag (f : Fields) (i : Nat) : Bool := f.mod.getLsbD i

/-- The 28-bit immediate or displacement in place of srcb and mod (R55, R64). -/
def Fields.imm (f : Fields) : BitVec 28 := f.srcb ++ f.mod

/-! ### Codes -/

/-- Table 2.3, read. -/
def Opnd.ofCode (sl : Slice) (code : BitVec 9) : Option Opnd :=
  let n := code.toNat
  if 0x110 ≤ n ∧ n < 0x120 then some (.q (code.extractLsb' 0 4))
  else
    match sl with
    | .execute =>
      if n < 0x100 then some (.v (code.extractLsb' 0 8))
      else if n < 0x104 then some (.l (code.extractLsb' 0 2))
      else if 0x140 ≤ n ∧ n < 0x180 then some (.s (code.extractLsb' 0 6))
      else none
    | .access =>
      if n < 0x10 then some (.a (code.extractLsb' 0 4))
      else if 0x140 ≤ n ∧ n < 0x150 then some (.c (code.extractLsb' 0 4))
      else none

/-- Table 2.3, written; an unused field is zero. -/
def Opnd.code : Opnd → BitVec 9
  | .none => 0
  | .v n => (0 : BitVec 1) ++ n
  | .l n => (0x40 : BitVec 7) ++ n
  | .q n => (0x11 : BitVec 5) ++ n
  | .s n => (0x5 : BitVec 3) ++ n
  | .a n => (0 : BitVec 5) ++ n
  | .c n => (0x14 : BitVec 5) ++ n

def Ty.code : Ty → BitVec 5
  | .dflt => 0x00 | .s8 => 0x01 | .s16 => 0x02 | .s32 => 0x03 | .s64 => 0x04
  | .z8 => 0x05 | .z16 => 0x06 | .z32 => 0x07 | .z64 => 0x08 | .b32 => 0x09 | .b64 => 0x0A
  | .f16 => 0x0B | .bf16 => 0x0C | .f32 => 0x0D | .f64 => 0x0E
  | .e4m3 => 0x0F | .e5m2 => 0x10 | .e3m2 => 0x11 | .e2m3 => 0x12 | .e2m1 => 0x13 | .e8 => 0x14
  | .m2 => 0x15 | .m3 => 0x16 | .m4 => 0x17 | .m5 => 0x18 | .m6 => 0x19 | .m7 => 0x1A | .m8 => 0x1B
  | .f16x2 => 0x1C | .bf16x2 => 0x1D

/-- Table 2.5, read; 0x1E and 0x1F are reserved. -/
def Ty.ofCode (c : BitVec 5) : Option Ty :=
  match c.toNat with
  | 0x00 => some .dflt | 0x01 => some .s8 | 0x02 => some .s16 | 0x03 => some .s32 | 0x04 => some .s64
  | 0x05 => some .z8 | 0x06 => some .z16 | 0x07 => some .z32 | 0x08 => some .z64
  | 0x09 => some .b32 | 0x0A => some .b64
  | 0x0B => some .f16 | 0x0C => some .bf16 | 0x0D => some .f32 | 0x0E => some .f64
  | 0x0F => some .e4m3 | 0x10 => some .e5m2 | 0x11 => some .e3m2 | 0x12 => some .e2m3
  | 0x13 => some .e2m1 | 0x14 => some .e8
  | 0x15 => some .m2 | 0x16 => some .m3 | 0x17 => some .m4 | 0x18 => some .m5
  | 0x19 => some .m6 | 0x1A => some .m7 | 0x1B => some .m8
  | 0x1C => some .f16x2 | 0x1D => some .bf16x2
  | _ => none

def Rnd.code : Rnd → BitVec 2
  | .rn => 0 | .rz => 1 | .rd => 2 | .ru => 3

def Rnd.ofCode (c : BitVec 2) : Rnd :=
  match c.toNat with
  | 0 => .rn | 1 => .rz | 2 => .rd | _ => .ru

def Cond.code : Cond → BitVec 3
  | .eq => 0 | .ne => 1 | .lt => 2 | .le => 3 | .gt => 4 | .ge => 5 | .ord => 6 | .unord => 7

def Cond.ofCode (c : BitVec 3) : Cond :=
  match c.toNat with
  | 0 => .eq | 1 => .ne | 2 => .lt | 3 => .le | 4 => .gt | 5 => .ge | 6 => .ord | _ => .unord

def Size.code : Size → BitVec 3
  | .b32 => 0 | .z8 => 1 | .s8 => 2 | .z16 => 3 | .s16 => 4 | .b64 => 5 | .s32 => 6

def Size.ofCode (c : BitVec 3) : Option Size :=
  match c.toNat with
  | 0 => some .b32 | 1 => some .z8 | 2 => some .s8 | 3 => some .z16 | 4 => some .s16
  | 5 => some .b64 | 6 => some .s32 | _ => none

def Ord.code : Ord → BitVec 2
  | .none => 0 | .acq => 1 | .rel => 2 | .ar => 3

def Ord.ofCode (c : BitVec 2) : Ord :=
  match c.toNat with
  | 0 => .none | 1 => .acq | 2 => .rel | _ => .ar

def Scope.bits : Scope → BitVec 3
  | .thread => 0 | .warp => 1 | .crew => 2 | .cluster => 3 | .die => 4 | .domain => 5

def Scope.ofBits (c : BitVec 3) : Option Scope :=
  match c.toNat with
  | 0 => some .thread | 1 => some .warp | 2 => some .crew | 3 => some .cluster
  | 4 => some .die | 5 => some .domain | _ => none

/-- A format codes of Table 9.1. -/
def MFmt.codeA : MFmt → BitVec 4
  | .m2 => 0 | .m3 => 1 | .m4 => 2 | .m5 => 3 | .m6 => 4 | .m7 => 5 | .m8 => 6
  | .e4m3 => 7 | .e5m2 => 8 | .e3m2 => 9 | .e2m3 => 10 | .e2m1 => 11

def MFmt.ofCodeA (c : BitVec 4) : Option MFmt :=
  match c.toNat with
  | 0 => some .m2 | 1 => some .m3 | 2 => some .m4 | 3 => some .m5 | 4 => some .m6 | 5 => some .m7
  | 6 => some .m8 | 7 => some .e4m3 | 8 => some .e5m2 | 9 => some .e3m2 | 10 => some .e2m3
  | 11 => some .e2m1 | _ => none

/-- B format codes of Table 9.1. -/
def MFmt.codeB : MFmt → BitVec 3
  | .m4 => 1 | .m8 => 2 | .e4m3 => 3 | .e5m2 => 4 | .e3m2 => 5 | .e2m3 => 6 | .e2m1 => 7
  | _ => 0

def MFmt.ofCodeB (c : BitVec 3) : MFmt :=
  match c.toNat with
  | 0 => .m2 | 1 => .m4 | 2 => .m8 | 3 => .e4m3 | 4 => .e5m2 | 5 => .e3m2 | 6 => .e2m3 | _ => .e2m1

def KopOp.code : KopOp → BitVec 2
  | .and => 0 | .or => 1 | .xor => 2 | .andn => 3

def KopOp.ofCode (c : BitVec 2) : KopOp :=
  match c.toNat with
  | 0 => .and | 1 => .or | 2 => .xor | _ => .andn

def ShflMode.code : ShflMode → BitVec 2
  | .idx => 0 | .up => 1 | .down => 2 | .xor => 3

def ShflMode.ofCode (c : BitVec 2) : ShflMode :=
  match c.toNat with
  | 0 => .idx | 1 => .up | 2 => .down | _ => .xor

def VoteMode.code : VoteMode → BitVec 2
  | .all => 0 | .any => 1 | .uni => 2

def VoteMode.ofCode (c : BitVec 2) : Option VoteMode :=
  match c.toNat with
  | 0 => some .all | 1 => some .any | 2 => some .uni | _ => none

def RedOp.code : RedOp → BitVec 3
  | .add => 0 | .min => 1 | .max => 2 | .and => 3 | .or => 4 | .xor => 5

def RedOp.ofCode (c : BitVec 3) : Option RedOp :=
  match c.toNat with
  | 0 => some .add | 1 => some .min | 2 => some .max | 3 => some .and | 4 => some .or
  | 5 => some .xor | _ => none

def EsclOp.code : EsclOp → BitVec 2
  | .get => 0 | .apply => 1 | .mul => 2

def EsclOp.ofCode (c : BitVec 2) : Option EsclOp :=
  match c.toNat with
  | 0 => some .get | 1 => some .apply | 2 => some .mul | _ => none

def AtomOp.code : AtomOp → BitVec 3
  | .add => 0 | .min => 1 | .max => 2 | .and => 3 | .or => 4 | .xor => 5 | .exch => 6

def AtomOp.ofCode (c : BitVec 3) : Option AtomOp :=
  match c.toNat with
  | 0 => some .add | 1 => some .min | 2 => some .max | 3 => some .and | 4 => some .or
  | 5 => some .xor | 6 => some .exch | _ => none

def AtomTy.code : AtomTy → BitVec 3
  | .b32 => 0 | .s32 => 1 | .z32 => 2 | .b64 => 3 | .s64 => 4 | .z64 => 5

def AtomTy.ofCode (c : BitVec 3) : Option AtomTy :=
  match c.toNat with
  | 0 => some .b32 | 1 => some .s32 | 2 => some .z32 | 3 => some .b64 | 4 => some .s64
  | 5 => some .z64 | _ => none

def BarMode.code : BarMode → BitVec 2
  | .bytes => 0 | .rows => 1 | .arrivals => 2

def BarMode.ofCode (c : BitVec 2) : Option BarMode :=
  match c.toNat with
  | 0 => some .bytes | 1 => some .rows | 2 => some .arrivals | _ => none

def Phase.code : Phase → BitVec 2
  | .recorded => 0 | .p0 => 2 | .p1 => 3

def Phase.ofCode (c : BitVec 2) : Option Phase :=
  match c.toNat with
  | 0 => some .recorded | 2 => some .p0 | 3 => some .p1 | _ => none

def PairOp.code : PairOp → BitVec 6
  | .mov => 0 | .iadd => 1 | .isub => 2 | .imin => 3 | .imax => 4 | .and => 5 | .or => 6 | .xor => 7
  | .shl => 8 | .shr => 9 | .sra => 10 | .fadd => 11 | .fsub => 12 | .fmul => 13 | .fmin => 14
  | .fmax => 15

def PairOp.ofCode (c : BitVec 6) : Option PairOp :=
  match c.toNat with
  | 0 => some .mov | 1 => some .iadd | 2 => some .isub | 3 => some .imin | 4 => some .imax
  | 5 => some .and | 6 => some .or | 7 => some .xor | 8 => some .shl | 9 => some .shr
  | 10 => some .sra | 11 => some .fadd | 12 => some .fsub | 13 => some .fmul | 14 => some .fmin
  | 15 => some .fmax | _ => none

/-- pmod of a pair slot (Table 2.8), read. -/
def pmodTy (op : PairOp) (p : BitVec 3) : Option (Ty × Bool) :=
  match op with
  | .iadd | .isub | .imin | .imax =>
    match p.toNat with
    | 0 => some (.s32, false)
    | 1 => some (.z32, false)
    | _ => none
  | .fadd | .fsub | .fmul | .fmin | .fmax =>
    match p.toNat with
    | 0 => some (.f32, false)
    | 1 => some (.f16x2, false)
    | 2 => some (.bf16x2, false)
    | 4 => some (.f32, true)
    | 5 => some (.f16x2, true)
    | 6 => some (.bf16x2, true)
    | _ => none
  | _ => if p = 0 then some (.b32, false) else none

/-- pmod of a pair slot, written. -/
def pmodCode (t : Ty) (ftz : Bool) : BitVec 3 :=
  let k : BitVec 2 := match t with | .z32 | .f16x2 => 1 | .bf16x2 => 2 | _ => 0
  bit ftz ++ k

/-! ### Operand fields -/

def getOpnd (sl : Slice) (code : BitVec 9) : Dec Opnd := getOpt (Opnd.ofCode sl code) .illegalOperand

/-- An operand field that must be one of a kind. -/
def getK (sl : Slice) (k : OpKind) (wide : Bool) (code : BitVec 9) : Dec Opnd :=
  match Opnd.ofCode sl code with
  | some o => if opOk sl k wide o then .ok o else .error .illegalOperand
  | none => .error .illegalOperand

/-- An operand field that must be zero (R56). -/
def getZ (code : BitVec 9) : Dec Opnd := if code = 0 then .ok .none else .error .illegalOperand

/-- Unused operand fields and an unused nwb bit are zero (R56). -/
def zeroOps (f : Fields) (d a b nwb : Bool) : Dec Unit :=
  need ((!d || f.dest == 0) && (!a || f.srca == 0) && (!b || f.srcb == 0) && (!nwb || !f.nwb)) .illegalOperand

/-- Bits of mod outside the used ones are zero (R56). -/
def modZero (f : Fields) (used : BitVec 19) : Dec Unit := need (f.mod &&& ~~~used == 0) .illegalModifier

/-- A destination field with its uniformity and nwb checks (R58, R59). -/
def getD (sl : Slice) (k : OpKind) (wide : Bool) (f : Fields) (srcs : List Opnd) : Dec Opnd := do
  let d ← getK sl k wide f.dest
  need (uniformOk d srcs && nwbOk sl f.nwb) .illegalOperand
  pure d

def fTy (f : Fields) : Option Ty := Ty.ofCode (f.m 14 5)
def fRnd (f : Fields) : Rnd := Rnd.ofCode (f.m 12 2)
def fFtz (f : Fields) : Bool := f.flag 11

/-- rnd and ftz zero (R61). -/
def noRound (f : Fields) : Bool := f.m 12 2 == 0 && !f.flag 11

/-! ### One decoder per encoding shape -/

def decAlu (sh : AluShape) (bk : OpKind) (sl : Slice) (f : Fields) : Dec AluArgs := do
  let t := ((fTy f).getD .dflt).resolve sl sh.dflt
  let d ← getOpnd sl f.dest
  let a ← getOpnd sl f.srca
  let b ← if 2 ≤ sh.arity then getOpnd sl f.srcb else getZ f.srcb
  let c ← if 3 ≤ sh.arity then getOpnd sl (f.m 0 9) else if sh.zeroMod then pure .none else getZ (f.m 0 9)
  need (sh.operandsOk sl bk t f.nwb d a b c) .illegalOperand
  let ty ← getOpt (fTy f) .illegalModifier
  need (sh.modsOk ty (fRnd f) (fFtz f) (f.flag 9) && !f.flag 10 && (!sh.zeroMod || f.m 0 9 == 0)) .illegalModifier
  pure ⟨f.guard, f.nwb, d, a, b, c, ty, fRnd f, fFtz f, f.flag 9⟩

def encAlu (op : Nat) (x : AluArgs) : Fields :=
  ⟨BitVec.ofNat 10 op, x.g.neg, x.g.k, x.nwb, x.d.code, x.a.code, x.b.code,
    x.ty.code ++ x.rnd.code ++ bit x.ftz ++ (0 : BitVec 1) ++ bit x.flag ++ x.c.code⟩

def decImm (sl : Slice) (mov : Bool) (f : Fields) : Dec ImmArgs := do
  let a ← if mov then getZ f.srca else getK sl .src false f.srca
  let d ← getD sl .dst false f [a]
  pure ⟨f.guard, f.nwb, d, a, f.imm⟩

def encImm (op : Nat) (x : ImmArgs) : Fields :=
  ⟨BitVec.ofNat 10 op, x.g.neg, x.g.k, x.nwb, x.d.code, x.a.code, x.imm.extractLsb' 19 9, x.imm.extractLsb' 0 19⟩

def getOptK (sl : Slice) (k : Option OpKind) (code : BitVec 9) : Dec Opnd :=
  match k with
  | some k => getK sl k false code
  | none => getZ code

def decMem (sh : MemShape) (f : Fields) : Dec MemArgs := do
  let d ← getOptK .access sh.dk f.dest
  let base ← getK .access .reg false f.srca
  let v ← getOptK .access sh.vk f.srcb
  need (sh.operandsOk d base v && !f.nwb) .illegalOperand
  let sz ← getOpt (Size.ofCode (f.m 16 3)) .illegalModifier
  let sc ← getOpt (Scope.ofBits (f.m 11 3)) .illegalModifier
  let od := Ord.ofCode (f.m 14 2)
  need (sh.modsOk sz od sc (f.flag 10) (f.flag 9)) .illegalModifier
  pure ⟨f.guard, d, base, v, sz, od, sc, f.flag 10, f.flag 9, f.m 0 9⟩

def encMem (op : Nat) (x : MemArgs) : Fields :=
  ⟨BitVec.ofNat 10 op, x.g.neg, x.g.k, false, x.d.code, x.base.code, x.v.code,
    x.sz.code ++ x.ord.code ++ x.scope.bits ++ bit x.x ++ bit x.ro ++ x.disp⟩

/-- Instructions with a guard alone. -/
def decBare (f : Fields) : Dec BareArgs := do
  zeroOps f true true true true
  modZero f 0
  pure ⟨f.guard⟩

/-- Fields that hold a guard and nothing else. -/
def Fields.bare (op : Nat) (g : Guard) : Fields := ⟨BitVec.ofNat 10 op, g.neg, g.k, false, 0, 0, 0, 0⟩

def encBare (op : Nat) (x : BareArgs) : Fields := Fields.bare op x.g

def decBra (f : Fields) : Dec BraArgs := do
  zeroOps f true true false true
  pure ⟨f.guard, f.imm⟩

def Fields.setImm (f : Fields) (i : BitVec 28) : Fields :=
  { f with srcb := i.extractLsb' 19 9, mod := i.extractLsb' 0 19 }

def decBrx (sl : Slice) (f : Fields) : Dec BrxArgs := do
  zeroOps f true false true true
  let t ← getK sl .regL true f.srca
  modZero f 0
  pure ⟨f.guard, t⟩

def decCall (sl : Slice) (f : Fields) : Dec CallArgs := do
  zeroOps f false true false false
  let l ← getD sl .reg true f []
  pure ⟨f.guard, f.nwb, l, f.imm⟩

def decCalx (sl : Slice) (f : Fields) : Dec CalxArgs := do
  zeroOps f false false true false
  let t ← getK sl .regL true f.srca
  let l ← getD sl .reg true f [t]
  modZero f 0
  pure ⟨f.guard, f.nwb, l, t⟩

def decRcv (f : Fields) : Dec RcvArgs := do
  zeroOps f true true true true
  need f.guard.isK0 .illegalOperand
  pure ⟨f.guard, f.mod⟩

def decSetw (sl : Slice) (f : Fields) : Dec SetwArgs := do
  zeroOps f false true true false
  let d ← getD sl .reg false f []
  modZero f 3
  pure ⟨f.guard, f.nwb, d, f.m 0 2⟩

/-- R166. A queue as d is refused as in `setw`; R166 does not say so (DESIGN CHOICE, log 76). -/
def decPyld (sl : Slice) (f : Fields) : Dec DestArgs := do
  zeroOps f false true true false
  let d ← getD sl .reg false f []
  modZero f 0
  pure ⟨f.guard, f.nwb, d⟩

def decLoop (sl : Slice) (f : Fields) : Dec LoopArgs := do
  need (f.dest == f.srca) .illegalOperand
  let x ← getK sl .reg false f.dest
  need (nwbOk sl f.nwb) .illegalOperand
  pure ⟨f.guard, f.nwb, x, f.imm⟩

/-- DESIGN CHOICE (log 88): a uniform d with an enabled per-thread carry-in other than k0 is accepted: R59 and R170 do not refuse it. -/
def decCarry (sl : Slice) (f : Fields) : Dec CarryArgs := do
  let w := (((fTy f).getD .dflt).resolve sl .int).wide
  let a ← getK sl .src w f.srca
  let b ← getK sl .src w f.srcb
  let d ← getD sl .dst w f [a, b]
  let ty ← getOpt (fTy f) .illegalModifier
  need (tysI.contains ty && noRound f && f.m 9 2 == 0 && (f.flag 8 || f.m 4 4 == 0)) .illegalModifier
  pure ⟨f.guard, f.nwb, d, a, b, ty, f.m 0 4, f.m 4 4, f.flag 8⟩

def encCarry (op : Nat) (x : CarryArgs) : Fields :=
  ⟨BitVec.ofNat 10 op, x.g.neg, x.g.k, x.nwb, x.d.code, x.a.code, x.b.code,
    x.ty.code ++ (0 : BitVec 5) ++ bit x.cin ++ x.ki ++ x.ko⟩

def decMovi (sl : Slice) (f : Fields) (ext : W64) : Dec MoviArgs := do
  zeroOps f false true true false
  let d ← getD sl .dst (((fTy f).getD .dflt).resolve sl .bits).wide f []
  need (f.m 0 9 == 0) .illegalOperand
  let ty ← getOpt (fTy f) .illegalModifier
  need (tysB.contains ty && noRound f && f.m 9 2 == 0) .illegalModifier
  pure ⟨f.guard, f.nwb, d, ty, ext⟩

def decBfn (sl : Slice) (f : Fields) : Dec BfnArgs := do
  let w := (((fTy f).getD .dflt).resolve sl .bits).wide
  let a ← getK sl .src w f.srca
  let b ← getK sl .src w f.srcb
  let d ← getD sl .reg w f [a, b]
  let ty ← getOpt (fTy f) .illegalModifier
  need (tysB.contains ty && noRound f && f.m 8 3 == 0) .illegalModifier
  pure ⟨f.guard, f.nwb, d, a, b, ty, f.m 0 8⟩

def decCmp (sl : Slice) (tys : List Ty) (df : Dflt) (flt : Bool) (f : Fields) : Dec CmpArgs := do
  zeroOps f true false false true
  let w := (((fTy f).getD .dflt).resolve sl df).wide
  let a ← getK sl .src w f.srca
  let b ← getK sl .src w f.srcb
  let ty ← getOpt (fTy f) .illegalModifier
  let cc := Cond.ofCode (f.m 4 3)
  need (tys.contains ty && f.m 12 2 == 0 && (flt || !fFtz f) && f.m 9 2 == 0 && f.m 7 2 == 0
    && (flt || (cc != .ord && cc != .unord))) .illegalModifier
  pure ⟨f.guard, a, b, ty, fFtz f, f.m 0 4, cc⟩

def encCmp (op : Nat) (x : CmpArgs) : Fields :=
  ⟨BitVec.ofNat 10 op, x.g.neg, x.g.k, false, 0, x.a.code, x.b.code,
    x.ty.code ++ (0 : BitVec 2) ++ bit x.ftz ++ (0 : BitVec 4) ++ x.cc.code ++ x.kd⟩

def decSel (sl : Slice) (f : Fields) : Dec SelArgs := do
  let w := (((fTy f).getD .dflt).resolve sl .bits).wide
  let a ← getK sl .src w f.srca
  let b ← getK sl .src w f.srcb
  let d ← getD sl .dst w f [a, b]
  need (!d.isUniform || f.m 0 4 == 0) .illegalOperand
  let ty ← getOpt (fTy f) .illegalModifier
  need (tysIB.contains ty && noRound f && f.m 4 7 == 0) .illegalModifier
  pure ⟨f.guard, f.nwb, d, a, b, ty, f.m 0 4⟩

def decKop (f : Fields) : Dec KopArgs := do
  zeroOps f true true true true
  modZero f 0x7FF
  pure ⟨f.guard, KopOp.ofCode (f.m 9 2), f.m 0 4, f.m 4 4, f.flag 8⟩

/-- R183, Table 6.8. 'Register d' and 'register a' are read as any destination and any source of R58, so queues are accepted in both places and a latch as a (DESIGN CHOICE, log 76). -/
def decKmov (sl : Slice) (f : Fields) : Dec KmovArgs := do
  let w := (((fTy f).getD .dflt).resolve sl .bits).wide
  let form ← match (f.m 9 2).toNat with
    | 0 => do
      zeroOps f false true true false
      let d ← getD sl .dst w f []
      need (!d.isUniform || f.m 0 4 == 0) .illegalOperand
      need (f.m 4 5 == 0) .illegalModifier
      pure (KmovForm.toReg f.nwb d (f.m 0 4))
    | 1 => do
      zeroOps f true false true true
      let a ← getK sl .src w f.srca
      need (f.m 4 5 == 0) .illegalModifier
      pure (KmovForm.ofReg a (f.m 0 4))
    | 2 => do
      zeroOps f true true true true
      pure (KmovForm.copy (f.m 0 4) (f.m 4 4) (f.flag 8))
    | _ => do
      zeroOps f false false true false
      .error .illegalModifier
  let ty ← getOpt (fTy f) .illegalModifier
  need (tysB.contains ty && noRound f) .illegalModifier
  pure ⟨f.guard, ty, form⟩

def encKmov (x : KmovArgs) : Fields :=
  match x.form with
  | .toReg nwb d kn =>
    ⟨0x0C5, x.g.neg, x.g.k, nwb, d.code, 0, 0, x.ty.code ++ (0 : BitVec 10) ++ kn⟩
  | .ofReg a kn =>
    ⟨0x0C5, x.g.neg, x.g.k, false, 0, a.code, 0, x.ty.code ++ (0 : BitVec 3) ++ (1 : BitVec 2) ++ (0 : BitVec 5) ++ kn⟩
  | .copy kd kn neg =>
    ⟨0x0C5, x.g.neg, x.g.k, false, 0, 0, 0,
      x.ty.code ++ (0 : BitVec 3) ++ (2 : BitVec 2) ++ bit neg ++ kn ++ kd⟩

def decCvt (sl : Slice) (f : Fields) : Dec CvtArgs := do
  zeroOps f false false true false
  let st? := Ty.ofCode (f.m 0 5)
  let a ← getK sl .src ((st?.getD .dflt).wide) f.srca
  let d ← getD sl .dst (((fTy f).getD .dflt).wide) f [a]
  let ty ← getOpt (fTy f) .illegalModifier
  let st ← getOpt st? .illegalModifier
  need (f.m 5 4 == 0 && !f.flag 10 && cvtOk ty st (fFtz f) (f.flag 9)) .illegalModifier
  pure ⟨f.guard, f.nwb, d, a, ty, st, fRnd f, fFtz f, f.flag 9⟩

def decFpk (sl : Slice) (f : Fields) : Dec FpkArgs := do
  let n := ((fTy f).getD .dflt).elems
  let a ← getK sl .src false f.srca
  let b ← getK sl .src false f.srcb
  let d ← getD sl (fpkDest n) false f [a, b]
  need (f.m 0 9 == 0) .illegalOperand
  let ty ← getOpt (fTy f) .illegalModifier
  let j : BitVec 2 := f.m 9 2
  need (if n = 2 then j == 0 else decide (2 * j.toNat < n)) .illegalModifier
  pure ⟨f.guard, f.nwb, d, a, b, ty, fRnd f, fFtz f, j⟩

def decFupk (sl : Slice) (f : Fields) : Dec FupkArgs := do
  zeroOps f false false true false
  let a ← getK sl .src false f.srca
  let d ← getD sl .dst false f [a]
  let ty ← getOpt (fTy f) .illegalModifier
  let j : BitVec 3 := f.m 0 3
  need (f.m 12 2 == 0 && f.m 3 8 == 0 && decide (j.toNat < ty.elems)) .illegalModifier
  pure ⟨f.guard, f.nwb, d, a, ty, fFtz f, j⟩

def decEscl (sl : Slice) (f : Fields) : Dec EsclArgs := do
  let get := f.m 9 2 == 0
  let a ← getK sl .src false f.srca
  let b ← if get then getZ f.srcb else getK sl .src false f.srcb
  let d ← getD sl .dst false f [a, b]
  need (f.m 0 9 == 0) .illegalOperand
  let ty ← getOpt (fTy f) .illegalModifier
  let op ← getOpt (EsclOp.ofCode (f.m 9 2)) .illegalModifier
  need (tysR.contains ty && (op != .get || fRnd f == .rn)
    && (op != .mul || (fRnd f == .rn && !fFtz f))) .illegalModifier
  pure ⟨f.guard, f.nwb, d, a, b, ty, fRnd f, fFtz f, op⟩

def decShfl (sl : Slice) (f : Fields) : Dec ShflArgs := do
  let w := (((fTy f).getD .dflt).resolve sl .bits).wide
  let a ← getK sl .src w f.srca
  let b ← getK sl .src false f.srcb
  let d ← getD sl .perQ w f [a, b]
  need (f.m 0 9 == 0) .illegalOperand
  let ty ← getOpt (fTy f) .illegalModifier
  need (tysB.contains ty && noRound f) .illegalModifier
  pure ⟨f.guard, f.nwb, d, a, b, ty, ShflMode.ofCode (f.m 9 2)⟩

def decVote (f : Fields) : Dec VoteArgs := do
  zeroOps f true true true true
  modZero f 0x7FF
  let md ← getOpt (VoteMode.ofCode (f.m 9 2)) .illegalModifier
  pure ⟨f.guard, md, f.m 0 4, f.m 4 4, f.flag 8⟩

def decBallot (sl : Slice) (f : Fields) : Dec BallotArgs := do
  zeroOps f false true true false
  let d ← getD sl .reg true f []
  modZero f 0x1F
  pure ⟨f.guard, f.nwb, d, f.m 0 4, f.flag 4⟩

def decRed (sl : Slice) (scan : Bool) (f : Fields) : Dec RedArgs := do
  zeroOps f false false true false
  let op? := RedOp.ofCode (f.m 0 3)
  let w := (redTy (op?.getD .add) ((fTy f).getD .dflt)).wide
  let a ← getK sl .src w f.srca
  let d ← getD sl .perQ w f [a]
  let ty ← getOpt (fTy f) .illegalModifier
  let op ← getOpt op? .illegalModifier
  need (redOk op ty (fFtz f) && f.m 12 2 == 0 && f.m 3 6 == 0 && !f.flag 10 && (scan || !f.flag 9)) .illegalModifier
  pure ⟨f.guard, f.nwb, d, a, ty, fFtz f, op, f.flag 9⟩

def encRed (op : Nat) (x : RedArgs) : Fields :=
  ⟨BitVec.ofNat 10 op, x.g.neg, x.g.k, x.nwb, x.d.code, x.a.code, 0,
    x.ty.code ++ (0 : BitVec 2) ++ bit x.ftz ++ (0 : BitVec 1) ++ bit x.excl ++ (0 : BitVec 6) ++ x.op.code⟩

/-- R212: the form must be the slice's own; the wrong one is an illegal modifier, found after the operands. -/
def decRegroup (sl : Slice) (f : Fields) : Dec RegroupArgs := do
  let keyed := !f.flag 9
  let key ← if keyed then getK sl .per false f.srca else getZ f.srca
  let live ← getK sl .uni keyed f.srcb
  let d ← getD sl .per false f []
  need (f.m 0 9 == 0) .illegalOperand
  modZero f 0x200
  need (keyed == (sl == .execute)) .illegalModifier
  pure ⟨f.guard, f.nwb, d, key, live⟩

def decLea (f : Fields) : Dec LeaArgs := do
  zeroOps f false false true true
  let b ← getK .access .reg false f.srca
  let d ← getD .access .reg false f [b]
  pure ⟨f.guard, d, b, f.mod⟩

def decLeaLong (f : Fields) (ext : W64) : Dec LeaLongArgs := do
  zeroOps f false false true true
  let b ← getK .access .reg false f.srca
  let d ← getD .access .reg false f [b]
  modZero f 0
  pure ⟨f.guard, d, b, ext⟩

def decQpush (sl : Slice) (f : Fields) : Dec QpushArgs := do
  zeroOps f false false true false
  let q ← getK sl .queue false f.dest
  let v ← getK sl .reg false f.srca
  need (nwbOk sl f.nwb) .illegalOperand
  modZero f 0x3F
  need (f.flag 5 || f.m 0 5 == 0) .illegalModifier
  pure ⟨f.guard, f.nwb, q, v, f.flag 5, f.flag 4, f.m 0 4⟩

def decQpop (sl : Slice) (f : Fields) : Dec QpopArgs := do
  zeroOps f false false true false
  let q ← getK sl .queue false f.srca
  let d ← getD sl .per false f []
  modZero f 0xF
  pure ⟨f.guard, f.nwb, d, q, f.m 0 4⟩

def decQpeek (sl : Slice) (f : Fields) : Dec QpeekArgs := do
  zeroOps f false true true false
  let d ← getD sl .per false f []
  modZero f 0xFF
  pure ⟨f.guard, f.nwb, d, f.m 4 4, f.m 0 4⟩

def decQend (sl : Slice) (f : Fields) : Dec QendArgs := do
  zeroOps f false false true false
  let q ← getK sl .queue false f.dest
  let v ← if f.flag 5 then getK sl .reg false f.srca else getZ f.srca
  need (nwbOk sl f.nwb) .illegalOperand
  modZero f 0x20
  pure ⟨f.guard, f.nwb, q, v⟩

def decQstat (sl : Slice) (f : Fields) : Dec QstatArgs := do
  zeroOps f false true true false
  let d ← getD sl .reg false f []
  modZero f 0x1F0
  pure ⟨f.guard, f.nwb, d, f.flag 8, f.m 4 4⟩

def decQdrop (f : Fields) : Dec QdropArgs := do
  zeroOps f true true true true
  modZero f 0x7FF0
  need (!f.flag 14 || f.m 8 6 == 0) .illegalModifier
  pure ⟨f.guard, f.flag 14, f.m 8 6, f.m 4 4⟩

def decAtom (f : Fields) : Dec AtomArgs := do
  let d ← getK .access .uni false f.dest
  let b ← getK .access .uni false f.srca
  let v ← getK .access .uni false f.srcb
  need (!f.nwb) .illegalOperand
  let op ← getOpt (AtomOp.ofCode (f.m 16 3)) .illegalModifier
  let sc ← getOpt (Scope.ofBits (f.m 11 3)) .illegalModifier
  let ty ← getOpt (AtomTy.ofCode (f.m 8 3)) .illegalModifier
  need (atomOk op ty) .illegalModifier
  pure ⟨f.guard, d, b, v, op, Ord.ofCode (f.m 14 2), sc, ty, f.m 0 8⟩

def decAcas (f : Fields) : Dec AcasArgs := do
  let d ← getK .access .uni false f.dest
  let b ← getK .access .uni false f.srca
  let c ← getK .access .uni false f.srcb
  let n ← getK .access .uni false (f.m 0 9)
  need (!f.nwb) .illegalOperand
  let sc ← getOpt (Scope.ofBits (f.m 11 3)) .illegalModifier
  need (f.m 16 3 == 0 && !f.flag 10) .illegalModifier
  pure ⟨f.guard, d, b, c, n, Ord.ofCode (f.m 14 2), sc, f.flag 9⟩

def decFence (f : Fields) : Dec FenceArgs := do
  zeroOps f true true true true
  modZero f 0xF800
  let sc ← getOpt (Scope.ofBits (f.m 11 3)) .illegalModifier
  need (f.m 14 2 != 0) .illegalModifier
  pure ⟨f.guard, Ord.ofCode (f.m 14 2), sc⟩

def decUpd (f : Fields) : Dec UpdArgs := do
  zeroOps f true false false true
  let b ← getK .access .reg false f.srca
  let v ← getK .access .dst false f.srcb
  modZero f 0xFFFF
  pure ⟨f.guard, b, v, f.m 0 16⟩

def decRange (sl : Slice) (wide : Bool) (used : BitVec 19) (pos : Nat) (f : Fields) : Dec RangeArgs := do
  zeroOps f true false false true
  let b ← getK sl .reg wide f.srca
  let l ← getK sl .reg wide f.srcb
  modZero f used
  pure ⟨f.guard, b, l, used != 0 && f.flag pos⟩

def decIcinv (sl : Slice) (f : Fields) : Dec RangeArgs :=
  if f.flag 0 then do
    zeroOps f true true true true
    modZero f 1
    pure ⟨f.guard, .none, .none, true⟩
  else decRange sl true 1 0 f

def decBind (bind : Bool) (f : Fields) : Dec BindArgs := do
  zeroOps f true (!bind) true true
  let b ← if bind then getK .access .uni false f.srca else pure .none
  modZero f 0x3F
  pure ⟨f.guard, b, f.m 0 6⟩

def decStamp (load : Bool) (f : Fields) : Dec StampArgs := do
  zeroOps f true (!load) true true
  let o ← if load then getK .execute .uni false f.srca else pure .none
  modZero f 0x1FF
  pure ⟨f.guard, o, f.m 0 9⟩

def decMma (f : Fields) : Dec MmaArgs := do
  zeroOps f true false false true
  let a ← getOpnd .execute f.srca
  need (a.isQueue || a.vMultiple 4) .illegalOperand
  let k ← getK .execute .reg false f.srcb
  let fa ← getOpt (MFmt.ofCodeA (f.m 15 4)) .illegalModifier
  pure ⟨f.guard, a, k, fa, MFmt.ofCodeB (f.m 12 3), f.flag 11, f.m 9 2, f.m 0 9⟩

def decMsca (f : Fields) : Dec MscaArgs := do
  zeroOps f true false true true
  let e ← getK .execute .dst false f.srca
  pure ⟨f.guard, e, f.m 14 5, f.flag 13, f.m 11 2, f.m 9 2, f.m 0 9⟩

def decMzero (f : Fields) : Dec MzeroArgs := do
  zeroOps f true true true true
  modZero f 0xFF
  need (f.m 0 8 != 0) .illegalModifier
  pure ⟨f.guard, f.m 4 4, f.m 0 4⟩

def decMrd (f : Fields) : Dec MrdArgs := do
  zeroOps f false true true true
  let d ← getOpnd .execute f.dest
  let n := ((fTy f).map Ty.readRegs).getD 1
  need (d.vMultiple (if n = 0 then 1 else n)) .illegalOperand
  let ty ← getOpt (fTy f) .illegalModifier
  modZero f 0x7FF00
  need (ty.readRegs != 0) .illegalModifier
  pure ⟨f.guard, d, ty, f.flag 13, f.m 11 2, f.m 8 3⟩

def decMst (f : Fields) : Dec MrdArgs := do
  zeroOps f false true true true
  let d ← getK .execute .queue false f.dest
  let ty ← getOpt (fTy f) .illegalModifier
  modZero f 0x7DF00
  need (tysR.contains ty) .illegalModifier
  pure ⟨f.guard, d, ty, false, f.m 11 2, f.m 8 3⟩

def decMrdx (f : Fields) : Dec MrdxArgs := do
  zeroOps f false false false true
  let d ← getOpnd .execute f.dest
  let c ← getK .execute .dst false f.srca
  let r ← getK .execute .dst false f.srcb
  need (d.vMultiple 8) .illegalOperand
  let ty ← getOpt (fTy f) .illegalModifier
  modZero f 0x7FF80
  need (tysR.contains ty) .illegalModifier
  pure ⟨f.guard, d, c, r, ty, f.flag 13, f.m 11 2, f.m 8 3, f.flag 7⟩

def decMred (f : Fields) : Dec MredArgs := do
  zeroOps f false true true false
  let d ← getK .execute .perQ false f.dest
  modZero f 0x1800
  pure ⟨f.guard, f.nwb, d, f.m 11 2⟩

def decMflag (f : Fields) : Dec MflagArgs := do
  zeroOps f false true true false
  let d ← getK .execute .per false f.dest
  modZero f 0xF
  pure ⟨f.guard, f.nwb, d, f.m 0 4⟩

def decSmx (f : Fields) : Dec SmxArgs := do
  let d ← getK .execute .per true f.dest
  let r ← getK .execute .dst false f.srca
  let x ← getK .execute .perQ false f.srcb
  let c ← getK .execute .reg false (f.m 0 9)
  let ty ← getOpt (fTy f) .illegalModifier
  need (tysR.contains ty && f.m 12 2 == 0 && f.m 9 2 == 0) .illegalModifier
  pure ⟨f.guard, f.nwb, d, r, x, c, ty, fFtz f⟩

/-- The key-value instructions of Table 9.8; a kind of none marks a zero field. -/
def decKv (dk hk bk : Option OpKind) (weight : Bool) (f : Fields) : Dec KvArgs := do
  let h ← getOptK .access hk f.srca
  let b ← getOptK .access bk f.srcb
  let d ← getOptK .access dk f.dest
  let w ← if weight then getK .access .dst false (f.m 0 9) else pure .none
  need (uniformOk d [h, b] && !f.nwb) .illegalOperand
  modZero f (if weight then 0x1FF else 0)
  pure ⟨f.guard, d, h, b, w⟩

def encKv (op : Nat) (x : KvArgs) : Fields :=
  ⟨BitVec.ofNat 10 op, x.g.neg, x.g.k, false, x.d.code, x.h.code, x.b.code, (0 : BitVec 10) ++ x.w.code⟩

def decKvscl (f : Fields) : Dec KvsclArgs := do
  let a ← getK .execute .per false f.srca
  let e ← getK .execute .per false f.srcb
  let d ← getD .execute .perQ false f [a]
  let ty ← getOpt (fTy f) .illegalModifier
  modZero f 0x7C800
  need ([Ty.dflt, .m8].contains ty) .illegalModifier
  pure ⟨f.guard, f.nwb, d, a, e, ty, fFtz f⟩

def decXpost (f : Fields) : Dec XpostArgs := do
  zeroOps f true false true true
  let b ← getK .access .reg false f.srca
  modZero f 0xFF
  pure ⟨f.guard, b, f.m 0 8⟩

def decXgath (f : Fields) (ext : W64) : Dec XgathArgs := do
  zeroOps f true false true true
  let a ← getK .access .per false f.srca
  modZero f 0
  need (ext.extractLsb' 50 14 == 0) .illegalModifier
  pure ⟨f.guard, a, ext.getLsbD 49, ext.getLsbD 48, ext.extractLsb' 29 19, ext.extractLsb' 23 6, ext.extractLsb' 0 23⟩

/-- The gather descriptor of Table 10.2. -/
def XgathArgs.desc (x : XgathArgs) : W64 :=
  (0 : BitVec 14) ++ bit x.cont ++ bit x.ro ++ x.bar ++ x.esize ++ x.dst

def decXstat (f : Fields) : Dec XstatArgs := do
  zeroOps f false true true true
  let d ← getK .access .reg false f.dest
  modZero f 1
  pure ⟨f.guard, d, f.flag 0⟩

def decXcp (f : Fields) : Dec XcpArgs := do
  zeroOps f true false false true
  let d ← getK .access .per false f.srca
  let s ← getK .access .per false f.srcb
  let n ← getK .access .reg false (f.m 0 9)
  modZero f 0x7FFF
  pure ⟨f.guard, d, s, n, f.flag 14, f.m 12 2, f.m 9 3⟩

def decXtwait (f : Fields) : Dec XtwaitArgs := do
  zeroOps f true true true true
  modZero f 0x7FF
  pure ⟨f.guard, f.m 3 8, f.m 0 3⟩

def decBinit (sl : Slice) (f : Fields) : Dec BinitArgs := do
  zeroOps f true false true true
  let b ← getK sl .uni false f.srca
  modZero f 0x3FFFF
  let md ← getOpt (BarMode.ofCode (f.m 16 2)) .illegalModifier
  need (md == .arrivals || f.m 0 16 == 0) .illegalModifier
  pure ⟨f.guard, b, md, f.m 0 16⟩

def decBarr (sl : Slice) (f : Fields) : Dec BarrArgs := do
  zeroOps f true false true true
  let b ← getK sl .uni false f.srca
  modZero f 0xFFFF
  need (f.m 0 16 != 0) .illegalModifier
  pure ⟨f.guard, b, f.m 0 16⟩

def decBwait (sl : Slice) (yield : Bool) (f : Fields) : Dec BwaitArgs := do
  zeroOps f true false (!yield) true
  let b ← getK sl .uni false f.srca
  let t ← if yield then getK sl .uni true f.srcb else pure .none
  modZero f 3
  let ph ← getOpt (Phase.ofCode (f.m 0 2)) .illegalModifier
  pure ⟨f.guard, b, t, ph⟩

def decEmit (f : Fields) : Dec EmitArgs := do
  zeroOps f true false false true
  let e ← getK .access .reg false f.srca
  let h ← getK .access .reg false f.srcb
  modZero f 0xF
  need (decide ((f.m 0 4).toNat ≤ 9)) .illegalModifier
  pure ⟨f.guard, e, h, f.m 0 4⟩

def decWq (steal : Bool) (f : Fields) : Dec WqArgs := do
  zeroOps f false (!steal) true true
  let d ← getOpnd .access f.dest
  need (match d with | .a n => decide (n.toNat ≤ 8) | _ => false) .illegalOperand
  let c ← if steal then getK .access .reg false f.srca else pure .none
  modZero f 0xF
  pure ⟨f.guard, d, c, f.m 0 4⟩

def decTrap (f : Fields) : Dec TrapArgs := do
  zeroOps f true true true true
  modZero f 0x3F
  pure ⟨f.guard, f.m 0 6⟩

/-- The index checks of R44 come before those on d (R310), but for the form of the operand's code, the register count and the queue roles of R77; DESIGN CHOICE (log 89). -/
def decRds (sl : Slice) (f : Fields) : Dec RdsArgs := do
  zeroOps f false true true false
  let d ← getK sl (rdsDest sl (f.m 0 8)) false f.dest
  need (nwbOk sl f.nwb) .illegalOperand
  modZero f 0xFF
  pure ⟨f.guard, f.nwb, d, f.m 0 8⟩

def decWrs (sl : Slice) (f : Fields) : Dec WrsArgs := do
  zeroOps f true false true true
  let a ← getK sl .reg false f.srca
  modZero f 0xFF
  pure ⟨f.guard, a, f.m 0 8⟩

/-! ### Pair words (Tables 2.6, 2.7) -/

def decSlot (x : BitVec 30) : Dec PairSlot := do
  let op ← getOpt (PairOp.ofCode (x.extractLsb' 24 6)) .illegalPair
  let (ty, ftz) ← getOpt (pmodTy op (x.extractLsb' 0 3)) .illegalPair
  pure ⟨op, x.extractLsb' 20 4, x.getLsbD 19, x.extractLsb' 11 8, x.extractLsb' 3 8, ty, ftz⟩

def encSlot (x : PairSlot) : BitVec 30 :=
  x.op.code ++ x.k ++ bit x.nwb ++ x.d ++ x.b ++ pmodCode x.ty x.ftz

/-- The pair word; the register-count check stands before the bank check (R77), so the caller gives nv. -/
def decPair (nv : Nat) (w : W64) : Dec PairArgs := do
  need (w.extractLsb' 0 2 == 0) .illegalPair
  let a ← decSlot (w.extractLsb' 32 30)
  let b ← decSlot (w.extractLsb' 2 30)
  need (decide (a.d.toNat < nv) && decide (a.b.toNat < nv) && decide (b.d.toNat < nv) && decide (b.b.toNat < nv))
    .registerBeyondCount
  need (PairArgs.banksOk ⟨a, b⟩) .pairBankConflict
  pure ⟨a, b⟩

/-! ### Opcodes (Tables 2.10 to 2.13) -/

/-- The last assigned index of each group in Table 2.10, plus one. -/
def groupSize : Nat → Nat
  | 0 => 11 | 1 => 17 | 2 => 16 | 3 => 6 | 4 => 15 | 5 => 13 | 6 => 6 | 7 => 8
  | 8 => 10 | 9 => 6 | 10 => 9 | 11 => 13 | 12 => 7 | 13 => 13 | 14 => 8
  | _ => 0

/-- R66, R78, R80, R81: an opcode exists in the form. -/
def assigned (op : Nat) (long : Bool) : Bool :=
  let g := op / 64
  let k := op % 64
  if long then op == 0x050 || op == 0x209 || op == 0x341
  else if 32 ≤ k then (immCtor op).isSome
  else decide (k < groupSize g) && op != 0x050 && op != 0x341

/-- Table 2.11: the slice an opcode runs in, or both. -/
def opcodeSlice (op : Nat) : Option Slice :=
  let g := op / 64
  if op == 0x0C1 || op == 0x0C2 || op == 0x1C3 || op == 0x1C4 then some .execute
  else if g == 4 || g == 5 || g == 6 || g == 11 then some .execute
  else if g == 8 then some .access
  else if g == 10 then (if op == 0x282 then none else some .access)
  else if g == 12 then (if op == 0x300 || op == 0x306 then some .execute else some .access)
  else if g == 13 then
    (if op == 0x345 || op == 0x346 || op == 0x347 || op == 0x348 || op == 0x349 then none else some .access)
  else none

/-- R72: the crew-collectives. -/
def isCollective (op : Nat) : Bool := op == 0x008 || op == 0x009 || op == 0x1C7 || op == 0x349

/-- Operands and modifiers of an assigned opcode in its slice. -/
def decodeFields (sl : Slice) (op : Nat) (long : Bool) (f : Fields) (ext : W64) : Dec Instr :=
  match immCtor op with
  | some mk => mk <$> decImm sl (op == 0x06F) f
  | none =>
  match aluCtor op with
  | some (sh, mk) => mk <$> decAlu sh .src sl f
  | none =>
  match memCtor op with
  | some (sh, mk) => mk <$> decMem sh f
  | none =>
  match op with
  | 0x000 => do
    zeroOps f true true true true
    modZero f 0
    pure (.nop ⟨f.guard, false⟩)
  | 0x001 => .bra <$> decBra f
  | 0x002 => .brx <$> decBrx sl f
  | 0x003 => .call <$> decCall sl f
  | 0x004 => .calx <$> decCalx sl f
  | 0x005 => .ret <$> decBrx sl f
  | 0x006 => .exit <$> decBare f
  | 0x007 => .rcv <$> decRcv f
  | 0x008 => .setw <$> decSetw sl f
  | 0x009 => .pyld <$> decPyld sl f
  | 0x00A => .loop <$> decLoop sl f
  | 0x042 => .iaddc <$> decCarry sl f
  | 0x043 => .isubb <$> decCarry sl f
  | 0x050 => .movi <$> decMovi sl f ext
  | 0x084 => .bfn <$> decBfn sl f
  | 0x0C0 => .icmp <$> decCmp sl tysI .int false f
  | 0x0C1 => .fcmp <$> decCmp sl tysF .f32 true f
  | 0x0C3 => .sel <$> decSel sl f
  | 0x0C4 => .kop <$> decKop f
  | 0x0C5 => .kmov <$> decKmov sl f
  | 0x180 => .cvt <$> decCvt sl f
  | 0x181 => .fpk <$> decFpk sl f
  | 0x182 => .fupk <$> decFupk sl f
  | 0x185 => .escl <$> decEscl sl f
  | 0x1C0 => .shfl <$> decShfl sl f
  | 0x1C1 => .vote <$> decVote f
  | 0x1C2 => .ballot <$> decBallot sl f
  | 0x1C3 => .redx <$> decRed sl false f
  | 0x1C4 => .scan <$> decRed sl true f
  | 0x1C6 => .bcast <$> decAlu (shBcast (f.flag 9)) .uni sl f
  | 0x1C7 => .regroup <$> decRegroup sl f
  | 0x209 => if long then .leaLong <$> decLeaLong f ext else .lea <$> decLea f
  | 0x240 => .qpush <$> decQpush sl f
  | 0x241 => .qpop <$> decQpop sl f
  | 0x242 => .qpeek <$> decQpeek sl f
  | 0x243 => .qend <$> decQend sl f
  | 0x244 => .qstat <$> decQstat sl f
  | 0x245 => .qdrop <$> decQdrop f
  | 0x280 => .atom <$> decAtom f
  | 0x281 => .acas <$> decAcas f
  | 0x282 => .fence <$> decFence f
  | 0x283 => .upd <$> decUpd f
  | 0x284 => .uflush <$> decRange sl false 0 0 f
  | 0x285 => .ubind <$> decBind true f
  | 0x286 => .uunbind <$> decBind false f
  | 0x287 => .cinv <$> decRange sl false 0 0 f
  | 0x288 => .cwb <$> decRange sl false 0x200 9 f
  | 0x2C0 => .stld <$> decStamp true f
  | 0x2C1 => .stsp <$> decStamp true f
  | 0x2C2 => .stinv <$> decStamp false f
  | 0x2C3 => .mma <$> decMma f
  | 0x2C4 => .mmac <$> decMma f
  | 0x2C5 => .msca <$> decMsca f
  | 0x2C6 => .mzero <$> decMzero f
  | 0x2C7 => .mrd <$> decMrd f
  | 0x2C8 => .mrdx <$> decMrdx f
  | 0x2C9 => .mrmax <$> decMred f
  | 0x2CA => .mrsum <$> decMred f
  | 0x2CB => .mst <$> decMst f
  | 0x2CC => .mflag <$> decMflag f
  | 0x300 => .smx <$> decSmx f
  | 0x301 => .kvmap <$> decKv (some .reg) (some .reg) (some .reg) false f
  | 0x302 => .kvapp <$> decKv none (some .uni) (some .uni) false f
  | 0x303 => .kvacc <$> decKv none (some .reg) (some .reg) true f
  | 0x304 => .kvsel <$> decKv (some .reg) (some .uni) none false f
  | 0x305 => .kvpack <$> decKv none (some .uni) (some .uni) false f
  | 0x306 => .kvscl <$> decKvscl f
  | 0x340 => .xpost <$> decXpost f
  | 0x341 => .xgath <$> decXgath f ext
  | 0x342 => .xstat <$> decXstat f
  | 0x343 => .xcp <$> decXcp f
  | 0x344 => .xtwait <$> decXtwait f
  | 0x345 => .binit <$> decBinit sl f
  | 0x346 => .barr <$> decBarr sl f
  | 0x347 => .bwait <$> decBwait sl false f
  | 0x348 => .byld <$> decBwait sl true f
  | 0x349 => .cbar <$> decBare f
  | 0x34A => .emit <$> decEmit f
  | 0x34B => .wqpop <$> decWq false f
  | 0x34C => .wqsteal <$> decWq true f
  | 0x380 => .trap <$> decTrap f
  | 0x381 => .tfence <$> decBare f
  | 0x382 => do
    need f.guard.isK0 .illegalOperand
    .rte <$> decBare f
  | 0x383 => .rds <$> decRds sl f
  | 0x384 => .wrs <$> decWrs sl f
  | 0x385 => .brk <$> decTrap f
  | 0x386 => .icinv <$> decIcinv sl f
  | 0x387 => .isync <$> decBare f
  | _ => .error .illegalOpcode

/-- Whether the word needs its extension word fetched: a long form of an assigned opcode, not a never-execute word (R66, R71, R77). -/
def needsExt (w : W64) : Bool :=
  w.extractLsb' 62 2 == 2 && (Fields.ofWord w).guard.live && assigned (w.extractLsb' 52 10).toNat true

/-- R77 down to the modifier checks, for a warp of slice sl that declares nv registers. -/
def decode (sl : Slice) (nv : Nat) (w ext : W64) : Dec Instr :=
  let form := (w.extractLsb' 62 2).toNat
  if form = 3 then .error .reservedForm
  else if form = 1 then
    if sl = .access then .error .wrongSlice else .pairWord <$> decPair nv w
  else
    let f := Fields.ofWord w
    let op := f.op.toNat
    if !f.guard.live then .ok (.nop ⟨f.guard, form == 2⟩)
    else if !assigned op (form == 2) then .error .illegalOpcode
    else if opcodeSlice op == some sl.other then .error .wrongSlice
    else if isCollective op && !f.guard.isK0 then .error .guardOnCollective
    else decodeFields sl op (form == 2) f ext

/-! ### Encoder -/

/-- First words of full and long forms. -/
def encodeFields (i : Instr) : Fields :=
  match i with
  | .nop x => Fields.bare 0x000 x.g
  | .bra x => (Fields.bare 0x001 x.g).setImm x.disp
  | .brx x => { Fields.bare 0x002 x.g with srca := x.t.code }
  | .call x => ({ Fields.bare 0x003 x.g with nwb := x.nwb, dest := x.link.code } : Fields).setImm x.disp
  | .calx x => { Fields.bare 0x004 x.g with nwb := x.nwb, dest := x.link.code, srca := x.t.code }
  | .ret x => { Fields.bare 0x005 x.g with srca := x.t.code }
  | .exit x => encBare 0x006 x
  | .rcv x => { Fields.bare 0x007 x.g with mod := x.disp }
  | .setw x => { Fields.bare 0x008 x.g with nwb := x.nwb, dest := x.d.code, mod := (0 : BitVec 17) ++ x.req }
  | .pyld x => { Fields.bare 0x009 x.g with nwb := x.nwb, dest := x.d.code }
  | .loop x =>
    ({ Fields.bare 0x00A x.g with nwb := x.nwb, dest := x.x.code, srca := x.x.code } : Fields).setImm x.disp
  | .iaddc x => encCarry 0x042 x
  | .isubb x => encCarry 0x043 x
  | .movi x => { Fields.bare 0x050 x.g with nwb := x.nwb, dest := x.d.code, mod := x.ty.code ++ (0 : BitVec 14) }
  | .bfn x =>
    ⟨0x084, x.g.neg, x.g.k, x.nwb, x.d.code, x.a.code, x.b.code, x.ty.code ++ (0 : BitVec 6) ++ x.table⟩
  | .icmp x => encCmp 0x0C0 x
  | .fcmp x => encCmp 0x0C1 x
  | .sel x => ⟨0x0C3, x.g.neg, x.g.k, x.nwb, x.d.code, x.a.code, x.b.code, x.ty.code ++ (0 : BitVec 10) ++ x.kn⟩
  | .kop x =>
    { Fields.bare 0x0C4 x.g with mod := (0 : BitVec 8) ++ x.op.code ++ bit x.neg ++ x.ka ++ x.kd }
  | .kmov x => encKmov x
  | .cvt x =>
    ⟨0x180, x.g.neg, x.g.k, x.nwb, x.d.code, x.a.code, 0,
      x.ty.code ++ x.rnd.code ++ bit x.ftz ++ (0 : BitVec 1) ++ bit x.sat ++ (0 : BitVec 4) ++ x.st.code⟩
  | .fpk x =>
    ⟨0x181, x.g.neg, x.g.k, x.nwb, x.d.code, x.a.code, x.b.code,
      x.ty.code ++ x.rnd.code ++ bit x.ftz ++ x.j ++ (0 : BitVec 9)⟩
  | .fupk x =>
    ⟨0x182, x.g.neg, x.g.k, x.nwb, x.d.code, x.a.code, 0,
      x.ty.code ++ (0 : BitVec 2) ++ bit x.ftz ++ (0 : BitVec 8) ++ x.j⟩
  | .escl x =>
    ⟨0x185, x.g.neg, x.g.k, x.nwb, x.d.code, x.a.code, x.b.code,
      x.ty.code ++ x.rnd.code ++ bit x.ftz ++ x.op.code ++ (0 : BitVec 9)⟩
  | .shfl x =>
    ⟨0x1C0, x.g.neg, x.g.k, x.nwb, x.d.code, x.a.code, x.b.code,
      x.ty.code ++ (0 : BitVec 3) ++ x.mode.code ++ (0 : BitVec 9)⟩
  | .vote x =>
    { Fields.bare 0x1C1 x.g with mod := (0 : BitVec 8) ++ x.mode.code ++ bit x.neg ++ x.ka ++ x.kd }
  | .ballot x =>
    { Fields.bare 0x1C2 x.g with nwb := x.nwb, dest := x.d.code, mod := (0 : BitVec 14) ++ bit x.neg ++ x.ka }
  | .redx x => encRed 0x1C3 x
  | .scan x => encRed 0x1C4 x
  | .regroup x =>
    ⟨0x1C7, x.g.neg, x.g.k, x.nwb, x.d.code, x.key.code, x.live.code,
      (0 : BitVec 9) ++ bit x.key.isNone ++ (0 : BitVec 9)⟩
  | .lea x => { Fields.bare 0x209 x.g with dest := x.d.code, srca := x.base.code, mod := x.disp }
  | .leaLong x => { Fields.bare 0x209 x.g with dest := x.d.code, srca := x.base.code }
  | .qpush x =>
    { Fields.bare 0x240 x.g with
      nwb := x.nwb, dest := x.qd.code, srca := x.v.code, mod := (0 : BitVec 13) ++ bit x.en ++ bit x.neg ++ x.kt }
  | .qpop x =>
    { Fields.bare 0x241 x.g with nwb := x.nwb, dest := x.d.code, srca := x.q.code, mod := (0 : BitVec 15) ++ x.kt }
  | .qpeek x =>
    { Fields.bare 0x242 x.g with nwb := x.nwb, dest := x.d.code, mod := (0 : BitVec 11) ++ x.n ++ x.kt }
  | .qend x =>
    { Fields.bare 0x243 x.g with
      nwb := x.nwb, dest := x.qd.code, srca := x.v.code, mod := (0 : BitVec 13) ++ bit (!x.v.isNone) ++ (0 : BitVec 5) }
  | .qstat x =>
    { Fields.bare 0x244 x.g with
      nwb := x.nwb, dest := x.d.code, mod := (0 : BitVec 10) ++ bit x.clr ++ x.n ++ (0 : BitVec 4) }
  | .qdrop x =>
    { Fields.bare 0x245 x.g with mod := (0 : BitVec 4) ++ bit x.all ++ x.cnt ++ x.n ++ (0 : BitVec 4) }
  | .atom x =>
    ⟨0x280, x.g.neg, x.g.k, false, x.d.code, x.base.code, x.v.code,
      x.op.code ++ x.ord.code ++ x.scope.bits ++ x.ty.code ++ x.disp⟩
  | .acas x =>
    ⟨0x281, x.g.neg, x.g.k, false, x.d.code, x.base.code, x.cmp.code,
      (0 : BitVec 3) ++ x.ord.code ++ x.scope.bits ++ (0 : BitVec 1) ++ bit x.wide ++ x.new.code⟩
  | .fence x =>
    { Fields.bare 0x282 x.g with mod := (0 : BitVec 3) ++ x.sem.code ++ x.scope.bits ++ (0 : BitVec 11) }
  | .upd x =>
    { Fields.bare 0x283 x.g with srca := x.base.code, srcb := x.v.code, mod := (0 : BitVec 3) ++ x.disp }
  | .uflush x => { Fields.bare 0x284 x.g with srca := x.base.code, srcb := x.len.code }
  | .ubind x => { Fields.bare 0x285 x.g with srca := x.base.code, mod := (0 : BitVec 13) ++ x.n }
  | .uunbind x => { Fields.bare 0x286 x.g with mod := (0 : BitVec 13) ++ x.n }
  | .cinv x => { Fields.bare 0x287 x.g with srca := x.base.code, srcb := x.len.code }
  | .cwb x =>
    { Fields.bare 0x288 x.g with
      srca := x.base.code, srcb := x.len.code, mod := (0 : BitVec 9) ++ bit x.flag ++ (0 : BitVec 9) }
  | .stld x => { Fields.bare 0x2C0 x.g with srca := x.off.code, mod := (0 : BitVec 10) ++ x.j }
  | .stsp x => { Fields.bare 0x2C1 x.g with srca := x.off.code, mod := (0 : BitVec 10) ++ x.j }
  | .stinv x => { Fields.bare 0x2C2 x.g with mod := (0 : BitVec 10) ++ x.j }
  | .mma x =>
    { Fields.bare 0x2C3 x.g with
      srca := x.a.code, srcb := x.klen.code, mod := x.fa.codeA ++ x.fb.codeB ++ bit x.ftz ++ x.t ++ x.j }
  | .mmac x =>
    { Fields.bare 0x2C4 x.g with
      srca := x.a.code, srcb := x.klen.code, mod := x.fa.codeA ++ x.fb.codeB ++ bit x.ftz ++ x.t ++ x.j }
  | .msca x =>
    { Fields.bare 0x2C5 x.g with srca := x.e.code, mod := x.shift ++ bit x.ftz ++ x.u ++ x.t ++ x.j }
  | .mzero x => { Fields.bare 0x2C6 x.g with mod := (0 : BitVec 11) ++ x.pm ++ x.mm }
  | .mrd x =>
    { Fields.bare 0x2C7 x.g with dest := x.d.code, mod := x.ty.code ++ bit x.clr ++ x.u ++ x.col ++ (0 : BitVec 8) }
  | .mrdx x =>
    { Fields.bare 0x2C8 x.g with
      dest := x.d.code, srca := x.c.code, srcb := x.r.code,
      mod := x.ty.code ++ bit x.ftz ++ x.u ++ x.col ++ bit x.st ++ (0 : BitVec 7) }
  | .mrmax x =>
    { Fields.bare 0x2C9 x.g with nwb := x.nwb, dest := x.d.code, mod := (0 : BitVec 6) ++ x.u ++ (0 : BitVec 11) }
  | .mrsum x =>
    { Fields.bare 0x2CA x.g with nwb := x.nwb, dest := x.d.code, mod := (0 : BitVec 6) ++ x.u ++ (0 : BitVec 11) }
  | .mst x =>
    { Fields.bare 0x2CB x.g with
      dest := x.d.code, mod := x.ty.code ++ (0 : BitVec 1) ++ x.u ++ x.col ++ (0 : BitVec 8) }
  | .mflag x =>
    { Fields.bare 0x2CC x.g with nwb := x.nwb, dest := x.d.code, mod := (0 : BitVec 15) ++ x.mask }
  | .smx x =>
    ⟨0x300, x.g.neg, x.g.k, x.nwb, x.d.code, x.rold.code, x.mx.code,
      x.ty.code ++ (0 : BitVec 2) ++ bit x.ftz ++ (0 : BitVec 2) ++ x.c.code⟩
  | .kvmap x => encKv 0x301 x
  | .kvapp x => encKv 0x302 x
  | .kvacc x => encKv 0x303 x
  | .kvsel x => encKv 0x304 x
  | .kvpack x => encKv 0x305 x
  | .kvscl x =>
    ⟨0x306, x.g.neg, x.g.k, x.nwb, x.d.code, x.a.code, x.e.code,
      x.ty.code ++ (0 : BitVec 2) ++ bit x.ftz ++ (0 : BitVec 11)⟩
  | .xpost x => { Fields.bare 0x340 x.g with srca := x.base.code, mod := (0 : BitVec 11) ++ x.n }
  | .xgath x => { Fields.bare 0x341 x.g with srca := x.a.code }
  | .xstat x => { Fields.bare 0x342 x.g with dest := x.d.code, mod := (0 : BitVec 18) ++ bit x.clr }
  | .xcp x =>
    { Fields.bare 0x343 x.g with
      srca := x.d.code, srcb := x.s.code, mod := (0 : BitVec 4) ++ bit x.ro ++ x.sz ++ x.tag ++ x.n.code }
  | .xtwait x => { Fields.bare 0x344 x.g with mod := (0 : BitVec 8) ++ x.m ++ x.tag }
  | .binit x => { Fields.bare 0x345 x.g with srca := x.b.code, mod := (0 : BitVec 1) ++ x.mode.code ++ x.exp }
  | .barr x => { Fields.bare 0x346 x.g with srca := x.b.code, mod := (0 : BitVec 3) ++ x.n }
  | .bwait x => { Fields.bare 0x347 x.g with srca := x.b.code, mod := (0 : BitVec 17) ++ x.ph.code }
  | .byld x =>
    { Fields.bare 0x348 x.g with srca := x.b.code, srcb := x.t.code, mod := (0 : BitVec 17) ++ x.ph.code }
  | .cbar x => encBare 0x349 x
  | .emit x => { Fields.bare 0x34A x.g with srca := x.e.code, srcb := x.fh.code, mod := (0 : BitVec 15) ++ x.n }
  | .wqpop x => { Fields.bare 0x34B x.g with dest := x.d.code, mod := (0 : BitVec 15) ++ x.kt }
  | .wqsteal x =>
    { Fields.bare 0x34C x.g with dest := x.d.code, srca := x.c.code, mod := (0 : BitVec 15) ++ x.kt }
  | .trap x => { Fields.bare 0x380 x.g with mod := (0 : BitVec 13) ++ x.n }
  | .tfence x => encBare 0x381 x
  | .rte x => encBare 0x382 x
  | .rds x => { Fields.bare 0x383 x.g with nwb := x.nwb, dest := x.d.code, mod := (0 : BitVec 11) ++ x.idx }
  | .wrs x => { Fields.bare 0x384 x.g with srca := x.a.code, mod := (0 : BitVec 11) ++ x.idx }
  | .brk x => { Fields.bare 0x385 x.g with mod := (0 : BitVec 13) ++ x.n }
  | .icinv x =>
    { Fields.bare 0x386 x.g with srca := x.base.code, srcb := x.len.code, mod := (0 : BitVec 18) ++ bit x.flag }
  | .isync x => encBare 0x387 x
  | i =>
    match i.alu, i.mem, i.imm with
    | some (op, _, x), _, _ => encAlu op x
    | _, some (op, _, x), _ => encMem op x
    | _, _, some (op, x) => encImm op x
    | _, _, _ => Fields.bare 0 ⟨true, 0⟩

/-- The extension word of a long form (Table 2.13). -/
def Instr.ext : Instr → Option W64
  | .movi x => some x.imm
  | .leaLong x => some x.disp
  | .xgath x => some x.desc
  | .nop x => if x.long then some 0 else none
  | _ => none

/-- The words of a well-formed instruction: its first word and its extension word, 0 when it has none. -/
def encode (i : Instr) : W64 × W64 :=
  match i with
  | .pairWord x => ((1 : BitVec 2) ++ encSlot x.s0 ++ encSlot x.s1 ++ (0 : BitVec 2), 0)
  | i => ((encodeFields i).word (if i.ext.isSome then 2 else 0), i.ext.getD 0)

/-- R54: the length of an instruction in bytes. -/
def Instr.length (i : Instr) : Nat := if i.ext.isSome then 16 else 8

/-! ### Register numbers, pairs and queue roles (the last checks of R77) -/

/-- How an instruction names a queue (R41). -/
inductive QRole
  | pop
  | push
  | sd
  | any
  deriving DecidableEq, Repr

/-- An operand named with its width. -/
abbrev Use := Opnd × Bool

/-- Destination and sources of an instruction with their widths, in the order dest, srca, srcb, third source. -/
def Instr.uses (sl : Slice) (i : Instr) : List Use × List Use :=
  match i with
  | .brx x | .ret x => ([], [(x.t, true)])
  | .call x => ([(x.link, true)], [])
  | .calx x => ([(x.link, true)], [(x.t, true)])
  | .setw x => ([(x.d, false)], [])
  | .pyld x => ([(x.d, false)], [])
  | .loop x => ([(x.x, false)], [(x.x, false)])
  | .iaddc x | .isubb x =>
    let w := (x.ty.resolve sl .int).wide
    ([(x.d, w)], [(x.a, w), (x.b, w)])
  | .movi x => ([(x.d, (x.ty.resolve sl .bits).wide)], [])
  | .bfn x =>
    let w := (x.ty.resolve sl .bits).wide
    ([(x.d, w)], [(x.a, w), (x.b, w)])
  | .icmp x => ([], [(x.a, (x.ty.resolve sl .int).wide), (x.b, (x.ty.resolve sl .int).wide)])
  | .fcmp x => ([], [(x.a, (x.ty.resolve sl .f32).wide), (x.b, (x.ty.resolve sl .f32).wide)])
  | .sel x =>
    let w := (x.ty.resolve sl .bits).wide
    ([(x.d, w)], [(x.a, w), (x.b, w)])
  | .kmov x =>
    let w := (x.ty.resolve sl .bits).wide
    match x.form with
    | .toReg _ d _ => ([(d, w)], [])
    | .ofReg a _ => ([], [(a, w)])
    | .copy _ _ _ => ([], [])
  | .cvt x => ([(x.d, x.ty.wide)], [(x.a, x.st.wide)])
  | .fpk x => ([(x.d, false)], [(x.a, false), (x.b, false)])
  | .fupk x => ([(x.d, false)], [(x.a, false)])
  | .escl x => ([(x.d, false)], [(x.a, false), (x.b, false)])
  | .shfl x =>
    let w := (x.ty.resolve sl .bits).wide
    ([(x.d, w)], [(x.a, w), (x.b, false)])
  | .ballot x => ([(x.d, true)], [])
  | .redx x | .scan x => ([(x.d, (redTy x.op x.ty).wide)], [(x.a, (redTy x.op x.ty).wide)])
  | .regroup x => ([(x.d, false)], [(x.key, false), (x.live, sl == .execute)])
  | .lea x => ([(x.d, false)], [(x.base, false)])
  | .leaLong x => ([(x.d, false)], [(x.base, false)])
  | .qpush x => ([(x.qd, false)], [(x.v, false)])
  | .qpop x => ([(x.d, false)], [(x.q, false)])
  | .qpeek x => ([(x.d, false)], [])
  | .qend x => ([(x.qd, false)], [(x.v, false)])
  | .qstat x => ([(x.d, false)], [])
  | .atom x => ([(x.d, false)], [(x.base, false), (x.v, false)])
  | .acas x => ([(x.d, false)], [(x.base, false), (x.cmp, false), (x.new, false)])
  | .upd x => ([], [(x.base, false), (x.v, false)])
  | .uflush x | .cinv x | .cwb x => ([], [(x.base, false), (x.len, false)])
  | .icinv x => ([], [(x.base, true), (x.len, true)])
  | .ubind x => ([], [(x.base, false)])
  | .stld x | .stsp x => ([], [(x.off, false)])
  | .mma x | .mmac x => ([], [(x.a, false), (x.klen, false)])
  | .msca x => ([], [(x.e, false)])
  | .mrd x => ([(x.d, false)], [])
  | .mst x => ([(x.d, false)], [])
  | .mrdx x => ([(x.d, false)], [(x.c, false), (x.r, false)])
  | .mrmax x | .mrsum x => ([(x.d, false)], [])
  | .mflag x => ([(x.d, false)], [])
  | .smx x => ([(x.d, true)], [(x.rold, false), (x.mx, false), (x.c, false)])
  | .kvmap x | .kvapp x | .kvacc x | .kvsel x | .kvpack x =>
    ([(x.d, false)], [(x.h, false), (x.b, false), (x.w, false)])
  | .kvscl x => ([(x.d, false)], [(x.a, false), (x.e, false)])
  | .xpost x => ([], [(x.base, false)])
  | .xgath x => ([], [(x.a, false)])
  | .xstat x => ([(x.d, false)], [])
  | .xcp x => ([], [(x.d, false), (x.s, false), (x.n, false)])
  | .binit x => ([], [(x.b, false)])
  | .barr x => ([], [(x.b, false)])
  | .bwait x | .byld x => ([], [(x.b, false), (x.t, true)])
  | .emit x => ([], [(x.e, false), (x.fh, false)])
  | .wqpop x | .wqsteal x => ([(x.d, false)], [(x.c, false)])
  | .rds x => ([(x.d, sl == .execute && wideSpecial x.idx && specialHere sl x.idx)], [])
  | .wrs x => ([], [(x.a, sl == .execute && (x.idx == 0x21 || x.idx == 0x22))])
  | i =>
    match i.alu, i.mem, i.imm with
    | some (_, sh, x), _, _ =>
      let t := x.ty.resolve sl sh.dflt
      ([(x.d, sh.dw.isWide t)], [(x.a, sh.aw.isWide t), (x.b, sh.bw.isWide t), (x.c, sh.cw.isWide t)])
    | _, some (_, _, x), _ => ([(x.d, false)], [(x.base, false), (x.v, false)])
    | _, _, some (_, x) => ([(x.d, false)], [(x.a, false)])
    | _, _, _ => ([], [])

/-- R31: the v number of an operand is below nv. -/
def Opnd.inCount (nv : Nat) : Opnd → Bool
  | .v n => decide (n.toNat < nv)
  | _ => true

/-- R31, R58: a 64-bit v or s operand is even. -/
def pairAligned : Use → Bool
  | (.v n, true) => n.toNat % 2 == 0
  | (.s n, true) => n.toNat % 2 == 0
  | _ => true

/-- The last v register of the consecutive ones that a read-out writes (R267, R268). -/
def Instr.lastReg : Instr → Opnd
  | .mrd x => match x.d with | .v n => .v (n + BitVec.ofNat 8 (x.ty.readRegs - 1)) | o => o
  | .mrdx x => match x.d with | .v n => .v (n + 7) | o => o
  | _ => .none

/-- The queues an instruction names, with the role it gives each. -/
def Instr.queueUses (sl : Slice) (i : Instr) : List (BitVec 4 × QRole) :=
  let ofUse (r : QRole) (u : Use) : List (BitVec 4 × QRole) := match u.1 with | .q n => [(n, r)] | _ => []
  match i with
  | .sa x | .ssa x => ofUse .sd (x.v, false)
  | .mst x => ofUse .sd (x.d, false)
  | .qpeek x => [(x.n, .pop)]
  | .qdrop x => [(x.n, .pop)]
  | .qstat x => [(x.n, .any)]
  | i => (i.uses sl).1.flatMap (ofUse .push) ++ (i.uses sl).2.flatMap (ofUse .pop)

/-- R41: whether a warp of slice sl may use a queue of direction d in a role. -/
def roleOk (sl : Slice) (d : Option QDir) (r : QRole) : Bool :=
  match d, r with
  | none, _ => false
  | some _, .any => true
  | some .sd, .sd => true
  | some _, .sd => false
  | some .fwd, .push => sl == .access
  | some .fwd, .pop => sl == .execute
  | some .ret, .push => sl == .execute
  | some .ret, .pop => sl == .access
  | some .sd, .push => sl == .execute
  | some .sd, .pop => false

/-- R31, R58, R41, in the order of R77. -/
def declCheck (sl : Slice) (nv : Nat) (dirs : BitVec 4 → Option QDir) (i : Instr) : Dec Unit := do
  let us := (i.uses sl).1 ++ (i.uses sl).2
  need (us.all (fun u => u.1.inCount nv) && i.lastReg.inCount nv) .registerBeyondCount
  need (us.all pairAligned) .misalignedPair
  need ((i.queueUses sl).all (fun u => roleOk sl (dirs u.1) u.2)) .queueDirection

/-- All of R77 for a warp of slice sl with nv declared registers and queues of the given directions. -/
def decodeChecked (sl : Slice) (nv : Nat) (dirs : BitVec 4 → Option QDir) (w ext : W64) : Dec Instr := do
  let i ← decode sl nv w ext
  declCheck sl nv dirs i
  pure i

/-! ### Bytes and the numbering of the opcode table -/

/-- Little-endian value of bytes (R8). -/
def leNat : List Byte → Nat
  | [] => 0
  | b :: bs => b.toNat + 256 * leNat bs

/-- n little-endian bytes of a number (R8). -/
def leBytes : Nat → Nat → List Byte
  | 0, _ => []
  | n + 1, v => BitVec.ofNat 8 v :: leBytes n (v / 256)

/-- Decoding from bytes as memory holds them: eight bytes of a first word, and eight more when it needs them. The rest is returned. -/
def decodeBytes (sl : Slice) (nv : Nat) (bs : List Byte) : Option (Dec Instr × List Byte) :=
  if bs.length < 8 then none
  else
    let w : W64 := BitVec.ofNat 64 (leNat (bs.take 8))
    if needsExt w then
      if bs.length < 16 then none
      else some (decode sl nv w (BitVec.ofNat 64 (leNat ((bs.drop 8).take 8))), bs.drop 16)
    else some (decode sl nv w 0, bs.drop 8)

/-- The slice in which a first word is legal: the only slice of Table 2.11, and the execute slice when both may run it. -/
def sliceOfWord (w : W64) : Slice :=
  if w.extractLsb' 62 2 == 1 then .execute
  else (opcodeSlice (w.extractLsb' 52 10).toNat).getD .execute

/-- An instruction given as one number, bit 0 the least significant bit of the first word; bits above nbits are 0. Read in the slice that may run it, with 256 declared registers. -/
def decodeTableWord (nbits w : Nat) : Option Instr :=
  let n := w % 2 ^ nbits
  let bytes := leBytes 16 n
  match decodeBytes (sliceOfWord (BitVec.ofNat 64 n)) 256 bytes with
  | some (.ok i, _) => some i
  | _ => none

end Sys2Proof
end

