-- ==== Sys2Proof/Machine/Bits.lean ====
section
/-! DEFINITION. Bit fields, byte order and lane masks: the helpers every operation uses (R7, R8). -/
namespace Sys2Proof.Machine

/-- Field [lo + w - 1 : lo] of a word, as a number. -/
def fld {n : Nat} (x : BitVec n) (lo w : Nat) : Nat := (x.toNat >>> lo) % 2 ^ w

/-- Bit `i` of a word. -/
def bitAt {n : Nat} (x : BitVec n) (i : Nat) : Bool := x.toNat.testBit i

/-- `x` with field [lo + w - 1 : lo] replaced by `v`. -/
def setFld {n : Nat} (x : BitVec n) (lo w : Nat) (v : Nat) : BitVec n :=
  BitVec.ofNat n (x.toNat - (fld x lo w) * 2 ^ lo + (v % 2 ^ w) * 2 ^ lo)

/-- The number of little-endian bytes (R8). -/
def bytesToNat : List Byte → Nat
  | [] => 0
  | b :: bs => b.toNat + 256 * bytesToNat bs

/-- The `n` little-endian bytes of a number (R8). -/
def natToBytes (x : Nat) : Nat → List Byte
  | 0 => []
  | n + 1 => BitVec.ofNat 8 x :: natToBytes (x / 256) n

/-- Bytes `lo` to `lo + n - 1` of a list as a little-endian number; bytes beyond the end count as zero. -/
def bytesAt (l : List Byte) (lo n : Nat) : Nat := bytesToNat ((l.drop lo).take n)

/-- The bytes of a list from `lo` on replaced by `d`. -/
def patch (l : List Byte) (lo : Nat) (d : List Byte) : List Byte :=
  l.take lo ++ d ++ l.drop (lo + d.length)

/-- The lanes of a mask, rising (bits 0 to 63). -/
def lanesOf (m : W64) : List Nat := (List.range 64).filter fun i => bitAt m i

/-- The mask of one lane. -/
def laneBit (l : Nat) : W64 := BitVec.ofNat 64 (2 ^ l)

/-- The mask of a list of lanes. -/
def maskOf (ls : List Nat) : W64 := ls.foldl (fun m l => m ||| laneBit l) 0

/-- The mask of lanes 0 to n - 1. -/
def maskN (n : Nat) : W64 := BitVec.ofNat 64 (2 ^ n - 1)

/-- The lowest lane of a mask. -/
def lowest (m : W64) : Option Nat := (List.range 64).find? fun i => bitAt m i

/-- Set bits among bits 0 to n - 1. -/
def popc {w : Nat} (x : BitVec w) (n : Nat) : Nat := ((List.range n).filter fun i => bitAt x i).length

/-- The sign extension of the low `n` bits of a number to `w` bits. -/
def sext (x n w : Nat) : BitVec w :=
  let y := x % 2 ^ n
  if y ≥ 2 ^ (n - 1) then BitVec.ofInt w ((y : Int) - 2 ^ n) else BitVec.ofNat w y

/-- An address is canonical when bits [63:57] equal bit 56 (R216 check 1). -/
def canonical (a : W64) : Bool := decide (fld a 56 8 = 0) || decide (fld a 56 8 = 255)

/-- Rounds `x` up to a multiple of `n`. -/
def roundUp (x n : Nat) : Nat := (x + (n - 1)) / n * n

/-- The first element of a list that satisfies `p`, with the others. -/
def splitFirst {α : Type} (p : α → Bool) : List α → Option (α × List α)
  | [] => none
  | x :: xs => if p x then some (x, xs) else (splitFirst p xs).map fun r => (r.1, x :: r.2)

/-- Replaces the elements that satisfy `p`. -/
def replaceIf {α : Type} (p : α → Bool) (f : α → α) (l : List α) : List α := l.map fun x => if p x then f x else x

/-- Insertion of an element before the first one that `lt` puts after it. -/
def insertBy {α : Type} (lt : α → α → Bool) (x : α) : List α → List α
  | [] => [x]
  | y :: ys => if lt x y then x :: y :: ys else y :: insertBy lt x ys

/-- Stable insertion sort. -/
def sortBy {α : Type} (lt : α → α → Bool) (l : List α) : List α := l.foldr (insertBy lt) []

/-- The first of the elements that no other element comes before. -/
def minBy {α : Type} (lt : α → α → Bool) : List α → Option α
  | [] => none
  | x :: xs => some (xs.foldl (fun b y => if lt y b then y else b) x)

/-- A list without repeats, keeping the first of each. -/
def dedup {α : Type} [BEq α] (l : List α) : List α :=
  l.foldl (fun acc x => if acc.contains x then acc else acc ++ [x]) []

/-! ### CRC-32C (R356, R149) -/

/-- One byte of CRC-32C, reflected. -/
def crc32Byte (c : W32) (b : Byte) : W32 :=
  (List.range 8).foldl (fun c _ => if c.getLsbD 0 then (c >>> 1) ^^^ 0x82F63B78 else c >>> 1) (c ^^^ b.setWidth 32)
/-- CRC-32C: initial value and final XOR all ones. -/
def crc32c (l : List Byte) : W32 := ~~~(l.foldl crc32Byte 0xFFFFFFFF)

end Sys2Proof.Machine
end

