-- ==== Sys2Proof/Machine/Float.lean ====
section
/-! DEFINITION. Floating point: formats and their values (R103, R104), exact arithmetic on them, the one rounding step (R106 to R108), and the exceptional cases of every operation (R105, R189 to R193). -/
namespace Sys2Proof.Machine

/-! ### Flags (Table 1.5) -/

/-- $fflags bits, and the same bits for the flags an operation raises. -/
def fNv : W32 := 1
def fDz : W32 := 2
def fOf : W32 := 4
def fUf : W32 := 8
def fNx : W32 := 16
def fSat : W32 := 32

/-- A result with the flags it raises. -/
structure Res where
  val : W64
  flags : W32
  deriving DecidableEq, Repr

/-- A result without flags. -/
def Res.plain (x : W64) : Res := { val := x, flags := 0 }
/-- Flags joined. -/
def flagIf (b : Bool) (f : W32) : W32 := if b then f else 0

/-! ### Formats (Table 4.2) -/

/-- A floating-point format: exponent bits, trailing significand bits, bias, infinities and NaNs as in IEEE 754, and the one NaN pattern of E4M3. -/
structure Fmt where
  eb : Nat
  mb : Nat
  bias : Nat
  ieee : Bool
  e4m3 : Bool
  deriving DecidableEq, Repr

def fmtF64 : Fmt := { eb := 11, mb := 52, bias := 1023, ieee := true, e4m3 := false }
def fmtF32 : Fmt := { eb := 8, mb := 23, bias := 127, ieee := true, e4m3 := false }
def fmtF16 : Fmt := { eb := 5, mb := 10, bias := 15, ieee := true, e4m3 := false }
def fmtBf16 : Fmt := { eb := 8, mb := 7, bias := 127, ieee := true, e4m3 := false }
def fmtE5m2 : Fmt := { eb := 5, mb := 2, bias := 15, ieee := true, e4m3 := false }
def fmtE4m3 : Fmt := { eb := 4, mb := 3, bias := 7, ieee := false, e4m3 := true }
def fmtE3m2 : Fmt := { eb := 3, mb := 2, bias := 3, ieee := false, e4m3 := false }
def fmtE2m3 : Fmt := { eb := 2, mb := 3, bias := 1, ieee := false, e4m3 := false }
def fmtE2m1 : Fmt := { eb := 2, mb := 1, bias := 1, ieee := false, e4m3 := false }

/-- The format of a float type (packed pairs give their element's). -/
def Fmt.ofTy : Ty → Option Fmt
  | .f64 => some fmtF64
  | .f32 => some fmtF32
  | .f16 | .f16x2 => some fmtF16
  | .bf16 | .bf16x2 => some fmtBf16
  | .e5m2 => some fmtE5m2
  | .e4m3 => some fmtE4m3
  | .e3m2 => some fmtE3m2
  | .e2m3 => some fmtE2m3
  | .e2m1 => some fmtE2m1
  | _ => none

/-- Total bits of a format. -/
def Fmt.bits (f : Fmt) : Nat := 1 + f.eb + f.mb
/-- The pattern with a sign. -/
def Fmt.sgn (f : Fmt) (neg : Bool) (x : Nat) : Nat := if neg then 2 ^ (f.eb + f.mb) + x else x
/-- The canonical NaN (Table 4.3); +0 where the format has none (Table 4.4; log 20). -/
def Fmt.nan (f : Fmt) : Nat := if f.ieee then (2 ^ f.eb - 1) * 2 ^ f.mb + 2 ^ (f.mb - 1) else if f.e4m3 then 0x7F else 0
/-- The pattern of the largest finite magnitude. -/
def Fmt.maxPat (f : Fmt) : Nat :=
  if f.ieee then (2 ^ f.eb - 1) * 2 ^ f.mb - 1 else if f.e4m3 then 0x7E else 2 ^ (f.eb + f.mb) - 1
/-- ±∞, or ±largest finite in a format without infinities. -/
def Fmt.inf (f : Fmt) (neg : Bool) : Nat := f.sgn neg (if f.ieee then (2 ^ f.eb - 1) * 2 ^ f.mb else f.maxPat)
/-- Exponent of the smallest normal. -/
def Fmt.emin (f : Fmt) : Int := 1 - (f.bias : Int)

/-- A floating-point value: a NaN (signalling or not), an infinity, or exactly ±m·2^e. -/
inductive FVal
  | nan (signalling : Bool)
  | inf (neg : Bool)
  | num (neg : Bool) (m : Nat) (e : Int)
  deriving DecidableEq, Repr

/-- The value of a pattern (R103, R104). -/
def Fmt.value (f : Fmt) (x : Nat) : FVal :=
  let neg := (x / 2 ^ (f.eb + f.mb)) % 2 == 1
  let E := x / 2 ^ f.mb % 2 ^ f.eb
  let M := x % 2 ^ f.mb
  if f.ieee && E == 2 ^ f.eb - 1 then
    if M = 0 then .inf neg else .nan (decide (M < 2 ^ (f.mb - 1)))
  else if f.e4m3 && E == 15 && M == 7 then .nan false
  else if E = 0 then .num neg M (f.emin - f.mb)
  else .num neg (2 ^ f.mb + M) ((E : Int) - f.bias - f.mb)

/-- Whether a value is a non-zero number below the smallest normal. -/
def Fmt.subnormal (f : Fmt) : FVal → Bool
  | .num _ m e => decide (m ≠ 0) && decide (e + (Nat.log2 m : Int) < f.emin)
  | _ => false

/-- A subnormal input flushed to a zero of its sign under .ftz (R108). -/
def Fmt.flush (f : Fmt) (ftz : Bool) (v : FVal) : FVal :=
  match v with
  | .num neg _ e => if ftz && f.subnormal v then .num neg 0 e else v
  | v => v

/-- An input of an operation: its value, flushed if .ftz is in effect. -/
def Fmt.input (f : Fmt) (ftz : Bool) (x : W64) : FVal := f.flush ftz (f.value (x.toNat % 2 ^ f.bits))

/-! ### Rounding (R106 to R108) -/

/-- ⌊m·2^-sh⌋ rounded up when the mode says so for the discarded part. -/
def roundShift (r : Rnd) (neg : Bool) (m sh : Nat) : Nat × Bool :=
  let q := m / 2 ^ sh
  let rem := m % 2 ^ sh
  let half := 2 ^ (sh - 1)
  let up := match r with
    | .rn => decide (sh ≠ 0) && (decide (half < rem) || (decide (rem = half) && decide (q % 2 = 1)))
    | .rz => false
    | .rd => neg && decide (rem ≠ 0)
    | .ru => !neg && decide (rem ≠ 0)
  (if up then q + 1 else q, decide (rem ≠ 0))

/-- What overflow gives (R107). -/
def Fmt.overflow (f : Fmt) (r : Rnd) (neg : Bool) : Nat :=
  let inf := match r with
    | .rn => true
    | .rz => false
    | .ru => !neg
    | .rd => neg
  if inf then f.inf neg else f.sgn neg f.maxPat

/-- The significand of the largest finite value, and its exponent of the last place. -/
def Fmt.maxSig (f : Fmt) : Nat := if f.e4m3 then 14 else 2 ^ (f.mb + 1) - 1
def Fmt.maxQ (f : Fmt) : Int := (if f.ieee then (2 ^ f.eb - 2 : Int) else 2 ^ f.eb - 1) - f.bias - f.mb

/-- Rounds exactly ±m·2^e once to a format (R106), with the flags nx, of and uf; under .ftz a tiny result becomes zero (R108). -/
def Fmt.round (f : Fmt) (r : Rnd) (ftz : Bool) (neg : Bool) (m : Nat) (e : Int) : Nat × W32 :=
  if m = 0 then (f.sgn neg 0, 0)
  else
    let E := e + (Nat.log2 m : Int)
    let tiny := decide (E < f.emin)
    if ftz && tiny then (f.sgn neg 0, fUf ||| fNx)
    else
      let q := (if tiny then f.emin else E) - f.mb
      let (s, nx) := if q ≤ e then (m * 2 ^ (e - q).toNat, false) else roundShift r neg m (q - e).toNat
      if f.maxQ < q ∨ (f.maxQ = q ∧ f.maxSig < s) then (f.overflow r neg, fOf ||| fNx)
      else
        let (s, q) := if 2 ^ (f.mb + 1) ≤ s then (s / 2, q + 1) else (s, q)
        let pat := if s < 2 ^ f.mb then s else (q + f.mb + f.bias).toNat * 2 ^ f.mb + (s - 2 ^ f.mb)
        (f.sgn neg pat, flagIf nx fNx ||| flagIf (tiny && nx) fUf)

/-- A rounded result as a register value. -/
def Fmt.res (f : Fmt) (r : Rnd) (ftz : Bool) (neg : Bool) (m : Nat) (e : Int) (flags : W32) : Res :=
  let x := f.round r ftz neg m e
  { val := BitVec.ofNat 64 x.1, flags := x.2 ||| flags }

/-- The canonical NaN with flags. -/
def Fmt.nanRes (f : Fmt) (flags : W32) : Res := { val := BitVec.ofNat 64 f.nan, flags := flags }
/-- An infinity with flags. -/
def Fmt.infRes (f : Fmt) (neg : Bool) (flags : W32) : Res := { val := BitVec.ofNat 64 (f.inf neg), flags := flags }

/-- m·2^e and a little more: the remainder of a computation that is known not to be exact. The mantissa must already hold more bits than any format. -/
def jam (m : Nat) (e : Int) (inexact : Bool) : Nat × Int := if inexact then (2 * m + 1, e - 1) else (m, e)

/-! ### Exact arithmetic -/

def FVal.isNan : FVal → Bool
  | .nan _ => true
  | _ => false
def FVal.isSnan : FVal → Bool
  | .nan s => s
  | _ => false
def FVal.isInf : FVal → Bool
  | .inf _ => true
  | _ => false
def FVal.isZero : FVal → Bool
  | .num _ m _ => decide (m = 0)
  | _ => false
def FVal.neg : FVal → Bool
  | .nan _ => false
  | .inf n => n
  | .num n _ _ => n
def FVal.negate : FVal → FVal
  | .nan s => .nan s
  | .inf n => .inf (!n)
  | .num n m e => .num (!n) m e
def FVal.mag : FVal → FVal
  | .nan s => .nan s
  | .inf _ => .inf false
  | .num _ m e => .num false m e

/-- A signed mantissa at a given, lower exponent. -/
def scaleTo (neg : Bool) (m : Nat) (e lo : Int) : Int :=
  let x : Int := (m * 2 ^ (e - lo).toNat : Nat)
  if neg then -x else x

/-- nv when an input is a signalling NaN (R105). -/
def snanFlag (l : List FVal) : W32 := flagIf (l.any (·.isSnan)) fNv

/-- The exact sum of numbers, rounded once; `zneg` is the sign of an exact zero (R189). -/
def Fmt.sumRes (f : Fmt) (r : Rnd) (ftz : Bool) (terms : List (Bool × Nat × Int)) : Res :=
  let lo := terms.foldl (fun l t => if t.2.2 < l then t.2.2 else l) 0
  let x := terms.foldl (fun s t => s + scaleTo t.1 t.2.1 t.2.2 lo) 0
  if x = 0 then
    let neg := if terms.all (fun t => t.2.1 == 0 && t.1) then true
      else if terms.all (fun t => t.2.1 == 0 && !t.1) then false else decide (r = .rd)
    { val := BitVec.ofNat 64 (f.sgn neg 0), flags := 0 }
  else f.res r ftz (decide (x < 0)) x.natAbs lo 0

/-- Addition (R189). -/
def Fmt.add (f : Fmt) (r : Rnd) (ftz : Bool) (a b : FVal) : Res :=
  match a, b with
  | .nan _, _ | _, .nan _ => f.nanRes (snanFlag [a, b])
  | .inf x, .inf y => if x = y then f.infRes x 0 else f.nanRes fNv
  | .inf x, .num _ _ _ => f.infRes x 0
  | .num _ _ _, .inf y => f.infRes y 0
  | .num x m e, .num y n d => f.sumRes r ftz [(x, m, e), (y, n, d)]

/-- Multiplication (R189). -/
def Fmt.mul (f : Fmt) (r : Rnd) (ftz : Bool) (a b : FVal) : Res :=
  match a, b with
  | .nan _, _ | _, .nan _ => f.nanRes (snanFlag [a, b])
  | .inf x, .inf y => f.infRes (x != y) 0
  | .inf x, .num y n _ => if n = 0 then f.nanRes fNv else f.infRes (x != y) 0
  | .num x m _, .inf y => if m = 0 then f.nanRes fNv else f.infRes (x != y) 0
  | .num x m e, .num y n d => f.res r ftz (x != y) (m * n) (e + d) 0

/-- The exact product of two values, for sums of products; `none` is 0 × ∞. -/
def FVal.times (a b : FVal) : Option FVal :=
  match a, b with
  | .nan s, .nan t => some (.nan (s || t))
  | .nan s, _ | _, .nan s => some (.nan s)
  | .inf x, .inf y => some (.inf (x != y))
  | .inf x, .num y n _ => if n = 0 then none else some (.inf (x != y))
  | .num x m _, .inf y => if m = 0 then none else some (.inf (x != y))
  | .num x m e, .num y n d => some (.num (x != y) (m * n) (e + d))

/-- A sum of products and a term, rounded once, with the cases of fusedMultiplyAdd (R189, R192): a product 0 × ∞ is invalid even beside a quiet NaN. DESIGN CHOICE (log 83): infinite terms of opposite sign beside a quiet NaN set no nv. -/
def Fmt.fused (f : Fmt) (r : Rnd) (ftz : Bool) (prods : List (FVal × FVal)) (c : FVal) : Res :=
  let ins := c :: prods.flatMap fun p => [p.1, p.2]
  let ps := prods.map fun p => p.1.times p.2
  let nv := snanFlag ins ||| flagIf (ps.any (·.isNone)) fNv
  if ins.any (·.isNan) || ps.any (·.isNone) then f.nanRes nv
  else
    let ts := c :: ps.filterMap id
    if ts.any (fun t => t == .inf false) && ts.any (fun t => t == .inf true) then f.nanRes fNv
    else if ts.any (fun t => t == .inf false) then f.infRes false 0
    else if ts.any (fun t => t == .inf true) then f.infRes true 0
    else f.sumRes r ftz (ts.map fun t => match t with
      | .num n m e => (n, m, e)
      | _ => (false, 0, 0))

/-- m1/m2 to more bits than any format, with the inexact rest jammed. -/
def quotient (m1 : Nat) (e1 : Int) (m2 : Nat) (e2 : Int) : Nat × Int :=
  let k := 128 + Nat.log2 m2
  jam (m1 * 2 ^ k / m2) (e1 - e2 - k) (decide (m1 * 2 ^ k % m2 ≠ 0))

/-- Division (R189). -/
def Fmt.div (f : Fmt) (r : Rnd) (ftz : Bool) (a b : FVal) : Res :=
  match a, b with
  | .nan _, _ | _, .nan _ => f.nanRes (snanFlag [a, b])
  | .inf _, .inf _ => f.nanRes fNv
  | .inf x, .num y _ _ => f.infRes (x != y) 0
  | .num x _ _, .inf y => { val := BitVec.ofNat 64 (f.sgn (x != y) 0), flags := 0 }
  | .num x m e, .num y n d =>
    if n = 0 then (if m = 0 then f.nanRes fNv else f.infRes (x != y) fDz)
    else if m = 0 then { val := BitVec.ofNat 64 (f.sgn (x != y) 0), flags := 0 }
    else
      let q := quotient m e n d
      f.res r ftz (x != y) q.1 q.2 0

/-- One step of the integer square root, from the high bit down. -/
def isqrtLoop (x : Nat) : (bit acc : Nat) → Nat
  | 0, acc => acc
  | b + 1, acc => if (acc + 2 ^ b) * (acc + 2 ^ b) ≤ x then isqrtLoop x b (acc + 2 ^ b) else isqrtLoop x b acc
/-- ⌊√x⌋. -/
def isqrt (x : Nat) : Nat := isqrtLoop x (Nat.log2 x / 2 + 1) 0

/-- √(m·2^e) to more bits than any format. -/
def rootOf (m : Nat) (e : Int) : Nat × Int :=
  let m := if e % 2 = 0 then m else 2 * m
  let e := if e % 2 = 0 then e else e - 1
  let x := m * 2 ^ 256
  let q := isqrt x
  jam q (e / 2 - 128) (decide (q * q ≠ x))

/-- Square root (R189). -/
def Fmt.sqrt (f : Fmt) (r : Rnd) (ftz : Bool) (a : FVal) : Res :=
  match a with
  | .nan s => f.nanRes (flagIf s fNv)
  | .inf n => if n then f.nanRes fNv else f.infRes false 0
  | .num n m e =>
    if m = 0 then { val := BitVec.ofNat 64 (f.sgn n 0), flags := 0 }
    else if n then f.nanRes fNv
    else let q := rootOf m e; f.res r ftz false q.1 q.2 0

/-- Reciprocal square root (R189). -/
def Fmt.rsqrt (f : Fmt) (r : Rnd) (ftz : Bool) (a : FVal) : Res :=
  match a with
  | .nan s => f.nanRes (flagIf s fNv)
  | .inf n => if n then f.nanRes fNv else { val := 0, flags := 0 }
  | .num n m e =>
    if m = 0 then f.infRes n fDz
    else if n then f.nanRes fNv
    else
      let m := if e % 2 = 0 then m else 2 * m
      let e := if e % 2 = 0 then e else e - 1
      let k := 128 + Nat.log2 m
      let x := 2 ^ (2 * k) / m
      let q := isqrt x
      let j := jam q (-(e / 2) - k) (decide (q * q ≠ x) || decide (2 ^ (2 * k) % m ≠ 0))
      f.res r ftz false j.1 j.2 0

/-! ### Comparison, minimum, maximum -/

/-- Numeric order of two values that are not NaN; −0 equals +0. -/
def FVal.lt (a b : FVal) : Bool :=
  match a, b with
  | .nan _, _ | _, .nan _ => false
  | .inf x, .inf y => x && !y
  | .inf x, .num _ _ _ => x
  | .num _ _ _, .inf y => !y
  | .num x m e, .num y n d =>
    let lo := if e < d then e else d
    decide (scaleTo x m e lo < scaleTo y n d lo)
/-- Equal numbers; −0 equals +0. -/
def FVal.eqv (a b : FVal) : Bool := !a.isNan && !b.isNan && !a.lt b && !b.lt a
/-- Order for minimum and maximum: −0 below +0 (R105). -/
def FVal.below (a b : FVal) : Bool := a.lt b || (a.isZero && b.isZero && a.neg && !b.neg)

/-- The pattern of a value of the format itself. -/
def Fmt.pat (f : Fmt) (v : FVal) : Nat :=
  match v with
  | .nan _ => f.nan
  | .inf n => f.inf n
  | .num n m e => (f.round .rn false n m e).1
/-- A value of the format as a result. -/
def Fmt.ofVal (f : Fmt) (v : FVal) (flags : W32) : Res := { val := BitVec.ofNat 64 (f.pat v), flags := flags }

/-- minimumNumber and maximumNumber (R105, R190). -/
def FVal.minNum (a b : FVal) : FVal :=
  match a, b with
  | .nan s, .nan t => .nan (s || t)
  | .nan _, b => b
  | a, .nan _ => a
  | a, b => if b.below a then b else a
def FVal.maxNum (a b : FVal) : FVal :=
  match a, b with
  | .nan s, .nan t => .nan (s || t)
  | .nan _, b => b
  | a, .nan _ => a
  | a, b => if a.below b then b else a
def Fmt.min (f : Fmt) (a b : FVal) : Res := f.ofVal (a.minNum b) (snanFlag [a, b])
def Fmt.max (f : Fmt) (a b : FVal) : Res := f.ofVal (a.maxNum b) (snanFlag [a, b])

/-- Rounds to an integral value in the format (R193). -/
def Fmt.toIntegral (f : Fmt) (r : Rnd) (x : Bool) (a : FVal) : Res :=
  match a with
  | .nan s => f.nanRes (flagIf s fNv)
  | .inf n => f.infRes n 0
  | .num n m e =>
    if 0 ≤ e ∨ m = 0 then f.ofVal a 0
    else
      let q := roundShift r n m (-e).toNat
      { val := BitVec.ofNat 64 (f.round .rn false n q.1 0).1, flags := flagIf (x && q.2) fNx }

/-! ### Transcendental functions (R196) -/

/-- Working precision in bits after the binary point. -/
def tp : Nat := 640
/-- ⌊(π/2)·2^640⌋ -/
def halfPi : Nat := 7166664963380783727887865350899649915563065761450709164855436847124101877928951947489229989474418519168592235180394551152626136545096354515382124214146388240116051238163776092789750994438183638
/-- ⌊ln 2 · 2^640⌋ -/
def ln2 : Nat := 3162442850577000144542819255265044123884198300717798677536341180773118696995660441338367561063358767323571958122307070903190084685977847936741854327993944726832264493303953239866611699627604094

/-- Σ x^k/k! from a term on, in fixed point. -/
def expLoop (x : Nat) : (n k term sum : Nat) → Nat
  | 0, _, _, sum => sum
  | n + 1, k, term, sum => expLoop x n (k + 1) (term * x / 2 ^ tp / k) (sum + term)
/-- e^x for 0 ≤ x < 1, in fixed point. -/
def expFix (x : Nat) : Nat := expLoop x 130 1 (2 ^ tp) 0

/-- Alternating series of sine (first term x, k = 1) or cosine (first term 1, k = 0). -/
def trigLoop (x2 : Nat) : (n k term : Nat) → (plus : Bool) → (pos neg : Nat) → Nat × Nat
  | 0, _, _, _, p, q => (p, q)
  | n + 1, k, term, plus, p, q =>
    trigLoop x2 n (k + 2) (term * x2 / 2 ^ tp / ((k + 1) * (k + 2))) (!plus) (if plus then p + term else p) (if plus then q else q + term)
/-- sin x and cos x for 0 ≤ x < π/2, in fixed point. -/
def sinFix (x : Nat) : Nat := let r := trigLoop (x * x / 2 ^ tp) 80 1 x true 0 0; r.1 - r.2
def cosFix (x : Nat) : Nat := let r := trigLoop (x * x / 2 ^ tp) 80 0 (2 ^ tp) true 0 0; r.1 - r.2

/-- log₂ of 1 ≤ y < 2, bit by bit by squaring, in fixed point. -/
def log2Loop : (n y acc : Nat) → Nat
  | 0, _, acc => acc
  | n + 1, y, acc =>
    let y2 := y * y / 2 ^ tp
    if 2 ^ (tp + 1) ≤ y2 then log2Loop n (y2 / 2) (2 * acc + 1) else log2Loop n y2 (2 * acc)

/-- 2^a (R196, Table 7.3). -/
def Fmt.exp2 (f : Fmt) (ftz : Bool) (a : FVal) : Res :=
  match a with
  | .nan s => f.nanRes (flagIf s fNv)
  | .inf n => if n then { val := 0, flags := 0 } else f.infRes false 0
  | .num n m e =>
    if m = 0 then f.res .rn ftz false 1 0 0
    else if 11 ≤ e + (Nat.log2 m : Int) then f.res .rn ftz false 1 (if n then -4096 else 4096) 0
    else
      let x := if 0 ≤ e + tp then m * 2 ^ (e + tp).toNat else m / 2 ^ (-(e + tp)).toNat
      let i := x / 2 ^ tp
      let fr := x % 2 ^ tp
      if fr = 0 then f.res .rn ftz false 1 (if n then -(i : Int) else i) 0
      else
        let (i, fr) : Int × Nat := if n then (-(i : Int) - 1, 2 ^ tp - fr) else (i, fr)
        f.res .rn ftz false (2 * expFix (fr * ln2 / 2 ^ tp) + 1) (i - tp - 1) 0

/-- log₂ a (R196, Table 7.3). -/
def Fmt.log2 (f : Fmt) (ftz : Bool) (a : FVal) : Res :=
  match a with
  | .nan s => f.nanRes (flagIf s fNv)
  | .inf n => if n then f.nanRes fNv else f.infRes false 0
  | .num n m e =>
    if m = 0 then f.infRes true fDz
    else if n then f.nanRes fNv
    else
      let L := Nat.log2 m
      let E := e + (L : Int)
      if m = 2 ^ L then f.res .rn ftz (decide (E < 0)) E.natAbs 0 0
      else
        let y := m * 2 ^ (tp - L)
        let x : Int := E * 2 ^ 320 + (log2Loop 320 y 0 : Nat)
        if 0 ≤ x then f.res .rn ftz false (2 * x.natAbs + 1) (-321) 0
        else f.res .rn ftz true (2 * (x.natAbs - 1) + 1) (-321) 0

/-- a reduced exactly: the quadrant and the remainder of |a| by π/2, in fixed point (R196). -/
def reduceAngle (m : Nat) (e : Int) : Nat × Nat :=
  let x := m * 2 ^ (e + tp).toNat
  (x / halfPi, x % halfPi)

/-- sin a and cos a, correctly rounded (R196). -/
def Fmt.sin (f : Fmt) (ftz : Bool) (a : FVal) : Res :=
  match a with
  | .nan s => f.nanRes (flagIf s fNv)
  | .inf _ => f.nanRes fNv
  | .num n m e =>
    if m = 0 then { val := BitVec.ofNat 64 (f.sgn n 0), flags := 0 }
    else
      let r := reduceAngle m e
      let x := if r.1 % 2 = 0 then sinFix r.2 else cosFix r.2
      f.res .rn ftz (n != decide (r.1 % 4 ≥ 2)) (2 * x + 1) (-(tp : Int) - 1) 0
def Fmt.cos (f : Fmt) (ftz : Bool) (a : FVal) : Res :=
  match a with
  | .nan s => f.nanRes (flagIf s fNv)
  | .inf _ => f.nanRes fNv
  | .num _ m e =>
    if m = 0 then f.res .rn ftz false 1 0 0
    else
      let r := reduceAngle m e
      let x := if r.1 % 2 = 0 then cosFix r.2 else sinFix r.2
      f.res .rn ftz (decide (r.1 % 4 = 1) || decide (r.1 % 4 = 2)) (2 * x - 1) (-(tp : Int) - 1) 0

/-- tanh a, correctly rounded (R196): (e^2a − 1) / (e^2a + 1). -/
def Fmt.tanh (f : Fmt) (ftz : Bool) (a : FVal) : Res :=
  match a with
  | .nan s => f.nanRes (flagIf s fNv)
  | .inf n => f.res .rn ftz n 1 0 0
  | .num n m e =>
    if m = 0 then { val := BitVec.ofNat 64 (f.sgn n 0), flags := 0 }
    else if 6 ≤ e + (Nat.log2 m : Int) then f.res .rn ftz n (2 ^ 128 - 1) (-128) 0
    else
      let z := m * 2 ^ (e + tp + 1).toNat
      let k := z / ln2
      let E := expFix (z % ln2) * 2 ^ k
      let num := E - 2 ^ tp
      let den := E + 2 ^ tp
      let q := quotient num 0 den 0
      f.res .rn ftz n (2 * q.1 - 1) (q.2 - 1) 0

end Sys2Proof.Machine
end

