-- ==== Sys2Proof/Machine/Flags.lean ====
section
/-! DEFINITION. Integer and bit results with the flags they raise: R102, R168 to R171, R173 to R176, and float class and compare (R178 to R180). -/
namespace Sys2Proof.Machine

/-- Width of an integer or bit type. -/
def Ty.width : Ty → Nat
  | .s8 | .z8 => 8
  | .s16 | .z16 => 16
  | .s64 | .z64 | .b64 => 64
  | _ => 32

/-- A signed integer type. -/
def Ty.signed : Ty → Bool
  | .s8 | .s16 | .s32 | .s64 => true
  | _ => false

/-- A source value at the type's width and signedness (R102). -/
def intOf (t : Ty) (x : W64) : Int :=
  let w := Ty.width t
  let n := x.toNat % 2 ^ w
  if Ty.signed t && decide (2 ^ (w - 1) ≤ n) then (n : Int) - 2 ^ w else n

/-- A result reduced modulo 2^w and extended to 64 bits (R102). -/
def ofInt (t : Ty) (x : Int) : W64 :=
  let w := Ty.width t
  let n := (x % 2 ^ w).toNat
  if Ty.signed t && decide (2 ^ (w - 1) ≤ n) then BitVec.ofInt 64 ((n : Int) - 2 ^ w) else BitVec.ofNat 64 n

/-- The bounds of an integer type (Table 4.1). -/
def tyMin (t : Ty) : Int := if Ty.signed t then -(2 ^ (Ty.width t - 1)) else 0
def tyMax (t : Ty) : Int := if Ty.signed t then 2 ^ (Ty.width t - 1) - 1 else 2 ^ Ty.width t - 1

/-- A result with saturation where .sat is set (R169). -/
def intRes (t : Ty) (sat : Bool) (x : Int) : Res :=
  if sat && decide (x < tyMin t) then { val := ofInt t (tyMin t), flags := fSat }
  else if sat && decide (tyMax t < x) then { val := ofInt t (tyMax t), flags := fSat }
  else Res.plain (ofInt t x)

/-- The operations of R169 on exact values. -/
def iaddOp (t : Ty) (sat : Bool) (a b _c : W64) : Res := intRes t sat (intOf t a + intOf t b)
def isubOp (t : Ty) (sat : Bool) (a b _c : W64) : Res := intRes t sat (intOf t a - intOf t b)
def imulOp (t : Ty) (_ : Bool) (a b _c : W64) : Res := intRes t false (intOf t a * intOf t b)
def imulhOp (t : Ty) (_ : Bool) (a b _c : W64) : Res := intRes t false (Int.fdiv (intOf t a * intOf t b) (2 ^ Ty.width t))
def imadOp (t : Ty) (_ : Bool) (a b c : W64) : Res := intRes t false (intOf t a * intOf t b + intOf t c)
def isadOp (t : Ty) (_ : Bool) (a b c : W64) : Res := intRes t false ((intOf t a - intOf t b).natAbs + intOf t c)
def iminOp (t : Ty) (_ : Bool) (a b _c : W64) : Res := intRes t false (if intOf t b < intOf t a then intOf t b else intOf t a)
def imaxOp (t : Ty) (_ : Bool) (a b _c : W64) : Res := intRes t false (if intOf t a < intOf t b then intOf t b else intOf t a)
def iclampOp (t : Ty) (_ : Bool) (a b c : W64) : Res :=
  let m := if intOf t a < intOf t b then intOf t b else intOf t a
  intRes t false (if intOf t c < m then intOf t c else m)
def iabsOp (t : Ty) (sat : Bool) (a _b _c : W64) : Res := intRes t sat (intOf t a).natAbs
def inegOp (t : Ty) (sat : Bool) (a _b _c : W64) : Res := intRes t sat (-(intOf t a))
def movOp (t : Ty) (_ : Bool) (a _b _c : W64) : Res := intRes t false (intOf t a)

/-- Division (R171, Table 6.4). -/
def idivOp (t : Ty) (_ : Bool) (a b _c : W64) : Res :=
  let x := intOf t a
  let y := intOf t b
  if y = 0 then { val := 0, flags := fDz }
  else if Ty.signed t ∧ x = tyMin t ∧ y = -1 then { val := ofInt t x, flags := fOf }
  else Res.plain (ofInt t (Int.tdiv x y))
/-- Remainder (R171, Table 6.4). -/
def iremOp (t : Ty) (_ : Bool) (a b _c : W64) : Res :=
  let x := intOf t a
  let y := intOf t b
  if y = 0 then { val := ofInt t x, flags := fDz }
  else if Ty.signed t ∧ x = tyMin t ∧ y = -1 then Res.plain 0
  else Res.plain (ofInt t (Int.tmod x y))

/-- Sum with carry, or difference with borrow, and the carry out (R170). -/
def carryAdd (t : Ty) (a b : W64) (cin : Bool) : W64 × Bool :=
  let w := Ty.width t
  let u := a.toNat % 2 ^ w + b.toNat % 2 ^ w + cin.toNat
  (ofInt t u, decide (2 ^ w ≤ u))
def carrySub (t : Ty) (a b : W64) (cin : Bool) : W64 × Bool :=
  let w := Ty.width t
  let u : Int := (a.toNat % 2 ^ w : Nat) - (b.toNat % 2 ^ w : Nat) - (cin.toNat : Nat)
  (ofInt t u, decide (u < 0))

/-! ### Bits (R174 to R176) -/

/-- A value's low w bits. -/
def lowBits (w : Nat) (x : W64) : Nat := x.toNat % 2 ^ w
/-- A number as a bit-type result at width w. -/
def bitRes (w n : Nat) : Res := Res.plain (BitVec.ofNat 64 (n % 2 ^ w))

def andOp (t : Ty) (_ : Bool) (a b _c : W64) : Res := bitRes (Ty.width t) (a &&& b).toNat
def orOp (t : Ty) (_ : Bool) (a b _c : W64) : Res := bitRes (Ty.width t) (a ||| b).toNat
def xorOp (t : Ty) (_ : Bool) (a b _c : W64) : Res := bitRes (Ty.width t) (a ^^^ b).toNat
def notOp (t : Ty) (_ : Bool) (a _b _c : W64) : Res := bitRes (Ty.width t) (~~~a).toNat
def shlOp (t : Ty) (_ : Bool) (a b _c : W64) : Res :=
  let w := Ty.width t
  let s := lowBits 32 b
  bitRes w (if w ≤ s then 0 else lowBits w a * 2 ^ s)
def shrOp (t : Ty) (_ : Bool) (a b _c : W64) : Res :=
  let w := Ty.width t
  let s := lowBits 32 b
  bitRes w (if w ≤ s then 0 else lowBits w a / 2 ^ s)
def sraOp (t : Ty) (_ : Bool) (a b _c : W64) : Res :=
  let w := Ty.width t
  let s := lowBits 32 b
  let n := lowBits w a
  let x : Int := if 2 ^ (w - 1) ≤ n then (n : Int) - 2 ^ w else n
  bitRes w (Int.fdiv x (2 ^ (if w ≤ s then w else s)) % 2 ^ w).toNat
def rotlOp (t : Ty) (_ : Bool) (a b _c : W64) : Res :=
  let w := Ty.width t
  let s := lowBits 32 b % w
  let n := lowBits w a
  bitRes w (if s = 0 then n else n * 2 ^ s % 2 ^ w + n / 2 ^ (w - s))
def popcOp (t : Ty) (_ : Bool) (a _b _c : W64) : Res := bitRes (Ty.width t) (popc a (Ty.width t))
def clzOp (t : Ty) (_ : Bool) (a _b _c : W64) : Res :=
  let w := Ty.width t
  let n := lowBits w a
  bitRes w (if n = 0 then w else w - 1 - Nat.log2 n)
def ctzOp (t : Ty) (_ : Bool) (a _b _c : W64) : Res :=
  let w := Ty.width t
  bitRes w (((List.range w).find? fun i => bitAt a i).getD w)
def brevOp (t : Ty) (_ : Bool) (a _b _c : W64) : Res :=
  let w := Ty.width t
  bitRes w ((List.range w).foldl (fun acc i => if bitAt a (w - 1 - i) then acc + 2 ^ i else acc) 0)
def bextOp (t : Ty) (sx : Bool) (a b _c : W64) : Res :=
  let w := Ty.width t
  let p := fld b 0 8
  let n := fld b 8 8
  if w ≤ p ∨ n = 0 then bitRes w 0
  else
    let n' := if w - p < n then w - p else n
    let f := lowBits w a / 2 ^ p % 2 ^ n'
    bitRes w (if sx && decide (2 ^ (n' - 1) ≤ f) then f + 2 ^ w - 2 ^ n' else f)
def binsOp (t : Ty) (_ : Bool) (a b c : W64) : Res :=
  let w := Ty.width t
  let p := fld c 0 8
  let n := fld c 8 8
  let y := lowBits w b
  if w ≤ p ∨ n = 0 then bitRes w y
  else
    let n' := if w - p < n then w - p else n
    bitRes w (y - y / 2 ^ p % 2 ^ n' * 2 ^ p + lowBits w a % 2 ^ n' * 2 ^ p)
def bselOp (t : Ty) (_ : Bool) (a b c : W64) : Res := bitRes (Ty.width t) ((a &&& c) ||| (b &&& ~~~c)).toNat

/-- The three-input bit function (R175). -/
def bfnOp (t : Ty) (table : BitVec 8) (a b d : W64) : Res :=
  let w := Ty.width t
  bitRes w ((List.range w).foldl (fun acc i =>
    let j := (if bitAt a i then 4 else 0) + (if bitAt b i then 2 else 0) + (if bitAt d i then 1 else 0)
    if bitAt table j then acc + 2 ^ i else acc) 0)

/-! ### Compare (R178 to R180) -/

/-- An integer condition (Table 6.7). -/
def icmpOp (t : Ty) (cc : Cond) (a b : W64) : Bool :=
  let x := intOf t a
  let y := intOf t b
  match cc with
  | .eq => decide (x = y)
  | .ne => decide (x ≠ y)
  | .lt => decide (x < y)
  | .le => decide (x ≤ y)
  | .gt => decide (y < x)
  | .ge => decide (y ≤ x)
  | .ord | .unord => false

/-- A float condition and its flag (Table 6.7, R179). -/
def fcmpOp (f : Fmt) (ftz : Bool) (cc : Cond) (a b : W64) : Bool × W32 :=
  let x := f.input ftz a
  let y := f.input ftz b
  let un := x.isNan || y.isNan
  let sn := x.isSnan || y.isSnan
  let r := match cc with
    | .eq => x.eqv y
    | .ne => !x.eqv y
    | .lt => x.lt y
    | .le => x.lt y || x.eqv y
    | .gt => y.lt x
    | .ge => y.lt x || x.eqv y
    | .ord => !un
    | .unord => un
  let loud := match cc with
    | .lt | .le | .gt | .ge => true
    | _ => false
  (r, flagIf (sn || (loud && un)) fNv)

/-- The class mask (R180). -/
def fclassOp (f : Fmt) (a : W64) : W64 :=
  let v := f.value (a.toNat % 2 ^ f.bits)
  let i := match v with
    | .nan s => if s then 8 else 9
    | .inf n => if n then 0 else 7
    | .num n m _ =>
      if m = 0 then (if n then 3 else 4)
      else if f.subnormal v then (if n then 2 else 5)
      else (if n then 1 else 6)
  BitVec.ofNat 64 (2 ^ i)

/-! ### Float operations by type, packed pairs included (R109, R188 to R196) -/

/-- Applies an operation to a scalar, or to both elements of a packed pair (R109, R185). -/
def floatOp (t : Ty) (op : Fmt → W64 → W64 → W64 → Res) (a b c : W64) : Res :=
  match Fmt.ofTy t with
  | none => Res.plain 0
  | some f =>
    if t = .f16x2 ∨ t = .bf16x2 then
      let lo := op f a b c
      let hi := op f (a >>> 16) (b >>> 16) (c >>> 16)
      { val := BitVec.ofNat 64 (lo.val.toNat % 2 ^ 16 + hi.val.toNat % 2 ^ 16 * 2 ^ 16), flags := lo.flags ||| hi.flags }
    else op f a b c

def faddOp (r : Rnd) (z : Bool) (f : Fmt) (a b _c : W64) : Res := f.add r z (f.input z a) (f.input z b)
def fsubOp (r : Rnd) (z : Bool) (f : Fmt) (a b _c : W64) : Res := f.add r z (f.input z a) (f.input z b).negate
def fmulOp (r : Rnd) (z : Bool) (f : Fmt) (a b _c : W64) : Res := f.mul r z (f.input z a) (f.input z b)
def fmaOp (r : Rnd) (z : Bool) (f : Fmt) (a b c : W64) : Res := f.fused r z [(f.input z a, f.input z b)] (f.input z c)
def fminOp (_ : Rnd) (z : Bool) (f : Fmt) (a b _c : W64) : Res := f.min (f.input z a) (f.input z b)
def fmaxOp (_ : Rnd) (z : Bool) (f : Fmt) (a b _c : W64) : Res := f.max (f.input z a) (f.input z b)
/-- `fabs` and `fneg` (R191). -/
def fabsOp (_ : Rnd) (z : Bool) (f : Fmt) (a _b _c : W64) : Res :=
  match f.input z a with
  | .nan s => f.nanRes (flagIf s fNv)
  | v => f.ofVal v.mag 0
def fnegOp (_ : Rnd) (z : Bool) (f : Fmt) (a _b _c : W64) : Res :=
  match f.input z a with
  | .nan s => f.nanRes (flagIf s fNv)
  | v => f.ofVal v.negate 0
/-- fmin(fmax(a, b), c) (R190): a NaN of the first step is canonical and quiet in the second. -/
def fclampOp (_ : Rnd) (z : Bool) (f : Fmt) (a b c : W64) : Res :=
  let x := f.max (f.input z a) (f.input z b)
  let y := f.min (f.input false x.val) (f.input z c)
  { y with flags := x.flags ||| y.flags }
def frcpOp (r : Rnd) (z : Bool) (f : Fmt) (a _b _c : W64) : Res := f.div r z (.num false 1 0) (f.input z a)
def frsqOp (r : Rnd) (z : Bool) (f : Fmt) (a _b _c : W64) : Res := f.rsqrt r z (f.input z a)
def fsqrtOp (r : Rnd) (z : Bool) (f : Fmt) (a _b _c : W64) : Res := f.sqrt r z (f.input z a)
def fdivOp (r : Rnd) (z : Bool) (f : Fmt) (a b _c : W64) : Res := f.div r z (f.input z a) (f.input z b)
def frndOp (x : Bool) (r : Rnd) (z : Bool) (f : Fmt) (a _b _c : W64) : Res := f.toIntegral r x (f.input z a)
def fex2Op (_ : Rnd) (z : Bool) (f : Fmt) (a _b _c : W64) : Res := f.exp2 z (f.input z a)
def flg2Op (_ : Rnd) (z : Bool) (f : Fmt) (a _b _c : W64) : Res := f.log2 z (f.input z a)
def fsinOp (_ : Rnd) (z : Bool) (f : Fmt) (a _b _c : W64) : Res := f.sin z (f.input z a)
def fcosOp (_ : Rnd) (z : Bool) (f : Fmt) (a _b _c : W64) : Res := f.cos z (f.input z a)
def ftanhOp (_ : Rnd) (z : Bool) (f : Fmt) (a _b _c : W64) : Res := f.tanh z (f.input z a)

/-- `fdot2` (R192): a and b as packed pairs of f16 or bf16, c as f32. -/
def fdot2Op (bf : Bool) (r : Rnd) (z : Bool) (a b c : W64) : Res :=
  let e := if bf then fmtBf16 else fmtF16
  fmtF32.fused r z [(e.input z a, e.input z b), (e.input z (a >>> 16), e.input z (b >>> 16))] (fmtF32.input z c)

end Sys2Proof.Machine
end

