-- ==== Sys2Proof/Config.lean ====
section
/-! DEFINITION. What one device or its firmware fixes and the manual does not state a value for. Every constant here is opaque: nothing can be proved about its value, so a statement holds whatever it is. -/
namespace Sys2Proof.Config

/-- The silicon revision of the device block (Table 16.3, `rev`). Log 3. -/
opaque siliconRev : BitVec 16

/-- The drawer set of a key: "a hash of its address" (R364). Log 3. -/
opaque drawerHash : Nat → BitVec 10

/-- The result of a translation of a Portable Form program (R434, R438): the two native slices and the descriptor values after translation. -/
structure Translation where
  acode : List Byte
  xcode : List Byte
  nv : Nat
  scratch : Nat
  width : Nat
  queues : List (Option (QDir × Nat))
  deriving DecidableEq, Repr, Inhabited

/-- The translator of the management firmware, a function of the program, its descriptor, the part and the translator version (R434). Its `scratch` is what it adds to the descriptor's. Log 4. -/
opaque translate : (version : Nat) → (program : List Byte) → (descriptor : List Byte) → Translation

/-- How many of the stores that it may precede a thread's store precedes in coherence order, by the store's number (R433). Log 4. -/
opaque storePlace : (store : Nat) → Nat

/-- A management firmware (R458): the image, its security version, the signer keys it holds for code objects, affine points of P-384 (R427), and its translator's version (R439). -/
structure Firmware where
  image : List Byte
  version : Nat
  signers : List (Nat × Nat)
  translator : Nat
  deriving DecidableEq, Repr, Inhabited

/-- The firmware of the device, and its signature. Log 5. -/
opaque firmware : Firmware
opaque firmwareSig : List Byte

/-- The vendor key, and the digest of it that is fused (R458, R464). Log 5. -/
opaque vendorKey : Nat × Nat
opaque vendorFuse : List Byte

/-- The fused unique secret, and the private key that the boot ROM derives from it and a firmware's digest (R461). Log 5. -/
opaque fusedSecret : List Byte
opaque deviceKey : (secret : List Byte) → (digest : List Byte) → BitVec 384

/-- The secret number of a signature by the identity key, by the digest signed. Log 5. -/
opaque signSecret : (digest : List Byte) → BitVec 384

/-- The certificates of the chain (R461): Novuegor's root, the device's in fuses, and the alias certificate that the ROM issues for an identity key. Log 5. -/
opaque rootCert : List Byte
opaque deviceCert : List Byte
opaque aliasCert : (key : Nat × Nat) → List Byte

/-- The region of device memory that the firmware reserves for translations (R439): its first page, and its bytes. Log 4. -/
opaque cachePage : BitVec 27
opaque cacheBytes : BitVec 39

/-- The digest of the boot ROM (Table 16.7). Log 5. -/
opaque romDigest : List Byte

/-- The digest of the training parameters of the n-th training (R457, Table 16.7). Log 5. -/
opaque trainingDigest : Nat → List Byte

/-- The signature of the parameters of the training before reset (R457). Log 5. -/
opaque trainingSig : List Byte

/-- The n-th nonce of the fuse raise block: 32 bytes (R464). Log 5. -/
opaque nonce : Nat → BitVec 256

/-- The body of an SPDM response: by request code and first parameter, the n-th answer (R462). Log 6. -/
opaque spdmBody : (code : BitVec 8) → (param : BitVec 8) → Nat → List Byte

/-- What a debug write of kind 12 stores: Table 14.13 gives ddata to its offset and names no field for its value (R424). A free value, one for each write. Log 32. -/
opaque debugWord : Nat → BitVec 64

/-- Whether a FINISH message's verify data is right for the n-th session (R462, R463). Log 6. -/
opaque finishOk : Nat → List Byte → Bool

/-- The syndrome a code reports for an error found at an index of an array (Table 12.6). Log 7. -/
opaque syndrome : (array : Nat) → (index : Nat) → BitVec 32

/-- The three check symbols of a 64-byte unit of HBM4E, by its data, its CRC and its pend bit: the symbol code is not given (Table 12.3). Log 7. -/
opaque checkSymbols : (data : List Byte) → (crc : BitVec 32) → (pend : Bool) → BitVec 24

end Sys2Proof.Config
end

