-- ==== Sys2Proof/Machine/Store.lean ====
section
/-! DEFINITION. The two containers the state is built from: sparse cells (memory bytes, register files, tiles), kept as strictly rising lists without an entry equal to what an unlisted key reads as, and tables of records by number. -/
namespace Sys2Proof.Machine

/-- Sparse cells of `w` bits by number. An unlisted cell reads as zero. -/
abbrev Cells (w : Nat) := List (Nat × BitVec w)

/-- Memory: a list of the host's cells (R8). -/
abbrev Mem := List Host.Cell

/-- The value of cell `k`: zero when it is not listed. -/
def Cells.get {w : Nat} (m : Cells w) (k : Nat) : BitVec w :=
  match m with
  | [] => 0
  | (a, x) :: r => if a = k then x else Cells.get r k

/-- Lists cell `k` in front of the first larger key. -/
def Cells.insert {w : Nat} (m : Cells w) (k : Nat) (x : BitVec w) : Cells w :=
  match m with
  | [] => [(k, x)]
  | (a, y) :: r => if k < a then (k, x) :: (a, y) :: r else (a, y) :: Cells.insert r k x

/-- Writes cell `k`, keeping the keys rising and no zero listed. -/
def Cells.set {w : Nat} (m : Cells w) (k : Nat) (x : BitVec w) : Cells w :=
  let m := m.filter fun e => e.1 != k
  if x = 0 then m else Cells.insert m k x

/-- Every key of `m` is above `lo`, the keys rise, and no listed value is zero. -/
def Cells.above {w : Nat} (lo : Nat) (m : Cells w) : Bool :=
  match m with
  | [] => true
  | (a, x) :: r => decide (lo ≤ a) && !(x == 0) && Cells.above (a + 1) r

/-- The canonical form: keys strictly rise and no listed cell is zero. -/
def Cells.wf {w : Nat} (m : Cells w) : Bool := m.above 0

/-- The canonical form of memory. -/
def Memory.wf (m : Mem) : Bool := Cells.wf m

/-- Writes a run of cells from key `k` on. -/
def Cells.setList {w : Nat} (m : Cells w) (k : Nat) : List (BitVec w) → Cells w
  | [] => m
  | x :: xs => (m.set k x).setList (k + 1) xs

/-- The values of `n` cells from key `k` on. -/
def Cells.getList {w : Nat} (m : Cells w) (k : Nat) : Nat → List (BitVec w)
  | 0 => []
  | n + 1 => m.get k :: m.getList (k + 1) n

/-- The cells whose key satisfies `p`. -/
def Cells.keep {w : Nat} (m : Cells w) (p : Nat → Bool) : Cells w := m.filter fun e => p e.1

/-- Records by number, numbers strictly rising. -/
abbrev Tbl (α : Type) := List (Nat × α)

/-- The record numbered `k`. -/
def Tbl.get? {α : Type} (t : Tbl α) (k : Nat) : Option α :=
  match t with
  | [] => none
  | (a, x) :: r => if a = k then some x else if k < a then none else Tbl.get? r k

/-- Puts the record numbered `k`. -/
def Tbl.set {α : Type} (t : Tbl α) (k : Nat) (x : α) : Tbl α :=
  match t with
  | [] => [(k, x)]
  | (a, y) :: r => if k < a then (k, x) :: (a, y) :: r else if k = a then (k, x) :: r else (a, y) :: Tbl.set r k x

/-- Removes the record numbered `k`. -/
def Tbl.erase {α : Type} (t : Tbl α) (k : Nat) : Tbl α := t.filter fun e => e.1 != k

/-- The numbers of the records, rising. -/
def Tbl.keys {α : Type} (t : Tbl α) : List Nat := t.map (·.1)

/-- Every number of `t` is at least `lo` and the numbers rise. -/
def Tbl.above {α : Type} (lo : Nat) (t : Tbl α) : Bool :=
  match t with
  | [] => true
  | (a, _) :: r => decide (lo ≤ a) && Tbl.above (a + 1) r

/-- The canonical form of a table. -/
def Tbl.wf {α : Type} (t : Tbl α) : Bool := Tbl.above 0 t

end Sys2Proof.Machine
end

