-- ==== Sys2Proof/Machine/State.lean ====
section
/-! DEFINITION. The state of the device as plain data, the reasons a step can stop, and the state after reset. -/
namespace Sys2Proof.Machine

/-! ### Splits -/

/-- A reconvergence stack entry (Table 1.3). `pc` is address bits [56:3]. Two fields are no part of the 16 bytes: `low`, address bits [2:0] as `wrs $tpc` last wrote them (R402), and `arr`, the lanes that have arrived at a reconvergence point in this split (R26 rule 3). -/
structure StackEntry where
  tag : BitVec 10
  pc : BitVec 54
  low : BitVec 3
  mask : W64
  arr : W64
  deriving DecidableEq, Repr

/-- Where a load's value goes. -/
inductive LoadDest
  | entry (q id : Nat)
  | areg (n : Nat)
  | creg (n : Nat)
  deriving DecidableEq, Repr

/-- What a split waits for. The constructors of the first group are parks, those of the second are stalls (R12, R24, R229). -/
inductive Wait
  /-- can issue -/
  | ready
  /-- parked on an empty queue until `n` entries are present (Table 8.6, R232) -/
  | qEmpty (q n : Nat)
  /-- parked pushing `n` entries to a full queue (Table 8.6) -/
  | qFull (q n : Nat)
  /-- parked on a full address FIFO (R223) -/
  | addrFull (q : Nat)
  /-- parked at a crew-collective (R163): the instruction -/
  | collective (i : Instr)
  /-- parked at a barrier object: the phase that releases it in mode 2, and the continuation (R297, R298) -/
  | barrier (off : Nat) (want : Bool) (cont : W64)
  /-- parked in `xtwait` (R293) -/
  | tags (n m : Nat)
  /-- arrived at a reconvergence point and waiting for the lanes of `mask`; `arr` has arrived (R26 rule 3) -/
  | arrived (pc : BitVec 54) (mask arr : W64)
  /-- stalled until every entry present at issue, or the first `n`, are complete (R229, R232) -/
  | incomplete (q n : Nat)
  /-- stalled in `qdrop.all` until the first `n` entries, those present at issue, are complete; they are then removed (R232) -/
  | dropping (q n : Nat)
  /-- stalled on registers that loads have not written yet (R221) -/
  | register (rs : List LoadDest)
  /-- stalled for room in the store queue (R222) -/
  | storeRoom
  /-- stalled on the data of unpaired stores of the own store queue, which the numbers name (R222, R236, R241); without a number, an execute split stalled on stores of its access warp that have still to be paired (R327) -/
  | storeDrain (seqs : List Nat)
  /-- a thread of a Portable Form program, parked at the crew barrier that ends its region (R431) -/
  | region
  /-- stalled on an ordering: earlier operations not yet performed at the scope (R224, R241, R312) -/
  | ordering
  /-- stalled at the homes of lines that commands own, or that others wait for (R353) -/
  | line (ls : List Nat)
  /-- stalled while the counter of an `xcp` tag is 255 (R292) -/
  | tagFull (n : Nat)
  /-- stalled until the request engine has accepted its records (R286) -/
  | posting
  /-- stalled until an unbinding's updates are applied (R248) -/
  | unbinding (slot : Nat)
  /-- without lanes, and stalled on a line that the next entry of its stack lies in (R160, R353) -/
  | unwinding
  deriving DecidableEq, Repr

/-- The trap record of a split (Table 14.7). -/
structure TrapRecord where
  tcause : W32
  taddr : W64
  taddr2 : W64
  targ : W32
  deriving DecidableEq, Repr

/-- Where a physical access goes. -/
inductive Space
  | phys
  | scratch (core : Nat)
  deriving DecidableEq, Repr

/-- A load in flight of a thread of a Portable Form program (R431 to R433): the v register it writes, or the pair from there on. -/
structure Flight where
  dest : Nat
  sz : Size
  space : Space
  va : W64
  pa : Nat
  acq : Option Scope
  ro : Bool
  deriving DecidableEq, Repr

/-! ### Agents of the memory model -/

/-- Who performed a store (Table 11.1, R433); `members` stands for every warp of a crew, `thread` for a thread of a Portable Form program. -/
inductive Agent
  | warp (crew pair : Nat) (sl : Slice)
  | engine (crew : Nat)
  | thread (crew tid : Nat)
  | update
  | host
  | remote
  | launch
  | members (crew : Nat)
  deriving DecidableEq, Repr

/-- The place of an observer: its agent, its core and its crew. -/
structure Viewer where
  agent : Agent
  core : Nat
  crew : Nat
  deriving DecidableEq, Repr

/-- A release (R325): who made it, at which scope, and the numbers of the stores that happen before what follows it and are not performed on the whole die. -/
structure Release where
  by_ : Viewer
  scope : Scope
  stores : List Nat
  deriving DecidableEq, Repr

/-- A split of a warp (R25), or a thread of a Portable Form program. -/
structure Split where
  pc : W64
  mask : W64
  /-- creation order (R382 key 5) -/
  born : Nat
  /-- newest entry first (R26, R27) -/
  stack : List StackEntry
  /-- valid bypass latches, L0 first; lane to value (R36, R38) -/
  lat : List (Cells 64)
  wait : Wait
  record : TrapRecord
  /-- machine checks waiting for a boundary, first met first: cause and address (R408) -/
  mc : List (BitVec 9 × W64)
  /-- words fetched ahead: virtual address to word (R74, R312) -/
  ahead : Tbl W64
  /-- cycle at which the split last became ready (R382 key 4) -/
  readyAt : Nat
  /-- cycle at which it last issued (R383) -/
  issued : Nat
  /-- cycle at which it was boosted (R383) -/
  boosted : Option Nat
  /-- held by the debug unit (R421) -/
  halted : Bool
  /-- a debug split, outside the limit of four (R423) -/
  debug : Bool
  /-- lanes a debug step is restricted to (R423) -/
  dstep : Option W64
  /-- breakpoints and watchpoints ignored at the next instruction (R403, R422) -/
  skip : Bool
  /-- single step armed for the next instruction by `rte` (R403) -/
  step : Bool
  /-- a stepped instruction has issued: the step ends at the next boundary (R403, R423) -/
  stepDue : Bool
  /-- a pre-emption request trap is due at the next boundary (R409) -/
  preqTrap : Bool
  /-- its spilled stack entries stay with the device, the place of R442 being in use (log 25) -/
  inside : Bool := false
  /-- `skip` comes of the skip bit of $tctl, which is cleared when it takes effect (R403) -/
  skipCtl : Bool := false
  /-- the split that a debug split was stepped out of (R423) -/
  parent : Nat := 0
  /-- a portable thread's loads in flight (R433) -/
  flight : List Flight := []
  /-- the releases that a portable thread's fences have made, which its later stores carry (R325, R433) -/
  fences : List Release := []
  deriving DecidableEq, Repr

/-! ### Warps, queues and the load-store unit -/

/-- What a store-queue entry is (R222, Table 14.11). -/
inductive StoreKind
  | sd | sdsp
  | sa | ssa
  | upd
  /-- the release part of a fence: it holds later entries behind the performance of earlier ones (R241) -/
  | fence
  deriving DecidableEq, Repr

/-- A lane of a store-queue entry: its virtual or scratchpad address, its physical place and its value. -/
structure StoreLane where
  lane : Nat
  va : W64
  pa : Nat
  val : W64
  /-- suppressed by an end marker of a paired entry (R223) -/
  off : Bool
  /-- binding slot of an update (R242, R363) -/
  slot : Nat
  deriving DecidableEq, Repr

/-- An entry of an access warp's store queue (R222). -/
structure StoreEntry where
  seq : Nat
  kind : StoreKind
  size : Nat
  /-- release scope, if the entry is a release (R224, R241) -/
  rel : Option Scope
  q : Nat
  lanes : List StoreLane
  /-- data present: false for a paired store not yet paired (R223) -/
  paired : Bool
  /-- the size code of the instruction (Table 8.2) -/
  sz : Size := .b32
  deriving DecidableEq, Repr

/-- A lane of a load in flight. -/
structure LoadLane where
  lane : Nat
  va : W64
  pa : Nat
  deriving DecidableEq, Repr

/-- A load in flight of an access warp (R219, R221, R228). -/
structure Load where
  id : Nat
  seq : Nat
  /-- the split that issued it, which a machine check reaches (R408) -/
  split : Nat
  dest : LoadDest
  sz : Size
  space : Space
  acq : Option Scope
  /-- remote device of an `rlq` (R228) -/
  remote : Option Nat
  /-- cycle at which it was sent, for the remote timeout (R456) -/
  sent : Nat
  /-- .ro (Table 8.1) -/
  ro : Bool
  lanes : List LoadLane
  /-- place in the order in which the core's loads were presented (R344) -/
  ticket : Nat := 0
  /-- lines whose request the L1 has not granted (R349) -/
  todo : List Nat := []
  /-- the tag that the requests to a remote device carry (R455) -/
  tag : Nat := 0
  deriving DecidableEq, Repr

/-- One queue entry (R40, R219): lane values, tags, and the lanes whose value has not arrived. -/
structure QEntry where
  id : Nat
  vals : Cells 32
  tags : W64
  missing : W64
  /-- what happens before its push (R327) -/
  past : List Nat := []
  deriving DecidableEq, Repr

/-- A declared queue of a pair (R40, R223). -/
structure Queue where
  dir : QDir
  depth : Nat
  entries : List QEntry
  nf : Bool
  re : Bool
  /-- address FIFO of a store-data queue: sequence numbers of the paired stores, oldest first -/
  addrs : List Nat
  deriving DecidableEq, Repr

/-- A lane's copy of an `xcp` in flight (R291). -/
structure XcpLane where
  dst : Nat
  /-- physical addresses of the n source bytes -/
  src : List Nat
  deriving DecidableEq, Repr

/-- An `xcp` in flight (R292). -/
structure Xcp where
  id : Nat
  tag : Nat
  size : Nat
  lanes : List XcpLane
  /-- the split that issued it, which a machine check reaches (R408) -/
  split : Nat := 0
  deriving DecidableEq, Repr

/-- One warp of a pair. The v, s and $fflags cells belong to execute warps, the a and c cells, the store queue and the loads to access warps; the other slice's stay empty. -/
structure Warp where
  /-- splits 0 to 3, and 4 for a debug split -/
  splits : Tbl Split
  nextSplit : Nat
  /-- lanes whose thread has exited (R160) -/
  dead : W64
  /-- v registers: cell 64 n + lane (R31) -/
  v : Cells 32
  /-- s registers (R11) -/
  s : Cells 32
  /-- a registers: cell 64 n + lane -/
  a : Cells 64
  /-- c registers -/
  c : Cells 64
  /-- k1 to k15 as lane masks (R35) -/
  k : Cells 64
  /-- $fflags by lane (R45) -/
  fflags : Cells 32
  /-- $role (Table 1.4) -/
  role : W32
  /-- $tctl (R403) -/
  tctl : W32
  /-- holders of hold splits and hold pair: split number (R403) -/
  holdSplits : Option Nat
  holdPair : Option Nat
  /-- the execute pipe it is bound to (R22) -/
  pipe : Nat
  /-- every thread has ended (R160) -/
  ended : Bool
  /-- program order counter of its memory operations (R322) -/
  seq : Nat
  stores : List StoreEntry
  loads : List Load
  /-- outstanding remote-write acknowledgements (R331) -/
  acks : Nat
  /-- an unfinished `uflush`, `cwb` or `cinv`, awaited by releases (R246, R249) -/
  maint : Nat
  /-- number of the latest push that this warp has taken from the other warp of its pair (R327) -/
  seen : Nat
  /-- rejections of the current memory instruction and whether the warp is aged (R350) -/
  rejects : Nat
  aged : Bool
  /-- when it became aged (R350) -/
  agedAt : Nat := 0
  /-- the releases its fences have made, which its later stores carry (R325) -/
  fences : List Release := []
  deriving DecidableEq, Repr

/-- A warp pair (R10). -/
structure Pair where
  acc : Warp
  exe : Warp
  queues : Tbl Queue
  /-- engine status word (R288) -/
  status : W64
  /-- $tagcnt (R292) -/
  tagcnt : W64
  xcps : List Xcp
  /-- virtual address of its backing-store area (R33, R442) -/
  area : W64
  /-- lanes that hold a thread (R16, R385) -/
  live : W64
  /-- started by the continuation packer (R385) -/
  packed : Bool
  deriving DecidableEq, Repr

/-! ### Crews -/

/-- A region of a Portable Form program: its words, and whether it is a parallel-for (R430, R431). -/
structure Region where
  first : Nat
  last : Nat
  par : Bool
  deriving DecidableEq, Repr

/-- A Portable Form program (R430). -/
structure Program where
  nvp : Nat
  regions : List Region
  code : List W64
  deriving DecidableEq, Repr

/-- The descriptor values of a kernel (Table 15.3, R438). -/
structure Kernel where
  width : Nat
  ta : Nat
  nv : Nat
  threads : Nat
  ns : Nat
  nentry : Nat
  scratch : Nat
  queues : List (Option (QDir × Nat))
  portable : Bool
  /-- the Portable Form program that its crews run (R431) -/
  prog : Option Program := none
  deriving DecidableEq, Repr

/-- A loaded stamp slot (R49, R147, R148, R255): the image bytes by offset and the source offset. -/
structure Stamp where
  sparse : Bool
  src : Nat
  img : Cells 8
  /-- 8-byte words of the image with an uncorrectable error, and with one that the next read corrects (R258, R367) -/
  lost : List Nat
  soft : List Nat
  deriving DecidableEq, Repr

/-- How a saved crew may resume (R166, R411, R417). -/
structure SaveInfo where
  /-- address and size of the context image (R149, R416) -/
  image : Nat
  size : Nat
  /-- saved at a `pyld` whose R20 conditions held -/
  reslice : Bool
  /-- crc written with the image -/
  crc : W32
  /-- resume records of unfinished commands: posting pair and the 64 bytes (R414) -/
  records : List (Nat × List Byte)
  /-- record offsets of those commands -/
  offs : List Nat
  /-- a resume has failed the checks of R150 -/
  corrupt : Bool
  deriving DecidableEq, Repr

/-- A crew, placed or saved (R10, R379). -/
structure Crew where
  /-- launch it belongs to, by launch identity -/
  launch : Nat
  queue : Nat
  /-- $nctx -/
  ctx : Nat
  /-- $crew -/
  num : W32
  core : Nat
  grant : Nat
  /-- T -/
  threads : Nat
  kern : Kernel
  /-- loaded addresses of the two slices and the entry table (R438) -/
  abase : W64
  xbase : W64
  entries : List (Nat × Nat)
  /-- parameter block: address, length, the bytes the launch engine read (R98, R376) -/
  paddr : W64
  plen : Nat
  params : List Byte
  /-- scratchpad allocation (R379 item 4) -/
  scratch : Nat
  /-- backing-store run: virtual base and bytes (R379 item 8) -/
  run : W64
  runLen : Nat
  pairs : Tbl Pair
  /-- m tiles: cell ((octet * 4 + t) * 8 + row) * 64 + column (R50) -/
  mt : Cells 32
  /-- p tiles, same numbering: cell codes of Table 4.7 -/
  pt : Cells 64
  /-- $acst by crew octet (Table 1.6) -/
  acst : Cells 32
  stamps : Tbl Stamp
  /-- $preq (R388) -/
  preq : Bool
  deadline : W32
  /-- pending width request (R165) -/
  widthReq : Option Nat
  /-- a save has begun: no unit of it issues (R388, R411) -/
  saving : Bool
  /-- the save was asked for by a completed `pyld` (R166) -/
  yielded : Bool
  saved : Option SaveInfo
  /-- the part of the save pool that its save has taken, as offset and size (R416) -/
  room : Option (Nat × Nat) := none
  /-- the region of its Portable Form program that runs (R431) -/
  region : Nat := 0
  deriving DecidableEq, Repr

/-! ### The core -/

/-- An execute pipe (R22, R24): the unit it runs (one split, or the members of a packed set), which member issues next, and whether the set ends after this round. -/
structure Pipe where
  running : List UnitRef
  next : Nat
  breaking : Bool
  deriving DecidableEq, Repr

/-- A cached translation (R361): context, page base, log2 of the page size, the leaf entry and its physical address. -/
structure TlbEntry where
  ctx : Nat
  va : Nat
  lg : Nat
  pte : W64
  at_ : Nat
  deriving DecidableEq, Repr

/-- A line of the instruction cache: context, virtual line number, sixteen words (R335, R351; log 14). -/
structure ILine where
  ctx : Nat
  line : Nat
  words : List W64
  deriving DecidableEq, Repr

/-- A command record's fields (Table 5.4). -/
structure CmdRec where
  src : W64
  dst : W64
  bpr : Nat
  rows : Nat
  sstride : Nat
  dstride : Nat
  vlast : Nat
  bar : W32
  idx : W64
  icount : Nat
  op : Nat
  flags : BitVec 16
  rdev : BitVec 16
  zero : Bool
  deriving DecidableEq, Repr

/-- What a command of the request engine does. -/
inductive CmdKind
  /-- a posted record and its offset in the crew's scratchpad -/
  | record (off : Nat) (r : CmdRec)
  /-- `xgath`: lane and source virtual address by row, destination offset of lane 0, element size (R289) -/
  | gather (srcs : List (Nat × W64)) (dst esize : Nat)
  /-- `kvpack` of a header (R280) -/
  | pack (h : W64)
  deriving DecidableEq, Repr

/-- A command waiting for acceptance (R286, R289, R280). -/
structure Post where
  crew : Nat
  pair : Nat
  split : Nat
  kind : CmdKind
  /-- barrier offset; none for no barrier -/
  bar : Option Nat
  cont : Bool
  /-- reposted by a resume: adds nothing to pending and clears nothing (R414) -/
  resume : Bool
  /-- the record as it was accepted, for a resume (R287, R414) -/
  bytes : List Byte := []
  deriving DecidableEq, Repr

/-- An accepted command that has not finished (R286, R329). -/
structure Cmd where
  id : Nat
  crew : Nat
  pair : Nat
  kind : CmdKind
  bar : Option Nat
  rows : Nat
  /-- finished rows -/
  done : List Nat
  /-- lines it owns, each with a row that writes it (R329) -/
  own : List (Nat × Nat)
  /-- indices that acceptance has read, by row (R329, R134) -/
  index : Tbl W64
  /-- CRC so far of a fingerprint, by row (R133) -/
  crc : W64
  /-- result so far of a compare (R136) -/
  diff : W64
  /-- rows sent to a remote device and not acknowledged, with the cycle sent (R331, R456) -/
  sent : List (Nat × Nat)
  /-- the tag that its remote requests carry (R455) -/
  tag : Nat := 0
  /-- cycle of its acceptance, when the requests of a remote read leave (R456) -/
  born : Nat := 0
  deriving DecidableEq, Repr

/-- A remote-write row of a command that has failed: it is not acknowledged yet, and counts in the warp's outstanding acknowledgements (R331). -/
structure LateRow where
  cmd : Nat
  row : Nat
  crew : Nat
  pair : Nat
  dev : Nat
  sent : Nat
  deriving DecidableEq, Repr

/-- An octet instruction waiting at a stamp bank (R264). -/
structure BankOp where
  crew : Nat
  slot : Nat
  opcode : BitVec 10
  fa : MFmt
  fb : MFmt
  ftz : Bool
  /-- the first of the two passes of an `mmac` is done -/
  second : Bool := false
  deriving DecidableEq, Repr

/-- A work deque of a core (R139): the launch, its place and capacity; the packer stopped on a corrupt header (R140). -/
structure Deque where
  launch : Nat
  off : Nat
  cap : Nat
  stopped : Bool
  deriving DecidableEq, Repr

/-- An error block (R368). -/
structure ErrBlock where
  corrected : W32
  uncorrected : W32
  next : W32
  failed : W32
  ring : Cells 128
  inj : W64
  /-- corrected errors of each scratchpad bank since the last cold start (R347) -/
  perBank : Cells 32
  deriving DecidableEq, Repr

/-- A line of L1 (R348): the physical line, the context and address it was filled for, and whether a .ro load filled it. -/
structure L1Line where
  line : Nat
  ctx : Nat
  va : W64
  ro : Bool
  /-- bits that stand inverted in its words, by word (R369) -/
  bits : Cells 64 := []
  deriving DecidableEq, Repr

/-- A miss-status entry of an L1 (R349): the line, and whether it is one of the reserved ones (R350). -/
structure Miss where
  line : Nat
  reserved : Bool
  deriving DecidableEq, Repr

/-- A core (Table 0.2). -/
structure Core where
  /-- scratchpad bytes (R343) -/
  scratch : Mem
  cyc : W64
  wake : W32
  idle : Nat
  gated : Bool
  /-- cycles until the first issue after a wake (R387) -/
  waking : Nat
  pipes : List Pipe
  icache : List ILine
  tlb : List TlbEntry
  posts : List Post
  cmds : List Cmd
  /-- number of the next accepted command -/
  nextCmd : Nat
  banks : List (List BankOp)
  deques : List Deque
  /-- lines in L1, least recently used first (R348) -/
  l1 : List L1Line
  /-- miss-status entries in use (R349) -/
  misses : List Miss := []
  /-- number of the next load presented (R344) -/
  ticket : Nat := 0
  /-- rows of failed commands that are still to be acknowledged (R331) -/
  late : List LateRow := []
  /-- launch of the deque that the packer served last (R385) -/
  served : Option Nat := none
  deriving DecidableEq, Repr

/-! ### Memory beyond the core -/

/-- A store that has left its queue and is not yet performed at every scope (R319, R322): its bytes, its agent, and the widest scope at which it is performed. Coherence order is list order (R320). -/
structure Wide where
  agent : Agent
  core : Nat
  crew : Nat
  space : Space
  addr : Nat
  data : List Byte
  /-- to memory-side memory or a bound region line, past the L2 (R246, Table 12.4) -/
  ms : Bool
  /-- executed in the home slice of its line: an atomic (R240) -/
  home : Bool := false
  scope : Scope
  /-- its number -/
  id : Nat := 0
  /-- its place in the program order of its warp (R327) -/
  seq : Nat := 0
  /-- agents in whose past it lies beside its own (R326) -/
  known : List Agent := []
  /-- agents that have read a write which a release orders after it, with the releasing agent: an acquire fence puts it into their past (R325) -/
  heard : List (Agent × Viewer) := []
  /-- releases that a reader of it observes (R325) -/
  rel : List Release := []
  /-- crews that saw it before they moved to another core (R320, R337) -/
  also : List Nat := []
  deriving DecidableEq, Repr

/-- A modified line of an L2 slice: what the memory behind holds of what is performed at die scope, and the cluster of the slice (R352, R459). -/
structure Dirty where
  line : Nat
  old : List Byte
  slice : Nat := 0
  deriving DecidableEq, Repr

/-- An update-region binding of a context (R144, R247). -/
structure Binding where
  rbase : W64
  rlen : W64
  sbase : W64
  oper : Nat
  etype : Nat
  /-- being removed by `uunbind` (R248) -/
  leaving : Bool
  deriving DecidableEq, Repr

/-- A drawer of the update unit (R364): the element's physical address, its binding, and the record. `sh` is where the key's shadow record lies: one or two runs of physical bytes, address and length. -/
structure Drawer where
  key : Nat
  /-- the virtual address its last pair named -/
  va : W64
  ctx : Nat
  slot : Nat
  oper : Nat
  etype : Nat
  sh : List (Nat × Nat)
  val : BitVec 320
  /-- time of the last combine (R364) -/
  used : Nat
  deriving DecidableEq, Repr

/-- A key of a float-add region whose shadow record is not zero: what a set pend bit stands for (R364, Table 12.3). -/
structure Spilled where
  key : Nat
  va : W64
  ctx : Nat
  slot : Nat
  etype : Nat
  sh : List (Nat × Nat)
  deriving DecidableEq, Repr

/-- An access that waits at the home of an owned line (R353): a lane of a load, an entry of a store queue, a per-lane copy; what the instruction of a split reads and writes as it issues: atomics, key-value steps, its fetch, walks, its backing store. -/
inductive Held
  | load (crew pair id lane : Nat)
  | store (crew pair seq : Nat)
  | copy (crew pair id : Nat)
  | unit (u : UnitRef)
  deriving DecidableEq, Repr

/-- A machine check met in this turn, which reaches its split as the turn ends (R408): the context, the split whose access met it, the cause and the address. -/
structure Check where
  ctx : Nat
  split : Option UnitRef
  cause : BitVec 9
  addr : W64
  deriving DecidableEq, Repr

/-! ### Contexts -/

/-- The debug block of a context (Table 14.13). -/
structure Debug where
  bp : Cells 64
  wpa : Cells 64
  wpc : Cells 64
  dctl : W64
  dcmd : W64
  dsel : W64
  dmask : W64
  ddata : W64
  dstat : W64
  deriving DecidableEq, Repr

/-- A context block (Tables 16.4, 14.6, 14.13) and the context's bindings. -/
structure Ctx where
  root : W64
  pool : W64
  psize : W64
  rtag : W64
  bspool : W64
  bssize : W64
  hacc : W64
  hexe : W64
  fault : W64
  fpc : W64
  mcheck : W64
  maddr : W64
  dbg : Debug
  bindings : Tbl Binding
  deriving DecidableEq, Repr

/-! ### The launch engine -/

/-- The command a host queue runs (R372, R376). -/
inductive HostRun
  /-- waiting for an event counter -/
  | wait (addr value : W64)
  /-- a launch, by identity -/
  | launch (id : Nat)
  /-- a launch whose completion write failed and is retried by clr -/
  | complete (id : Nat)
  deriving DecidableEq, Repr

/-- A host command queue (Table 13.1, Table 13.2). -/
structure HostQueue where
  ring : W64
  cfg : W64
  tail : W64
  progress : W64
  err : BitVec 8
  held : Bool
  regress : Bool
  res : Bool
  /-- a tail value latched while the queue was not resident (R373) -/
  latched : Option W64
  run : Option HostRun
  /-- the load whose kernel the launch record named at which the queue stopped (R441) -/
  named : Option Nat
  /-- since when it is idle or waits for an event (R377) -/
  since : Nat
  /-- since when it is non-resident (R377) -/
  away : Nat := 0
  deriving DecidableEq, Repr

/-- An entry of the load table (R438). -/
structure LoadEntry where
  ctx : Nat
  addr : W64
  xaddr : W64
  kern : Kernel
  entries : List (Nat × Nat)
  loadid : Nat
  model : Nat
  deriving DecidableEq, Repr

/-- A load (R436 step 10, R441): its context, its identifier and the memory-model revision it declares. -/
structure Loaded where
  ctx : Nat
  loadid : Nat
  model : Nat
  deriving DecidableEq, Repr

/-- A running launch (R335, R376, R378). -/
structure Launch where
  queue : Nat
  ctx : Nat
  entry : LoadEntry
  width : Nat
  nx : Nat
  ny : Nat
  nz : Nat
  threads : Nat
  cap : Nat
  paddr : W64
  plen : Nat
  params : List Byte
  caddr : W64
  cval : W64
  /-- number of crews placed so far -/
  placed : Nat
  /-- identities of its crews -/
  uids : List Nat
  /-- crews on which requests are outstanding for its next crew (R389) -/
  asked : List Nat
  /-- the core that those requests free for it (R389) -/
  freed : Option Nat := none
  deriving DecidableEq, Repr

/-- An entry of the translation cache (R439): its key but for the part, and where it lies in the reserved region of device memory. -/
structure CacheEntry where
  digest : List Byte
  pidx : Nat
  version : Nat
  secver : Nat
  at_ : Nat
  len : Nat
  deriving DecidableEq, Repr

/-! ### The device -/

/-- What a start meets in the world (Table 16.6): inputs to the device. -/
structure StartEnv where
  fuseErr : Bool
  /-- the firmware image that the boot ROM finds, with the key and the signature that come with it (R458) -/
  fw : Config.Firmware
  fwKey : Nat × Nat
  fwSig : List Byte
  sramBad : Bool
  badBanks : List (Nat × Nat)
  trainBad : Bool
  scrubBad : Bool
  cxlBad : Bool
  /-- Ethernet ports that train -/
  ports : BitVec 8
  deriving DecidableEq, Repr

/-- Saved training parameters (R457, R459): which training made them, the fuse counter then, and the signature by the identity key. -/
structure Training where
  n : Nat
  fuse : BitVec 8
  sig : List Byte
  deriving DecidableEq, Repr

/-- The device block, mailbox, invalidation and raise blocks and the links (16). -/
structure Device where
  /-- start register fields (Table 16.3) -/
  fail : BitVec 8
  step : BitVec 8
  warm : Bool
  ready : Bool
  wnext : Bool
  /-- fuse counter -/
  fuse : BitVec 8
  /-- fused digest of the vendor key (R458) -/
  vendorFuse : List Byte := Config.vendorFuse
  /-- the firmware that runs, and the vendor key that signed it (R458, R464) -/
  fw : Config.Firmware := Config.firmware
  vendorKey : Nat × Nat := Config.vendorKey
  domain : BitVec 10
  rtimeout : W32
  plimit : BitVec 16
  /-- a thermal trip ended the previous start -/
  trip : Bool
  /-- a thermal trip has ended this start: the device waits for a new one (R466) -/
  tripped : Bool
  throt : Bool
  tj : BitVec 16
  refused : Bool
  /-- core clock in steps of 100 MHz (R465) -/
  clock : Nat
  /-- DVSEC Memory_Active (R444) -/
  memActive : Bool
  /-- management mailbox, eight registers (Table 15.5) -/
  mailbox : Cells 64
  /-- invalidation command va, len, ctl, status (R451) -/
  iva : W64
  ilen : W64
  ictl : W64
  istatus : BitVec 2
  /-- fuse raise block (R464) -/
  rvalue : W64
  rsig : Cells 64
  rstatus : BitVec 2
  nonces : Nat
  /-- endpoint table (R453) and ports up (R454) -/
  endpoints : Cells 64
  ports : BitVec 8
  /-- MSI-X vectors signalled and not yet taken (R447) -/
  msix : BitVec 66
  /-- masked vectors: a signalled one of them is pending, and is taken once it is unmasked (R447) -/
  msixMask : BitVec 66 := BitVec.allOnes 66
  /-- address of the last uncorrectable internal error in the AER header log (R446) -/
  aer : Option Nat
  /-- the last answer to a host read: none for an unsuccessful completion (R444) -/
  hostData : Option (List Byte)
  /-- the last reply to a remote requester: its identifier, its tag, the result and the data (R455) -/
  reply : Option (BitVec 10 × BitVec 16 × RemoteResult × List Byte)
  /-- SPDM: a secured session is open, how many were, keys installed, last response (R462, R463) -/
  session : Bool
  sessions : Nat
  linkKeys : Bool
  fabricKeys : Bool
  spdm : List Byte
  /-- saved training parameters (R457, R459) -/
  training : Option Training
  trainings : Nat
  deriving DecidableEq, Repr

/-- Whose turn it is: the agenda is the order in which the agents of the device and the world act, the input of a run. -/
inductive Turn
  /-- an issue cycle of an execute pipe (0 to 3) or, with 4, of the access processor of a core -/
  | issue (core port : Nat)
  /-- a row of the table of operations and events that is not an instruction -/
  | event (i : Instr)
  /-- one clock cycle of every core -/
  | tick
  /-- one clock cycle of one core: no two cores have a common time base (R6, R48) -/
  | tickCore (core : Nat)
  /-- the n-th store not performed everywhere becomes performed at a scope (R322) -/
  | perform (n : Nat) (sc : Scope)
  /-- the n-th load in flight of a portable thread gets its value (R433) -/
  | arrive (u : UnitRef) (n : Nat)
  /-- a dirty L2 line is written back (R352) -/
  | writeBack (line : Nat)
  /-- the n-th instruction-cache line leaves (R351) -/
  | dropLine (core n : Nat)
  /-- a split fetches a word ahead (R74) -/
  | fetchAhead (u : UnitRef) (addr : W64)
  /-- a TLB entry leaves (R361) -/
  | dropTlb (core n : Nat)
  /-- a drawer is spilled (R364) -/
  | spill (key : Nat)
  /-- an access of `size` bytes to the control aperture by the host (R448) -/
  | aperture (write : Bool) (off size : Nat) (val : W64)
  /-- the host masks or unmasks an MSI-X vector (R447) -/
  | msixMask (n : Nat) (masked : Bool)
  /-- the host takes a signalled vector that is not masked (R447) -/
  | msixTake (n : Nat)
  deriving DecidableEq, Repr

/-- The state of the device. -/
structure State where
  /-- the order in which agents act: input (log 1) -/
  agenda : List Turn
  /-- the split whose instruction is being executed -/
  cur : Option UnitRef
  /-- physical memory, device and host, as performed everywhere (R8, R354) -/
  mem : Mem
  /-- stores not yet performed at every scope, oldest first (R319, R320) -/
  wide : List Wide
  /-- dirty L2 lines (R352) -/
  dirty : List Dirty
  /-- lines in the L2 slice of each cluster, least recently used first (R352) -/
  l2 : Tbl (List Nat)
  /-- lines of which the host holds a copy through CXL.cache (R352) -/
  hostCopies : List Nat
  /-- accesses that wait for owned lines, in arrival order (R353) -/
  held : List (Nat × Held)
  /-- machine checks met in this turn (R408) -/
  checks : List Check
  /-- number of the next store performed -/
  nextStore : Nat
  /-- releases that steps on objects carry, by space and address of the object (R325) -/
  steps : List (Space × Nat × List Release)
  cores : Tbl Core
  crews : Tbl Crew
  /-- identity of the next crew placed, which is placement order (R382 key 5) -/
  nextCrew : Nat
  ctxs : Tbl Ctx
  queues : Tbl HostQueue
  launches : Tbl Launch
  nextLaunch : Nat
  /-- second-level TLBs by cluster (R361) -/
  tlb2 : Tbl (List TlbEntry)
  drawers : List Drawer
  /-- survivors of a key-value block when its unpacked bit was set, by the header's physical address: where its tokens lie until it is packed (R142, R280) -/
  kvOld : Tbl W64
  /-- keys with a spilled record, whose units have pend set (Table 12.3) -/
  pend : List Spilled
  errs : Tbl ErrBlock
  /-- injected errors not yet met: block, array, index, uncorrectable (R369) -/
  faults : List (Nat × Nat × Nat × Bool)
  /-- which bit each of them inverted: pos, and 64 more for two bits, by array and index (R369) -/
  faultBits : Tbl Nat
  loads : List LoadEntry
  nextLoad : Nat
  /-- the loads in being, of objects without a kernel too (R436, R441) -/
  objects : List Loaded
  cache : List CacheEntry
  /-- time stamps for least-recently-used choices -/
  clock : Nat
  env : StartEnv
  dev : Device
  deriving DecidableEq, Repr

/-- Why a step stops with a fault. None of these is an effect of an instruction on the device. -/
inductive Fault
  /-- `exec` was asked for an instruction while no live split is issuing (`cur`); raised by every instruction meaning. Safe: no step asks for it. -/
  | noIssuingUnit
  deriving DecidableEq, Repr

/-- Why an instruction is refused. -/
inductive Refusal
  /-- not modelled yet; raised by the dispatch only. Safe. -/
  | notModelled (mnemonic : String)
  deriving DecidableEq, Repr

/-! ### Reset -/

/-- A trap record before any trap: all zero (log 10). -/
def TrapRecord.reset : TrapRecord := { tcause := 0, taddr := 0, taddr2 := 0, targ := 0 }

/-- A new split at an address (R25, R381). -/
def Split.start (pc mask : W64) : Split :=
  { pc := pc, mask := mask, born := 0, stack := [], lat := [], wait := .ready, record := TrapRecord.reset, mc := [], ahead := [],
    readyAt := 0, issued := 0, boosted := none, halted := false, debug := false, dstep := none, skip := false, step := false, stepDue := false,
    preqTrap := false }

/-- An execute pipe with nothing to run. -/
def Pipe.reset : Pipe := { running := [], next := 0, breaking := false }

/-- A core after reset: $cyc and $wake zero (R47, R48), scratchpad zero (log 8), caches and TLB empty. -/
def Core.reset : Core :=
  { scratch := [], cyc := 0, wake := 0, idle := 0, gated := false, waking := 0,
    pipes := [Pipe.reset, Pipe.reset, Pipe.reset, Pipe.reset], icache := [], tlb := [], posts := [], cmds := [], nextCmd := 0,
    banks := [[], []], deques := [], l1 := [] }

/-- An error block after reset: logs cleared (R459), nothing injected. -/
def ErrBlock.reset : ErrBlock :=
  { corrected := 0, uncorrected := 0, next := 0, failed := 0, ring := [], inj := 0, perBank := [] }

/-- A debug block after reset: all zero (log 9). -/
def Debug.reset : Debug :=
  { bp := [], wpa := [], wpc := [], dctl := 0, dcmd := 0, dsel := 0, dmask := 0, ddata := 0, dstat := 0 }

/-- A context block after reset: all zero, so not valid (R459; log 9). -/
def Ctx.reset : Ctx :=
  { root := 0, pool := 0, psize := 0, rtag := 0, bspool := 0, bssize := 0, hacc := 0, hexe := 0, fault := 0, fpc := 0,
    mcheck := 0, maddr := 0, dbg := Debug.reset, bindings := [] }

/-- A host queue after reset: deadline 200 000, everything else zero (Table 13.1; log 9). -/
def HostQueue.reset : HostQueue :=
  { ring := 0, cfg := 200000 <<< 32, tail := 0, progress := 0, err := 0, held := false, regress := false, res := false,
    latched := none, run := none, named := none, since := 0 }

/-- A world in which every start step succeeds (log 9). -/
def StartEnv.reset : StartEnv :=
  { fuseErr := false, fw := Config.firmware, fwKey := Config.vendorKey, fwSig := Config.firmwareSig, sramBad := false, badBanks := [], trainBad := false,
    scrubBad := false, cxlBad := false, ports := 0xFF }

/-- The device block after a cold start that reached its ready step: Tables 16.3 and 16.6; registers without a stated reset value are zero (log 9). -/
def Device.reset : Device :=
  { fail := 0, step := 7, warm := false, ready := true, wnext := false, fuse := 0, domain := 0x3FF, rtimeout := 33000000,
    plimit := 1600, trip := false, tripped := false, throt := false, tj := 0, refused := false, clock := 33, memActive := true,
    mailbox := [], iva := 0, ilen := 0, ictl := 0, istatus := 0, rvalue := 0, rsig := [], rstatus := 0, nonces := 0,
    endpoints := [], ports := 0xFF, msix := 1, aer := none, hostData := none, reply := none, session := false,
    sessions := 0, linkKeys := false, fabricKeys := false, spdm := [], training := some { n := 0, fuse := 0, sig := Config.trainingSig },
    trainings := 1 }

/-- The device right after a cold start: no crew, no load, no enabled queue (R457, R459). -/
def State.reset : State :=
  { agenda := [], cur := none, mem := [], wide := [], dirty := [], l2 := [], hostCopies := [], held := [], checks := [], nextStore := 0, steps := [], cores := [], crews := [], nextCrew := 0, ctxs := [],
    queues := [], launches := [], nextLaunch := 0, tlb2 := [], drawers := [], kvOld := [], pend := [], errs := [], faults := [], faultBits := [],
    loads := [], nextLoad := 1, objects := [], cache := [], clock := 0, env := StartEnv.reset, dev := Device.reset }

end Sys2Proof.Machine
end

