-- ==== Sys2Proof/Machine/Memory.lean ====
section
/-! DEFINITION. Physical memory as its agents see it: visibility by scope (R318 to R322), performance of stores, dirty L2 lines, error logs and injection (R368, R369), releases and acquires (R324 to R326). -/
namespace Sys2Proof.Machine

/-! ### Cores, contexts and other records by number -/

/-- The core numbered `n`. -/
def State.core (s : State) (n : Nat) : Core := (Tbl.get? s.cores n).getD Core.reset
/-- Puts core `n`. -/
def State.setCore (s : State) (n : Nat) (c : Core) : State := { s with cores := Tbl.set s.cores n c }
/-- The context block of slot `n`. -/
def State.ctx (s : State) (n : Nat) : Ctx := (Tbl.get? s.ctxs n).getD Ctx.reset
/-- Puts the context block of slot `n`. -/
def State.setCtx (s : State) (n : Nat) (c : Ctx) : State := { s with ctxs := Tbl.set s.ctxs n c }
/-- Error block `i` (Table 16.2: cores, L2 slices from 96, base dies from 108). -/
def State.err (s : State) (i : Nat) : ErrBlock := (Tbl.get? s.errs i).getD ErrBlock.reset
/-- Puts error block `i`. -/
def State.setErr (s : State) (i : Nat) (e : ErrBlock) : State := { s with errs := Tbl.set s.errs i e }
/-- Host queue `n`. -/
def State.hq (s : State) (n : Nat) : HostQueue := (Tbl.get? s.queues n).getD HostQueue.reset
/-- Puts host queue `n`. -/
def State.setHq (s : State) (n : Nat) (q : HostQueue) : State := { s with queues := Tbl.set s.queues n q }

/-- The cluster of a core (Table 1.4). -/
def clusterOf (core : Nat) : Nat := core / 8

/-! ### Physical addresses -/

/-- Physical addresses of device memory, of the hole, of host memory (Table 12.2). -/
def isDevice (pa : Nat) : Bool := decide (pa < 2 ^ 39)
def isHole (pa : Nat) : Bool := decide (2 ^ 39 ≤ pa) && decide (pa < 2 ^ 40)
def isHostMem (pa : Nat) : Bool := decide (2 ^ 40 ≤ pa) && decide (pa < 2 ^ 52)

/-! ### Error logs and injection -/

/-- Adds an entry to the ring of error block `i` and counts it; a corrected scratchpad error also counts for its bank (R347, R368, Table 12.6). -/
def logWith (s : State) (i array : Nat) (unc : Bool) (ctx : Nat) (loc : Nat) (syn : W32) : State :=
  let e := s.err i
  let word : BitVec 128 := BitVec.ofNat 128
    (syn.toNat * 2 ^ 96 + ctx % 256 * 2 ^ 80 + (if unc then 2 ^ 73 else 0) + 2 ^ 72 + array % 256 * 2 ^ 64
      + loc % 2 ^ 64)
  let sat := fun (x : W32) => if x.toNat = 2 ^ 32 - 1 then x else x + 1
  let bank := if array = 4 then loc % 31 else 31
  let per := if (array = 4 ∨ array = 5) ∧ unc = false then Cells.set e.perBank bank (Cells.get e.perBank bank + 1) else e.perBank
  let s := s.setErr i { e with
    ring := Cells.set e.ring (e.next.toNat % 16) word, next := BitVec.ofNat 32 ((e.next.toNat + 1) % 16),
    corrected := if unc then e.corrected else sat e.corrected, uncorrected := if unc then sat e.uncorrected else e.uncorrected,
    perBank := per }
  { s with dev := { s.dev with msix := s.dev.msix ||| 1 } }
/-- An entry of the log with the syndrome that the array's code gives (Table 12.6; log 7). -/
def logError (s : State) (i array : Nat) (unc : Bool) (ctx : Nat) (loc : Nat) : State :=
  logWith s i array unc ctx loc (Config.syndrome array loc)

/-- The arrays of Table 12.5. -/
def arrayIds : List Nat := [1, 2, 3, 4, 5, 6, 7, 8, 9, 10, 0x10, 0x11, 0x20, 0x21, 0x22]

/-- An injected error stands in entry `idx` of `array` under block `i`. -/
def faulty (s : State) (i array idx : Nat) : Bool := s.faults.any fun f => f.1 == i && f.2.1 == array && f.2.2.1 == idx
/-- The key of an entry in the table of inverted bits. -/
def faultKey (array idx : Nat) : Nat := array + 256 * idx
/-- An entry written or corrected holds no error. -/
def healed (s : State) (i array idx : Nat) : State :=
  { s with faults := s.faults.filter fun f => !(f.1 == i && f.2.1 == array && f.2.2.1 == idx),
           faultBits := Tbl.erase s.faultBits (faultKey array idx) }

/-- A write into entry `idx` of `array` under error block `i` (R369). An armed injection is met: the entry is stored with one or two bits inverted, and the register disarms. Two neighbouring bits are beyond the code but in HBM4E, whose code corrects one byte; in the scratchpad the second bit lies in the next bank of the row, and a check word is rebuilt whichever of its bits are wrong. Else an entry that is written whole holds no error any more. -/
def writeInto (s : State) (whole : Bool) (i array idx : Nat) : State :=
  let e := s.err i
  if bitAt e.inj 8 && decide (fld e.inj 0 8 = array) && (decide (fld e.inj 16 48 = idx) || decide (fld e.inj 16 48 = 2 ^ 48 - 1)) then
    let two := bitAt e.inj 9
    let unc := two && (array != 0x20 || decide (fld e.inj 10 6 % 8 = 7))
    let more := if array = 4 ∧ two = true then [(i, 4, idx / 31 * 31 + (idx % 31 + 1) % 31, false)] else []
    let s := healed s i array idx
    let s := { s with faultBits := Tbl.set s.faultBits (faultKey array idx) (fld e.inj 10 6 + (if two then 64 else 0)) }
    { s.setErr i { e with inj := setFld e.inj 8 1 0 } with faults := s.faults ++ [(i, array, idx, unc && array != 4 && array != 5)] ++ more }
  else if s.faults.isEmpty || !whole then s else healed s i array idx
/-- An entry is written whole. -/
def injectWrite (s : State) (i array idx : Nat) : State := writeInto s true i array idx

/-- A data word of a row fails its detection code; the words of a failed bank are not read (R346, R347). -/
def wordBad (s : State) (core idx : Nat) : Bool := faulty s core 4 idx && !bitAt (s.err core).failed (idx % 31)

/-- No word of a core's scratchpad is in error and no bank of it is marked failed. -/
def scratchSound (s : State) (core : Nat) : Bool := s.faults.isEmpty && decide ((s.err core).failed = 0)

/-- A read of a scratchpad word cannot give its value (R346, R347): another word of the row, or its check word, fails with it, or another bank is marked failed. A word of a marked bank is made of all the others. -/
def wordLost (s : State) (core idx : Nat) : Bool :=
  if scratchSound s core then false
  else
    let failed := (s.err core).failed
    let row := idx / 31
    let others := (List.range 31).any (fun b => decide (31 * row + b ≠ idx) && wordBad s core (31 * row + b)) || faulty s core 5 row
      || decide (failed &&& ~~~(BitVec.ofNat 32 (2 ^ (idx % 31))) ≠ 0)
    (bitAt failed (idx % 31) || wordBad s core idx) && others

/-- A read of a scratchpad word (R346, R347): a single error of a row is corrected, more than one, or one beside a failed bank, is not. -/
def scratchRead (s : State) (core idx ctx : Nat) : State × Bool :=
  if wordLost s core idx then (logError s core 4 true ctx idx, true)
  else if wordBad s core idx then (healed (logError s core 4 false ctx idx) core 4 idx, false)
  else (s, false)

/-- A row's check word is read: with an error it is rebuilt from the row, unless a word of the row fails with it or a bank is marked failed (R346, R347, Table 12.5). A check bank that is marked is not read. -/
def checkRead (s : State) (core row ctx : Nat) : State :=
  let failed := (s.err core).failed
  if !faulty s core 5 row || bitAt failed 31 then s
  else if failed ≠ 0 ∨ (List.range 31).any (fun b => wordBad s core (31 * row + b)) = true then logError s core 5 true ctx row
  else healed (logError s core 5 false ctx row) core 5 row

/-- Bytes read from a core's scratchpad at an address: those of words that cannot be given are zero (R346). -/
def scratchGiven (s : State) (core a : Nat) (l : List Byte) : List Byte :=
  if scratchSound s core then l else l.zipIdx.map fun x => if wordLost s core ((a + x.2) / 8) then 0 else x.1

/-- The base die of a physical address: its stack (R355, R363). -/
def dieOf (a : Nat) : Nat := a / 4096 % 8

/-- What a log entry names: the physical address for HBM units, L2 lines and directory entries, else the index (Table 12.6). -/
def placeOf (array idx : Nat) : Nat := if array = 0x20 then 64 * idx else if array = 0x10 ∨ array = 0x11 then 128 * idx else idx

/-- A read of entry `idx` of `array`: whether it meets an uncorrectable error, and the state with a corrected or detected error logged (R367, Table 12.5). -/
def injectRead (s : State) (i array idx ctx : Nat) : State × Bool :=
  if array = 4 then scratchRead s i idx ctx
  else if s.faults.isEmpty then (s, false)
  else if array = 5 then (checkRead s i idx ctx, false)
  else
    match s.faults.find? fun f => f.1 == i && f.2.1 == array && f.2.2.1 == idx with
    | none => (s, false)
    | some f =>
      if f.2.2.2 then (logError s i array true ctx (placeOf array idx), true)
      else (healed (logError s i array false ctx (placeOf array idx)) i array idx, false)

/-- The bits that an injection inverts in a word under parity: two neighbours, of which the upper may be the parity bit (R369). -/
def twoBits (s : State) (array idx : Nat) : W64 :=
  let b := (Tbl.get? s.faultBits (faultKey array idx)).getD 0
  if 64 ≤ b then BitVec.ofNat 64 (3 * 2 ^ (b % 64)) else 0

/-- A write into entry `idx` of an array under parity: whether the entry is lost, an odd number of its bits being wrong, which is found and logged as corrected at once (R351, R361, Table 12.5). Two inverted bits pass parity: the entry stands with them, and they are given. -/
def parityWrite (s : State) (i array idx ctx : Nat) : State × Bool × W64 :=
  let s := injectWrite s i array idx
  if faulty s i array idx then
    let two := twoBits s array idx
    if two = 0 then (healed (logError s i array false ctx idx) i array idx, true, 0) else (healed s i array idx, false, two)
  else (s, false, 0)

/-- The sixteen words of a line are written into a cache under parity per 8 bytes, line number `at_` of the array: whether the line is lost, and the bits inverted in each word. -/
def lineWrite (s : State) (i array at_ ctx : Nat) : State × Bool × List W64 :=
  if s.faults.isEmpty && !bitAt (s.err i).inj 8 then (s, false, [])
  else (List.range 16).foldl (fun r w =>
    let p := parityWrite r.1 i array (16 * at_ + w) ctx
    (p.1, r.2.1 || p.2.1, r.2.2 ++ [p.2.2])) (s, false, [])

/-! ### Stores on their way to every scope -/

/-- Whether an agent lies in the crew instance of the crew it names (Table 11.3). -/
def Agent.inCrew : Agent → Bool
  | .warp _ _ _ | .engine _ | .thread _ _ | .members _ => true
  | _ => false

/-- `b` lies in the instance of a scope for `a` (R318, Table 11.3): a remote requester acts on this device and lies in its die. -/
def inInstance (sc : Scope) (a b : Viewer) : Bool :=
  match sc with
  | .thread | .warp => a.agent == b.agent
  | .crew => a.agent.inCrew && b.agent.inCrew && a.crew == b.crew
  | .cluster => a.agent.inCrew && b.agent.inCrew && clusterOf a.core == clusterOf b.core
  | .die | .domain => true

/-- The agent of a store with its place. -/
def Wide.by_ (w : Wide) : Viewer := { agent := w.agent, core := w.core, crew := w.crew }

/-- A store is visible to an observer when it is the observer's own, performed at a scope whose instance holds the observer (R318, R319), or was visible to the observer's crew before it moved (R320, R337). -/
def Wide.visible (w : Wide) (v : Viewer) : Bool :=
  (w.agent == v.agent) || inInstance w.scope w.by_ v || (v.agent.inCrew && w.also.contains v.crew)

/-- A store happens before what an agent does next (R326). -/
def Wide.past (w : Wide) (ag : Agent) : Bool :=
  (w.agent == ag) || w.known.contains ag || match ag with
    | .warp c _ _ | .thread c _ => w.known.contains (.members c)
    | _ => false

/-- The byte memory holds once everything is performed: physical memory or a core's scratchpad. -/
def State.base (s : State) (sp : Space) (a : Nat) : Byte :=
  match sp with
  | .phys => Cells.get s.mem a
  | .scratch c => Cells.get (s.core c).scratch a

/-- The byte of a store at an address, if it writes it. -/
def Wide.byte? (w : Wide) (sp : Space) (a : Nat) : Option Byte :=
  if w.space = sp ∧ w.addr ≤ a then w.data[a - w.addr]? else none

/-- The value an observer's load of one byte returns: the latest visible store in coherence order (R321). -/
def State.view (s : State) (v : Viewer) (sp : Space) (a : Nat) : Byte :=
  s.wide.foldl (fun b w => if w.visible v then (w.byte? sp a).getD b else b) (s.base sp a)

/-- The values of `n` bytes as an observer sees them. -/
def State.viewBytes (s : State) (v : Viewer) (sp : Space) (a : Nat) : Nat → List Byte
  | 0 => []
  | n + 1 => s.view v sp a :: s.viewBytes v sp (a + 1) n

/-- The byte last in coherence order, which a read-modify-write and every step on an object reads (R128, R319). -/
def State.latest (s : State) (sp : Space) (a : Nat) : Byte :=
  s.wide.foldl (fun b w => (w.byte? sp a).getD b) (s.base sp a)

/-- `n` bytes last in coherence order. -/
def State.latestBytes (s : State) (sp : Space) (a : Nat) : Nat → List Byte
  | 0 => []
  | n + 1 => s.latest sp a :: s.latestBytes sp (a + 1) n

/-- An observer at die scope outside any crew: the walkers, the launch engine, the host. -/
def dieViewer : Viewer := { agent := .launch, core := 0, crew := 0 }

/-- A scope is final for a space: crew for scratchpad, domain for memory (R319, R330). -/
def Scope.final (sc : Scope) (sp : Space) : Bool :=
  match sp with
  | .phys => decide (sc = .domain)
  | .scratch _ => decide (2 ≤ sc.code)

/-! ### The L2 slices (R352) -/

/-- The home slice of a line: PA[51:7] mod 12. -/
def homeSlice (line : Nat) : Nat := line % 2 ^ 45 % 12
/-- The set of a line in a slice of 6144 sets (log 77). -/
def l2Set (line : Nat) : Nat := line % 6144
/-- The lines of a slice. -/
def State.slice (s : State) (n : Nat) : List Nat := (Tbl.get? s.l2 n).getD []
/-- A line leaves the L1 of some cores. -/
def l1Drop (s : State) (p : Nat → Bool) (line : Nat) : State :=
  if s.cores.all fun e => !p e.1 || e.2.l1.all (·.line != line) then s
  else { s with cores := s.cores.map fun e => if p e.1 then (e.1, { e.2 with l1 := e.2.l1.filter (·.line != line) }) else e }
/-- The errors of a copy that leaves a slice unmodified are gone with it. -/
def dropFaults (s : State) (n line : Nat) : State :=
  if s.faults.isEmpty || s.dirty.any (fun d => d.line == line && d.slice == n) then s
  else { s with faults := s.faults.filter fun f => !(f.1 == 96 + n && ((f.2.1 == 0x10 && f.2.2.1 == line) || (f.2.1 == 0x21 && f.2.2.1 / 2 == line))) }
/-- A copy of a line leaves a slice, and the L1 copies of its cluster with it (inclusion); a modified one is written back. -/
def l2Drop (s : State) (n line : Nat) : State :=
  if !(s.slice n).contains line then s
  else
    let s := dropFaults s n line
    l1Drop { s with l2 := Tbl.set s.l2 n ((s.slice n).filter (· != line)), dirty := s.dirty.filter fun d => !(d.line == line && d.slice == n) }
    (fun c => clusterOf c == n) line
/-- A slice gets or uses a line; from a full set of 16 the least recently used line leaves (log 77). -/
def l2Use (s : State) (n line : Nat) : State :=
  let rest := (s.slice n).filter (· != line)
  let set := rest.filter fun l => l2Set l == l2Set line
  let s := if set.length < 16 then s else l2Drop s n (set.headD 0)
  { s with l2 := Tbl.set s.l2 n ((s.slice n).filter (· != line) ++ [line]) }
/-- A line comes into a slice: its data are written into the array, and the check values of units of host memory are made (R356, R369). -/
def l2Enter (s : State) (n line : Nat) : State :=
  if (s.faults.isEmpty && s.errs.all (fun e => !bitAt e.2.inj 8)) || (s.slice n).contains line then s
  else
    let s := injectWrite s (96 + n) 0x10 line
    if isHostMem (128 * line) then injectWrite (injectWrite s (96 + n) 0x21 (2 * line)) (96 + n) 0x21 (2 * line + 1) else s
/-- A cluster reads a line: its slice gets a copy, and a copy modified in another slice is written back and shared (log 77). -/
def l2Read' (s : State) (n line : Nat) : State :=
  let s := l2Enter s n line
  l2Use { s with dirty := s.dirty.filter fun d => !(d.line == line && d.slice != n) } n line
/-- A line is written in a slice: every other copy of it is invalidated, the host's too, and it stands modified, with what the memory behind holds: of a line that was not modified, what is performed at die scope. -/
def l2Write (s : State) (n line : Nat) : State :=
  let old := match s.dirty.find? (·.line == line) with
    | some d => d.old
    | none => s.viewBytes dieViewer .phys (line * 128) 128
  let s := { s with dirty := s.dirty.filter (·.line != line), hostCopies := s.hostCopies.filter (· != line) }
  let s := (Tbl.keys s.l2).foldl (fun s m => if m = n then s else l2Drop s m line) s
  let s := l2Use s n line
  { s with dirty := s.dirty ++ [{ line := line, old := old, slice := n }] }

/-- The lines that `n` bytes meet. -/
def lineSpan (a n : Nat) : List Nat := (List.range (n / 128 + 2)).map (· + a / 128) |>.filter fun l => decide (l * 128 < a + n)

/-- The slice in which a store stands: that of the writer's cluster, and the line's home slice for an atomic (R240) and for agents without one. -/
def Wide.slice (w : Wide) (line : Nat) : Nat := if w.agent.inCrew && !w.home then clusterOf w.core else homeSlice line

/-- A line leaves every slice and the host's cache. -/
def uncache (s : State) (line : Nat) : State :=
  { (Tbl.keys s.l2).foldl (fun s m => l2Drop s m line) s with hostCopies := s.hostCopies.filter (· != line) }

/-- What the homes of a store's lines do when it becomes performed at die scope (R352): they invalidate every other copy, and it stands modified in its slice; a store past the L2, and one of the host, leaves no copy. -/
def claimLines (s : State) (w : Wide) : State :=
  match w.space with
  | .scratch _ => s
  | .phys => (lineSpan w.addr w.data.length).foldl (fun s l => if w.ms || w.agent == .host then uncache s l else l2Write s (w.slice l) l) s

/-- A store becomes performed at a wider scope. -/
def widen (s : State) (sc : Scope) (w : Wide) : State :=
  let s := if w.scope.code < 4 ∧ 4 ≤ sc.code then claimLines s w else s
  { s with wide := replaceIf (·.id == w.id) (fun x => { x with scope := sc }) s.wide }

/-- Writes a store's bytes into memory, where every agent sees them. -/
def settleOne (s : State) (w : Wide) : State :=
  match w.space with
  | .phys => { s with mem := Cells.setList s.mem w.addr w.data }
  | .scratch c =>
    let k := s.core c
    s.setCore c { k with scratch := Cells.setList k.scratch w.addr w.data }

/-- A release among some still has a store that is not performed on the whole die. -/
def releaseLives (ws : List Wide) (rs : List Release) : Bool := rs.any fun r => r.stores.any fun i => ws.any fun w => w.id == i && decide (w.scope.code < 4)

/-- Takes the oldest stores that are performed at every scope, and carry no release whose stores are not, into memory. -/
def settle (s : State) : List Wide → State
  | [] => { s with wide := [] }
  | w :: ws => if Scope.final w.scope w.space && !releaseLives ws w.rel then settle (settleOne s w) ws else { s with wide := w :: ws }

/-- Settles the pending stores. -/
def State.settled (s : State) : State := settle s s.wide

/-- The blocks of `k` bytes that `n` bytes meet. -/
def blocksOf (a n k : Nat) : List Nat := (List.range (n / k + 2)).map (· + a / k) |>.filter fun b => decide (b * k < a + n)

/-- A block of `k` bytes that `n` bytes do not cover. -/
def partly (a n k b : Nat) : Bool := decide (k * b < a) || decide (a + n < k * b + k)

/-- What a store writes meets the armed injections of the arrays it is written into (R369), every unit, line and word of it; of one that it writes only a part of, an error stays. -/
def meetWrites (s : State) (w : Wide) : State :=
  if s.faults.isEmpty && s.errs.all (fun e => !bitAt e.2.inj 8) then s
  else
    let n := w.data.length
    match w.space with
    | .phys =>
      let s := if isDevice w.addr then
          (blocksOf w.addr n 64).foldl (fun s u =>
            injectWrite (writeInto s (!partly w.addr n 64 u) (108 + dieOf (64 * u)) 0x20 u) (108 + dieOf (64 * u)) 0x21 u) s
        else s
      if w.ms || w.agent == Agent.host then s
      else
        let s := (blocksOf w.addr n 64).foldl (fun s u => injectWrite s (96 + w.slice (u / 2)) 0x21 u) s
        (blocksOf w.addr n 128).foldl (fun s l =>
          injectWrite (writeInto s (!partly w.addr n 128 l) (96 + w.slice l) 0x10 l) (96 + homeSlice l) 0x11 l) s
    | .scratch c => (blocksOf w.addr n 8).foldl (fun s x => injectWrite (writeInto s (!partly w.addr n 8 x) c 4 x) c 5 (x / 31)) s

/-- A store takes its place: it is the latest in coherence order of its bytes, with the next number. -/
def enterWide (s : State) (w : Wide) : State :=
  let s := if 4 ≤ w.scope.code then claimLines s w else s
  State.settled { s with wide := s.wide ++ [{ w with id := s.nextStore }], nextStore := s.nextStore + 1 }

/-- Performs a store at a scope (R319). -/
def storeAt (s : State) (w : Wide) : State := enterWide (meetWrites s w) w

/-- A store by an observer may come before a pending one in coherence order: they have no byte in common, or the pending one is another agent's, which happens before nothing that the observer does and of which it sees nothing (R319, R320, R433). -/
def Wide.mayPrecede (v : Viewer) (w x : Wide) : Bool :=
  !(w.space == x.space && decide (w.addr < x.addr + x.data.length) && decide (x.addr < w.addr + w.data.length))
    || !(x.visible v || x.past v.agent)

/-- Performs a store at a scope below the die, at a free place in coherence order among those that it may take (R319, R433). -/
def storePlaced (s : State) (v : Viewer) (w : Wide) : State :=
  let s := meetWrites s w
  let n := s.wide.length - min (Config.storePlace s.nextStore) (s.wide.reverse.takeWhile (w.mayPrecede v)).length
  State.settled { s with wide := s.wide.take n ++ { w with id := s.nextStore } :: s.wide.drop n, nextStore := s.nextStore + 1 }

/-- Stores of one operation of an agent that write one word of scratchpad are performed together (R345). -/
def Wide.joins (w x : Wide) : Bool :=
  match w.space with
  | .phys => false
  | .scratch _ => w.space == x.space && w.agent == x.agent && w.seq == x.seq && decide (w.addr / 8 = x.addr / 8)

/-- Performs pending store number `n` at a wider scope. -/
def performAt (s : State) (n : Nat) (sc : Scope) : State :=
  match s.wide[n]? with
  | none => s
  | some w => State.settled ((s.wide.filter fun x => (x.id == w.id || w.joins x) && decide (x.scope.code < sc.code)).foldl (widen · sc ·) s)

/-- Performs at a scope the pending stores that satisfy a condition. -/
def performWhere (s : State) (p : Wide → Bool) (sc : Scope) : State :=
  State.settled ((s.wide.filter fun w => p w && decide (w.scope.code < sc.code)).foldl (widen · sc ·) s)
/-- Performs at a scope every pending store of an agent. -/
def performAgent (s : State) (p : Agent → Bool) (sc : Scope) : State := performWhere s (fun w => p w.agent) sc

/-! ### Releases and acquires (R324 to R326) -/

/-- The stores that happen before what an agent does next and are not performed on the whole die. -/
def pastOf (s : State) (ag : Agent) : List Nat := (s.wide.filter fun w => w.past ag && decide (w.scope.code < 4)).map (·.id)

/-- A release at a scope (R224, R241, R326): every store in the agent's past, its own and those it has come to follow, is performed at the scope. The release itself, as its readers observe it. -/
def releaseBy (s : State) (v : Viewer) (sc : Scope) : State × Release :=
  let s := performWhere s (·.past v.agent) sc
  (s, { by_ := v, scope := sc, stores := pastOf s v.agent })

/-- Releases without the stores that are performed on the whole die by now. -/
def liveReleases (s : State) (rs : List Release) : List Release :=
  (rs.map fun r => { r with stores := r.stores.filter fun i => s.wide.any fun w => w.id == i && decide (w.scope.code < 4) }).filter (!·.stores.isEmpty)

/-- Stores enter an agent's past. -/
def learnStores (s : State) (ag : Agent) (l : List Nat) : State :=
  if l.isEmpty then s
  else { s with wide := replaceIf (fun w => l.contains w.id && !w.past ag) (fun w => { w with known := ag :: w.known }) s.wide }

/-- An acquire at a scope observes releases (R325): each that lies in its instance, and in whose instance it lies, puts its stores into the agent's past. -/
def learn (s : State) (v : Viewer) (sc : Scope) (rs : List Release) : State :=
  learnStores s v.agent ((rs.filter fun r => inInstance r.scope r.by_ v && inInstance sc v r.by_).flatMap (·.stores))

/-- A plain read of a write that carries releases: an acquire fence after it observes them (R325). -/
def hear (s : State) (v : Viewer) (rs : List Release) : State :=
  (rs.filter fun r => inInstance r.scope r.by_ v).foldl (fun s r =>
    let news := fun (w : Wide) => r.stores.contains w.id && !w.heard.contains (v.agent, r.by_)
    { s with wide := replaceIf news (fun w => { w with heard := (v.agent, r.by_) :: w.heard }) s.wide }) s

/-- An acquire fence at a scope (R325): what the agent's earlier reads have read from enters its past. -/
def learnHeard (s : State) (v : Viewer) (sc : Scope) : State :=
  learnStores s v.agent ((s.wide.filter fun w => w.heard.any fun h => h.1 == v.agent && inInstance sc v h.2).map (·.id))

/-- The store that an observer's load of a byte reads, while it is not in memory. -/
def readsFrom (s : State) (v : Viewer) (sp : Space) (a : Nat) : Option Wide :=
  s.wide.foldl (fun r w => if w.visible v && (w.byte? sp a).isSome then some w else r) none

/-- The releases that a read of some bytes reads from. -/
def releasesRead (s : State) (v : Viewer) (sp : Space) (a n : Nat) : List Release :=
  if s.wide.all (·.rel.isEmpty) then []
  else dedup ((List.range n).flatMap fun i => ((readsFrom s v sp (a + i)).map (·.rel)).getD [])

/-- A read by an agent of bytes it has performed, with or without an acquire at a scope (R325). -/
def observe (s : State) (v : Viewer) (acq : Option Scope) (rs : List Release) : State :=
  if rs.isEmpty then s
  else match acq with
    | some sc => learn (hear s v rs) v sc rs
    | none => hear s v rs

/-- The releases that the steps on an object carry so far. -/
def stepReleases (s : State) (sp : Space) (a : Nat) : List Release :=
  ((s.steps.find? fun e => e.1 == sp && e.2.1 == a).map (·.2.2)).getD []

/-- A step on an object carries releases (R325): they join those of the earlier steps. -/
def carry (s : State) (sp : Space) (a : Nat) (rs : List Release) : State :=
  let all := liveReleases s (dedup (stepReleases s sp a ++ rs))
  let rest := (s.steps.filter fun e => !(e.1 == sp && e.2.1 == a)).filter fun e => !(liveReleases s e.2.2).isEmpty
  { s with steps := if all.isEmpty then rest else rest ++ [(sp, a, all)] }

/-- An acquire at a scope by a step on an object (R299, R302, R325). -/
def acquireStep (s : State) (v : Viewer) (sc : Scope) (sp : Space) (a : Nat) : State := learn s v sc (stepReleases s sp a)

/-- The releases that the last store of a place in coherence order carries: a read-modify-write reads it and goes on with its release sequence (R325). -/
def releasesLast (s : State) (sp : Space) (a : Nat) : List Release :=
  s.wide.foldl (fun r w => if (w.byte? sp a).isSome then w.rel else r) []

/-- Every pending store of the agents is performed at the scope. -/
def performed (s : State) (p : Agent → Bool) (sc : Scope) : Bool :=
  s.wide.all fun w => !p w.agent || decide (sc.code ≤ w.scope.code) || Scope.final w.scope w.space

/-! ### HBM units (R355 to R357) -/

/-- Where a device address lies: its stack, its channel in the stack, and its line in the channel (R355). -/
structure HbmPlace where
  stack : Nat
  channel : Nat
  line : Nat
  deriving DecidableEq, Repr
/-- PA[14:12], PA[11:7] and PA[38:15]. -/
def hbmPlace (a : Nat) : HbmPlace := { stack := dieOf a, channel := a / 128 % 32, line := a / 2 ^ 15 % 2 ^ 24 }

/-- The CRC-32C of a 64-byte unit's data (R356). -/
def unitCrc (s : State) (u : Nat) : W32 := crc32c (s.latestBytes .phys (64 * u) 64)
/-- The CRC that stands beside the data: made when the unit was last written, but for bits an injection inverted (R369). -/
def storedCrc (s : State) (u : Nat) : W32 :=
  match Tbl.get? s.faultBits (faultKey 0x21 u) with
  | none => unitCrc s u
  | some b => unitCrc s u ^^^ (1 <<< (b % 32)) ^^^ (if 64 ≤ b then 1 <<< ((b + 1) % 32) else 0)
/-- The metadata of a unit in HBM4E (Table 12.3). -/
def metadata (s : State) (u : Nat) : W64 :=
  let pend := s.pend.any fun p => p.key / 64 == u
  Config.checkSymbols (s.latestBytes .phys (64 * u) 64) (storedCrc s u) pend ++ (0 : BitVec 7) ++ BitVec.ofBool pend ++ storedCrc s u

/-- The block under which the check value of a unit stands that does not fit its data: a base die's, or that of a slice that holds the unit (R356). -/
def crcBlock (s : State) (u : Nat) : Option Nat := (s.faults.find? fun f => f.2.1 == 0x21 && f.2.2.1 == u).map (·.1)
/-- The end-to-end check of a unit fails; it is logged with the computed CRC (R356, R357, Table 12.6). -/
def crcCheck (s : State) (u ctx : Nat) : State × Bool :=
  if s.faults.isEmpty then (s, false)
  else match crcBlock s u with
    | some i => (logWith s i 0x21 true ctx (64 * u) (unitCrc s u), true)
    | none => (s, false)
/-- A unit gets a fresh check value, and no error stands against it. -/
def crcFresh (s : State) (u : Nat) : State := (s.faults.filter fun f => f.2.1 == 0x21 && f.2.2.1 == u).foldl (fun s f => healed s f.1 0x21 u) s

/-- A read of a unit of memory would meet an uncorrectable error: of a modified line's L2 copy, or of HBM (R217, Table 12.5). -/
def unitLost (s : State) (u : Nat) : Bool :=
  if s.faults.isEmpty then false
  else (s.dirty.any (·.line == u / 2) && s.faults.any fun f => decide (96 ≤ f.1) && decide (f.1 < 108) && f.2.1 == 0x10 && f.2.2.1 == u / 2 && f.2.2.2)
    || (isDevice (64 * u) && s.faults.any fun f => f.1 == 108 + dieOf (64 * u) && f.2.1 == 0x20 && f.2.2.1 == u && f.2.2.2)

/-- `n` bytes as every agent of the die sees them. -/
def deviceLoad (s : State) (a n : Nat) : List Byte := s.viewBytes dieViewer .phys a n

end Sys2Proof.Machine
end

