-- ==== Sys2Proof/Machine/Region.lean ====
section
/-! DEFINITION. What stands between an access and memory: crews, pairs, warps and splits by number, machine checks (R408), the errors an access meets (R217, R352, R367), ownership of lines (R329) and the directory (R352, R353), the update unit (R145, R146, R243, R363 to R366). -/
namespace Sys2Proof.Machine

/-! ### Crews, pairs, warps and splits by number -/

/-- The warp of a slice. -/
def Pair.warp (p : Pair) : Slice → Warp
  | .execute => p.exe
  | .access => p.acc
/-- Puts the warp of a slice. -/
def Pair.setWarp (p : Pair) (sl : Slice) (w : Warp) : Pair :=
  match sl with
  | .execute => { p with exe := w }
  | .access => { p with acc := w }

/-- The crew numbered `uid`, placed or saved. -/
def State.crew? (s : State) (uid : Nat) : Option Crew := Tbl.get? s.crews uid
/-- Puts a crew. -/
def State.setCrew (s : State) (uid : Nat) (c : Crew) : State := { s with crews := Tbl.set s.crews uid c }
/-- Changes a crew that exists. -/
def State.onCrew (s : State) (uid : Nat) (f : Crew → Crew) : State :=
  match s.crew? uid with
  | none => s
  | some c => s.setCrew uid (f c)
/-- Changes a pair of a crew. -/
def Crew.onPair (c : Crew) (p : Nat) (f : Pair → Pair) : Crew :=
  match Tbl.get? c.pairs p with
  | none => c
  | some x => { c with pairs := Tbl.set c.pairs p (f x) }
/-- The pair numbered `p` of crew `uid`. -/
def State.pair? (s : State) (uid p : Nat) : Option Pair :=
  match s.crew? uid with
  | none => none
  | some c => Tbl.get? c.pairs p
/-- Changes a pair. -/
def State.onPair (s : State) (uid p : Nat) (f : Pair → Pair) : State := s.onCrew uid fun c => c.onPair p f
/-- Changes a warp. -/
def State.onWarp (s : State) (uid p : Nat) (sl : Slice) (f : Warp → Warp) : State :=
  s.onPair uid p fun x => x.setWarp sl (f (x.warp sl))
/-- Changes a split. -/
def State.onSplit (s : State) (u : UnitRef) (f : Split → Split) : State :=
  s.onWarp u.crew u.pair u.slice fun w =>
    match Tbl.get? w.splits u.split with
    | none => w
    | some x => { w with splits := Tbl.set w.splits u.split (f x) }
/-- The splits of a warp with their references. -/
def State.splitsOf (s : State) (uid p : Nat) (sl : Slice) : List (UnitRef × Split) :=
  match s.pair? uid p with
  | none => []
  | some x => (x.warp sl).splits.map fun e => ({ crew := uid, pair := p, slice := sl, split := e.1 }, e.2)

/-! ### Machine checks -/

/-- Adds an unhandled trap or machine check to a fault register (Table 14.6): the first cause, valid, the saturating count. -/
def countFault (f : W64) (cause : Nat) : W64 :=
  let n := fld f 32 32
  let c := if n = 2 ^ 32 - 1 then n else n + 1
  BitVec.ofNat 64 (c * 2 ^ 32 + (if bitAt f 9 then fld f 0 10 else 512 + cause % 512))

/-- A machine check is counted in mcheck and maddr of its context (Table 14.6). -/
def countCheck (s : State) (ctx cause : Nat) (addr : W64) : State :=
  let c := s.ctx ctx
  s.setCtx ctx { c with maddr := if bitAt c.mcheck 9 then c.maddr else addr, mcheck := countFault c.mcheck cause }

/-- A machine check that no split's access met: it is counted, and goes to the placed crews of the context. An access of no context (0xFF) reports none. -/
def contextCheck (s : State) (ctx cause : Nat) (addr : W64) : State :=
  if 64 ≤ ctx then s
  else
  let s := countCheck s ctx cause addr
  { s with checks := s.checks ++ [{ ctx := ctx, split := none, cause := BitVec.ofNat 9 cause, addr := addr }] }

/-- A machine check that an access of a split met. -/
def splitCheck (s : State) (ctx : Nat) (u : UnitRef) (cause : Nat) (addr : W64) : State :=
  { s with checks := s.checks ++ [{ ctx := ctx, split := some u, cause := BitVec.ofNat 9 cause, addr := addr }] }

/-- A machine check waits for the next boundary of a split. -/
def Check.waits (k : Check) (s : State) (u : UnitRef) : State := s.onSplit u fun y => { y with mc := y.mc ++ [(k.cause, k.addr)] }

/-- The first split of the lowest live access warp of each placed crew of a context; of a crew that runs a Portable Form program the first thread (log 4). -/
def contextSplits (s : State) (ctx : Nat) : List UnitRef :=
  (s.crews.filter fun e => e.2.ctx == ctx && e.2.saved.isNone).filterMap fun e =>
    let sl : Slice := if e.2.kern.prog.isSome then .execute else .access
    (e.2.pairs.find? fun p => !(p.2.warp sl).ended).bind fun p =>
      (p.2.warp sl).splits.head?.map fun x => { crew := e.1, pair := p.1, slice := sl, split := x.1 }

/-- A machine check reaches its split, or with the split gone, or none, the first split of the lowest live access warp of each placed crew of its context (R408). -/
def Check.deliver (k : Check) (s : State) : State :=
  let lost := fun (s : State) => (contextSplits s k.ctx).foldl k.waits s
  match k.split with
  | none => lost s
  | some u =>
    if (s.splitsOf u.crew u.pair u.slice).any fun x => x.1 == u then k.waits s u else lost (countCheck s k.ctx k.cause.toNat k.addr)

/-- The machine checks met in a turn reach their splits. -/
def deliverChecks (s : State) : State := s.checks.foldl (fun s k => k.deliver s) { s with checks := [] }

/-! ### Errors of memory read on the way (R217, R352, R367) -/

/-- The part of a directory entry in which an inverted bit lies, as Table 14.4 numbers them: three bits of state, twelve of the sharer vector, the host copy bit, engine ownership (log 7). -/
def dirField (s : State) (line : Nat) : Nat :=
  let b := (Tbl.get? s.faultBits (faultKey 0x11 line)).getD 0 % 64 % 17
  if b < 3 then 0 else if b < 15 then 1 else b - 13

/-- The directory entry of a line is read: an uncorrectable error reports *coherence state lost*, with the part that is lost, to every resident context, and the entry is made anew. -/
def directoryRead (s : State) (line ctx : Nat) : State :=
  let i := 96 + homeSlice line
  let r := injectRead s i 0x11 line ctx
  if r.2 then
    let t := healed r.1 i 0x11 line
    (Tbl.keys t.ctxs).foldl (fun s c => contextCheck s c (0x130 + dirField r.1 line) (BitVec.ofNat 64 (128 * line))) t
  else r.1

/-- The L2 copy of a line is read: an uncorrectable error of a clean line has it fetched again, one of a dirty line leaves readers with zero. -/
def l2Read (s : State) (line ctx : Nat) : State × Bool :=
  match s.faults.find? fun f => decide (96 ≤ f.1) && decide (f.1 < 108) && f.2.1 == 0x10 && f.2.2.1 == line with
  | none => (s, false)
  | some f =>
    let r := injectRead s f.1 0x10 line ctx
    if r.2 && !(s.dirty.any (·.line == line)) then (healed r.1 f.1 0x10 line, false) else r

/-- A 64-byte unit of memory is read through the directory, L2 and, for device memory, HBM: the cause of an uncorrectable error met. -/
def unitRead (s : State) (u ctx : Nat) : State × Option Nat :=
  if s.faults.isEmpty then (s, none)
  else
    let s := directoryRead s (u / 2) ctx
    let r := l2Read s (u / 2) ctx
    if r.2 then (r.1, some 0x125)
    else if isDevice (64 * u) then
      let r := injectRead r.1 (108 + dieOf (64 * u)) 0x20 u ctx
      (r.1, if r.2 then some 0x126 else none)
    else (r.1, none)

/-- What a write of `n` bytes of memory meets before it (R352, R356, R357, R367): the directory entries of its lines, and of a unit that it writes a part of the old data, read with what errors they hold, and the check of the old value, after which the unit has a fresh one. What cannot be corrected is a machine check of the writer's context. -/
def partialCheck (s : State) (ctx a n : Nat) : State :=
  if s.faults.isEmpty || n = 0 then s
  else
    let s := (blocksOf a n 128).foldl (fun s l => directoryRead s l ctx) s
    ((blocksOf a n 64).filter (partly a n 64)).foldl (fun s u =>
      let r := unitRead s u ctx
      let s := match r.2 with
        | none => r.1
        | some c => contextCheck r.1 ctx c (BitVec.ofNat 64 (64 * u))
      let r := crcCheck s u ctx
      if r.2 then contextCheck (crcFresh r.1 u) ctx 0x11D (BitVec.ofNat 64 (64 * u)) else r.1) s

/-- The words of some bytes of a core's scratchpad are read: errors are logged, and one that cannot be corrected is reported as the reader asks (R217, R346). -/
def scratchMet (s : State) (core ctx a n : Nat) (report : State → W64 → State) : State :=
  if scratchSound s core then s
  else (blocksOf a n 8).foldl (fun s w =>
    let r := scratchRead s core w ctx
    if r.2 then report r.1 (BitVec.ofNat 64 (8 * w)) else r.1) s

/-- The words of scratchpad that runs of bytes, address and length, write a part of are read first: their errors are met as a read meets them (R345, R346, R367), one that cannot be corrected being a machine check of the writer's context. -/
def scratchPartial (s : State) (core ctx : Nat) (l : List (Nat × Nat)) : State :=
  if scratchSound s core then s
  else (dedup (l.flatMap fun x => (blocksOf x.1 x.2 8).filter fun w =>
      (List.range 8).any fun i => l.all fun y => decide (8 * w + i < y.1) || decide (y.1 + y.2 ≤ 8 * w + i))).foldl (fun s w =>
    scratchMet s core ctx (8 * w) 8 fun s x => contextCheck s ctx 0x123 x) s

/-- The units among some that read as zero, with the cause of the first. -/
def unitsRead (s : State) (us : List Nat) (ctx : Nat) : State × List Nat × Option Nat :=
  us.foldl (fun p u =>
    let q := unitRead p.1 u ctx
    match q.2 with
    | none => (q.1, p.2)
    | some c => (q.1, u :: p.2.1, some (p.2.2.getD c))) (s, [], none)

/-! ### Lines -/

/-- The number of the 128-byte line of a byte; lines of scratchpads are numbered above all physical lines. -/
def lineOf (sp : Space) (a : Nat) : Nat :=
  match sp with
  | .phys => a / 128
  | .scratch c => 2 ^ 45 + c * 2 ^ 16 + a / 128

/-- Some command of the device other than `except` (core and command) owns the line (R329). -/
def owned (s : State) (except : Option (Nat × Nat)) (line : Nat) : Bool :=
  s.cores.any fun e => e.2.cmds.any fun c => except != some (e.1, c.id) && c.own.any (·.1 == line)

/-! ### The directory (R352) -/

/-- The state of a line in its home slice's directory. -/
inductive LineState
  | invalid
  | shared
  | exclusive
  | modified
  | owned
  deriving DecidableEq, Repr

/-- A directory entry: the state, the slices that hold copies, and whether the host holds one. -/
structure DirEntry where
  state : LineState
  copies : BitVec 12
  host : Bool
  deriving DecidableEq, Repr

/-- The slices that hold a line. -/
def holders (s : State) (line : Nat) : List Nat := (List.range 12).filter fun n => (s.slice n).contains line

/-- The directory entry of a line, as the slices, the engines and the host hold it. -/
def directory (s : State) (line : Nat) : DirEntry :=
  let h := holders s line
  let host := s.hostCopies.contains line
  { state := if owned s none line then .owned else if s.dirty.any (·.line == line) then .modified
      else if h.isEmpty && !host then .invalid else if h.length + (if host then 1 else 0) ≤ 1 then .exclusive else .shared,
    copies := BitVec.ofNat 12 (h.foldl (fun a n => a + 2 ^ n) 0), host := host }

/-- No line of an access is owned by a command (R329, R353). -/
def unowned (s : State) (sp : Space) (a n : Nat) : Bool :=
  !owned s none (lineOf sp a) && !owned s none (lineOf sp (a + (n - 1)))

/-! ### Who waits for owned lines (R353) -/

/-- A placed crew and one of its pairs. -/
def placedPair (s : State) (uid pn : Nat) : Option (Crew × Pair) :=
  match s.crew? uid with
  | none => none
  | some c => if c.saved.isSome then none else (Tbl.get? c.pairs pn).map fun p => (c, p)

/-- The load number `id` of an access warp with one of its outstanding lanes. -/
def findLane (p : Pair) (id lane : Nat) : Option (Load × LoadLane) :=
  match p.acc.loads.find? fun l => l.id == id && l.lanes.any (·.lane == lane) with
  | none => none
  | some l => (l.lanes.find? (·.lane == lane)).map fun x => (l, x)

/-- A split whose instruction stalls at the home of a line, or is about to issue again. -/
def Wait.atLine : Wait → Bool
  | .ready | .line _ => true
  | _ => false

/-- A split is held by a bit of $tctl: another split of its warp holds the splits, or one of the paired warp holds the pair (R403). -/
def heldBy (p : Pair) (u : UnitRef) : Bool :=
  (match (p.warp u.slice).holdSplits with
    | some n => decide (n ≠ u.split)
    | none => false) || (p.warp u.slice.other).holdPair.isSome

/-- The access is still to be made; an instruction keeps its place until it issues again. -/
def heldLive (s : State) : Held → Bool
  | .load crew pair id lane => (placedPair s crew pair).any fun p => (findLane p.2 id lane).isSome
  | .store crew pair seq => (placedPair s crew pair).any fun p => (p.2.acc.stores.head?.map (·.seq)) == some seq
  | .copy crew pair id => (placedPair s crew pair).any fun p => p.2.xcps.any (·.id == id)
  | .unit u => (placedPair s u.crew u.pair).any fun p => !p.1.saving && !heldBy p.2 u && (Tbl.get? (p.2.warp u.slice).splits u.split).any fun x =>
      (x.wait.atLine || x.wait == .ready) && !x.halted

/-- An access that arrived before `me` waits for one of some lines, owned or just released. -/
def waitsBehind (s : State) (ls : List Nat) (me : Option Held) : Bool :=
  ls.any fun l => (s.held.takeWhile fun e => !(e.1 == l && some e.2 == me)).any fun e => e.1 == l && heldLive s e.2

/-- An access takes its place at the homes of lines that are owned or waited for; those that are made or gone have left theirs. -/
def waitAt (s : State) (ls : List Nat) (me : Held) : State :=
  let old := s.held.filter fun e => heldLive s e.2
  { s with held := old ++ (ls.filter fun l => !old.contains (l, me)).map fun l => (l, me) }

/-- An access that is made leaves its places. -/
def waitDone (s : State) (me : Held) : State := if s.held.isEmpty then s else { s with held := s.held.filter fun e => e.2 != me }

/-- The issuing split as one that may wait for a line. -/
def State.me (s : State) : Option Held := s.cur.map Held.unit

/-- The lines of an access. -/
def linesOf (sp : Space) (a n : Nat) : List Nat := (blocksOf a n 128).map fun b => lineOf sp (128 * b)

/-- A line is owned, or others wait there before an access. -/
def blockedFor (s : State) (me : Option Held) (line : Nat) : Bool := owned s none line || (!s.held.isEmpty && waitsBehind s [line] me)

/-! ### Update regions (R145, R146, R243, R364, R365) -/

/-- Bytes of an element type of a binding. -/
def etypeBytes (e : Nat) : Nat := if e = 0x0C ∨ e = 0x0B then 2 else if e = 0x04 ∨ e = 0x08 ∨ e = 0x0A then 8 else 4
/-- The float format of an element type, if it is one (Table 5.11). -/
def etypeFmt (e : Nat) : Option Fmt :=
  if e = 0x0D then some fmtF32 else if e = 0x0C then some fmtBf16 else if e = 0x0B then some fmtF16 else none
/-- The integer type of an element type. -/
def etypeTy (e : Nat) : Ty :=
  if e = 0x03 then .s32 else if e = 0x04 then .s64 else if e = 0x07 then .z32 else if e = 0x08 then .z64
  else if e = 0x09 then .b32 else .b64

/-- The sum field of a wide record as an integer: bit 0 weighs 2^-149 (Table 5.12). -/
def wideSum (r : BitVec 320) : Int :=
  let n := fld r 0 300
  if 2 ^ 299 ≤ n then (n : Int) - 2 ^ 300 else n

/-- A wide record of its parts. -/
def wideRec (ovf nan ninf pinf : Bool) (sum : Int) : BitVec 320 :=
  BitVec.ofNat 320 ((sum % 2 ^ 300).toNat + (if pinf then 2 ^ 301 else 0) + (if ninf then 2 ^ 302 else 0)
    + (if nan then 2 ^ 303 else 0) + (if ovf then 2 ^ 304 else 0))

/-- Two wide records added exactly (R364): flags ORed, ovf when the magnitude reaches 2^299. -/
def wideAdd (a b : BitVec 320) : BitVec 320 :=
  let t := wideSum a + wideSum b
  let pinf := bitAt a 301 || bitAt b 301
  let ninf := bitAt a 302 || bitAt b 302
  wideRec (bitAt a 304 || bitAt b 304 || decide (2 ^ 299 ≤ t.natAbs))
    (bitAt a 303 || bitAt b 303 || (pinf && ninf)) ninf pinf t

/-- A float value as a wide record (R145, R364). -/
def wideOf (v : FVal) : BitVec 320 :=
  match v with
  | .nan _ => wideRec false true false false 0
  | .inf n => wideRec false false n (!n) 0
  | .num n m e => wideRec false false false false (let x : Int := m * 2 ^ (e + 149).toNat; if n then -x else x)

/-- The new element after applying a wide record (Table 5.13). -/
def wideApply (f : Fmt) (r : BitVec 320) (old : Nat) : Nat :=
  let v := f.value old
  let pinf := bitAt r 301
  let ninf := bitAt r 302
  if v.isNan || bitAt r 303 || bitAt r 304 || (pinf && ninf) || (v.isInf && !v.neg && ninf) || (v.isInf && v.neg && pinf) then f.nan
  else if pinf || (v.isInf && !v.neg) then f.inf false
  else if ninf || v.isInf then f.inf true
  else
    let t := wideSum r
    if t = 0 then old
    else (f.add .rn false v (.num (decide (t < 0)) t.natAbs (-149))).val.toNat

/-- The combination of two values by a binding's operator (R243). -/
def combine (oper etype : Nat) (a b : Nat) : Nat :=
  match etypeFmt etype with
  | some f => ((if oper = 1 then f.min (f.value a) (f.value b) else f.max (f.value a) (f.value b)).val).toNat
  | none =>
    let t := etypeTy etype
    let x := BitVec.ofNat 64 a
    let y := BitVec.ofNat 64 b
    (match oper with
      | 0 => iaddOp t false x y 0
      | 1 => iminOp t false x y 0
      | 2 => imaxOp t false x y 0
      | 3 => andOp t false x y 0
      | 4 => orOp t false x y 0
      | _ => xorOp t false x y 0).val.toNat % 2 ^ (8 * etypeBytes etype)

/-- Float add, the one operator with wide records. -/
def isFloatAdd (oper etype : Nat) : Bool := decide (oper = 0) && (etypeFmt etype).isSome

/-- Bytes that the update unit reads, last in coherence order, in runs of address and length: those of units with an uncorrectable error are zero, which is a machine check of the binding's context (R217, R408). -/
def updateRead (s : State) (ctx : Nat) : List (Nat × Nat) → State × List Byte
  | [] => (s, [])
  | p :: ps =>
    let r := unitsRead s (blocksOf p.1 p.2 64) ctx
    let s := match r.2.2 with
      | none => r.1
      | some c => contextCheck r.1 ctx c (BitVec.ofNat 64 (64 * r.2.1.headD 0))
    let b := (s.latestBytes .phys p.1 p.2).zipIdx.map fun x => if r.2.1.contains ((p.1 + x.2) / 64) then 0 else x.1
    let q := updateRead s ctx ps
    (q.1, b ++ q.2)

/-- The element at a key, last in coherence order. -/
def element (s : State) (ctx key etype : Nat) : State × Nat :=
  let r := updateRead s ctx [(key, etypeBytes etype)]
  (r.1, bytesToNat r.2)

/-- The update unit's store of an element (R333). -/
def storeElement (s : State) (ctx key etype v : Nat) : State :=
  storeAt (partialCheck s ctx key (etypeBytes etype)) { agent := .update, core := 0, crew := 0, space := .phys, addr := key, data := natToBytes v (etypeBytes etype), ms := true, scope := .domain }

/-- The shadow record of a key, in its one or two runs of bytes. -/
def shadow (s : State) (ctx : Nat) (sh : List (Nat × Nat)) : State × BitVec 320 :=
  let r := updateRead s ctx sh
  (r.1, BitVec.ofNat 320 (bytesToNat r.2))
/-- Stores runs of bytes, by the update unit. -/
def storeRuns (s : State) (ctx : Nat) : List (Nat × Nat) → List Byte → State
  | [], _ => s
  | p :: ps, d =>
    storeRuns (storeAt (partialCheck s ctx p.1 p.2) { agent := .update, core := 0, crew := 0, space := .phys, addr := p.1, data := d.take p.2, ms := true, scope := .domain })
      ctx ps (d.drop p.2)
def storeShadow (s : State) (ctx : Nat) (sh : List (Nat × Nat)) (r : BitVec 320) : State := storeRuns s ctx sh (natToBytes r.toNat 40)

/-- Reads a key's drawer: an uncorrectable error discards its record and reports *update record lost* to the binding's context (R366). -/
def readDrawer (s : State) (key : Nat) : State :=
  match s.drawers.find? (·.key == key) with
  | none => s
  | some d =>
    let r := injectRead s (108 + dieOf key) 0x22 key d.ctx
    if r.2 then
      let k := if d.oper = 0 then (if isFloatAdd d.oper d.etype then 0 else 1) else if d.oper ≤ 2 then 2 else 3
      contextCheck { healed r.1 (108 + dieOf key) 0x22 key with drawers := s.drawers.filter (·.key != key) } d.ctx (0x12C + k)
        (BitVec.ofNat 64 key)
    else r.1

/-- Applies a wide record to an element (R146, Table 5.13). -/
def applyWide (s : State) (ctx key etype : Nat) (r : BitVec 320) : State :=
  let e := element s ctx key etype
  storeElement e.1 ctx key etype (wideApply ((etypeFmt etype).getD fmtF32) r e.2)

/-- Applies what a drawer or a spilled record holds for one key (R365). -/
def applyKey (s : State) (key : Nat) : State :=
  let s := readDrawer s key
  let d := s.drawers.find? (·.key == key)
  let p := s.pend.find? (·.key == key)
  let s := { s with drawers := s.drawers.filter (·.key != key), pend := s.pend.filter (·.key != key) }
  match d, p with
  | none, none => s
  | some d, none =>
    if isFloatAdd d.oper d.etype then applyWide s d.ctx key d.etype d.val
    else
      let e := element s d.ctx key d.etype
      storeElement e.1 d.ctx key d.etype (combine d.oper d.etype e.2 d.val.toNat)
  | d, some p =>
    let h := shadow s p.ctx p.sh
    let r := match d with
      | none => h.2
      | some d => wideAdd d.val h.2
    storeShadow (applyWide h.1 p.ctx key p.etype r) p.ctx p.sh 0

/-- The keys with records among some bytes' lines. -/
def keysOf (s : State) (lo hi : Nat) : List Nat :=
  dedup ((s.drawers.map (·.key) ++ s.pend.map (·.key)).filter fun k => decide (lo ≤ k) && decide (k < hi))

/-- No command owns a line that applying a key's record writes (R329). -/
def applyReady (s : State) (key : Nat) : Bool :=
  let runs := ((s.drawers.filter (·.key == key)).flatMap (·.sh)) ++ ((s.pend.filter (·.key == key)).flatMap (·.sh))
  !owned s none (key / 128) && runs.all fun r => unowned s .phys r.1 r.2

/-- Applies the records of every line that the bytes `a` to `a + n - 1` meet: a read, store or atomic of a bound region line does this first (R245, R365). -/
def applyLines (s : State) (a n : Nat) : State :=
  if s.drawers.isEmpty && s.pend.isEmpty then s
  else (keysOf s (a / 128 * 128) ((a + (n - 1)) / 128 * 128 + 128)).foldl applyKey s

/-- Spills a drawer whose record has been read (R364). -/
def spillRecord (s : State) (d : Drawer) : State :=
  let s := { s with drawers := s.drawers.filter (·.key != d.key) }
  if isFloatAdd d.oper d.etype then
    let h := shadow s d.ctx d.sh
    let s := storeShadow h.1 d.ctx d.sh (wideAdd d.val h.2)
    { s with pend := s.pend.filter (·.key != d.key) ++ [{ key := d.key, va := d.va, ctx := d.ctx, slot := d.slot, etype := d.etype, sh := d.sh }] }
  else
    let e := element s d.ctx d.key d.etype
    storeElement e.1 d.ctx d.key d.etype (combine d.oper d.etype e.2 d.val.toNat)

/-- No command owns a line of an access of `me`, or one that serving it applies records to (R329, R365), and nobody waits there before it (R353): else the lines it waits for. -/
def lineWaitsFor (s : State) (me : Option Held) (sp : Space) (a n : Nat) : List Nat :=
  (linesOf sp a n).filter (blockedFor s me) ++
    match sp with
    | .scratch _ => []
    | .phys =>
      if s.drawers.isEmpty && s.pend.isEmpty then []
      else ((keysOf s (a / 128 * 128) ((a + (n - 1)) / 128 * 128 + 128)).filter fun k => !applyReady s k).map (· / 128)

/-- The lines that an access made now waits for. -/
def lineWaits (s : State) (sp : Space) (a n : Nat) : List Nat := lineWaitsFor s s.me sp a n

/-- Spills the drawer of a key (R364), unless a command owns a line it goes to (R329). -/
def spillDrawer (s : State) (key : Nat) : State :=
  if !applyReady s key then s
  else
  let s := readDrawer s key
  match s.drawers.find? (·.key == key) with
  | none => s
  | some d => spillRecord s d

/-- The drawers that a key shares a set with. -/
def drawerSet (s : State) (key : Nat) : List Drawer :=
  s.drawers.filter fun o => dieOf o.key == dieOf key && Config.drawerHash o.key == Config.drawerHash key
/-- The drawer that gives way to a key: the least recently combined of a full set. -/
def drawerVictim (s : State) (key : Nat) : Option Drawer :=
  if s.drawers.any (·.key == key) || decide ((drawerSet s key).length < 16) then none else minBy (fun x y => decide (x.used < y.used)) (drawerSet s key)
/-- A pair of a key can enter: the drawer that gives way can be spilled. -/
def roomFor (s : State) (key : Nat) : Bool :=
  match drawerVictim s key with
  | none => true
  | some o => applyReady s o.key

/-- An update pair enters the update unit (R363, R364): it combines with its drawer, or takes one, spilling the least recently combined of a full set. -/
def acceptPair (s : State) (d : Drawer) (raw : Nat) : State :=
  let s := readDrawer { s with clock := s.clock + 1 } d.key
  let fmt := (etypeFmt d.etype).getD fmtF32
  let mine : BitVec 320 := if isFloatAdd d.oper d.etype then wideOf (fmt.value raw) else BitVec.ofNat 320 raw
  match s.drawers.find? (·.key == d.key) with
  | some o =>
    let s := injectWrite s (108 + dieOf d.key) 0x22 d.key
    let v := if isFloatAdd d.oper d.etype then wideAdd o.val mine else BitVec.ofNat 320 (combine d.oper d.etype o.val.toNat raw)
    { s with drawers := replaceIf (·.key == d.key) (fun o => { o with val := v, va := d.va, used := s.clock }) s.drawers }
  | none =>
    let s := match drawerVictim s d.key with
      | none => s
      | some o => spillDrawer s o.key
    let s := injectWrite s (108 + dieOf d.key) 0x22 d.key
    { s with drawers := s.drawers ++ [{ d with val := mine, used := s.clock }] }

end Sys2Proof.Machine
end

