-- ==== Sys2Proof/Machine/Translate.lean ====
section
/-! DEFINITION. Translation: page walks, TLBs and permission checks (R358 to R361). -/
namespace Sys2Proof.Machine

/-- Why a translation or permission check fails (R359, R354). -/
inductive XFault
  | nonCanonical
  | page
  | protection
  | corrupt
  | badPhys
  /-- a line of the access, or of an entry of its walk, belongs to a command, or others wait there: the access waits (R353) -/
  | waits (line : Nat)
  deriving DecidableEq, Repr

/-- The line that an access waits for. -/
def XFault.line? : XFault → Option Nat
  | .waits l => some l
  | _ => none

/-- What an access needs of a page. -/
inductive Need
  | r | w | x
  deriving DecidableEq, Repr

/-- Flag bits of a page-table entry (Table 12.4). -/
def pteBit (e : W64) (i : Nat) : Bool := bitAt e i

/-- The permission a leaf grants (R359). -/
def permits (e : W64) : Need → Bool
  | .r => pteBit e 2
  | .w => pteBit e 3
  | .x => pteBit e 4

/-- The entry breaks R359 at its level for the address. -/
def pteCorrupt (e : W64) (level : Nat) (va : Nat) : Bool :=
  let leaf := pteBit e 1
  let pa := fld e 12 40 * 4096
  decide (fld e 52 12 ≠ 0) || (leaf && decide (4 ≤ level)) || (!leaf && decide (level = 1)) ||
  (pteBit e 3 && !pteBit e 2 && leaf) || (pteBit e 5 && isHostMem pa) ||
  (pteBit e 6 && decide (level ≠ 1)) || (leaf && pteBit e 6 && decide (fld e 12 4 ≠ va / 4096 % 16)) ||
  (leaf && decide (level = 2) && decide (fld e 12 9 ≠ 0)) || (leaf && decide (level = 3) && decide (fld e 12 18 ≠ 0))

/-- log2 of the page size a leaf maps at its level (R359). -/
def pageLg (e : W64) (level : Nat) : Nat :=
  if level = 3 then 30 else if level = 2 then 21 else if pteBit e 6 then 16 else 12

/-- A page-table entry as a walker reads it: with the records of a bound region's line applied (R245, R365), and one with an uncorrectable error as zero (R217, R367). -/
def pteAt (s : State) (at_ : Nat) : W64 :=
  if unitLost s (at_ / 64) then 0 else BitVec.ofNat 64 (bytesToNat (deviceLoad (applyLines s at_ 8) at_ 8))

/-- The walk from the table of `level` (R358, R359): the leaf with its place and page size. With `wait` it stands behind owned lines. -/
def walkFrom (s : State) (wait : Bool) (ctx va : Nat) : (level table : Nat) → Except XFault TlbEntry
  | 0, _ => .error .corrupt
  | level + 1, table =>
    let at_ := table + va / 2 ^ (12 + 9 * level) % 512 * 8
    let e : W64 := pteAt s at_
    match if wait then lineWaits s .phys at_ 8 else [] with
    | l :: _ => .error (.waits l)
    | [] =>
    if !pteBit e 0 then .error .page
    else if pteCorrupt e (level + 1) va then .error .corrupt
    else if pteBit e 1 then
      let lg := pageLg e (level + 1)
      .ok { ctx := ctx, va := va / 2 ^ lg * 2 ^ lg, lg := lg, pte := e, at_ := at_ }
    else walkFrom s wait ctx va level (fld e 12 40 * 4096)

/-- The addresses of the entries that a walk reads, from the table of `level`. -/
def tablesFrom (s : State) (va : Nat) : (level table : Nat) → List Nat
  | 0, _ => []
  | level + 1, table =>
    let at_ := table + va / 2 ^ (12 + 9 * level) % 512 * 8
    let e := pteAt s at_
    at_ :: (if !pteBit e 0 || pteBit e 1 || pteCorrupt e (level + 1) va then [] else tablesFrom s va level (fld e 12 40 * 4096))
def tablesOf (s : State) (ctx : Nat) (va : W64) : List Nat :=
  let root := (s.ctx ctx).root
  if !bitAt root 0 then [] else tablesFrom s (fld va 0 57) 5 (fld root 12 40 * 4096)

/-- The walk of a context's address (R358). -/
def walk (s : State) (ctx : Nat) (va : W64) : Except XFault TlbEntry :=
  let root := (s.ctx ctx).root
  if !bitAt root 0 then .error .page else walkFrom s true ctx (fld va 0 57) 5 (fld root 12 40 * 4096)
/-- What the tables of a context hold for an address, whoever waits for their lines: how the binding copies know a region's lines (R366). -/
def peek (s : State) (ctx : Nat) (va : W64) : Except XFault TlbEntry :=
  let root := (s.ctx ctx).root
  if !bitAt root 0 then .error .page else walkFrom s false ctx (fld va 0 57) 5 (fld root 12 40 * 4096)

/-- The physical address a translation gives (R361 for 64 KiB pages). -/
def TlbEntry.phys (t : TlbEntry) (va : W64) : Nat :=
  fld t.pte 12 40 * 4096 / 2 ^ t.lg * 2 ^ t.lg + fld va 0 57 % 2 ^ t.lg

/-- A line belongs to a bound region of some context, by the context's page tables (R246, R366). -/
def regionLine (s : State) (line : Nat) : Bool :=
  s.ctxs.any fun e => e.2.bindings.any fun b =>
    let lo := b.2.rbase.toNat
    (List.range (b.2.rlen.toNat / 4096 + 2)).any fun i =>
      let page := lo / 4096 * 4096 + 4096 * i
      let va := page + line % 32 * 128
      decide (lo ≤ va) && decide (va < lo + b.2.rlen.toNat) && match peek s e.1 (BitVec.ofNat 64 page) with
        | .ok t => t.phys (BitVec.ofNat 64 page) / 4096 == line / 32
        | .error _ => false

/-- Bytes from an address on, cut at the pages, and where there are bound regions at the lines, some of which may lie in one: the stores they are written by. -/
def lineRuns (s : State) (a : Nat) (d : List Byte) : List (Nat × List Byte) :=
  let k := if s.ctxs.all fun e => e.2.bindings.isEmpty then 4096 else 128
  (blocksOf a d.length k).map fun b =>
    let lo := max a (k * b)
    (lo, (d.drop (lo - a)).take (k * b + k - lo))

/-- What the walk of an address does on its way: the records of its lines are applied (R365), errors met are logged and reported to its context (R217, R367), and the lines stand in their home slices (R352). -/
def walkReads (s : State) (ctx : Nat) (va : W64) : State :=
  (tablesOf s ctx va).foldl (fun s a =>
    let r := unitRead (applyLines s a 8) (a / 64) ctx
    let s := if regionLine r.1 (a / 128) then r.1 else l2Read' r.1 (homeSlice (a / 128)) (a / 128)
    match r.2 with
    | none => s
    | some c => contextCheck s ctx c (BitVec.ofNat 64 a)) s

/-- A store by the device itself for a context, performed at every scope at once: walkers, launch engine, loader, saves. The records of a region's lines are applied first (R245), the old data of what it writes a part of are read and checked (R356, R357), and lines of memory-side pages and bound regions go past the L2 (R246, Table 12.4). -/
def deviceStore (s : State) (ctx : Nat) (ms : Bool) (a : Nat) (d : List Byte) : State :=
  (lineRuns s a d).foldl (fun s r =>
    storeAt s { agent := .launch, core := 0, crew := 0, space := .phys, addr := r.1, data := r.2, ms := ms || regionLine s (r.1 / 128), scope := .domain })
    (partialCheck (applyLines s a d.length) ctx a d.length)

/-- A cached translation matches an address. -/
def TlbEntry.covers (t : TlbEntry) (ctx : Nat) (va : W64) : Bool :=
  t.ctx == ctx && decide (t.va = fld va 0 57 / 2 ^ t.lg * 2 ^ t.lg)

/-- The cached translation of an address: in the core's TLB, else in its cluster's (R361). -/
def cached (s : State) (core ctx : Nat) (va : W64) : Option TlbEntry :=
  match (s.core core).tlb.find? (·.covers ctx va) with
  | some t => some t
  | none => ((Tbl.get? s.tlb2 (clusterOf core)).getD []).find? (·.covers ctx va)

/-- The translation an access of a core uses: a cached one or a walk (R361). A write through a translation cached with d = 0 walks again (R360). -/
def lookup (s : State) (core ctx : Nat) (va : W64) (n : Need) : Except XFault TlbEntry :=
  match cached s core ctx va with
  | some t => if decide (n = .w) && permits t.pte .w && !pteBit t.pte 8 then walk s ctx va else .ok t
  | none => walk s ctx va

/-- Check 4 of R216 for one address: a valid translation into an existing physical range (R354). -/
def check4 (s : State) (core ctx : Nat) (va : W64) (n : Need) : Except XFault TlbEntry :=
  match lookup s core ctx va n with
  | .error f => .error f
  | .ok t => if isHole (t.phys va) then .error .badPhys else .ok t

/-- A use of an address with a need: canonical, translated and permitted. -/
def check (s : State) (core ctx : Nat) (va : W64) (n : Need) : Except XFault TlbEntry :=
  if !canonical va then .error .nonCanonical
  else match check4 s core ctx va n with
  | .error f => .error f
  | .ok t => if permits t.pte n then .ok t else .error .protection

/-- A TLB with an entry put in front; beyond its capacity the oldest leaves (R361; log 11). -/
def tlbAdd (l : List TlbEntry) (t : TlbEntry) (cap : Nat) : List TlbEntry :=
  (t :: l.filter fun x => !(x.ctx == t.ctx && x.va == t.va && x.lg == t.lg)).take cap

/-- The walker sets a, and d for a write, in a leaf (R360). -/
def markLeaf (s : State) (t : TlbEntry) (write : Bool) : State :=
  let bits : W64 := 0x80 ||| (if write then 0x100 else 0)
  if t.pte ||| bits = t.pte then s
  else
    let cur : W64 := BitVec.ofNat 64 (bytesToNat (deviceLoad s t.at_ 8))
    deviceStore s t.ctx false t.at_ (natToBytes (cur ||| bits).toNat 8)

/-- A use that passed its checks: what its walk reads on its way (`walkReads`), the bits that the walker sets, and the TLBs hold the translation (R360, R361), as it is written into them (R369). -/
def touch (s : State) (core : Nat) (t : TlbEntry) (write : Bool) : State :=
  let va := BitVec.ofNat 64 t.va
  let s := match cached s core t.ctx va with
    | some c => if write && !pteBit c.pte 8 then walkReads s t.ctx va else s
    | none => walkReads s t.ctx va
  let s := markLeaf s t write
  let t := { t with pte := t.pte ||| 0x80 ||| (if write then 0x100 else 0) }
  let r := parityWrite s core 8 (t.va / 4096 % 128) t.ctx
  let s := r.1
  let k := s.core core
  let s := if r.2.1 then s else s.setCore core { k with tlb := tlbAdd k.tlb { t with pte := t.pte ^^^ r.2.2 } 128 }
  let r := parityWrite s (96 + clusterOf core) 8 (t.va / 4096 % 8192) t.ctx
  let s := r.1
  if r.2.1 then s
  else { s with tlb2 := Tbl.set s.tlb2 (clusterOf core) (tlbAdd ((Tbl.get? s.tlb2 (clusterOf core)).getD []) { t with pte := t.pte ^^^ r.2.2 } 8192) }

/-- Translates for a use and makes the use: the physical address, whether the page is memory-side, and the state with the entry's bits set. -/
def use (s : State) (core ctx : Nat) (va : W64) (n : Need) : Except XFault (State × Nat × Bool) :=
  match check s core ctx va n with
  | .error f => .error f
  | .ok t => .ok (touch s core t (decide (n = .w)), t.phys va, pteBit t.pte 5)

/-- Bytes read at a physical address: those of units with an uncorrectable error are zero, and the cause of the first is reported as the reader asks (R217, R408). -/
def loadWith (s : State) (ctx pa n : Nat) (read : State → List Byte) (report : State → Nat → W64 → State) : State × List Byte :=
  let r := unitsRead s (blocksOf pa n 64) ctx
  let b := (read r.1).zipIdx.map fun x => if r.2.1.contains ((pa + x.2) / 64) then 0 else x.1
  match r.2.2 with
  | none => (r.1, b)
  | some c => (report r.1 c (BitVec.ofNat 64 (64 * r.2.1.headD 0)), b)

/-- The device writes bytes within one page at a virtual address of a context: a line that a command owns is waited for (R329, R353), and the rest is as `deviceStore` says. -/
def writeAt (s : State) (core ctx : Nat) (va : W64) (d : List Byte) : Except XFault State :=
  match use s core ctx va .w with
  | .error f => .error f
  | .ok (t, pa, ms) =>
    match lineWaits t .phys pa d.length with
    | l :: _ => .error (.waits l)
    | [] => .ok (deviceStore t ctx ms pa d)

/-- The device reads bytes within one page at a virtual address of a context, with the same waits and applies. -/
def readAt (s : State) (core ctx : Nat) (va : W64) (n : Nat) (report : State → Nat → W64 → State) : Except XFault (State × List Byte) :=
  match use s core ctx va .r with
  | .error f => .error f
  | .ok (t, pa, _) =>
    match lineWaits t .phys pa n with
    | l :: _ => .error (.waits l)
    | [] => .ok (loadWith (applyLines t pa n) ctx pa n (fun s => deviceLoad s pa n) report)

/-- Bytes from an address on, cut at the pages. -/
def pageRuns (va : W64) : (fuel : Nat) → List Byte → List (W64 × List Byte)
  | 0, _ => []
  | _, [] => []
  | n + 1, d =>
    let k := 4096 - va.toNat % 4096
    (va, d.take k) :: pageRuns (va + BitVec.ofNat 64 k) n (d.drop k)

/-- The device writes bytes at a virtual address of a context, page by page: the address whose page fails, or what stands when every page is written. -/
def writeRun (s : State) (core ctx : Nat) : List (W64 × List Byte) → Except (XFault × W64) State
  | [] => .ok s
  | r :: rs =>
    match writeAt s core ctx r.1 r.2 with
    | .error f => .error (f, r.1)
    | .ok s => writeRun s core ctx rs

/-- Translates `n` bytes from an address, page by page: every byte's physical address. -/
def useBytes (s : State) (core ctx : Nat) (va : W64) (nd : Need) : Nat → Except (XFault × W64) (State × List Nat)
  | 0 => .ok (s, [])
  | n + 1 =>
    match use s core ctx va nd with
    | .error f => .error (f, va)
    | .ok (s, pa, _) =>
      match useBytes s core ctx (va + 1) nd n with
      | .error f => .error f
      | .ok (s, l) => .ok (s, pa :: l)

/-- The physical pages of `n` bytes from an address on that have the memory-side attribute, by the translations that `look` gives: a write reaches them past the L2 (Table 12.4). -/
def sidePages (look : W64 → Except XFault TlbEntry) (va : W64) (n : Nat) : List Nat :=
  (List.range (n / 4096 + 2)).filterMap fun i =>
    let a := BitVec.ofNat 64 (if i = 0 then va.toNat else (va.toNat / 4096 + i) * 4096)
    if va.toNat + n ≤ (va.toNat / 4096 + i) * 4096 then none
    else match look a with
      | .ok t => if pteBit t.pte 5 then some (t.phys a / 4096) else none
      | .error _ => none
/-- The lines that a write goes past the L2 to: of such pages, and of bound regions (R246). -/
def sideLine (s : State) (pages : List Nat) (line : Nat) : Bool := pages.contains (line / 32) || regionLine s line

/-- The context whose entry holds a remote tag with access enabled. -/
def tagged (s : State) (tag : Nat) : Option Nat := (s.ctxs.find? fun e => bitAt e.2.rtag 16 && fld e.2.rtag 0 16 == tag).map (·.1)

/-! ### Lines by virtual address -/

/-- The canonical address of a 57-bit one (R216). -/
def canonOf (v : Nat) : Nat := if v < 2 ^ 56 then v else v + 2 ^ 64 - 2 ^ 57

/-- The leaves of a page table below a level whose pages may meet a range of addresses. -/
def leavesFrom (s : State) (ctx lo hi : Nat) : (level table va : Nat) → List TlbEntry
  | 0, _, _ => []
  | level + 1, table, va =>
    (List.range 512).flatMap fun i =>
      let v := va + i * 2 ^ (12 + 9 * level)
      if canonOf v + 2 ^ (12 + 9 * level) ≤ lo ∨ hi ≤ canonOf v then []
      else
        let e : W64 := BitVec.ofNat 64 (bytesToNat (deviceLoad s (table + i * 8) 8))
        if !pteBit e 0 || pteCorrupt e (level + 1) v then []
        else if pteBit e 1 then
          let lg := pageLg e (level + 1)
          [{ ctx := ctx, va := v / 2 ^ lg * 2 ^ lg, lg := lg, pte := e, at_ := table + i * 8 }]
        else leavesFrom s ctx lo hi level (fld e 12 40 * 4096) v

/-- The translations of a context that a core can use for addresses of a range: cached ones and leaves of its tables. -/
def translationsOf (s : State) (core ctx lo hi : Nat) : List TlbEntry :=
  let root := (s.ctx ctx).root
  ((s.core core).tlb ++ (Tbl.get? s.tlb2 (clusterOf core)).getD []).filter (·.ctx == ctx) ++
    (if bitAt root 0 then leavesFrom s ctx lo hi 5 (fld root 12 40 * 4096) 0 else [])

/-- A translation gives a line a virtual address that meets a range, and it is the translation the core uses there. -/
def mapsLine (s : State) (core ctx lo hi line : Nat) (t : TlbEntry) : Bool :=
  let page := line / 32 * 4096
  let base := t.phys (BitVec.ofNat 64 t.va)
  let va := canonOf (t.va + (page - base))
  decide (base ≤ page) && decide (page < base + 2 ^ t.lg) &&
    decide (lo < va + line % 32 * 128 + 128) && decide (va + line % 32 * 128 < hi) &&
    match check4 s core ctx (BitVec.ofNat 64 va) .r with
    | .ok x => x.phys (BitVec.ofNat 64 va) == page
    | .error _ => false

/-- A core uses some virtual address of a range for a line: what the cache instructions select by (R246, R249). -/
def lineNamed (s : State) (core ctx : Nat) (rs : List (Nat × Nat)) (line : Nat) : Bool :=
  rs.any fun r => decide (r.1 < r.2) && (translationsOf s core ctx r.1 r.2).any (mapsLine s core ctx r.1 r.2 line)

end Sys2Proof.Machine
end

