-- ==== Sys2Proof/Machine/Ops.lean ====
section
/-! DEFINITION. The named operations every instruction is built from: causes, the issuing split and its surroundings, latches, the reconvergence stack, parking, exits, taking a trap and returning from one. -/
namespace Sys2Proof.Machine

/-! ### Causes (Tables 14.1 to 14.5) -/

/-- Class 0 code: kind and slice (R392). -/
def cause0 (kind : Nat) (sl : Slice) : Nat := 2 * kind + (if sl = .access then 1 else 0)
/-- Class 1 code: kind and access kind (R393). -/
def cause1 (kind a : Nat) : Nat := 0x40 + 4 * kind + a
/-- The class 1 kind of a failed translation (Table 14.2). -/
def XFault.kind : XFault → Nat
  | .nonCanonical => 0
  | .page => 3
  | .protection => 4
  | .corrupt => 5
  | .badPhys | .waits _ => 6

/-- A trap about to be taken: cause, lowest failing lane, the two addresses and the parameter of Table 14.7; the resume address when it is not the instruction's own (R306), the mask of the entry when it is not the split's (R302), and whether the debug unit halts instead (R420). `reads` are the runs of bytes that the instruction has read before it traps, space, address and length: the errors met there stay met (R5, R217). -/
structure Trap where
  cause : Nat
  lane : Option Nat := none
  addr : W64 := 0
  addr2 : W64 := 0
  arg : W32 := 0
  resume : Option W64 := none
  mask : Option W64 := none
  halt : Bool := false
  reads : List (Space × Nat × Nat) := []
  deriving DecidableEq, Repr

/-- Why an instruction does not take its effect: it traps, or it parks or stalls and issues again when its wait is over. -/
inductive Stop
  | trap (t : Trap)
  | wait (w : Wait)
  deriving DecidableEq, Repr

/-- The result of a part of an instruction. -/
abbrev Part := Except Stop

/-- Raises a trap. -/
def raise {α : Type} (t : Trap) : Part α := .error (.trap t)
/-- Parks or stalls. -/
def pause {α : Type} (w : Wait) : Part α := .error (.wait w)
/-- Raises the trap of a failed translation; a walk that waits for an owned line stalls (R353). -/
def raiseWalk {α : Type} (f : XFault) (t : Trap) : Part α :=
  match f.line? with
  | some l => pause (.line [l])
  | none => raise t
/-- Waits for the lines of an access that commands own or that others wait for (R329, R353). -/
def lineFree (s : State) (sp : Space) (a n : Nat) : Part Unit :=
  match lineWaits s sp a n with
  | [] => .ok ()
  | ls => pause (.line ls)
/-- A trap of a part of an instruction that follows a read of some bytes. -/
def meeting {α : Type} (sp : Space) (a n : Nat) (p : Part α) : Part α :=
  match p with
  | .error (.trap t) => .error (.trap { t with reads := (sp, a, n) :: t.reads })
  | r => r
/-- Likewise for runs of bytes of memory. -/
def meetingAll {α : Type} (ps : List (Nat × Nat)) (p : Part α) : Part α := ps.foldr (fun x q => meeting .phys x.1 x.2 q) p
/-- Raises a trap unless a condition holds. -/
def guardPart (b : Bool) (t : Trap) : Part Unit := if b then .ok () else raise t

/-! ### The issuing split -/

/-- A split with everything around it: what an instruction that touches no memory works on. -/
structure Here where
  u : UnitRef
  crew : Crew
  pair : Pair
  warp : Warp
  split : Split
  deriving DecidableEq, Repr

/-- The split a reference names, if it is live in a placed crew. -/
def State.here? (s : State) (u : UnitRef) : Option Here :=
  match Tbl.get? s.crews u.crew with
  | none => none
  | some crew =>
    match Tbl.get? crew.pairs u.pair with
    | none => none
    | some pair =>
      match Tbl.get? (pair.warp u.slice).splits u.split with
      | none => none
      | some split =>
        if crew.saved.isSome then none
        else some { u := u, crew := crew, pair := pair, warp := pair.warp u.slice, split := split }

/-- The crew of a view, with the split, the warp and the pair of the view in it. -/
def Here.joined (h : Here) : Crew :=
  let w := { h.warp with splits := Tbl.set h.warp.splits h.u.split h.split }
  { h.crew with pairs := Tbl.set h.crew.pairs h.u.pair (h.pair.setWarp h.u.slice w) }

/-- Writes a view back. -/
def State.put (s : State) (h : Here) : State := { s with crews := Tbl.set s.crews h.u.crew h.joined }

/-- The issuing warp as an agent of the memory model (Table 11.1). -/
def Here.agent (h : Here) : Agent := .warp h.u.crew h.u.pair h.u.slice
/-- The issuing warp as an observer. -/
def Here.viewer (h : Here) : Viewer := { agent := h.agent, core := h.crew.core, crew := h.u.crew }

/-- The lanes of the grant. -/
def Here.lanes (h : Here) : List Nat := List.range h.crew.grant

/-- Predicate kn of a warp as a lane mask: k0 is true in every lane (R35). -/
def Warp.pred (w : Warp) (n : Nat) : W64 := if n = 0 then BitVec.allOnes 64 else Cells.get w.k n
/-- Writes lanes of predicate kn; a write to k0 is discarded (R35). -/
def Warp.setPred (w : Warp) (n : Nat) (lanes val : W64) : Warp :=
  if n = 0 then w else { w with k := Cells.set w.k n ((Cells.get w.k n &&& ~~~lanes) ||| (val &&& lanes)) }

/-- The lanes of the split. -/
def Here.mask (h : Here) : W64 := h.split.mask

/-- The active lanes of an instruction: the split's lanes in which the guard holds (R71, R151). -/
def Here.active (h : Here) (g : Guard) : W64 :=
  let k := h.warp.pred g.k.toNat
  h.mask &&& (if g.neg then ~~~k else k)

/-- The instruction's length in bytes moves the pc (R54). -/
def Here.advance (h : Here) (n : Nat) : Here :=
  { h with split := { h.split with pc := h.split.pc + BitVec.ofNat 64 n } }

/-- Shifts a result into L0 (R36): `val` gives the active lanes' values; only the execute slice has latches. -/
def Here.latch (h : Here) (val : Cells 64) : Here :=
  if h.u.slice = .execute then { h with split := { h.split with lat := (val :: h.split.lat).take 4 } } else h

/-! ### Blocking (R24) -/

/-- A pipe whose unit blocks: a lone unit leaves it at once, a packed set ends after the round (R24). -/
def Pipe.blocked (p : Pipe) (u : UnitRef) : Pipe :=
  if p.running.contains u then (if p.running.length ≤ 1 then Pipe.reset else { p with breaking := true }) else p

/-- The unit's latches are emptied and its pipe selects anew (R24, R38). -/
def blockUnit (s : State) (u : UnitRef) : State :=
  if u.slice = .access then s
  else
    match s.crew? u.crew with
    | none => s
    | some c =>
      let k := s.core c.core
      (s.setCore c.core { k with pipes := k.pipes.map (·.blocked u) }).onSplit u fun x => { x with lat := [] }

/-- The issuing unit blocks: its latches are emptied and its pipe selects anew (R24). -/
def switchUnit (s : State) (h : Here) : State × Here :=
  if h.u.slice = .access then (s, h)
  else
    let k := s.core h.crew.core
    (s.setCore h.crew.core { k with pipes := k.pipes.map (·.blocked h.u) }, { h with split := { h.split with lat := [] } })

/-- A wait that blocks the unit under R24; the others are stalls. -/
def Wait.parks : Wait → Bool
  | .qEmpty _ _ | .qFull _ _ | .addrFull _ | .collective _ | .barrier _ _ _ | .tags _ _ | .arrived _ _ _ | .region => true
  | _ => false

/-- Puts a split into a wait; a park is a group switch (R24). -/
def parkUnit (s : State) (u : UnitRef) (w : Wait) : State :=
  let s := s.onSplit u fun x => { x with wait := w }
  if w.parks then blockUnit s u else s

/-- A split becomes ready: the cycle is noted (R382 key 4). -/
def wakeUnit (s : State) (u : UnitRef) : State :=
  match s.crew? u.crew with
  | none => s
  | some c => s.onSplit u fun x => { x with wait := .ready, readyAt := (s.core c.core).cyc.toNat }

/-! ### The reconvergence stack (R26 to R29) -/

/-- The address an entry holds: bits [56:3], sign-extended (log 12). -/
def StackEntry.addr (e : StackEntry) : W64 := (e.pc.signExtend 61) ++ e.low
/-- Bits [56:3] of an address. -/
def pcBits (a : W64) : BitVec 54 := a.extractLsb' 3 54
/-- A reconvergence point. -/
def rpEntry (a : W64) (mask : W64) : StackEntry := { tag := 0, pc := pcBits a, low := 0, mask := mask, arr := 0 }
/-- A deferred path. -/
def deferEntry (a : W64) (mask : W64) : StackEntry := { tag := 1, pc := pcBits a, low := 0, mask := mask, arr := 0 }
/-- A trap entry. -/
def trapEntry1 (cause : Nat) (a : W64) (mask : W64) : StackEntry :=
  { tag := BitVec.ofNat 10 (0x200 + cause), pc := pcBits a, low := 0, mask := mask, arr := 0 }
/-- The tag is a trap's: 0x200 to 0x37F (Table 1.3). -/
def StackEntry.isTrap (e : StackEntry) : Bool := decide (0x200 ≤ e.tag.toNat) && decide (e.tag.toNat ≤ 0x37F)
/-- The tag is reserved (Table 1.3). -/
def StackEntry.reserved (e : StackEntry) : Bool := !(decide (e.tag.toNat ≤ 1)) && !e.isTrap
/-- The split runs a handler. -/
def Split.inHandler (x : Split) : Bool := x.stack.any (·.isTrap)

/-- Bytes of the save area (R413). -/
def saveAreaBytes (g : Nat) : Nat := 320 + 64 * (64 + 16 * g)
/-- BS(g, nv) of R442. -/
def bsBytes (g nv : Nat) : Nat := saveAreaBytes g + 4 * g * (nv - 80)
/-- A(g, nv) of R442: the size of a warp's backing-store area. -/
def areaBytes (g nv : Nat) : Nat := roundUp (roundUp (bsBytes g nv) 64 + 15360) 4096
/-- The backing-store place of spilled entry `j` of a split (R442). -/
def spillAddr (h : Here) (j : Nat) : W64 :=
  h.pair.area + BitVec.ofNat 64 (roundUp (bsBytes h.crew.grant h.crew.kern.nv) 64 + 3840 * h.u.split + 16 * j)

/-- The 16 bytes of an entry (Table 1.3). -/
def StackEntry.bytes (e : StackEntry) : List Byte :=
  natToBytes (e.tag.toNat * 2 ^ 118 + e.pc.toNat * 2 ^ 64 + e.mask.toNat) 16
/-- An entry read back. -/
def StackEntry.ofBytes (l : List Byte) (low : BitVec 3) (arr : W64) : StackEntry :=
  let n := bytesToNat l
  { tag := BitVec.ofNat 10 (n / 2 ^ 118), pc := BitVec.ofNat 54 (n / 2 ^ 64), low := low, mask := BitVec.ofNat 64 n, arr := arr }

/-- The trap of a backing-store access that fails (R33): `a` is 0 for a fill and 1 for a spill (R393). -/
def bsTrap (a : Nat) (va : W64) : Trap := { cause := cause1 7 a, addr := va }

/-- Bytes that an access of a split reads: those of units with an uncorrectable error are zero, and the split gets the machine check (R217, R408). -/
def loadChecked (s : State) (ctx : Nat) (u : UnitRef) (pa n : Nat) (read : State → List Byte) : State × List Byte :=
  loadWith s ctx pa n read fun s c x => splitCheck s ctx u c x

/-- Bytes of memory or of scratchpad that an instruction has read: the errors met there are logged, corrected or reported to the split (R217, R408). -/
def meetReads (s : State) (ctx : Nat) (u : UnitRef) (l : List (Space × Nat × Nat)) : State :=
  l.foldl (fun s x => match x.1 with
    | .phys => (loadChecked s ctx u x.2.1 x.2.2 fun _ => []).1
    | .scratch k => scratchMet s k ctx x.2.1 x.2.2 fun s a => splitCheck s ctx u 0x123 a) s

/-- Writes bytes to a warp's backing store (R28, R32), as `writeAt` says. -/
def bsStore (s : State) (h : Here) (va : W64) (d : List Byte) : Part State :=
  match writeAt s h.crew.core h.crew.ctx va d with
  | .error f => raiseWalk f (bsTrap 1 va)
  | .ok s => .ok s
/-- Reads bytes from a warp's backing store, as `readAt` says. -/
def bsLoad (s : State) (h : Here) (va : W64) (n : Nat) : Part (State × List Byte) :=
  match readAt s h.crew.core h.crew.ctx va n fun s c x => splitCheck s h.crew.ctx h.u c x with
  | .error f => raiseWalk f (bsTrap 0 va)
  | .ok r => .ok r

/-- The trap of a push beyond depth 256 (R28). -/
def overflowTrap (sl : Slice) : Trap := { cause := cause0 26 sl }

/-- The place that R442 gives a split number in the pair's area is in use by the split of that number in the other slice, or R442 gives none: the spilled entries then stay with the device (log 25). -/
def placeTaken (h : Here) : Bool :=
  decide (4 ≤ h.u.split) || match Tbl.get? (h.pair.warp h.u.slice.other).splits h.u.split with
    | none => false
    | some x => decide (16 < x.stack.length) && !x.inside
/-- Spills entry `j` of a split's stack. -/
def spillEntry (s : State) (h : Here) (j : Nat) (e : StackEntry) : Part State :=
  if h.split.inside then .ok s else bsStore s h (spillAddr h j) e.bytes

/-- Fills spilled entry `j`, which was pushed as `o`: tag, address and mask come from memory. -/
def fillEntry (s : State) (h : Here) (j : Nat) (o : StackEntry) : Part (State × StackEntry) :=
  if h.split.inside then .ok (s, o)
  else
    match bsLoad s h (spillAddr h j) 16 with
    | .error t => .error t
    | .ok (s, l) => .ok (s, StackEntry.ofBytes l o.low o.arr)

/-- Where a fill reads spilled entry `j`. -/
def readPlace (s : State) (h : Here) (j : Nat) : List (Space × Nat × Nat) :=
  if h.split.inside then []
  else match check s h.crew.core h.crew.ctx (spillAddr h j) .r with
    | .ok t => [(.phys, t.phys (spillAddr h j), 16)]
    | .error _ => []

/-- Pushes an entry (R28): beyond 16 resident entries the oldest resident one goes to the backing store. -/
def pushEntry (s : State) (h : Here) (e : StackEntry) : Part (State × Here) :=
  let d := h.split.stack.length
  if 256 ≤ d then raise (overflowTrap h.u.slice)
  else
    let h := if d = 16 then { h with split := { h.split with inside := placeTaken h } } else h
    let h' := { h with split := { h.split with stack := e :: h.split.stack } }
    match h.split.stack[15]? with
    | none => .ok (s, h')
    | some o =>
      match spillEntry s h (d - 16) o with
      | .error t => .error t
      | .ok s => .ok (s, h')

/-- An entry that R29 calls corrupt: a reserved tag, or a lane at or above the grant in its mask. -/
def StackEntry.corrupt (e : StackEntry) (g : Nat) : Bool := e.reserved || decide (e.mask &&& ~~~(maskN g) ≠ 0)

/-- Pops the top entry (R28, R29), which may come of an image (R150): with spilled entries left, the newest spilled one is read back and checked. -/
def popEntry (s : State) (h : Here) : Part (State × Here × Option StackEntry) :=
  match h.split.stack with
  | [] => .ok (s, h, none)
  | e :: rest =>
    if e.corrupt h.crew.grant then raise { cause := cause0 27 h.u.slice }
    else
    let h' := { h with split := { h.split with stack := rest } }
    match rest[15]? with
    | none => .ok (s, h', some e)
    | some o =>
      match fillEntry s h (rest.length - 16) o with
      | .error t => .error t
      | .ok (s, f) =>
        if f.corrupt h.crew.grant then raise { cause := cause0 27 h.u.slice, reads := readPlace s h (rest.length - 16) }
        else
          let keep := if f.tag = 1 then o.mask else ~~~h.warp.dead
          .ok (s, { h' with split := { h'.split with stack := rest.set 15 { f with mask := f.mask &&& keep } } }, some e)

/-! ### Splits of a warp -/

/-- The lowest free split number below four (R25). -/
def Warp.freeSplit (w : Warp) : Option Nat := (List.range 4).find? fun i => (Tbl.get? w.splits i).isNone

/-- The number of splits that count towards four: those numbered below four; a debug split has a higher number (R25, R423). -/
def Warp.splitCount (w : Warp) : Nat := (List.range 4).countP fun i => (Tbl.get? w.splits i).isSome

/-- Writes the spilled part of a stack, oldest entry first, into the backing store of a split (R28, R442). -/
def spillStack (s : State) (h : Here) (j : Nat) : List StackEntry → Part State
  | [] => .ok s
  | e :: es =>
    match spillEntry s h j e with
    | .error t => .error t
    | .ok s => spillStack s h (j + 1) es

/-- Adds a split that continues at an address with a mask and a copy of a stack (R26 rule 2, R157).
DESIGN CHOICE (log 90): its trap record is a copy of the issuing split's. -/
def addSplit (s : State) (h : Here) (pc mask : W64) (stack : List StackEntry) : Part (State × Here) :=
  match h.warp.freeSplit with
  | none => .ok (s, h)
  | some i =>
    let k := { h with u := { h.u with split := i } }
    let k := { k with split := { k.split with inside := placeTaken k } }
    match spillStack s k 0 (stack.drop 16).reverse with
    | .error t => .error t
    | .ok s =>
      let now := (s.core h.crew.core).cyc.toNat
      let x := { Split.start pc mask with stack := stack.map (fun e => { e with arr := 0 }), born := h.warp.nextSplit, readyAt := now, record := h.split.record,
                                              inside := k.split.inside }
      .ok (s, { h with warp := { h.warp with nextSplit := h.warp.nextSplit + 1, splits := Tbl.set h.warp.splits i x } })

/-- Two stacks are identical (R26). -/
def sameStack (a b : List StackEntry) : Bool :=
  a.map (fun e => (e.tag, e.pc, e.mask)) == b.map (fun e => (e.tag, e.pc, e.mask))

/-- Removes lanes from every mask of a stack; they count as arrived (R160). -/
def dropLanes (m : W64) (st : List StackEntry) : List StackEntry :=
  st.map fun e => { e with mask := e.mask &&& ~~~m, arr := e.arr &&& ~~~m }

/-- Removes lanes from a wait at a reconvergence point. -/
def Wait.dropLanes (m : W64) : Wait → Wait
  | .arrived pc mask arr => .arrived pc (mask &&& ~~~m) (arr &&& ~~~m)
  | w => w

/-- Some lane of a stack is still to run or waits at a reconvergence point: the split goes on after its last lane has left (R160, R26; log 13). -/
def stackLives : List StackEntry → Bool
  | [] => false
  | e :: rest => (e.tag = 1 && e.mask != 0) || (e.tag = 0 && e.arr != 0) || stackLives rest

/-- Lanes of a warp's threads in one slice end (R160): they leave every split's mask, stack and wait. -/
def Warp.endLanes (w : Warp) (m : W64) : Warp :=
  { w with dead := w.dead ||| m,
           splits := w.splits.map fun e => (e.1, { e.2 with mask := e.2.mask &&& ~~~m, stack := dropLanes m e.2.stack, wait := e.2.wait.dropLanes m }) }

/-- The warp has no thread left once lanes of it have ended. -/
def Warp.endsWith (w : Warp) (m : W64) : Bool := (w.endLanes m).splits.all fun e => e.2.mask == 0 && !stackLives e.2.stack

/-- A split ends, and with the last one its warp (R160); holds of the split end (R403). -/
def Warp.endSplit (w : Warp) (i : Nat) : Warp :=
  let splits := Tbl.erase w.splits i
  let other := fun (o : Option Nat) => if o = some i then none else o
  let hs := other w.holdSplits
  let hp := other w.holdPair
  { w with splits := splits, ended := splits.isEmpty, holdSplits := hs, holdPair := hp,
           tctl := w.tctl &&& ~~~((if hs = w.holdSplits then 0 else 2) ||| (if hp = w.holdPair then 0 else 4)) }

/-- A pair has ended: what is left in its queues and its unpaired stores are discarded (R160). -/
def Pair.close (p : Pair) : Pair :=
  if p.acc.ended && p.exe.ended then
    { p with queues := p.queues.map (fun e => (e.1, { e.2 with entries := [], addrs := [] })),
             acc := { p.acc with stores := p.acc.stores.filter (·.paired), loads := [] } }
  else p

/-- A split ends. -/
def endSplit (s : State) (u : UnitRef) : State :=
  s.onPair u.crew u.pair fun p => (p.setWarp u.slice ((p.warp u.slice).endSplit u.split)).close

/-- The lanes that a stack alone holds: those of deferred paths and those that have arrived. -/
def stackLanes (l : List StackEntry) : W64 := l.foldl (fun m e => m ||| (if e.tag = 1 then e.mask else if e.tag = 0 then e.arr else 0)) 0

/-! ### Taking a trap (R400) and returning (R309) -/

/-- The record a trap entry writes (Table 14.7). -/
def Trap.record (t : Trap) : TrapRecord :=
  { tcause := BitVec.ofNat 32 (t.cause % 512 + (match t.lane with | none => 0 | some l => 2 ^ 15 + l % 64 * 2 ^ 9)),
    taddr := t.addr, taddr2 := t.addr2, targ := t.arg }

/-- Debug attach, and halt on unhandled trap (Table 14.13). -/
def Ctx.attached (c : Ctx) : Bool := bitAt c.dbg.dctl 0
def Ctx.haltUnhandled (c : Ctx) : Bool := bitAt c.dbg.dctl 0 && bitAt c.dbg.dctl 1

/-- The units in the halt scope of a unit (Table 14.13 dctl). -/
def haltScope (s : State) (ctx : Nat) (u : UnitRef) : List UnitRef :=
  let sc := fld (s.ctx ctx).dbg.dctl 2 2
  if sc = 0 then [u]
  else match s.crew? u.crew with
    | none => []
    | some c =>
      let ps := if sc = 1 then c.pairs.filter (·.1 == u.pair) else c.pairs
      ps.flatMap fun e =>
        (e.2.acc.splits.map fun x => { u with pair := e.1, slice := .access, split := x.1 }) ++
        (e.2.exe.splits.map fun x => { u with pair := e.1, slice := .execute, split := x.1 })

/-- Halts units: they are held, with no latch kept (R421); a debug step that was under way ends there. -/
def debugHalt (s : State) (us : List UnitRef) : State :=
  us.foldl (fun s u =>
    blockUnit (s.onSplit u fun x => { x with halted := true, dstep := none, stepDue := x.stepDue && x.dstep.isNone }) u) s

/-- The base of a slice's handler (R399). -/
def Ctx.handler (c : Ctx) : Slice → W64
  | .access => c.hacc
  | .execute => c.hexe

/-- A trap that no handler takes is counted in the split's context (R400 Terminate). -/
def recordUnhandled (s : State) (ctx cause : Nat) (ret : W64) : State :=
  let c := s.ctx ctx
  s.setCtx ctx { c with fpc := if bitAt c.fault 9 then c.fpc else ret, fault := countFault c.fault cause }

/-- The handler of a split's slice is entered (R400): the entry is pushed with the resume address and mask, the record is written, the latches are emptied, and the split goes to the entry point of the cause's class, where a debug step ends (R423). None without a handler or without stack. DESIGN CHOICE (log 78): none too when the push must spill an entry and the backing store fails or waits: the spec is silent on a fault of trap entry itself. -/
def enterHandler (s : State) (h : Here) (t : Trap) : Option State :=
  let H := (s.ctx h.crew.ctx).handler h.u.slice
  let ret := t.resume.getD h.split.pc
  if H = 0 then none
  else
    match pushEntry s h (trapEntry1 t.cause ret (t.mask.getD h.split.mask)) with
    | .error _ => none
    | .ok (s, h) =>
      let x := { h.split with pc := H + BitVec.ofNat 64 (64 * (t.cause / 64)), record := t.record, lat := [], wait := .ready,
                              step := false, stepDue := h.split.dstep.isSome }
      let w := if 0x144 ≤ t.cause ∧ t.cause < 0x160 then { h.warp with tctl := h.warp.tctl ||| 1 } else h.warp
      some (blockUnit (s.put { h with split := x, warp := w }) h.u)

/-- A split whose last lane has left takes entries off its stack, each checked as R29 says, until it reaches a deferred path with lanes or a reconvergence point at which lanes of it have arrived; with nothing left it ends (R160, R26; log 13). A pop that traps is taken with the mask empty; without a handler the split ends. -/
def unwind (s : State) (u : UnitRef) : (fuel : Nat) → State
  | 0 => s
  | n + 1 =>
    match s.here? u with
    | none => s
    | some h =>
      match h.split.stack with
      | [] => endSplit s u
      | e :: _ =>
        match popEntry s h with
        | .error (.wait _) => s.onSplit u fun x => { x with wait := .unwinding }
        | .error (.trap t) =>
          (enterHandler s h t).getD
            (endSplit ((recordUnhandled s h.crew.ctx t.cause h.split.pc).onPair u.crew u.pair fun p =>
              p.setWarp u.slice ((p.warp u.slice).endLanes (stackLanes h.split.stack))) u)
        | .ok (s, h, _) =>
          if e.tag = 1 ∧ e.mask ≠ 0 then s.put { h with split := { h.split with pc := e.addr, mask := e.mask, wait := .ready, lat := [] } }
          else if e.tag = 0 ∧ e.arr ≠ 0 then
            s.put { h with split := { h.split with pc := e.addr, mask := e.arr, wait := .arrived e.pc e.mask e.arr, lat := [] } }
          else unwind (s.put h) u n

/-- A split left without lanes goes on as `unwind` says, and its pipe selects anew. -/
def unwindEmpty (s : State) (u : UnitRef) : State :=
  match s.here? u with
  | none => s
  | some h => if h.split.mask = 0 then unwind (blockUnit s u) u 257 else s

/-- Ends lanes of a split's warp and settles what follows from it. -/
def endLanes (s : State) (u : UnitRef) (m : W64) : State :=
  unwindEmpty (s.onPair u.crew u.pair fun p => p.setWarp u.slice ((p.warp u.slice).endLanes m)) u

/-- Ends every thread of a split and records the unhandled trap in its context (R400 Terminate). -/
def terminate (s : State) (h : Here) (cause : Nat) (ret : W64) : State := endLanes (recordUnhandled s h.crew.ctx cause ret) h.u h.split.mask

/-- A class 1 trap came of a walk: what the walk reads on its way is done, and the errors which it met are reported (R217, R367). -/
def reportWalk (s : State) (ctx : Nat) (t : Trap) : State :=
  if 0x4C ≤ t.cause ∧ t.cause < 0x60 then
    let s := walkReads s ctx t.addr
    if t.cause % 4 = 3 then walkReads s ctx t.addr2 else s
  else s

/-- Takes a trap on a split (R400): the debug unit halts it, or its handler is entered, or for want of one, or of stack, it is terminated. -/
def takeTrap (s : State) (u : UnitRef) (t : Trap) : State :=
  match s.here? u with
  | none => s
  | some h =>
    let ret := t.resume.getD h.split.pc
    let c := s.ctx h.crew.ctx
    let s := meetReads (reportWalk s h.crew.ctx t) h.crew.ctx u t.reads
    if t.halt || (decide (c.handler u.slice = 0) && c.haltUnhandled) then
      debugHalt (s.onSplit u fun x => { x with wait := .ready, pc := ret }) (haltScope s h.crew.ctx u)
    else (enterHandler s h t).getD (terminate s h t.cause ret)

/-- Returns from a trap (R309): pops the top entry, which must be a trap's with an aligned address, and continues there with its live lanes, or without any goes on as R160 says; latches are emptied, holds of this split end, and the skip and step bits of $tctl arm the next instruction (R403). -/
def returnFromTrap (s : State) (h : Here) : Part State :=
  match h.split.stack with
  | [] => raise { cause := cause0 21 h.u.slice }
  | e :: _ =>
    if !e.isTrap then raise { cause := cause0 21 h.u.slice }
    else if e.low ≠ 0 then raise { cause := cause0 8 h.u.slice }
    else
      match popEntry s h with
      | .error t => .error t
      | .ok (s, h, _) =>
        let w := h.warp
        let mine := fun (x : Option Nat) => x == some h.u.split
        let off := (if mine w.holdSplits then 2 else 0) ||| (if mine w.holdPair then 4 else 0)
        let w' := { w with
          holdSplits := if mine w.holdSplits then none else w.holdSplits,
          holdPair := if mine w.holdPair then none else w.holdPair,
          tctl := w.tctl &&& ~~~off }
        let x := { h.split with pc := e.addr, mask := e.mask &&& ~~~w.dead, lat := [], wait := .ready,
                                skip := bitAt w.tctl 0, skipCtl := bitAt w.tctl 0, step := bitAt w.tctl 4 }
        .ok (unwindEmpty (blockUnit (s.put { h with warp := w', split := x }) h.u) h.u)

/-- What a stop does to the state: the trap is taken, or the split waits. -/
def stopWith (s : State) (u : UnitRef) : Stop → State
  | .trap t => takeTrap s u t
  | .wait w => parkUnit s u w

/-- A wait in which the instruction has taken effect and ends when the wait does. -/
def Wait.inEffect : Wait → Bool
  | .barrier _ _ _ | .posting | .collective _ => true
  | _ => false

/-- A split stands before an instruction that has had no effect and issues again (Table 14.10), other than a collective, where a pre-emption trap waits until the split is ready (R409). -/
def Wait.restarts : Wait → Bool
  | .collective _ | .arrived _ _ _ | .region | .posting | .unbinding _ | .unwinding => false
  | _ => true

/-- What follows for the split when its instruction has completed: words fetched ahead and used are gone, skip has taken effect, and a stepped instruction ends at the next boundary (R403, R422, R423). An `rte` is itself the next instruction after an earlier one: the skip bit of $tctl that it spends is clear when it arms its own. `x` is the split as it issued. -/
def afterIssue (s : State) (u : UnitRef) (x : Split) (i : Option Instr) : State :=
  match s.here? u with
  | none => s
  | some h =>
    let y := h.split
    if y.wait ≠ .ready ∧ y.wait.inEffect = false then s
    else
      let isRte := match i with
        | some (.rte _) => decide (y.stack.length < x.stack.length)
        | _ => false
      let spent := x.skip && x.skipCtl
      let again := isRte && y.skip && !spent
      let keep := if x.skip || isRte then again else y.skip
      let w := if spent then { h.warp with tctl := h.warp.tctl &&& ~~~1 } else h.warp
      s.put { h with
        warp := w,
        split := { y with
          skip := keep, skipCtl := keep && y.skipCtl,
          ahead := y.ahead.filter fun e => e.1 != x.pc.toNat && e.1 != (x.pc + 8).toNat,
          step := y.step && !x.step,
          stepDue := y.stepDue || (x.step && y.step) || (x.dstep.isSome && y.dstep.isSome) } }

/-! ### The shape of every instruction's meaning -/

/-- Runs an instruction on the issuing split, whose earlier wait is over: `f` gives the new state, or the reason the instruction does not take effect, in which case nothing of it has happened (R12). -/
def runOn (s : State) (f : Here → Part State) : Host.Outcome State Fault Refusal :=
  match s.cur with
  | none => .fault .noIssuingUnit
  | some u =>
    match s.here? u with
    | none => .fault .noIssuingUnit
    | some h =>
      match f { h with split := { h.split with wait := .ready } } with
      | .ok s' => .next s'
      | .error st => .next (stopWith s u st)

/-- An instruction that works on the issuing split and its warp, pair and crew alone. -/
def runHere (s : State) (f : Here → Part Here) : Host.Outcome State Fault Refusal :=
  runOn s fun h => match f h with
    | .ok h' => .ok (s.put h')
    | .error st => .error st

end Sys2Proof.Machine
end

