-- ==== Sys2Proof/Machine/Operands.lean ====
section
/-! DEFINITION. Operands: every operand form (R57 to R60, R102, R152), waiting for the queues an instruction names, the bypass latches, the backing store behind registers above the bound (R32), and writing results. -/
namespace Sys2Proof.Machine

/-! ### Queues (R229 to R236) -/

/-- The slice that produces a queue. -/
def producer : QDir → Slice
  | .fwd => .access
  | .ret => .execute
  | .sd => .execute
/-- The slice that consumes a queue; a store-data queue's consumer is the load-store unit. -/
def consumer : QDir → Option Slice
  | .fwd => some .execute
  | .ret => some .access
  | .sd => none

/-- The entry holds every lane's value (R219). -/
def QEntry.complete (e : QEntry) : Bool := decide (e.missing = 0)

/-- Queue `n` of the pair. -/
def Here.queue? (h : Here) (n : Nat) : Option Queue := Tbl.get? h.pair.queues n
/-- Puts queue `n`. -/
def Here.setQueue (h : Here) (n : Nat) (q : Queue) : Here := { h with pair := { h.pair with queues := Tbl.set h.pair.queues n q } }

/-- Trap codes of queues (Table 14.3). -/
def orphanTrap (n : Nat) : Trap := { cause := 0x0C0 + n }
def markerTrap (n : Nat) (lane : Option Nat) : Trap := { cause := 0x0D0 + n, lane := lane }
def directionTrap (sl : Slice) : Trap := { cause := cause0 11 sl }

/-- The pair's warp of a slice has ended; the issuing warp has not. -/
def Here.ended (h : Here) (sl : Slice) : Bool := (h.pair.warp sl).ended

/-- `n` entries can be popped (Table 8.6): otherwise the consumer parks, waits for completion, or finds the queue orphaned. -/
def Here.popReady (h : Here) (qn n : Nat) : Part Queue :=
  match h.queue? qn with
  | none => raise (directionTrap h.u.slice)
  | some q =>
    if q.entries.length < n then
      if h.ended (producer q.dir) then raise (orphanTrap qn) else pause (.qEmpty qn n)
    else if (q.entries.take n).all (·.complete) then .ok q
    else pause (.incomplete qn n)

/-- `n` entries can be pushed (Table 8.6). -/
def Here.pushReady (h : Here) (qn n : Nat) : Part Queue :=
  match h.queue? qn with
  | none => raise (directionTrap h.u.slice)
  | some q =>
    if q.entries.length + n ≤ q.depth then .ok q
    else match consumer q.dir with
      | some sl => if h.ended sl then raise (orphanTrap qn) else pause (.qFull qn n)
      | none => pause (.qFull qn n)

/-- Pushes a complete entry (R230). -/
def Here.push (h : Here) (qn : Nat) (vals : Cells 32) (tags : W64) : Here :=
  match h.queue? qn with
  | none => h
  | some q => h.setQueue qn { q with entries := q.entries ++ [{ id := h.warp.seq, vals := vals, tags := tags, missing := 0 }] }

/-- The issuing warp has taken entries: what the other warp did before their pushes happens before what follows (R327). -/
def Here.sees (h : Here) (es : List QEntry) : Here :=
  { h with warp := { h.warp with seen := es.foldl (fun m e => Nat.max m e.id) h.warp.seen } }

/-- Removes the first `n` entries. -/
def Here.drop (h : Here) (qn n : Nat) : Here :=
  match h.queue? qn with
  | none => h
  | some q => (h.setQueue qn { q with entries := q.entries.drop n }).sees (q.entries.take n)

/-- The queue an operand names. -/
def queueNo : Opnd → Option Nat
  | .q n => some n.toNat
  | _ => none

/-- How often a list of operands names queue `n`. -/
def namings (n : Nat) (us : List Use) : Nat := (us.filter fun u => queueNo u.1 == some n).length

/-- The queues a list of operands names, each once. -/
def queuesOf (us : List Use) : List Nat := dedup (us.filterMap fun u => queueNo u.1)

/-- Every source queue has the entries and the destination queue the room the instruction needs, whether or not nwb keeps the result from it (R60, R39). -/
def Here.serve (h : Here) (dsts srcs : List Use) : Part Unit := do
  for qn in queuesOf srcs do
    let _ ← h.popReady qn (namings qn srcs)
  for qn in queuesOf dsts do
    let _ ← h.pushReady qn (namings qn dsts)
  pure ()

/-- An implicit pop of an entry with an end marker in an active lane traps (R42). -/
def Here.markers (h : Here) (srcs : List Use) (act : W64) : Part Unit := do
  for qn in queuesOf srcs do
    match h.queue? qn with
    | none => pure ()
    | some q =>
      for e in q.entries.take (namings qn srcs) do
        guardPart (decide (e.tags &&& act = 0)) (markerTrap qn (lowest (e.tags &&& act)))
  pure ()

/-- A latch that is read must be valid (R38). -/
def Here.latches (h : Here) (srcs : List Use) : Part Unit :=
  if srcs.any (fun u => match u.1 with | .l i => decide (h.split.lat.length ≤ i.toNat) | _ => false)
  then raise { cause := cause0 12 h.u.slice } else .ok ()

/-- The register of the access slice that an operand names, as the place a load delivers to. -/
def loadDestOf : Opnd → Option LoadDest
  | .a n => some (.areg n.toNat)
  | .c n => some (.creg n.toNat)
  | _ => none

/-- Loads have yet to write some of these registers. -/
def Warp.awaits (w : Warp) (rs : List LoadDest) : Bool := w.loads.any fun l => rs.contains l.dest

/-- The registers the load-store unit has yet to write, as named by a split (R221): reading or writing one stalls. -/
def Here.pending (h : Here) (us : List Use) : Part Unit :=
  let rs := us.filterMap fun u => loadDestOf u.1
  if h.warp.awaits rs then pause (.register rs) else .ok ()

/-! ### Register files -/

/-- v register `n` of a lane. -/
def Warp.getV (w : Warp) (n lane : Nat) : W32 := Cells.get w.v (64 * n + lane)
def Warp.setV (w : Warp) (n lane : Nat) (x : W32) : Warp := { w with v := Cells.set w.v (64 * n + lane) x }
/-- s register `n`. -/
def Warp.getS (w : Warp) (n : Nat) : W32 := Cells.get w.s n
def Warp.setS (w : Warp) (n : Nat) (x : W32) : Warp := { w with s := Cells.set w.s n x }
/-- a register `n` of a lane. -/
def Warp.getA (w : Warp) (n lane : Nat) : W64 := Cells.get w.a (64 * n + lane)
def Warp.setA (w : Warp) (n lane : Nat) (x : W64) : Warp := { w with a := Cells.set w.a (64 * n + lane) x }
/-- c register `n`. -/
def Warp.getC (w : Warp) (n : Nat) : W64 := Cells.get w.c n
def Warp.setC (w : Warp) (n : Nat) (x : W64) : Warp := { w with c := Cells.set w.c n x }
/-- $fflags of a lane. -/
def Warp.getF (w : Warp) (lane : Nat) : W32 := Cells.get w.fflags lane
/-- Sets flags in a lane (R45, R125). -/
def Warp.orF (w : Warp) (lane : Nat) (f : W32) : Warp :=
  if f = 0 then w else { w with fflags := Cells.set w.fflags lane (w.getF lane ||| f) }

/-- Two 32-bit halves as one 64-bit value (R31). -/
def pair64 (lo hi : W32) : W64 := hi ++ lo

/-- The value an operand gives a lane. `wide` asks for 64 bits; `k` is how many earlier sources name the same queue (R60); `sx` sign-extends a queue value in the access slice (R152). -/
def Here.read (h : Here) (o : Opnd) (wide : Bool) (k : Nat) (sx : Bool) (lane : Nat) : W64 :=
  match o with
  | .none => 0
  | .v n => if wide then pair64 (h.warp.getV n.toNat lane) (h.warp.getV (n.toNat + 1) lane) else (h.warp.getV n.toNat lane).setWidth 64
  | .s n => if wide then pair64 (h.warp.getS n.toNat) (h.warp.getS (n.toNat + 1)) else (h.warp.getS n.toNat).setWidth 64
  | .l i => match h.split.lat[i.toNat]? with
    | none => 0
    | some c => if wide then Cells.get c lane else ((Cells.get c lane).setWidth 32).setWidth 64
  | .a n => h.warp.getA n.toNat lane
  | .c n => h.warp.getC n.toNat
  | .q n => match h.queue? n.toNat with
    | none => 0
    | some q => match q.entries[k]? with
      | none => 0
      | some e => if sx then (Cells.get e.vals lane).signExtend 64 else (Cells.get e.vals lane).setWidth 64

/-- The value source number `i` of a list gives a lane. -/
def Here.src (h : Here) (srcs : List Use) (i : Nat) (sx : Bool) (lane : Nat) : W64 :=
  match srcs[i]? with
  | none => 0
  | some u => h.read u.1 u.2 (match queueNo u.1 with | none => 0 | some n => namings n (srcs.take i)) sx lane

/-- Removes from the queues what the sources popped (R60). -/
def Here.popAll (h : Here) (srcs : List Use) : Here :=
  (queuesOf srcs).foldl (fun h n => h.drop n (namings n srcs)) h

/-- Lane values as cells, over the lanes of a mask. -/
def cellsOf {w : Nat} (act : W64) (val : Nat → BitVec w) : Cells w :=
  (lanesOf act).foldl (fun m l => Cells.set m l (val l)) []

/-- Writes a result to a destination in the active lanes, without the latches: registers of either slice, or one pushed entry (R57, R102, R151). -/
def Here.write (h : Here) (d : Opnd) (wide nwb : Bool) (act : W64) (val : Nat → W64) : Here :=
  if nwb then h
  else match d with
  | .none | .l _ => h
  | .v n =>
    { h with warp := (lanesOf act).foldl (fun w l =>
        let w := w.setV n.toNat l ((val l).setWidth 32)
        if wide then w.setV (n.toNat + 1) l ((val l).extractLsb' 32 32) else w) h.warp }
  | .s n =>
    match lowest act with
    | none => h
    | some l =>
      let w := h.warp.setS n.toNat ((val l).setWidth 32)
      { h with warp := if wide then w.setS (n.toNat + 1) ((val l).extractLsb' 32 32) else w }
  | .a n => { h with warp := (lanesOf act).foldl (fun w l => w.setA n.toNat l (val l)) h.warp }
  | .c n =>
    match lowest act with
    | none => h
    | some l => { h with warp := h.warp.setC n.toNat (val l) }
  | .q n => h.push n.toNat (cellsOf act fun l => (val l).setWidth 32) 0

/-- Writes a result and shifts the latches with it (R36, R39). -/
def Here.result (h : Here) (d : Opnd) (wide nwb : Bool) (act : W64) (val : Nat → W64) : Here :=
  let h' := h.write d wide nwb act val
  if d = .none then h' else h'.latch (cellsOf act fun l => if wide then val l else ((val l).setWidth 32).setWidth 64)

/-! ### Registers above the bound (R32, R442) -/

/-- The v registers above the bound of 80 that operands name. -/
def spilledRegs (us : List Use) : List Nat :=
  (us.flatMap fun u => match u.1 with
    | .v n => if u.2 then [n.toNat, n.toNat + 1] else [n.toNat]
    | _ => []).filter fun n => decide (80 ≤ n)

/-- The backing-store place of register `n` (R442). -/
def regPlace (h : Here) (n : Nat) : W64 :=
  h.pair.area + BitVec.ofNat 64 (saveAreaBytes h.crew.grant + 4 * h.crew.grant * (n - 80))

/-- The v registers of a Portable Form program's threads have no place of the spec's in a backing store: the model holds them all in the register file (R434; log 4). -/
def Here.resident (h : Here) : Bool := h.crew.kern.prog.isSome && !h.pair.packed

/-- Reads 32-byte pieces of the backing store, none of which straddles a page. -/
def bsLoadN (s : State) (h : Here) (va : W64) : Nat → Part (State × List Byte)
  | 0 => .ok (s, [])
  | n + 1 =>
    match bsLoad s h va 32 with
    | .error t => .error t
    | .ok (s, l) =>
      match bsLoadN s h (va + 32) n with
      | .error t => .error t
      | .ok (s, l') => .ok (s, l ++ l')

/-- Writes the bytes of lanes `8 k` on, eight lanes a piece. -/
def bsStoreN (s : State) (h : Here) (va : W64) (lane : Nat → List Byte) (k : Nat) : Nat → Part State
  | 0 => .ok s
  | n + 1 =>
    match bsStore s h va ((List.range 8).flatMap fun i => lane (8 * k + i)) with
    | .error t => .error t
    | .ok s => bsStoreN s h (va + 32) lane (k + 1) n

/-- Fills registers from the backing store before an instruction that names them (R32, R33). -/
def fillRegs (s : State) (h : Here) : List Nat → Part (State × Here)
  | [] => .ok (s, h)
  | n :: ns =>
    if h.resident then .ok (s, h) else
    match bsLoadN s h (regPlace h n) (h.crew.grant / 8) with
    | .error t => .error t
    | .ok (s, l) =>
      let w := (List.range h.crew.grant).foldl (fun w i => w.setV n i (BitVec.ofNat 32 (bytesAt l (4 * i) 4))) h.warp
      fillRegs s { h with warp := w } ns

/-- Spills registers to the backing store after an instruction that may have written them. -/
def spillRegs (s : State) (h : Here) : List Nat → Part State
  | [] => .ok s
  | n :: ns =>
    if h.resident then .ok s else
    match bsStoreN s h (regPlace h n) (fun i => natToBytes (h.warp.getV n i).toNat 4) 0 (h.crew.grant / 8) with
    | .error t => .error t
    | .ok s => spillRegs s h ns

/-! ### An instruction over operands -/

/-- What every instruction with operands does before its own effect: registers above the bound are filled, the queues it names can be served, no source register waits for a load, no latch is stale, no popped entry carries a marker (R32, R60, R221, R38, R42). -/
def prepare (s : State) (h : Here) (dsts srcs : List Use) (act : W64) : Part (State × Here) :=
  match fillRegs s h (dedup (spilledRegs (dsts ++ srcs))) with
  | .error t => .error t
  | .ok (s, h) =>
    match (do h.pending (dsts ++ srcs); h.serve dsts srcs; h.latches srcs; h.markers srcs act) with
    | .error t => .error t
    | .ok () => .ok (s, h)

/-- An instruction that reads and writes operands and changes nothing beyond its crew: `f` works on the prepared view. -/
def runUses (s : State) (g : Guard) (dsts srcs : List Use) (f : Here → W64 → Part Here) :
    Host.Outcome State Fault Refusal :=
  runOn s fun h =>
    match prepare s h dsts srcs (h.active g) with
    | .error t => .error t
    | .ok (s, h) =>
      match f h (h.active g) with
      | .error t => .error t
      | .ok h' =>
        match spillRegs s h' (dedup (spilledRegs dsts)) with
        | .error t => .error t
        | .ok s => .ok (s.put h')

end Sys2Proof.Machine
end

