-- ==== Sys2Proof/Machine/Barrier.lean ====
section
/-! DEFINITION. Barrier objects in a crew's scratchpad: layout, steps and waiters (R128 to R131, R294 to R299), and the release that orders a warp's earlier operations (R224, R241, R296). -/
namespace Sys2Proof.Machine

/-- A barrier object (Table 5.2). -/
abbrev Obj := BitVec 128

def objPending (o : Obj) : Nat := fld o 0 36
def objMode (o : Obj) : Nat := fld o 36 4
def objPhase (o : Obj) : Bool := bitAt o 40
def objError (o : Obj) : Bool := bitAt o 41
def objExpected (o : Obj) : Nat := fld o 48 16
def objArrived (o : Obj) : Nat := fld o 64 16
def objWaiters (o : Obj) : Nat := fld o 80 16
def objCause (o : Obj) : Nat := fld o 96 9

/-- Reserved mode or non-zero bits [47:42] (R131). -/
def objCorrupt (o : Obj) : Bool := decide (3 ≤ objMode o) || decide (fld o 42 6 ≠ 0)
/-- Complete, in modes 0 and 1 (R130). -/
def objComplete (o : Obj) : Bool := decide (objPending o = 0) && !objError o
/-- The phase flips. -/
def objFlip (o : Obj) : Obj := o ^^^ (1 <<< 40)
/-- A new object (Table 5.3 `binit`). -/
def objInit (mode expected : Nat) : Obj := setFld (setFld 0 36 4 mode) 48 16 expected
/-- What a continuing record clears (Table 5.3). -/
def objCleared (o : Obj) : Obj := setFld (setFld (setFld o 41 1 0) 96 9 0) 105 23 0
/-- Rows finished in modes 0 and 1 (Table 5.3). -/
def objFinish (o : Obj) (n : Nat) : Obj :=
  let p := (objPending o + 2 ^ 36 - n % 2 ^ 36) % 2 ^ 36
  let o := setFld o 0 36 p
  if p = 0 ∧ objError o = false then objFlip o else o
/-- An arrival of n (Table 5.3). -/
def objArrive (o : Obj) (n : Nat) : Obj :=
  if objExpected o = 0 then objFlip o
  else
    let a := objArrived o + n
    let o' := setFld o 64 16 (a % objExpected o)
    if a / objExpected o % 2 = 1 then objFlip o' else o'
/-- The error fields take a cause and a record offset unless an error is there already. -/
def objError' (o : Obj) (cause recoff : Nat) : Obj :=
  if objError o then o else setFld (setFld (setFld o 41 1 1) 96 9 cause) 105 23 recoff
/-- The engine-fault step (Table 5.3). -/
def objFail (o : Obj) (cause recoff remainder : Nat) : Obj :=
  objError' (setFld o 0 36 ((objPending o + 2 ^ 36 - remainder % 2 ^ 36) % 2 ^ 36)) cause recoff
/-- Changes the waiters count (R297). -/
def objWait (o : Obj) (up : Bool) : Obj := setFld o 80 16 (if up then objWaiters o + 1 else objWaiters o + 65535)

/-! ### Scratchpad of a crew -/

/-- Words of scratchpad are read by an instruction: an error is the split's machine check (R217, R346, R408). -/
def Here.met (s : State) (h : Here) (core a n : Nat) : State :=
  scratchMet s core h.crew.ctx a n fun s x => splitCheck s h.crew.ctx h.u 0x123 x

/-- The request engine of a crew as an observer and agent. -/
def crewEngine (uid : Nat) (c : Crew) : Viewer := { agent := .engine uid, core := c.core, crew := uid }

/-- Bytes of a crew's scratchpad allocation as the crew sees them. -/
def crewBytes (s : State) (uid : Nat) (c : Crew) (off n : Nat) : List Byte :=
  scratchGiven s c.core (c.scratch + off) (s.viewBytes (crewEngine uid c) (.scratch c.core) (c.scratch + off) n)
/-- Bytes of a crew's scratchpad allocation are read by its engine: an error is a machine check of the context (R217, R408). -/
def crewMet (s : State) (c : Crew) (off n : Nat) : State :=
  scratchMet s c.core c.ctx (c.scratch + off) n fun s a => contextCheck s c.ctx 0x123 a
/-- The lines of some bytes of a crew's scratchpad wait for an access (R329, R353). -/
def crewWaits (s : State) (c : Crew) (off n : Nat) : Bool := !(lineWaits s (.scratch c.core) (c.scratch + off) n).isEmpty

/-- A store to a crew's scratchpad by its engine, performed at crew scope; words that it writes a part of are read first (R345). -/
def crewStore (s : State) (uid : Nat) (c : Crew) (off : Nat) (d : List Byte) : State :=
  let s := scratchPartial s c.core c.ctx [(c.scratch + off, d.length)]
  storeAt s { agent := .engine uid, core := c.core, crew := uid, space := .scratch c.core, addr := c.scratch + off, data := d,
              ms := false, scope := .crew }

/-- The barrier object at an offset. -/
def readObj (s : State) (c : Crew) (off : Nat) : Obj :=
  BitVec.ofNat 128 (bytesToNat (scratchGiven s c.core (c.scratch + off) (s.latestBytes (.scratch c.core) (c.scratch + off) 16)))
/-- Writes a barrier object: one step in its order (R128). -/
def writeObj (s : State) (uid : Nat) (c : Crew) (off : Nat) (o : Obj) : State := crewStore s uid c off (natToBytes o.toNat 16)

/-- A waiter leaves a barrier object without its release: one step of the object, which lowers the count (R297). -/
def leaveObj (s : State) (uid : Nat) (c : Crew) (off : Nat) : State :=
  let s := crewMet s c off 16
  writeObj s uid c off (objWait (readObj s c off) false)

/-- A barrier offset is usable (R131, R294 check 1). -/
def barrierOk (c : Crew) (off : Nat) : Bool := decide (off % 16 = 0) && decide (off + 16 ≤ c.kern.scratch)

/-! ### Waiters -/

/-- The condition a waiter waits for holds (R297): `want` is the phase that releases it in mode 2. -/
def objReleases (o : Obj) (want : Bool) : Bool :=
  if objMode o ≤ 1 then objComplete o else objPhase o == want

/-- The trap of an error found or met at a wait (R130, Table 14.7). -/
def barrierTrap (o : Obj) (off : Nat) : Trap :=
  { cause := objCause o, addr := BitVec.ofNat 64 off, addr2 := BitVec.ofNat 64 (fld o 96 32) }

/-- Releases one waiter if its wait is over: the count falls, and it continues, with an acquire at crew scope, or takes the error's trap (R130, R297 to R299). An object in a line that a command owns is tested when the command releases the line (R317, R329). -/
def releaseWaiter (s : State) (u : UnitRef) : State :=
  match s.crew? u.crew, s.here? u with
  | some c, some h =>
    match h.split.wait with
    | .barrier off want cont =>
      if crewWaits s c off 16 then s
      else
      let s := if objError (readObj s c off) || objReleases (readObj s c off) want then Here.met s h c.core (c.scratch + off) 16 else s
      let o := readObj s c off
      if objError o then takeTrap (writeObj s u.crew c off (objWait o false)) u (barrierTrap o off)
      else if objReleases o want then
        let s := acquireStep (writeObj s u.crew c off (objWait o false)) h.viewer .crew (.scratch c.core) (c.scratch + off)
        wakeUnit (s.onSplit u fun x => { x with pc := cont }) u
      else s
    | _ => s
  | _, _ => s

/-- Every split of a crew, with its reference. -/
def crewUnits (uid : Nat) (c : Crew) : List (UnitRef × Split) :=
  c.pairs.flatMap fun e =>
    (e.2.acc.splits.map fun x => ({ crew := uid, pair := e.1, slice := .access, split := x.1 }, x.2)) ++
    (e.2.exe.splits.map fun x => ({ crew := uid, pair := e.1, slice := .execute, split := x.1 }, x.2))

/-- Waits at a barrier. -/
def Wait.atBarrier : Wait → Bool
  | .barrier _ _ _ => true
  | _ => false

/-- Tests every waiter of a crew (R130: after every step). -/
def releaseWaiters (s : State) (uid : Nat) : State :=
  match s.crew? uid with
  | none => s
  | some c =>
    if c.saving || c.saved.isSome then s
    else ((crewUnits uid c).filter fun p => p.2.wait.atBarrier).foldl (fun s p => releaseWaiter s p.1) s

/-! ### Release ordering -/

/-- The queue of an unpaired store whose data can never come: its producer has ended and too few entries are left (R225). -/
def Here.orphanOf (h : Here) (e : StoreEntry) : Bool :=
  match h.queue? e.q with
  | none => false
  | some q => h.ended .execute && decide (q.entries.length ≤ (q.addrs.findIdx? (· == e.seq)).getD 0)

/-- Queue `n` of a pair satisfies a condition. -/
def Pair.queueHas (p : Pair) (n : Nat) (f : Queue → Bool) : Bool :=
  match Tbl.get? p.queues n with
  | none => true
  | some q => f q

/-- An unpaired store of a pair whose data has not been pushed. -/
def Pair.dataless (p : Pair) (e : StoreEntry) : Bool :=
  !e.paired && p.queueHas e.q fun q => decide (q.entries.length ≤ (q.addrs.findIdx? (· == e.seq)).getD 0)

/-! ### What a split comes after in its pair (R322, R327) -/

/-- The stores that come before what a split does next and have not left: its warp's own, and for an execute warp those of the access warp before the pushes it has taken, but for those whose data it has still to push itself (R223). -/
def Here.storesBefore (h : Here) : List StoreEntry :=
  match h.u.slice with
  | .access => h.warp.stores
  | .execute => h.pair.acc.stores.filter fun e => decide (e.seq < h.warp.seen) && !h.pair.dataless e
/-- The loads in flight, likewise. -/
def Here.loadsBefore (h : Here) : List Load :=
  match h.u.slice with
  | .access => h.warp.loads
  | .execute => h.pair.acc.loads.filter fun l => decide (l.seq < h.warp.seen)
/-- The unfinished copies, likewise. -/
def Here.copiesBefore (h : Here) : List Xcp :=
  match h.u.slice with
  | .access => h.pair.xcps
  | .execute => h.pair.xcps.filter fun x => decide (x.id < h.warp.seen)

/-- Waits for the data of the unpaired stores among some entries; an orphaned one traps (R222, R225). -/
def Here.awaitData (h : Here) (es : List StoreEntry) : Part Unit :=
  match es.filter fun e => !e.paired with
  | [] => .ok ()
  | un =>
    match un.find? h.orphanOf with
    | some e => raise (orphanTrap e.q)
    | none => pause (.storeDrain (un.map (·.seq)))

/-- Every earlier memory operation of a warp has left its unit: the store queue is empty and its loads have their values (R224, R241). An execute warp has no queue of its own; what it comes after by queue edges are the stores and loads of the access warp before the pushes it has taken (R326, R327). -/
def Here.drained (h : Here) : Part Unit :=
  if h.u.slice = .execute then
    if !h.storesBefore.isEmpty || !h.loadsBefore.isEmpty then pause .ordering else .ok ()
  else
    match h.awaitData h.warp.stores with
    | .error t => .error t
    | .ok () => if !h.warp.stores.isEmpty || !h.warp.loads.isEmpty || decide (0 < h.warp.maint) then pause .ordering else .ok ()

/-- A release by the issuing warp at a scope that cannot be deferred: everything earlier is performed at the scope, remote writes acknowledged at domain scope (R241, R331). -/
def releaseAt (s : State) (h : Here) (sc : Scope) : Part State :=
  match h.drained with
  | .error t => .error t
  | .ok () =>
    if sc = .domain ∧ 0 < h.warp.acks then pause .ordering
    else .ok (releaseBy s h.viewer sc).1

/-- The release that `releaseAt` has made, for the step that carries it (R325). -/
def Here.release (s : State) (h : Here) (sc : Scope) : Release := { by_ := h.viewer, scope := sc, stores := pastOf s h.agent }

/-- A release fence still in the store queue holds back every later store and step (R241, R324). -/
def Here.unfenced (h : Here) : Part Unit :=
  if h.warp.stores.any (·.kind == .fence) then pause .ordering else .ok ()

end Sys2Proof.Machine
end

