-- ==== Sys2Proof/Machine/Integer.lean ====
section
/-! DEFINITION. Groups 1 and 2: integer and bit instructions, their immediate variants, and the shared meaning of the common layout (R151, R168 to R176, R63). -/
namespace Sys2Proof.Machine

/-- Sets flags in the active lanes; the access slice has none (R153, R186). -/
def Here.flags (h : Here) (act : W64) (fl : Nat → W32) : Here :=
  if h.u.slice = .execute then { h with warp := (lanesOf act).foldl (fun w l => w.orF l (fl l)) h.warp } else h

/-- An instruction over the operands its word names (R57), with the slice of the issuing split. -/
def runInstr (s : State) (i : Instr) (g : Guard) (f : Here → W64 → List Use → Part Here) :
    Host.Outcome State Fault Refusal :=
  match s.cur with
  | none => .fault .noIssuingUnit
  | some u => runUses s g (i.uses u.slice).1 (i.uses u.slice).2 fun h act => f h act (i.uses u.slice).2

/-- An instruction over the operands its word names that also changes what lies outside its crew: `f` gets the state with the registers filled and answers the new state and view. -/
def runFull (s : State) (i : Instr) (g : Guard)
    (f : State → Here → W64 → List Use → Part (State × Here)) : Host.Outcome State Fault Refusal :=
  runOn s fun h =>
    let us := i.uses h.u.slice
    match prepare s h us.1 us.2 (h.active g) with
    | .error t => .error t
    | .ok (s, h) =>
      match f s h (h.active g) us.2 with
      | .error t => .error t
      | .ok (s, h) =>
        match spillRegs s h (dedup (spilledRegs us.1)) with
        | .error t => .error t
        | .ok s => .ok (s.put h)

/-- Writes an instruction's per-lane results: the queues it named are popped, the destination and the latches written, the flags set, and the pc moved past the word (R60, R36, R151, R186). -/
def finish (h : Here) (i : Instr) (srcs : List Use) (d : Opnd) (wide nwb : Bool) (act : W64) (r : Nat → Res) : Here :=
  (((h.popAll srcs).result d wide nwb act fun l => (r l).val).flags act fun l => (r l).flags).advance i.length

/-- A lane-by-lane operation on the resolved type (R62) with up to three sources. -/
def laneOp (i : Instr) (x : AluArgs) (dflt : Dflt) (wideD : Ty → Bool) (op : Ty → W64 → W64 → W64 → Res) (s : State) :
    Host.Outcome State Fault Refusal :=
  runInstr s i x.g fun h act srcs =>
    let t := x.ty.resolve h.u.slice dflt
    let v := fun k l => h.src srcs k (Ty.signed t) l
    .ok (finish h i srcs x.d (wideD t) x.nwb act fun l => op t (v 0 l) (v 1 l) (v 2 l))

/-- A group 1 instruction: `flag` is .sat. -/
def intInstr (i : Instr) (x : AluArgs) (op : Ty → Bool → W64 → W64 → W64 → Res) (s : State) :
    Host.Outcome State Fault Refusal :=
  laneOp i x .int Ty.wide (fun t => op t x.flag) s

/-- A group 2 instruction: `flag` is .sx. -/
def bitInstr (i : Instr) (x : AluArgs) (op : Ty → Bool → W64 → W64 → W64 → Res) (s : State) :
    Host.Outcome State Fault Refusal :=
  laneOp i x .bits Ty.wide (fun t => op t x.flag) s

/-- IADD (R169). -/
def execIadd (x : AluArgs) (s : State) : Host.Outcome State Fault Refusal := intInstr (.iadd x) x iaddOp s
/-- ISUB (R169). -/
def execIsub (x : AluArgs) (s : State) : Host.Outcome State Fault Refusal := intInstr (.isub x) x isubOp s
/-- IMUL (R169). -/
def execImul (x : AluArgs) (s : State) : Host.Outcome State Fault Refusal := intInstr (.imul x) x imulOp s
/-- IMULH (R169). -/
def execImulh (x : AluArgs) (s : State) : Host.Outcome State Fault Refusal := intInstr (.imulh x) x imulhOp s
/-- IMAD (R169). -/
def execImad (x : AluArgs) (s : State) : Host.Outcome State Fault Refusal := intInstr (.imad x) x imadOp s
/-- IDIV (R171). -/
def execIdiv (x : AluArgs) (s : State) : Host.Outcome State Fault Refusal := intInstr (.idiv x) x idivOp s
/-- IREM (R171). -/
def execIrem (x : AluArgs) (s : State) : Host.Outcome State Fault Refusal := intInstr (.irem x) x iremOp s
/-- IABS (R169). -/
def execIabs (x : AluArgs) (s : State) : Host.Outcome State Fault Refusal := intInstr (.iabs x) x iabsOp s
/-- INEG (R169). -/
def execIneg (x : AluArgs) (s : State) : Host.Outcome State Fault Refusal := intInstr (.ineg x) x inegOp s
/-- IMIN (R169). -/
def execImin (x : AluArgs) (s : State) : Host.Outcome State Fault Refusal := intInstr (.imin x) x iminOp s
/-- IMAX (R169). -/
def execImax (x : AluArgs) (s : State) : Host.Outcome State Fault Refusal := intInstr (.imax x) x imaxOp s
/-- ISAD (R169). -/
def execIsad (x : AluArgs) (s : State) : Host.Outcome State Fault Refusal := intInstr (.isad x) x isadOp s
/-- ICLAMP (R169). -/
def execIclamp (x : AluArgs) (s : State) : Host.Outcome State Fault Refusal := intInstr (.iclamp x) x iclampOp s
/-- MOV (R169, R172): the default type is a bit pattern (Shapes.shMov). -/
def execMov (x : AluArgs) (s : State) : Host.Outcome State Fault Refusal := bitInstr (.mov x) x movOp s

/-- MOVI (R172). -/
def execMovi (x : MoviArgs) (s : State) : Host.Outcome State Fault Refusal :=
  runInstr s (.movi x) x.g fun h act srcs =>
    let t := x.ty.resolve h.u.slice .bits
    .ok (finish h (.movi x) srcs x.d t.wide x.nwb act fun _ => movOp t false x.imm 0 0)

/-- IADDC and ISUBB (R170): sum or difference with carry predicates of the issuing slice. -/
def carryInstr (i : Instr) (x : CarryArgs) (op : Ty → W64 → W64 → Bool → W64 × Bool) (s : State) :
    Host.Outcome State Fault Refusal :=
  runInstr s i x.g fun h act srcs =>
    let t := x.ty.resolve h.u.slice .int
    let r := fun l => op t (h.src srcs 0 (Ty.signed t) l) (h.src srcs 1 (Ty.signed t) l) (x.cin && bitAt (h.warp.pred x.ki.toNat) l)
    let h' := finish h i srcs x.d t.wide x.nwb act fun l => Res.plain (r l).1
    .ok { h' with warp := h'.warp.setPred x.ko.toNat act (maskOf ((lanesOf act).filter fun l => (r l).2)) }
/-- IADDC (R170). -/
def execIaddc (x : CarryArgs) (s : State) : Host.Outcome State Fault Refusal := carryInstr (.iaddc x) x carryAdd s
/-- ISUBB (R170). -/
def execIsubb (x : CarryArgs) (s : State) : Host.Outcome State Fault Refusal := carryInstr (.isubb x) x carrySub s

/-- An immediate variant (R63): the default type, the immediate sign-extended in place of srcb. -/
def immInstr (i : Instr) (x : ImmArgs) (dflt : Dflt) (op : Ty → Bool → W64 → W64 → W64 → Res) (s : State) :
    Host.Outcome State Fault Refusal :=
  runInstr s i x.g fun h act srcs =>
    let t := dflt.ty h.u.slice
    let imm := x.imm.signExtend 64
    .ok (finish h i srcs x.d false x.nwb act fun l => op t false (h.src srcs 0 (Ty.signed t) l) imm 0)
/-- IADD_IMM (R63). -/
def execIaddImm (x : ImmArgs) (s : State) : Host.Outcome State Fault Refusal := immInstr (.iaddImm x) x .int iaddOp s
/-- ISUB_IMM (R63). -/
def execIsubImm (x : ImmArgs) (s : State) : Host.Outcome State Fault Refusal := immInstr (.isubImm x) x .int isubOp s
/-- IMUL_IMM (R63). -/
def execImulImm (x : ImmArgs) (s : State) : Host.Outcome State Fault Refusal := immInstr (.imulImm x) x .int imulOp s
/-- IMIN_IMM (R63). -/
def execIminImm (x : ImmArgs) (s : State) : Host.Outcome State Fault Refusal := immInstr (.iminImm x) x .int iminOp s
/-- IMAX_IMM (R63). -/
def execImaxImm (x : ImmArgs) (s : State) : Host.Outcome State Fault Refusal := immInstr (.imaxImm x) x .int imaxOp s
/-- MOV_IMM (R63): the immediate is the source. -/
def execMovImm (x : ImmArgs) (s : State) : Host.Outcome State Fault Refusal :=
  immInstr (.movImm x) x .bits (fun t z _ b c => movOp t z b 0 c) s
/-- AND_IMM (R63). -/
def execAndImm (x : ImmArgs) (s : State) : Host.Outcome State Fault Refusal := immInstr (.andImm x) x .bits andOp s
/-- OR_IMM (R63). -/
def execOrImm (x : ImmArgs) (s : State) : Host.Outcome State Fault Refusal := immInstr (.orImm x) x .bits orOp s
/-- XOR_IMM (R63). -/
def execXorImm (x : ImmArgs) (s : State) : Host.Outcome State Fault Refusal := immInstr (.xorImm x) x .bits xorOp s
/-- SHL_IMM (R63, R173). -/
def execShlImm (x : ImmArgs) (s : State) : Host.Outcome State Fault Refusal := immInstr (.shlImm x) x .bits shlOp s
/-- SHR_IMM (R63, R173). -/
def execShrImm (x : ImmArgs) (s : State) : Host.Outcome State Fault Refusal := immInstr (.shrImm x) x .bits shrOp s
/-- SRA_IMM (R63, R173). -/
def execSraImm (x : ImmArgs) (s : State) : Host.Outcome State Fault Refusal := immInstr (.sraImm x) x .bits sraOp s
/-- ROTL_IMM (R63, R173). -/
def execRotlImm (x : ImmArgs) (s : State) : Host.Outcome State Fault Refusal := immInstr (.rotlImm x) x .bits rotlOp s

/-- AND (R174). -/
def execAndB (x : AluArgs) (s : State) : Host.Outcome State Fault Refusal := bitInstr (.andB x) x andOp s
/-- OR (R174). -/
def execOrB (x : AluArgs) (s : State) : Host.Outcome State Fault Refusal := bitInstr (.orB x) x orOp s
/-- XOR (R174). -/
def execXorB (x : AluArgs) (s : State) : Host.Outcome State Fault Refusal := bitInstr (.xorB x) x xorOp s
/-- NOT (R174). -/
def execNotB (x : AluArgs) (s : State) : Host.Outcome State Fault Refusal := bitInstr (.notB x) x notOp s
/-- SHL (R174). -/
def execShl (x : AluArgs) (s : State) : Host.Outcome State Fault Refusal := bitInstr (.shl x) x shlOp s
/-- SHR (R174). -/
def execShr (x : AluArgs) (s : State) : Host.Outcome State Fault Refusal := bitInstr (.shr x) x shrOp s
/-- SRA (R174). -/
def execSra (x : AluArgs) (s : State) : Host.Outcome State Fault Refusal := bitInstr (.sra x) x sraOp s
/-- ROTL (R174). -/
def execRotl (x : AluArgs) (s : State) : Host.Outcome State Fault Refusal := bitInstr (.rotl x) x rotlOp s
/-- POPC (R174). -/
def execPopc (x : AluArgs) (s : State) : Host.Outcome State Fault Refusal := bitInstr (.popc x) x popcOp s
/-- CLZ (R174). -/
def execClz (x : AluArgs) (s : State) : Host.Outcome State Fault Refusal := bitInstr (.clz x) x clzOp s
/-- CTZ (R174). -/
def execCtz (x : AluArgs) (s : State) : Host.Outcome State Fault Refusal := bitInstr (.ctz x) x ctzOp s
/-- BREV (R174). -/
def execBrev (x : AluArgs) (s : State) : Host.Outcome State Fault Refusal := bitInstr (.brev x) x brevOp s
/-- BEXT (R176). -/
def execBext (x : AluArgs) (s : State) : Host.Outcome State Fault Refusal := bitInstr (.bext x) x bextOp s
/-- BINS (R176). -/
def execBins (x : AluArgs) (s : State) : Host.Outcome State Fault Refusal := bitInstr (.bins x) x binsOp s
/-- BSEL (R174). -/
def execBsel (x : AluArgs) (s : State) : Host.Outcome State Fault Refusal := bitInstr (.bsel x) x bselOp s

/-- BFN (R175): the destination is the third input; a lane whose guard is false keeps its d. -/
def execBfn (x : BfnArgs) (s : State) : Host.Outcome State Fault Refusal :=
  runInstr s (.bfn x) x.g fun h act srcs =>
    let t := x.ty.resolve h.u.slice .bits
    .ok (finish h (.bfn x) srcs x.d t.wide x.nwb act fun l =>
      bfnOp t x.table (h.src srcs 0 false l) (h.src srcs 1 false l) (h.read x.d t.wide 0 false l))

end Sys2Proof.Machine
end

