-- ==== Sys2Proof/Machine/Access.lean ====
section
/-! DEFINITION. What every access of the access slice shares: the checks of R216, watchpoints (R420), ownership of lines (R329), update-region lines (R245, R364, R365), extension of loaded values (Table 8.2), fence-strengthening mode (R339). -/
namespace Sys2Proof.Machine

/-- Bytes of an access size (Table 8.2). -/
def Size.bytes : Size → Nat
  | .b32 | .s32 => 4
  | .z8 | .s8 => 1
  | .z16 | .s16 => 2
  | .b64 => 8

/-- A loaded value placed in a 64-bit register (Table 8.2). -/
def Size.extend (sz : Size) (x : Nat) : W64 :=
  match sz with
  | .s8 => sext x 8 64
  | .s16 => sext x 16 64
  | .s32 => sext x 32 64
  | _ => BitVec.ofNat 64 x

/-- Bits of an atomic type (R239). -/
def AtomTy.bits : AtomTy → Nat
  | .b32 | .s32 | .z32 => 32
  | _ => 64

/-- The context's fence-strengthening mode (R339, Table 16.4). -/
def fenceMode (s : State) (ctx : Nat) : Bool := bitAt (s.ctx ctx).root 1

/-- An acquire or release scope, with fence-strengthening taken into account (Table 11.6). -/
def withMode (s : State) (h : Here) (named : Bool) (sc : Scope) : Option Scope :=
  if fenceMode s h.crew.ctx then some (if named && decide (2 ≤ sc.code) then sc else .crew) else if named then some sc else none

def Ord.acquires : Ord → Bool
  | .acq | .ar => true
  | _ => false
def Ord.releases : Ord → Bool
  | .rel | .ar => true
  | _ => false

/-! ### The checks of R216 and watchpoints -/

/-- One lane's address. -/
abbrev LaneVa := Nat × W64

/-- Raises a class 1 cause for the first lane of a list that fails. -/
def failFirst (kind a : Nat) (bad : W64 → Bool) (l : List LaneVa) : Part Unit :=
  match l.find? fun x => bad x.2 with
  | none => .ok ()
  | some x => raise { cause := cause1 kind a, lane := some x.1, addr := x.2 }

/-- Check 4 of R216 over lanes: the translations, or the trap of the lowest lane that fails. -/
def translateAll (s : State) (h : Here) (a : Nat) (n : Need) : List LaneVa → Part (List (LaneVa × TlbEntry))
  | [] => .ok []
  | x :: xs =>
    match check4 s h.crew.core h.crew.ctx x.2 n with
    | .error f => raiseWalk f { cause := cause1 f.kind a, lane := some x.1, addr := x.2 }
    | .ok t =>
      match translateAll s h a n xs with
      | .error e => .error e
      | .ok l => .ok ((x, t) :: l)

/-- Check 5 of R216 over lanes. -/
def permitAll (a : Nat) (n : Need) (l : List (LaneVa × TlbEntry)) : Part Unit :=
  match l.find? fun x => !permits x.2.pte n with
  | none => .ok ()
  | some x => raise { cause := cause1 4 a, lane := some x.1.1, addr := x.1.2 }

/-- The checks of R216 on global addresses, in order, each over every lane: the physical places. -/
def checkGlobal (s : State) (h : Here) (a size : Nat) (n : Need) (l : List LaneVa) : Part (List (LaneVa × TlbEntry)) := do
  failFirst 0 a (fun x => !canonical x) l
  failFirst 1 a (fun x => decide (x.toNat % size ≠ 0)) l
  let ts ← translateAll s h a n l
  permitAll a n ts
  pure ts

/-- An address lies in the crew's scratchpad allocation (R215). -/
def inScratch (c : Crew) (x : W64) (size : Nat) : Bool :=
  decide (c.scratch ≤ x.toNat) && decide (x.toNat + size ≤ c.scratch + c.kern.scratch)

/-- The checks of R216 on scratchpad addresses. -/
def checkScratch (h : Here) (a size : Nat) (l : List LaneVa) : Part Unit := do
  failFirst 1 a (fun x => decide (x.toNat % size ≠ 0)) l
  failFirst 2 a (fun x => !inScratch h.crew x size) l

/-- Watchpoint `w` of a context watches an access kind (Table 14.13). -/
def watches (c : Ctx) (w kind : Nat) : Bool :=
  let cfg := Cells.get c.dbg.wpc w
  bitAt cfg (4 + kind) && decide (fld cfg 0 4 ≤ 12) && decide (fld cfg 9 55 = 0) && decide (fld (Cells.get c.dbg.wpa w) 57 7 = 0)

/-- The bytes of an access meet the range of watchpoint `w`. -/
def meets (c : Ctx) (w : Nat) (x : W64) (size : Nat) : Bool :=
  let len := fld (Cells.get c.dbg.wpc w) 0 4
  let lo := fld (Cells.get c.dbg.wpa w) 0 57 / 2 ^ len * 2 ^ len
  let a := fld x 0 57
  decide (a < lo + 2 ^ len) && decide (lo < a + size)

/-- Watchpoints over the lanes of an access that has passed its checks (R420); the instruction after `rte` may ignore them (R403). -/
def watch (s : State) (h : Here) (kind size : Nat) (l : List LaneVa) : Part Unit :=
  if h.split.skip then .ok ()
  else
    let c := s.ctx h.crew.ctx
    match (List.range 4).find? fun w => watches c w kind && l.any fun x => meets c w x.2 size with
    | none => .ok ()
    | some w =>
      let x := (l.find? fun x => meets c w x.2 size).getD (0, 0)
      raise { cause := 0x150 + 4 * w + kind, lane := some x.1, addr := x.2, halt := bitAt (Cells.get c.dbg.wpc w) 8 }

/-- The uses of the translations: the walker sets a and d (R360), the TLBs hold them. -/
def touchAll (s : State) (core : Nat) (w : Bool) (l : List (LaneVa × TlbEntry)) : State :=
  l.foldl (fun s x => touch s core x.2 w) s

/-- The lanes' addresses: base and displacement in access units (R215). -/
def laneVas (h : Here) (act : W64) (base : Opnd) (disp : W64) : List LaneVa :=
  (lanesOf act).map fun l => (l, h.read base true 0 false l + disp)

/-- Loads with .acq hold back later memory operations until they have their values (R219, R221, R241), and a load hold back what follows it while the L1 has not granted all its requests (R349). -/
def Here.acquired (h : Here) : Part Unit :=
  if h.warp.loads.any fun l => l.acq.isSome || !l.todo.isEmpty then pause .ordering else .ok ()

/-- Two byte ranges of one space meet. -/
def overlap (sp1 : Space) (a n : Nat) (sp2 : Space) (b m : Nat) : Bool :=
  decide (sp1 = sp2) && decide (a < b + m) && decide (b < a + n)

/-- The space of a store-queue entry. -/
def StoreEntry.space (e : StoreEntry) (core : Nat) : Space :=
  match e.kind with
  | .sdsp | .ssa => .scratch core
  | _ => .phys

/-- A store-queue entry writes some of the bytes. -/
def StoreEntry.hits (e : StoreEntry) (core : Nat) (sp : Space) (a n : Nat) : Bool :=
  e.kind != .upd && e.kind != .fence && e.lanes.any fun l => !l.off && overlap (e.space core) l.pa e.size sp a n

/-- A load in flight reads some of the bytes; the lanes of a remote load have a place here if this device serves them (R228). -/
def Load.hits (l : Load) (a n : Nat) (sp : Space) : Bool := l.lanes.any fun x => overlap l.space x.pa (Size.bytes l.sz) sp a n

/-- A copy has some of the bytes to read. -/
def Xcp.reads (x : Xcp) (a n : Nat) : Bool := x.lanes.any fun l => l.src.any fun b => decide (a ≤ b) && decide (b < a + n)
/-- A copy has some bytes of scratchpad to write. -/
def Xcp.writes (x : Xcp) (a n : Nat) : Bool := x.lanes.any fun l => decide (l.dst < a + n) && decide (a < l.dst + x.size)

end Sys2Proof.Machine
end

