-- ==== Sys2Proof/Machine/AccessMem.lean ====
section
/-! DEFINITION. Group 8: loads into queues and registers, stores, prefetch, remote loads and address generation (R214 to R228). -/
namespace Sys2Proof.Machine

/-- The displacement of a group 8 instruction in bytes (R215). -/
def memDisp (x : MemArgs) : W64 := x.disp.signExtend 64 * BitVec.ofNat 64 (Size.bytes x.sz)

/-- A lane with its place in a space: what an access that has passed its checks reads or writes. -/
structure Placed where
  lane : Nat
  va : W64
  pa : Nat
  deriving DecidableEq, Repr

/-- The checks of a group 8 access (R216) with its watchpoints: the lanes' places and the translations to be used. -/
def checkAccess (s : State) (h : Here) (scratch : Bool) (kind size : Nat) (n : Need) (l : List LaneVa) :
    Part (List Placed × List (LaneVa × TlbEntry)) :=
  if scratch then do
    checkScratch h kind size l
    watch s h kind size l
    pure (l.map fun x => { lane := x.1, va := x.2, pa := x.2.toNat }, [])
  else do
    let ts ← checkGlobal s h kind size n l
    watch s h kind size l
    pure (ts.map fun x => { lane := x.1.1, va := x.1.2, pa := x.2.phys x.1.2 }, ts)

/-- The space of a scratchpad or global access. -/
def Here.space (h : Here) (scratch : Bool) : Space := if scratch then .scratch h.crew.core else .phys

/-- The newest store of some entries that writes a byte. -/
def newestStore (es : List StoreEntry) (core : Nat) (sp : Space) (a : Nat) : Option StoreEntry := es.reverse.find? fun e => e.hits core sp a 1

/-- Waits for the data of the stores in the queue that are the newest for some byte of a load (R222, R225). -/
def Here.awaitBytes (h : Here) (sp : Space) (size : Nat) (ps : List Placed) : Part Unit :=
  h.awaitData (h.warp.stores.filter fun e => ps.any fun p => (List.range size).any fun i =>
    (newestStore h.warp.stores h.crew.core sp (p.pa + i)).any fun n => n.seq == e.seq)

/-- The ordering waits of a load at issue: earlier acquires, and an earlier release fence holds no load. -/
def Here.loadReady (h : Here) (sp : Space) (size : Nat) (ps : List Placed) : Part Unit := do
  h.acquired
  h.awaitBytes sp size ps

/-- A load in flight, the latest of its core's (R344). -/
def Here.addLoad (s : State) (h : Here) (l : Load) : State × Here :=
  if l.lanes.isEmpty then (s, h)
  else
    let k := s.core h.crew.core
    let l := { l with seq := h.warp.seq, split := h.u.split, sent := k.cyc.toNat, ticket := k.ticket }
    (s.setCore h.crew.core { k with ticket := k.ticket + 1 }, { h with warp := { h.warp with loads := h.warp.loads ++ [l] } })

/-- The next program-order number of the warp. -/
def Here.bump (h : Here) : Here := { h with warp := { h.warp with seq := h.warp.seq + 1 } }

/-! ### Requests to the L1 (R348 to R350) -/

/-- Entries in use of the 248 general ones, or of the 8 reserved ones. -/
def Core.entriesUsed (k : Core) (reserved : Bool) : Nat := k.misses.countP fun m => m.reserved == reserved

/-- A line request is presented: whether it is granted, with the entry it takes. A hit and a line with an entry take none; an aged warp may take a reserved entry. -/
def missEntry (k : Core) (aged : Bool) (line : Nat) : Option (List Miss) :=
  if (k.l1.any fun l => l.line == line) || k.misses.any fun m => m.line == line then some []
  else if k.entriesUsed false < 248 then some [{ line := line, reserved := false }]
  else if aged ∧ k.entriesUsed true < 8 then some [{ line := line, reserved := true }]
  else none

/-- Line requests are presented in order; at the first that is rejected it and the rest return. -/
def presentLines (k : Core) (aged : Bool) : List Nat → Core × List Nat
  | [] => (k, [])
  | l :: ls =>
    match missEntry k aged l with
    | none => (k, l :: ls)
    | some m => presentLines { k with misses := k.misses ++ m } aged ls

/-- The requests of an access warp that wait for the L1 are presented (R349): the newest load's, which alone has any. A rejection is counted, the sixteenth makes the warp aged, and with every request granted the count returns to zero (R350). -/
def presentWarp (s : State) (uid pn : Nat) : State :=
  match s.crew? uid, s.pair? uid pn with
  | some c, some p =>
    match p.acc.loads.find? fun l => !l.todo.isEmpty with
    | none => s
    | some l =>
      let k := s.core c.core
      let r := presentLines k p.acc.aged l.todo
      let n := if r.2.isEmpty then 0 else p.acc.rejects + 1
      let aged := !r.2.isEmpty && (p.acc.aged || decide (16 ≤ n))
      (s.setCore c.core r.1).onWarp uid pn .access fun w =>
        { w with loads := replaceIf (fun m => m.id == l.id && m.dest == l.dest) (fun m => { m with todo := r.2 }) w.loads,
                 rejects := n, aged := aged, agedAt := if aged && !p.acc.aged then k.cyc.toNat else w.agedAt }
  | _, _ => s

/-- The entry of a line is free again once its data is there. -/
def missDone (s : State) (core line : Nat) : State :=
  let k := s.core core
  if k.misses.isEmpty then s else s.setCore core { k with misses := k.misses.filter fun m => m.line != line }

/-- Reserves an entry of a queue with lanes outstanding (R219). -/
def Here.reserve (h : Here) (qn : Nat) (missing : W64) (nf : Bool) : Here :=
  match h.queue? qn with
  | none => h
  | some q =>
    h.setQueue qn { q with entries := q.entries ++ [{ id := h.warp.seq, vals := [], tags := 0, missing := missing }], nf := q.nf || nf }

/-- The lanes of `lq.nf` that receive 0: they fail check 1, or check 4 or 5 (R220). A walk that waits has not failed. -/
def nfFails (s : State) (h : Here) (x : LaneVa) : Bool :=
  match check s h.crew.core h.crew.ctx x.2 .r with
  | .error f => f.line?.isNone
  | .ok _ => false

/-- The line requests of a load's lanes, in order of their lowest lane (R349); lines that are never placed in L1 make none (R246, R348). -/
def lineRequests (s : State) (scratch : Bool) (ts : List (LaneVa × TlbEntry)) (lanes : List LoadLane) : List Nat :=
  if scratch then []
  else
    let side := fun (x : LoadLane) => (ts.find? fun t => t.1.1 == x.lane).any fun t => pteBit t.2.pte 5
    dedup ((lanes.filter fun x => !side x && !regionLine s (x.pa / 128)).map fun x => x.pa / 128)

/-- Loads into queues (R219, R220). -/
def loadQueue (i : Instr) (x : MemArgs) (scratch : Bool) (s : State) : Host.Outcome State Fault Refusal :=
  runOn s fun h =>
    match queueNo x.d with
    | none => .ok (s.put (h.advance i.length))
    | some qn => do
      h.pending [(x.base, false)]
      let act := h.active x.g
      let all := laneVas h act x.base (memDisp x)
      let nf := x.x && !scratch
      if nf then failFirst 1 0 (fun a => decide (a.toNat % Size.bytes x.sz ≠ 0)) (all.filter fun a => canonical a.2)
      let lanes := if nf then all.filter fun a => !nfFails s h a else all
      let ps ← checkAccess s h scratch 0 (Size.bytes x.sz) .r lanes
      let sp := h.space scratch
      h.loadReady sp (Size.bytes x.sz) ps.1
      let _ ← h.pushReady qn 1
      let s := touchAll s h.crew.core false ps.2
      let h := h.reserve qn (maskOf (ps.1.map (·.lane))) (decide (lanes.length < all.length))
      let lanes := ps.1.map fun p => { lane := p.lane, va := p.va, pa := p.pa : LoadLane }
      let r := Here.addLoad s h
        { id := h.warp.seq, seq := 0, split := 0, dest := .entry qn h.warp.seq, sz := x.sz, space := sp,
          acq := withMode s h (Ord.acquires x.ord) x.scope, remote := none, sent := 0, ro := x.ro, lanes := lanes, todo := lineRequests s scratch ps.2 lanes }
      pure (presentWarp (r.1.put (r.2.bump.advance i.length)) h.u.crew h.u.pair)

/-- LQ (R219, R220). -/
def execLq (x : MemArgs) (s : State) : Host.Outcome State Fault Refusal := loadQueue (.lq x) x false s
/-- LSQ (R219). -/
def execLsq (x : MemArgs) (s : State) : Host.Outcome State Fault Refusal := loadQueue (.lsq x) x true s

/-- Loads into registers (R221): a uniform destination is read for the lowest active lane. -/
def loadReg (i : Instr) (x : MemArgs) (scratch : Bool) (s : State) : Host.Outcome State Fault Refusal :=
  runOn s fun h => do
    h.pending [(x.base, false), (x.d, false)]
    let act := h.active x.g
    let all := laneVas h act x.base (memDisp x)
    let ps ← checkAccess s h scratch 0 (Size.bytes x.sz) .r all
    let sp := h.space scratch
    h.loadReady sp (Size.bytes x.sz) ps.1
    let s := touchAll s h.crew.core false ps.2
    let dest := match x.d with
      | .c n => LoadDest.creg n.toNat
      | .a n => LoadDest.areg n.toNat
      | _ => LoadDest.areg 0
    let lanes := ps.1.map fun p => { lane := p.lane, va := p.va, pa := p.pa : LoadLane }
    let lanes := if x.d.isUniform then lanes.take 1 else lanes
    let r := Here.addLoad s h
      { id := h.warp.seq, seq := 0, split := 0, dest := dest, sz := x.sz, space := sp, acq := withMode s h (Ord.acquires x.ord) x.scope,
        remote := none, sent := 0, ro := x.ro, lanes := lanes, todo := lineRequests s scratch ps.2 lanes }
    pure (presentWarp (r.1.put (r.2.bump.advance i.length)) h.u.crew h.u.pair)

/-- LA (R221). -/
def execLa (x : MemArgs) (s : State) : Host.Outcome State Fault Refusal := loadReg (.la x) x false s
/-- LSA (R221). -/
def execLsa (x : MemArgs) (s : State) : Host.Outcome State Fault Refusal := loadReg (.lsa x) x true s

/-- The store queue has room; a full one stalls, and an orphaned store in it is what it waits for (R222, R225). -/
def Here.storeRoom (h : Here) : Part Unit :=
  if (h.warp.stores.filter (·.kind != .fence)).length < 64 then .ok () else pause .storeRoom

/-- A release of a store: the data of earlier paired stores is waited for at issue (R224). -/
def Here.releaseData (h : Here) (r : Option Scope) : Part Unit :=
  if r.isSome then h.awaitData h.warp.stores else .ok ()

/-- Enters a store into the store queue (R222). -/
def Here.enterStore (h : Here) (e : StoreEntry) : Here :=
  { h with warp := { h.warp with stores := h.warp.stores ++ [{ e with seq := h.warp.seq }] } }

/-- SD and SD.SP (R222, R224): `x` is .sp. -/
def execSd (x : MemArgs) (s : State) : Host.Outcome State Fault Refusal :=
  runOn s fun h => do
    h.pending [(x.base, false), (x.v, false)]
    let act := h.active x.g
    let ps ← checkAccess s h x.x 1 (Size.bytes x.sz) .w (laneVas h act x.base (memDisp x))
    h.acquired
    let r := if act = 0 then none else withMode s h (Ord.releases x.ord) x.scope
    h.releaseData r
    h.storeRoom
    let s := touchAll s h.crew.core true ps.2
    let lanes := ps.1.map fun p => { lane := p.lane, va := p.va, pa := p.pa, val := h.read x.v true 0 false p.lane, off := false, slot := 0 : StoreLane }
    let h := if lanes.isEmpty then h else h.enterStore
      { seq := 0, kind := if x.x then .sdsp else .sd, size := Size.bytes x.sz, rel := r, q := 0, lanes := lanes, paired := true, sz := x.sz }
    pure (s.put (h.bump.advance (Instr.sd x).length))

/-- Stores whose data the execute slice pushes (R223). -/
def storePaired (i : Instr) (x : MemArgs) (scratch : Bool) (s : State) : Host.Outcome State Fault Refusal :=
  runOn s fun h =>
    match queueNo x.v with
    | none => .ok (s.put (h.advance i.length))
    | some qn => do
      h.pending [(x.base, false)]
      let act := h.active x.g
      let ps ← checkAccess s h scratch 1 (Size.bytes x.sz) .w (laneVas h act x.base (memDisp x))
      h.acquired
      match h.warp.stores.find? fun e => !e.paired && e.q == qn && h.orphanOf e with
      | some _ => raise (orphanTrap qn)
      | none => pure ()
      let r := withMode s h (Ord.releases x.ord) x.scope
      h.releaseData r
      match h.queue? qn with
      | none => raise (directionTrap h.u.slice)
      | some q => do
        if q.depth ≤ q.addrs.length then pause (.addrFull qn)
        h.storeRoom
        let s := touchAll s h.crew.core true ps.2
        let lanes := ps.1.map fun p => { lane := p.lane, va := p.va, pa := p.pa, val := 0, off := false, slot := 0 : StoreLane }
        let h := h.enterStore
          { seq := 0, kind := if scratch then .ssa else .sa, size := Size.bytes x.sz, rel := r, q := qn, lanes := lanes, paired := false, sz := x.sz }
        let h := h.setQueue qn { q with addrs := q.addrs ++ [h.warp.seq] }
        pure (s.put (h.bump.advance i.length))

/-- SA (R223). -/
def execSa (x : MemArgs) (s : State) : Host.Outcome State Fault Refusal := storePaired (.sa x) x false s
/-- SSA (R223). -/
def execSsa (x : MemArgs) (s : State) : Host.Outcome State Fault Refusal := storePaired (.ssa x) x true s

/-- The line that leaves a full set of L1: the least recently used one not filled by a .ro load, else the least recently used (R348). -/
def l1Victim (set : List L1Line) : Option L1Line :=
  if set.length < 8 then none else (set.find? fun l => !l.ro) <|> set.head?

/-- A use of a line of L1, filled from the cluster's L2 slice if it is not there: eight lines of a set (R348); a line that fails parity is discarded (Table 12.5). -/
def fillL1 (s : State) (core ctx : Nat) (va : W64) (line : Nat) (ro : Bool) : State :=
  let k := s.core core
  let rest := k.l1.filter fun l => l.line != line
  match k.l1.find? fun l => l.line == line with
  | some l => s.setCore core { k with l1 := rest ++ [l] }
  | none =>
    let r := lineWrite s core 6 (line % 2048) ctx
    let s := l2Read' r.1 (clusterOf core) line
    let k := s.core core
    let gone := l1Victim (rest.filter fun l => l.line % 256 == line % 256)
    if r.2.1 then s
    else s.setCore core { k with l1 := (k.l1.filter fun l => gone.all fun g => g.line != l.line) ++
      [{ line := line, ctx := ctx, va := va, ro := ro, bits := Cells.setList [] 0 r.2.2 }] }

/-- Bits that stand inverted in a byte of a core's L1 (R369). -/
def l1Bits (s : State) (core a : Nat) : Byte :=
  match (s.core core).l1.find? fun l => l.line == a / 128 with
  | some l => if l.bits.isEmpty then 0 else (Cells.get l.bits (a % 128 / 8)).extractLsb' (a % 8 * 8) 8
  | none => 0

/-- A store leaving the store queue updates its core's copy of its line (R348): the bytes that it writes stand as it gives them. -/
def l1Store (s : State) (core a n : Nat) : State :=
  let k := s.core core
  if k.l1.all fun l => l.bits.isEmpty then s
  else s.setCore core { k with l1 := k.l1.map fun l =>
    { l with bits := (List.range n).foldl (fun b i =>
        if (a + i) / 128 = l.line then Cells.set b ((a + i) % 128 / 8) (setFld (Cells.get b ((a + i) % 128 / 8)) ((a + i) % 8 * 8) 8 0) else b) l.bits } }

/-- A prefetched lane (R226): one whose page can be read is filled into L1, or with .l2 into its home L2 slice, and sets a (R360); another is ignored, and one for which the L1 has no general entry is dropped (R350). -/
def prefetchLane (s : State) (h : Here) (l2 : Bool) (va : W64) : State :=
  match use s h.crew.core h.crew.ctx va .r with
  | .error _ => s
  | .ok (s, pa, ms) =>
    if ms || regionLine s (pa / 128) then s
    else if l2 then l2Read' s (homeSlice (pa / 128)) (pa / 128)
    else if (missEntry (s.core h.crew.core) false (pa / 128)).isNone then s
    else fillL1 s h.crew.core h.crew.ctx va (pa / 128) false

/-- PF (R226). -/
def execPf (x : MemArgs) (s : State) : Host.Outcome State Fault Refusal :=
  runOn s fun h => do
    h.pending [(x.base, false)]
    let act := h.active x.g
    let s := (laneVas h act x.base (memDisp x)).foldl (fun s a => prefetchLane s h x.x a.2) s
    pure (s.put (h.advance (Instr.pf x).length))

/-- The place of a lane of a remote load: in this device's memory for its own identifier, as the tables of the tag's context have it, and nowhere here for another (R228, R322). -/
def remotePlace (s : State) (tag dev : Nat) (va : W64) : Nat :=
  let away := 2 ^ 60
  if dev ≠ s.dev.domain.toNat then away
  else match tagged s tag with
    | none => away
    | some ctx => match peek s ctx va with
      | .ok t => t.phys va
      | .error _ => away

/-- RLQ (R228): one load in flight for each device named. A lane that this device serves waits for the data of the newest store of its bytes, as any load (R222). -/
def execRlq (x : MemArgs) (s : State) : Host.Outcome State Fault Refusal :=
  runOn s fun h =>
    match queueNo x.d with
    | none => .ok (s.put (h.advance (Instr.rlq x).length))
    | some qn => do
      h.pending [(x.base, false), (x.v, false)]
      let act := h.active x.g
      let all := laneVas h act x.base (memDisp x)
      let dev := fun l => fld (h.read x.v true 0 false l) 0 10
      match all.find? fun a => decide (s.dev.domain = 0x3FF) || decide (575 < dev a.1) with
      | some a => raise { cause := cause1 8 0, lane := some a.1, addr := a.2 }
      | none => pure ()
      failFirst 0 0 (fun a => !canonical a) all
      failFirst 1 0 (fun a => decide (a.toNat % Size.bytes x.sz ≠ 0)) all
      watch s h 0 (Size.bytes x.sz) all
      h.acquired
      let tag := fld (s.ctx h.crew.ctx).rtag 0 16
      let place := fun (a : LaneVa) => remotePlace s tag (dev a.1) a.2
      h.awaitBytes .phys (Size.bytes x.sz) (all.map fun a => { lane := a.1, va := a.2, pa := place a })
      let _ ← h.pushReady qn 1
      let h := h.reserve qn (maskOf (all.map (·.1))) false
      let devs := dedup (all.map fun a => dev a.1)
      let n := h.warp.seq
      let r := devs.foldl (fun p d => Here.addLoad p.1 p.2
        { id := 1024 * n + d, seq := 0, split := 0, dest := .entry qn n, sz := x.sz, space := .phys,
          acq := withMode s h false .thread, remote := some d, sent := 0, ro := false, tag := tag,
          lanes := (all.filter fun a => dev a.1 == d).map fun a => { lane := a.1, va := a.2, pa := place a } }) (s, h)
      pure (r.1.put (r.2.bump.advance (Instr.rlq x).length))

/-- The result of `lea` in either form (R227). -/
def leaInstr (i : Instr) (g : Guard) (d base : Opnd) (disp : W64) (s : State) : Host.Outcome State Fault Refusal :=
  runInstr s i g fun h act srcs =>
    .ok (finish h i srcs d true false act fun l => Res.plain (h.read base true 0 false l + disp))
/-- LEA (R227). -/
def execLea (x : LeaArgs) (s : State) : Host.Outcome State Fault Refusal :=
  leaInstr (.lea x) x.g x.d x.base (x.disp.signExtend 64) s
/-- LEA in the long form (R227). -/
def execLeaLong (x : LeaLongArgs) (s : State) : Host.Outcome State Fault Refusal :=
  leaInstr (.leaLong x) x.g x.d x.base x.disp s

end Sys2Proof.Machine
end

