-- ==== Sys2Proof/Machine/Atomic.lean ====
section
/-! DEFINITION. Group 10: atomics, fences, updates and their regions, cache maintenance (R239 to R249). -/
namespace Sys2Proof.Machine

/-- The value a uniform register holds. -/
def Here.uniform (h : Here) (o : Opnd) : W64 := h.read o true 0 false 0

/-- The waits of an atomic at its address (R240, R241): earlier stores have left, overlapping loads have their values, no command owns the line. -/
def Here.atomReady (s : State) (h : Here) (pa size : Nat) (r : Option Scope) : Part Unit := do
  h.acquired
  h.awaitData h.warp.stores
  if !h.warp.stores.isEmpty then pause .ordering
  if h.warp.loads.any fun l => r.isSome || l.hits pa size .phys then pause .ordering
  if h.pair.xcps.any fun x => x.reads pa size then pause .ordering
  if r = some .domain ∧ 0 < h.warp.acks then pause .ordering
  lineFree s .phys pa size

/-- The bytes a step of an instruction reads, last in coherence order: records of a region's lines are applied first (R365), and an error is the split's machine check (R217). -/
def Here.readStep (s : State) (h : Here) (pa n : Nat) : State × List Byte :=
  loadChecked (applyLines s pa n) h.crew.ctx h.u pa n fun s => s.latestBytes .phys pa n

/-- The bytes an instruction reads at its place in the order of memory, as its warp sees them, with the same checks. -/
def Here.readPlain (s : State) (h : Here) (pa n : Nat) : State × List Byte :=
  loadChecked (applyLines s pa n) h.crew.ctx h.u pa n fun s => s.viewBytes h.viewer .phys pa n

/-- One read-modify-write by an agent at a translated address (R240, R324 to R326): `r` and `acq` are its release and its acquire, `fences` the releases that its stores carry. The new state and the old value. -/
def rmw (s : State) (h : Here) (v : Viewer) (fences : List Release) (t : LaneVa × TlbEntry) (bytes : Nat) (r acq : Option Scope) (f : Nat → Nat) :
    State × Nat :=
  let pa := t.2.phys t.1.2
  let p := match r with
    | none => (s, [])
    | some sc => let q := releaseBy s v sc; (q.1, [q.2])
  let a := Here.readStep (touchAll p.1 h.crew.core true [t]) h pa bytes
  let s := partialCheck a.1 h.crew.ctx pa bytes
  let old := bytesToNat a.2
  let rs := releasesLast s .phys pa
  let s := observe s v acq rs
  (storeAt s { agent := v.agent, core := v.core, crew := v.crew, space := .phys, addr := pa, data := natToBytes (f old) bytes,
               ms := pteBit t.2.pte 5 || regionLine s (pa / 128), home := true, scope := .die, rel := liveReleases s (p.2 ++ fences ++ rs) }, old)

/-- The old value that `atom` and `acas` give (R240). -/
def oldValue (signed : Bool) (bytes old : Nat) : W64 := if signed then sext old (8 * bytes) 64 else BitVec.ofNat 64 old

/-- The read-modify-write of `atom` and `acas` at the lowest active lane's address (R240). -/
def atomic (i : Instr) (g : Guard) (d base : Opnd) (uses : List Use) (disp : W64) (bytes : Nat) (ord : Ord) (sc : Scope)
    (signed : Bool) (f : Here → Nat → Nat) (s : State) : Host.Outcome State Fault Refusal :=
  runOn s fun h =>
    match lowest (h.active g) with
    | none => .ok (s.put (h.advance i.length))
    | some lane => do
      h.pending uses
      let va := h.uniform base + disp
      let ts ← checkGlobal s h 2 bytes .w [(lane, va)]
      watch s h 2 bytes [(lane, va)]
      match ts with
      | [] => pure (s.put (h.advance i.length))
      | t :: _ => do
        let r := withMode s h (Ord.releases ord) sc
        Here.atomReady s h (t.2.phys va) bytes r
        let p := rmw s h h.viewer h.warp.fences t bytes r (withMode s h (Ord.acquires ord) sc) (f h)
        let h := h.write d true false (h.active g) fun _ => oldValue signed bytes p.2
        pure (p.1.put (h.bump.advance i.length))

/-- The operation of `atom` (R240). -/
def atomOp (op : AtomOp) (ty : AtomTy) (old v : Nat) : Nat :=
  let t : Ty := match ty with
    | .b32 => .b32
    | .s32 => .s32
    | .z32 => .z32
    | .b64 => .b64
    | .s64 => .s64
    | .z64 => .z64
  let a := BitVec.ofNat 64 old
  let b := BitVec.ofNat 64 v
  let r := match op with
    | .add => (iaddOp t false a b 0).val
    | .min => (iminOp t false a b 0).val
    | .max => (imaxOp t false a b 0).val
    | .and => a &&& b
    | .or => a ||| b
    | .xor => a ^^^ b
    | .exch => b
  r.toNat % 2 ^ AtomTy.bits ty

/-- ATOM (R240). -/
def execAtom (x : AtomArgs) (s : State) : Host.Outcome State Fault Refusal :=
  let n := AtomTy.bits x.ty / 8
  atomic (.atom x) x.g x.d x.base [(x.base, false), (x.v, false), (x.d, false)] (x.disp.signExtend 64 * BitVec.ofNat 64 n) n x.ord x.scope
    (x.ty == .s32 || x.ty == .s64) (fun h old => atomOp x.op x.ty old ((h.uniform x.v).toNat % 2 ^ AtomTy.bits x.ty)) s

/-- ACAS (R240). -/
def execAcas (x : AcasArgs) (s : State) : Host.Outcome State Fault Refusal :=
  let n := if x.wide then 8 else 4
  atomic (.acas x) x.g x.d x.base [(x.base, false), (x.cmp, false), (x.new, false), (x.d, false)] 0 n x.ord x.scope false
    (fun h old => if old = (h.uniform x.cmp).toNat % 2 ^ (8 * n) then (h.uniform x.new).toNat % 2 ^ (8 * n) else old) s

/-- FENCE (R241): the release part enters the store queue as a marker that later stores wait behind; the acquire part waits for the loads' values. In the execute slice nothing has still to leave its unit: what earlier stamp-image reads have read from is observed (R325). -/
def execFence (x : FenceArgs) (s : State) : Host.Outcome State Fault Refusal :=
  runOn s fun h =>
    if h.active x.g = 0 then .ok (s.put (h.advance 8))
    else if h.u.slice = .execute then
      .ok ((if Ord.acquires x.sem then learnHeard s h.viewer x.scope else s).put (h.advance 8))
    else do
      if Ord.acquires x.sem && !h.warp.loads.isEmpty then pause .ordering
      let s := if Ord.acquires x.sem then learnHeard s h.viewer x.scope else s
      if Ord.releases x.sem then do
        h.awaitData h.warp.stores
        let h := h.enterStore
          { seq := 0, kind := .fence, size := 0, rel := some x.scope, q := 0, lanes := [], paired := true }
        pure (s.put (h.bump.advance 8))
      else pure (s.put (h.bump.advance 8))

/-! ### Updates -/

/-- The binding that contains an address, with its slot (R242): one being removed is found no more (R248). -/
def bindingAt (s : State) (ctx : Nat) (va : W64) : Option (Nat × Binding) :=
  (s.ctx ctx).bindings.find? fun b =>
    !b.2.leaving && decide (b.2.rbase.toNat ≤ va.toNat) && decide (va.toNat < b.2.rbase.toNat + b.2.rlen.toNat)

/-- The checks of an update (R242) with its watchpoints: per lane its slot, its binding and its translation. -/
def checkUpdate (s : State) (h : Here) (l : List LaneVa) : Part (List (LaneVa × TlbEntry)) := do
  failFirst 0 2 (fun x => !canonical x) l
  failFirst 9 2 (fun x => (bindingAt s h.crew.ctx x).isNone) l
  let size := fun x => match bindingAt s h.crew.ctx x with
    | none => 1
    | some b => etypeBytes b.2.etype
  failFirst 1 2 (fun x => decide (x.toNat % size x ≠ 0)) l
  let ts ← translateAll s h 2 .w l
  permitAll 2 .w ts
  for x in l do
    watch s h 2 (size x.2) [x]
  pure ts

/-- The lanes of an update entry (R242). -/
def updateLanes (s : State) (h : Here) (ts : List (LaneVa × TlbEntry)) (val : Nat → W64) : List StoreLane :=
  ts.map fun t => { lane := t.1.1, va := t.1.2, pa := t.2.phys t.1.2, val := val t.1.1, off := false,
                    slot := ((bindingAt s h.crew.ctx t.1.2).map (·.1)).getD 0 }

/-- UPD (R242, R244). -/
def execUpd (x : UpdArgs) (s : State) : Host.Outcome State Fault Refusal :=
  runOn s fun h =>
    let srcs : List Use := [(x.base, false), (x.v, false)]
    let act := h.active x.g
    match prepare s h [] srcs act with
    | .error t => .error t
    | .ok (s, h) => do
      let ts ← checkUpdate s h (laneVas h act x.base (x.disp.signExtend 64))
      h.acquired
      let r := if act = 0 then none else withMode s h false .thread
      h.releaseData r
      h.storeRoom
      let s := touchAll s h.crew.core true ts
      let lanes := updateLanes s h ts fun l => h.read x.v true 0 false l
      let h := h.popAll srcs
      let h := if lanes.isEmpty then h else h.enterStore
        { seq := 0, kind := .upd, size := 0, rel := r, q := 0, lanes := lanes, paired := true }
      pure (s.put (h.bump.advance 8))

/-- The ranges of the active lanes, stopping at 2^64 (R246): first byte and one past the last. -/
def ranges (h : Here) (act : W64) (base len : Opnd) (wide : Bool) : List (Nat × Nat) :=
  (lanesOf act).map fun l =>
    let b := (h.read base wide 0 false l).toNat
    (b, min (b + (h.read len wide 0 false l).toNat) (2 ^ 64))

/-- The 128-byte line of an address meets one of the ranges. -/
def lineMeets (rs : List (Nat × Nat)) (va : Nat) : Bool :=
  rs.any fun r => decide (r.1 < r.2) && decide (r.1 < va / 128 * 128 + 128) && decide (va / 128 * 128 < r.2)

/-- The accepted records of every region line that meets the ranges are applied, once no command owns a line they go to (R246, R329). -/
def flushRecords (s : State) (h : Here) (rs : List (Nat × Nat)) : Part State :=
  let keys := dedup ((s.drawers.map (·.key) ++ s.pend.map (·.key)).filter fun k => lineNamed s h.crew.core h.crew.ctx rs (k / 128))
  if keys.all (applyReady s) then .ok (keys.foldl applyKey s) else pause .ordering

/-- UFLUSH (R246). -/
def execUflush (x : RangeArgs) (s : State) : Host.Outcome State Fault Refusal :=
  runOn s fun h => do
    h.pending [(x.base, false), (x.len, false)]
    let t ← flushRecords s h (ranges h (h.active x.g) x.base x.len true)
    pure (t.put (h.advance 8))

/-! ### Bindings (R144, R145, R247, R248) -/

/-- The accepted operator and type pairs (Table 5.11). -/
def pairOk (oper etype : Nat) : Bool :=
  if oper = 0 ∨ oper = 1 ∨ oper = 2 then
    [0x03, 0x04, 0x07, 0x08, 0x0D, 0x0C, 0x0B].contains etype
  else if oper ≤ 5 then [0x09, 0x0A].contains etype
  else false

/-- Bytes of a binding's wide shadow: 40 for each element of a float-add region (R145). -/
def shadowBytes (oper etype rlen : Nat) : Nat := if isFloatAdd oper etype then 40 * (rlen / etypeBytes etype) else 0

/-- Two byte ranges of virtual addresses meet. -/
def meetsVa (a n b m : Nat) : Bool := decide (a < b + m) && decide (b < a + n)

/-- A binding's region or shadow meets a range. -/
def Binding.touches (b : Binding) (lo n : Nat) : Bool :=
  meetsVa b.rbase.toNat b.rlen.toNat lo n || meetsVa b.sbase.toNat (shadowBytes b.oper b.etype b.rlen.toNat) lo n

/-- The binding a descriptor describes, if R144 accepts it in a context. -/
def bindingOf (c : Ctx) (d : List Byte) : Option Binding :=
  let rbase := bytesAt d 0 8
  let rlen := bytesAt d 8 8
  let sbase := bytesAt d 16 8
  let oper := bytesAt d 24 1
  let etype := bytesAt d 25 1
  let n := shadowBytes oper etype rlen
  if pairOk oper etype && decide (bytesAt d 26 6 = 0) && decide (0 < rbase) && decide (rbase % 128 = 0) && decide (0 < rlen) && decide (rlen % 128 = 0)
      && decide (rlen ≤ 2 ^ 40) && (if isFloatAdd oper etype then decide (0 < sbase) && decide (sbase % 4096 = 0) else decide (sbase = 0))
      && c.bindings.all fun b => !b.2.touches rbase rlen && !(decide (0 < n) && b.2.touches sbase n) then
    some { rbase := BitVec.ofNat 64 rbase, rlen := BitVec.ofNat 64 rlen, sbase := BitVec.ofNat 64 sbase, oper := oper, etype := etype,
           leaving := false }
  else none

/-- The checks of the pages of a wide shadow as stores (R247), with the uses of their translations. -/
def shadowPages (s : State) (h : Here) (lane : Nat) (va : W64) : Nat → Part (State × List Nat)
  | 0 => .ok (s, [])
  | n + 1 =>
    match use s h.crew.core h.crew.ctx va .w with
    | .error f => raiseWalk f { cause := cause1 f.kind 1, lane := some lane, addr := va }
    | .ok (s, pa, _) =>
      match shadowPages s h lane (va + 4096) n with
      | .error t => .error t
      | .ok (s, l) => .ok (s, pa :: l)

/-- Zero-fills `n` bytes over pages (R145, R247). -/
def zeroPages (s : State) (ctx : Nat) : List Nat → (n : Nat) → State
  | [], _ => s
  | p :: ps, n => zeroPages (storeShadowPage s p (min n 4096)) ctx ps (n - 4096)
where
  /-- Zeros at the start of a page, by the update unit. -/
  storeShadowPage (s : State) (pa n : Nat) : State :=
    storeAt (partialCheck s ctx pa n) { agent := .update, core := 0, crew := 0, space := .phys, addr := pa, data := List.replicate n 0, ms := true, scope := .domain }

/-- Writes back the modified lines named by ranges of virtual addresses; unmapped pages are skipped (R247, R249). -/
def writeBackRange (s : State) (core ctx : Nat) (rs : List (Nat × Nat)) : State :=
  { s with dirty := s.dirty.filter fun d => !lineNamed s core ctx rs d.line }
/-- Takes the copies of lines named by ranges out of every L2 slice. -/
def dropRange (s : State) (core ctx : Nat) (rs : List (Nat × Nat)) : State :=
  let gone := s.l2.flatMap fun e => (e.2.filter (lineNamed s core ctx rs)).map fun l => (e.1, l)
  gone.foldl (fun s x => l2Drop s x.1 x.2) s
/-- Takes them out of the L1 of cores. -/
def dropL1Range (s : State) (p : Nat → Bool) (core ctx : Nat) (rs : List (Nat × Nat)) : State :=
  { s with cores := s.cores.map fun e => if p e.1 then (e.1, { e.2 with l1 := e.2.l1.filter fun l => !lineNamed s core ctx rs l.line }) else e }
/-- Writes back and invalidates every cached copy of the lines of a range, the host's too (R247, R352). -/
def flushRange (s : State) (core ctx : Nat) (r : Nat × Nat) : State :=
  let s := dropL1Range (dropRange (writeBackRange s core ctx [r]) core ctx [r]) (fun _ => true) core ctx [r]
  { s with hostCopies := s.hostCopies.filter fun l => !lineNamed s core ctx [r] l }

/-- UBIND (R247): acts once. -/
def execUbind (x : BindArgs) (s : State) : Host.Outcome State Fault Refusal :=
  runOn s fun h =>
    match lowest (h.active x.g) with
    | none => .ok (s.put (h.advance 8))
    | some lane => do
      h.pending [(x.base, false)]
      let va := h.uniform x.base
      let ts ← checkGlobal s h 0 32 .r [(lane, va)]
      watch s h 0 32 [(lane, va)]
      h.awaitBytes .phys 32 (ts.map fun t => { lane := lane, va := va, pa := t.2.phys va })
      h.drained
      let s := touchAll s h.crew.core false ts
      let pa := (ts.head?.map fun t => t.2.phys va).getD 0
      lineFree s .phys pa 32
      let bad : Trap := { cause := cause1 10 2, lane := some lane, addr := va }
      let c := s.ctx h.crew.ctx
      if (Tbl.get? c.bindings x.n.toNat).isSome then raise bad
      let d := Here.readPlain s h pa 32
      let s := d.1
      match bindingOf c d.2 with
      | none => meeting .phys pa 32 (raise bad)
      | some b => do
        let n := shadowBytes b.oper b.etype b.rlen.toNat
        let p ← meeting .phys pa 32 (shadowPages s h lane b.sbase ((n + 4095) / 4096))
        let s := flushRange p.1 h.crew.core h.crew.ctx (b.rbase.toNat, b.rbase.toNat + b.rlen.toNat)
        let s := zeroPages s h.crew.ctx p.2 n
        let c := s.ctx h.crew.ctx
        let s := s.setCtx h.crew.ctx { c with bindings := Tbl.set c.bindings x.n.toNat b }
        pure (s.put (h.bump.advance 8))

/-- Some warp of a context, placed or saved, holds an update of a slot that is not yet accepted (R248). -/
def slotBusy (s : State) (ctx slot : Nat) : Bool :=
  s.crews.any fun e => e.2.ctx == ctx && e.2.pairs.any fun p =>
    p.2.acc.stores.any fun st => st.kind == .upd && st.lanes.any fun l => l.slot == slot

/-- The keys of a slot's records. -/
def slotKeys (s : State) (ctx slot : Nat) : List Nat :=
  dedup ((s.drawers.filter fun d => d.ctx == ctx && d.slot == slot).map (·.key) ++ (s.pend.filter fun d => d.ctx == ctx && d.slot == slot).map (·.key))

/-- Every update of a slot is accepted, and no command owns a line its records are applied to (R248, R329). -/
def slotFree (s : State) (ctx slot : Nat) : Bool := !slotBusy s ctx slot && (slotKeys s ctx slot).all (applyReady s)

/-- The end of an unbinding (R248): the slot's records are applied and it is freed. -/
def freeSlot (s : State) (ctx slot : Nat) : State :=
  let s := (slotKeys s ctx slot).foldl applyKey s
  let c := s.ctx ctx
  s.setCtx ctx { c with bindings := Tbl.erase c.bindings slot }

/-- UUNBIND (R248): the slot leaves use at once; the instruction completes when every update of it is accepted and applied. DESIGN CHOICE (log 86): a slot that another `uunbind` is still removing holds no binding that this one could remove, and is an illegal binding like an empty one. -/
def execUunbind (x : BindArgs) (s : State) : Host.Outcome State Fault Refusal :=
  runOn s fun h =>
    match lowest (h.active x.g) with
    | none => .ok (s.put (h.advance 8))
    | some lane =>
      let c := s.ctx h.crew.ctx
      let n := x.n.toNat
      match Tbl.get? c.bindings n with
      | none => raise { cause := cause1 10 2, lane := some lane }
      | some b =>
        if b.leaving then raise { cause := cause1 10 2, lane := some lane }
        else if slotFree s h.crew.ctx n then .ok ((freeSlot s h.crew.ctx n).put (h.bump.advance 8))
        else
          let s := s.setCtx h.crew.ctx { c with bindings := Tbl.set c.bindings n { b with leaving := true } }
          .ok (s.put { h with split := { h.split with wait := .unbinding n } })

/-! ### Cache maintenance (R249) -/

/-- CINV (R249): the issuing core's L1 copies of the lines leave, whatever address they were filled for. -/
def execCinv (x : RangeArgs) (s : State) : Host.Outcome State Fault Refusal :=
  runOn s fun h => do
    h.pending [(x.base, false), (x.len, false)]
    let rs := ranges h (h.active x.g) x.base x.len true
    pure ((dropL1Range s (· == h.crew.core) h.crew.core h.crew.ctx rs).put (h.advance 8))

/-- CWB (R249): dirty L2 copies of the lines are written back; .inv (`flag`) takes the copies out of L2 too. -/
def execCwb (x : RangeArgs) (s : State) : Host.Outcome State Fault Refusal :=
  runOn s fun h => do
    h.pending [(x.base, false), (x.len, false)]
    let rs := ranges h (h.active x.g) x.base x.len true
    let t := writeBackRange s h.crew.core h.crew.ctx rs
    pure ((if x.flag then dropRange t h.crew.core h.crew.ctx rs else t).put (h.advance 8))

end Sys2Proof.Machine
end

