-- ==== Sys2Proof/Machine/Convert.lean ====
section
/-! DEFINITION. Group 6: conversion, packing, block floating point and scales (R110 to R115, R197 to R204). -/
namespace Sys2Proof.Machine

/-- Converts a floating-point value to a float format (R110, Table 4.4). -/
def toFloat (f : Fmt) (r : Rnd) (z : Bool) (v : FVal) : Res :=
  match v with
  | .nan s => f.nanRes (flagIf (s || (!f.ieee && !f.e4m3)) fNv)
  | .inf n => f.infRes n (flagIf (!f.ieee) fOf)
  | .num n m e => f.res r z n m e 0

/-- Converts a floating-point value to an integer type (R111, Table 4.4). -/
def toInt (t : Ty) (r : Rnd) (v : FVal) : Res :=
  match v with
  | .nan _ => { val := 0, flags := fNv }
  | .inf n => { val := ofInt t (if n then tyMin t else tyMax t), flags := fNv }
  | .num n m e =>
    let q := if 0 ≤ e then (m * 2 ^ e.toNat, false) else roundShift r n m (-e).toNat
    let x : Int := if n then -(q.1 : Int) else q.1
    if x < tyMin t then { val := ofInt t (tyMin t), flags := fNv }
    else if tyMax t < x then { val := ofInt t (tyMax t), flags := fNv }
    else { val := ofInt t x, flags := flagIf q.2 fNx }

/-- A conversion between two types (R198). -/
def convert (dt st : Ty) (r : Rnd) (z sat : Bool) (a : W64) : Res :=
  match Fmt.ofTy dt, Fmt.ofTy st with
  | some f, some g => toFloat f r z (g.input z a)
  | some f, none => let x := intOf st a; f.res r z (decide (x < 0)) x.natAbs 0 0
  | none, some g => toInt dt r (g.input z a)
  | none, none => intRes dt sat (intOf st a)

/-- CVT (R198). -/
def execCvt (x : CvtArgs) (s : State) : Host.Outcome State Fault Refusal :=
  runInstr s (.cvt x) x.g fun h act srcs =>
    .ok (finish h (.cvt x) srcs x.d x.ty.wide x.nwb act fun l => convert x.ty x.st x.rnd x.ftz x.sat (h.src srcs 0 false l))

/-- Bits between two elements of a packed register (Table 7.6). -/
def elemStep (t : Ty) : Nat :=
  match t with
  | .f16 | .bf16 => 16
  | .e2m1 => 4
  | _ => 8

/-- FPK (R200). -/
def execFpk (x : FpkArgs) (s : State) : Host.Outcome State Fault Refusal :=
  runInstr s (.fpk x) x.g fun h act srcs =>
    .ok (finish h (.fpk x) srcs x.d false x.nwb act fun l =>
      let ra := convert x.ty .f32 x.rnd x.ftz false (h.src srcs 0 false l)
      let rb := convert x.ty .f32 x.rnd x.ftz false (h.src srcs 1 false l)
      let w := elemStep x.ty
      let old := match x.d with
        | .q _ => 0
        | d => h.read d false 0 false l
      let j := x.j.toNat
      { val := setFld (setFld old (2 * j * w) w ra.val.toNat) ((2 * j + 1) * w) w rb.val.toNat,
        flags := ra.flags ||| rb.flags })

/-- FUPK (R201). -/
def execFupk (x : FupkArgs) (s : State) : Host.Outcome State Fault Refusal :=
  runInstr s (.fupk x) x.g fun h act srcs =>
    .ok (finish h (.fupk x) srcs x.d false x.nwb act fun l =>
      let w := elemStep x.ty
      convert .f32 x.ty .rn x.ftz false (BitVec.ofNat 64 (fld (h.src srcs 0 false l) (x.j.toNat * w) w)))

/-! ### Block floating point (R113 to R115) -/

/-- N of a .mN type. -/
def Ty.mant : Ty → Nat
  | .m2 => 2
  | .m3 => 3
  | .m4 => 4
  | .m5 => 5
  | .m6 => 6
  | .m7 => 7
  | _ => 8

/-- One element quantised at exponent e: the mantissa and its flags (R115). -/
def quantOne (N : Nat) (e : Nat) (v : FVal) : Int × W32 :=
  let hi : Int := 2 ^ (N - 1) - 1
  let lo : Int := -(2 ^ (N - 1))
  match v with
  | .nan _ => (0, 0)
  | .inf n => (if n then lo else hi, 0)
  | .num n m ex =>
    let sh := ex - ((e : Int) - 127 - (N - 1))
    let q := if 0 ≤ sh then (m * 2 ^ sh.toNat, false) else roundShift .rn n m (-sh).toNat
    let t : Int := if n then -(q.1 : Int) else q.1
    let f := flagIf q.2 fNx ||| flagIf (decide (m ≠ 0) && decide (t = 0)) fUf
    if hi < t then (hi, f ||| fSat) else if t < lo then (lo, f ||| fSat) else (t, f)

/-- The exponent of a block and its flags (R115); `none` for a block without exponent to choose: NaN block or zero block. -/
def blockExp (xs : List FVal) : Nat × W32 :=
  if xs.any (·.isInf) then (254, fOf)
  else
    let es := xs.filterMap fun v => match v with
      | .num _ m e => if m = 0 then none else some (e + (Nat.log2 m : Int))
      | _ => none
    match es with
    | [] => (0, 0)
    | e :: es =>
      let M := es.foldl (fun a b => if a < b then b else a) e
      ((if M + 128 < 0 then 0 else if 254 < M + 128 then 254 else (M + 128).toNat), 0)

/-- Quantises a block (R115): exponent, mantissas, and the flags set in every supplying lane. `fixed` forces the exponent (R274). -/
def quantise (xs : List FVal) (N : Nat) (fixed : Option Nat) : Nat × List Int × W32 :=
  if xs.any (·.isNan) then (0xFF, xs.map fun _ => 0, fNv)
  else
    let eb := blockExp xs
    let e := fixed.getD eb.1
    if xs.all (·.isZero) && fixed.isNone then (0, xs.map fun _ => 0, 0)
    else
      let r := xs.map (quantOne N e)
      (e, r.map (·.1), r.foldl (fun f p => f ||| p.2) eb.2)

/-- The 32 values of block `b`: lanes that are not active supply +0 (R202). -/
def blockVals (act : W64) (z : Bool) (b : Nat) (val : Nat → W64) : List FVal :=
  (List.range 32).map fun i => if bitAt act (32 * b + i) then fmtF32.input z (val (32 * b + i)) else .num false 0 0

/-- The register value of a quantised element (R202). -/
def blockWord (e : Nat) (j : Int) : W64 := BitVec.ofNat 64 ((j % 256).toNat + e * 256)

/-- BFQ (R202). -/
def execBfq (x : AluArgs) (s : State) : Host.Outcome State Fault Refusal :=
  runInstr s (.bfq x) x.g fun h act srcs =>
    let v := fun l => h.src srcs 0 false l
    let q := fun b => quantise (blockVals act x.ftz b v) (Ty.mant x.ty) none
    let q0 := q 0
    let q1 := q 1
    .ok (finish h (.bfq x) srcs x.d false x.nwb act fun l =>
      let r := if l < 32 then q0 else q1
      { val := blockWord r.1 (r.2.1[l % 32]?.getD 0), flags := r.2.2 })

/-- The .f32 value of a block element (R113, R114). -/
def blockElem (N : Nat) (a : W64) : Res :=
  let e := fld a 8 8
  let n := fld a 0 N
  let j : Int := if 2 ^ (N - 1) ≤ n then (n : Int) - 2 ^ N else n
  if e = 0xFF then fmtF32.nanRes 0
  else Res.plain (fmtF32.res .rn false (decide (j < 0)) j.natAbs ((e : Int) - 127 - (N - 1)) 0).val

/-- BFD (R203). -/
def execBfd (x : AluArgs) (s : State) : Host.Outcome State Fault Refusal :=
  runInstr s (.bfd x) x.g fun h act srcs =>
    .ok (finish h (.bfd x) srcs x.d false x.nwb act fun l => blockElem (Ty.mant x.ty) (h.src srcs 0 false l))

/-! ### Scales (R112, R204) -/

/-- `escl.get` (R204). -/
def esclGet (z : Bool) (a : W64) : Res :=
  match fmtF32.input z a with
  | .nan s => { val := 0xFF, flags := flagIf s fNv }
  | .inf _ => { val := 0xFE, flags := fOf }
  | .num _ m e =>
    if m = 0 then Res.plain 0
    else
      let k := e + (Nat.log2 m : Int) + 127
      Res.plain (BitVec.ofNat 64 (if k < 0 then 0 else if 254 < k then 254 else k.toNat))
/-- `escl.apply` (R204). DESIGN CHOICE (log 83): a scale 0xFF gives the NaN with no flag even where a is a signalling NaN. -/
def esclApply (r : Rnd) (z : Bool) (a b : W64) : Res :=
  if fld b 0 8 = 0xFF then fmtF32.nanRes 0
  else match fmtF32.input z a with
  | .nan s => fmtF32.nanRes (flagIf s fNv)
  | .inf n => fmtF32.infRes n 0
  | .num n m e => fmtF32.res r z n m (e + (fld b 0 8 : Nat) - 127) 0
/-- `escl.mul` (R204). -/
def esclMul (a b : W64) : Res :=
  let x := fld a 0 8
  let y := fld b 0 8
  if x = 0xFF ∨ y = 0xFF then Res.plain 0xFF
  else if x + y < 127 then { val := 0, flags := fSat }
  else if 254 < x + y - 127 then { val := 254, flags := fSat }
  else Res.plain (BitVec.ofNat 64 (x + y - 127))

/-- ESCL (R204). -/
def execEscl (x : EsclArgs) (s : State) : Host.Outcome State Fault Refusal :=
  runInstr s (.escl x) x.g fun h act srcs =>
    .ok (finish h (.escl x) srcs x.d false x.nwb act fun l =>
      let a := h.src srcs 0 false l
      let b := h.src srcs 1 false l
      match x.op with
      | .get => esclGet x.ftz a
      | .apply => esclApply x.rnd x.ftz a b
      | .mul => esclMul a b)

end Sys2Proof.Machine
end

