-- ==== Sys2Proof/Machine/Predicate.lean ====
section
/-! DEFINITION. Group 3: compares, selects and predicate moves (R177 to R184). -/
namespace Sys2Proof.Machine

/-- Writes a predicate in the active lanes where a condition holds or not (R177, R184). -/
def Here.setPred (h : Here) (k : Nat) (act : W64) (p : Nat → Bool) : Here :=
  { h with warp := h.warp.setPred k act (maskOf ((lanesOf act).filter p)) }

/-- ICMP (R178). -/
def execIcmp (x : CmpArgs) (s : State) : Host.Outcome State Fault Refusal :=
  runInstr s (.icmp x) x.g fun h act srcs =>
    let t := x.ty.resolve h.u.slice .int
    let p := fun l => icmpOp t x.cc (h.src srcs 0 (Ty.signed t) l) (h.src srcs 1 (Ty.signed t) l)
    .ok (((h.popAll srcs).setPred x.kd.toNat act p).advance 8)

/-- FCMP (R179). -/
def execFcmp (x : CmpArgs) (s : State) : Host.Outcome State Fault Refusal :=
  runInstr s (.fcmp x) x.g fun h act srcs =>
    let f := (Fmt.ofTy (x.ty.resolve h.u.slice .f32)).getD fmtF32
    let r := fun l => fcmpOp f x.ftz x.cc (h.src srcs 0 false l) (h.src srcs 1 false l)
    .ok ((((h.popAll srcs).setPred x.kd.toNat act fun l => (r l).1).flags act fun l => (r l).2).advance 8)

/-- FCLASS (R180). -/
def execFclass (x : AluArgs) (s : State) : Host.Outcome State Fault Refusal :=
  laneOp (.fclass x) x .f32 (fun _ => false) (fun t a _ _ => Res.plain (fclassOp ((Fmt.ofTy t).getD fmtF32) a)) s

/-- SEL (R181). -/
def execSel (x : SelArgs) (s : State) : Host.Outcome State Fault Refusal :=
  runInstr s (.sel x) x.g fun h act srcs =>
    let t := x.ty.resolve h.u.slice .bits
    let k := h.warp.pred x.kn.toNat
    .ok (finish h (.sel x) srcs x.d t.wide x.nwb act fun l =>
      movOp t false (h.src srcs (if bitAt k l then 0 else 1) (Ty.signed t) l) 0 0)

/-- KOP (R182). -/
def execKop (x : KopArgs) (s : State) : Host.Outcome State Fault Refusal :=
  runInstr s (.kop x) x.g fun h act _ =>
    let a := h.warp.pred x.ka.toNat
    let a := if x.neg then ~~~a else a
    let d := h.warp.pred x.kd.toNat
    let r := match x.op with
      | .and => d &&& a
      | .or => d ||| a
      | .xor => d ^^^ a
      | .andn => d &&& ~~~a
    .ok ({ h with warp := h.warp.setPred x.kd.toNat act r }.advance 8)

/-- KMOV (R183, Table 6.8). -/
def execKmov (x : KmovArgs) (s : State) : Host.Outcome State Fault Refusal :=
  match x.form with
  | .toReg nwb d kn =>
    runInstr s (.kmov x) x.g fun h act srcs =>
      let t := x.ty.resolve h.u.slice .bits
      let k := h.warp.pred kn.toNat
      .ok (finish h (.kmov x) srcs d t.wide nwb act fun l => Res.plain (if bitAt k l then 1 else 0))
  | .ofReg _ kn =>
    runInstr s (.kmov x) x.g fun h act srcs =>
      let t := x.ty.resolve h.u.slice .bits
      .ok (((h.popAll srcs).setPred kn.toNat act fun l => decide (lowBits (Ty.width t) (h.src srcs 0 false l) ≠ 0)).advance 8)
  | .copy kd kn neg =>
    runInstr s (.kmov x) x.g fun h act _ =>
      let k := h.warp.pred kn.toNat
      .ok ({ h with warp := h.warp.setPred kd.toNat act (if neg then ~~~k else k) }.advance 8)

end Sys2Proof.Machine
end

