-- ==== Sys2Proof/Machine/Lanes.lean ====
section
/-! DEFINITION. Group 7 but for `regroup`: instructions that move values between the lanes of a warp (R187, R205 to R211). -/
namespace Sys2Proof.Machine

/-- The source lane of a shuffle (R206). -/
def shflLane (m : ShflMode) (g l n : Nat) : Option Nat :=
  match m with
  | .idx => some (n % g)
  | .up => if n ≤ l then some (l - n) else none
  | .down => if l + n < g then some (l + n) else none
  | .xor => some (Nat.xor l (n % g))

/-- SHFL (R206): all reads happen before any write. -/
def execShfl (x : ShflArgs) (s : State) : Host.Outcome State Fault Refusal :=
  runInstr s (.shfl x) x.g fun h act srcs =>
    let t := x.ty.resolve h.u.slice .bits
    .ok (finish h (.shfl x) srcs x.d t.wide x.nwb act fun l =>
      let own := movOp t false (h.src srcs 0 false l) 0 0
      match shflLane x.mode h.crew.grant l (lowBits 32 (h.src srcs 1 false l)) with
      | none => own
      | some j => if bitAt act j then movOp t false (h.src srcs 0 false j) 0 0 else own)

/-- BCAST (R207): `flag` is .first. -/
def execBcast (x : AluArgs) (s : State) : Host.Outcome State Fault Refusal :=
  runInstr s (.bcast x) x.g fun h act srcs =>
    let t := x.ty.resolve h.u.slice .bits
    .ok (finish h (.bcast x) srcs x.d t.wide x.nwb act fun l =>
      let j := if x.flag then (lowest act).getD l else lowBits 32 (h.src srcs 1 false l) % h.crew.grant
      movOp t false (h.src srcs 0 false (if bitAt act j then j else l)) 0 0)

/-- VOTE (R208). -/
def execVote (x : VoteArgs) (s : State) : Host.Outcome State Fault Refusal :=
  runInstr s (.vote x) x.g fun h act _ =>
    let k := h.warp.pred x.ka.toNat
    let p := (if x.neg then ~~~k else k) &&& act
    let r := match x.mode with
      | .all => decide (p = act)
      | .any => decide (p ≠ 0)
      | .uni => decide (p = act) || decide (p = 0)
    .ok ((h.setPred x.kd.toNat act fun _ => r).advance 8)

/-- BALLOT (R209). -/
def execBallot (x : BallotArgs) (s : State) : Host.Outcome State Fault Refusal :=
  runInstr s (.ballot x) x.g fun h act srcs =>
    let k := h.warp.pred x.ka.toNat
    .ok (finish h (.ballot x) srcs x.d true x.nwb act fun _ => Res.plain ((if x.neg then ~~~k else k) &&& act))

/-- MATCH (R210). -/
def execMatchL (x : AluArgs) (s : State) : Host.Outcome State Fault Refusal :=
  runInstr s (.matchL x) x.g fun h act srcs =>
    let w := Ty.width (x.ty.resolve h.u.slice .bits)
    let v := fun l => lowBits w (h.src srcs 0 false l)
    .ok (finish h (.matchL x) srcs x.d true x.nwb act fun l =>
      Res.plain (maskOf ((lanesOf act).filter fun j => v j == v l)))

/-! ### Reductions and scans (R211) -/

/-- One combination of a reduction (Table 7.8). -/
def redStep (op : RedOp) (t : Ty) (z : Bool) (a b : W64) : Res :=
  match Fmt.ofTy t with
  | some f =>
    match op with
    | .add => f.add .rn z (f.value (a.toNat % 2 ^ f.bits)) (f.value (b.toNat % 2 ^ f.bits))
    | .min => f.min (f.value (a.toNat % 2 ^ f.bits)) (f.value (b.toNat % 2 ^ f.bits))
    | _ => f.max (f.value (a.toNat % 2 ^ f.bits)) (f.value (b.toNat % 2 ^ f.bits))
  | none =>
    match op with
    | .add => iaddOp t false a b 0
    | .min => iminOp t false a b 0
    | .max => imaxOp t false a b 0
    | .and => andOp t false a b 0
    | .or => orOp t false a b 0
    | .xor => xorOp t false a b 0

/-- A lane's input: flushed under .ftz, with nv for a signalling NaN (R211). -/
def redInput (t : Ty) (z : Bool) (x : W64) : Res :=
  match Fmt.ofTy t with
  | some f =>
    match f.input z x with
    | .nan s => { val := BitVec.ofNat 64 (x.toNat % 2 ^ f.bits), flags := flagIf s fNv }
    | v => f.ofVal v 0
  | none => Res.plain (ofInt t (intOf t x))

/-- Every NaN written is canonical (R211). -/
def redOut (t : Ty) (x : W64) : W64 :=
  match Fmt.ofTy t with
  | some f => if (f.value (x.toNat % 2 ^ f.bits)).isNan then BitVec.ofNat 64 f.nan else x
  | none => x

/-- One level of the tree: neighbours combine, a hole passes the other value up (R211). -/
def redLevel (op : RedOp) (t : Ty) (z : Bool) : List (Option W64) → List (Option W64) × W32
  | some a :: some b :: r =>
    let x := redStep op t z a b
    let y := redLevel op t z r
    (some x.val :: y.1, x.flags ||| y.2)
  | some a :: none :: r => let y := redLevel op t z r; (some a :: y.1, y.2)
  | none :: b :: r => let y := redLevel op t z r; (b :: y.1, y.2)
  | [x] => ([x], 0)
  | [] => ([], 0)

/-- The whole tree, at most six levels. -/
def redTree (op : RedOp) (t : Ty) (z : Bool) : Nat → List (Option W64) → W32 → Option W64 × W32
  | 0, l, f => (l.head?.getD none, f)
  | n + 1, l, f =>
    if l.length ≤ 1 then (l.head?.getD none, f)
    else let y := redLevel op t z l; redTree op t z n y.1 (f ||| y.2)

/-- REDX (R211). -/
def execRedx (x : RedArgs) (s : State) : Host.Outcome State Fault Refusal :=
  runInstr s (.redx x) x.g fun h act srcs =>
    let t := redTy x.op x.ty
    let ins := h.lanes.map fun l => if bitAt act l then some (redInput t x.ftz (h.src srcs 0 (Ty.signed t) l)) else none
    let f0 := ins.foldl (fun f v => match v with | some r => f ||| r.flags | none => f) 0
    let r := redTree x.op t x.ftz 6 (ins.map fun v => v.map (·.val)) f0
    .ok (finish h (.redx x) srcs x.d t.wide x.nwb act fun _ => { val := redOut t (r.1.getD 0), flags := r.2 })

/-- The identity of an exclusive scan (Table 7.8). -/
def redIdentity (op : RedOp) (t : Ty) : W64 :=
  match Fmt.ofTy t with
  | some f =>
    match op with
    | .add => BitVec.ofNat 64 (f.sgn true 0)
    | .min => BitVec.ofNat 64 (f.inf false)
    | _ => BitVec.ofNat 64 (f.inf true)
  | none =>
    match op with
    | .add | .or | .xor => 0
    | .min => ofInt t (tyMax t)
    | .max => ofInt t (tyMin t)
    | .and => ofInt t (tyMax t)

/-- The fold of a scan over the active lanes in order: per lane its value and its flags so far. -/
def scanFold (op : RedOp) (t : Ty) (z excl : Bool) (val : Nat → W64) : List Nat → Option W64 → W32 → List (Nat × Res)
  | [], _, _ => []
  | l :: ls, acc, f =>
    let i := redInput t z (val l)
    match acc with
    | none => (l, { val := redOut t (if excl then redIdentity op t else i.val), flags := f ||| i.flags }) ::
        scanFold op t z excl val ls (some i.val) (f ||| i.flags)
    | some a =>
      let r := redStep op t z a i.val
      let f := f ||| i.flags ||| r.flags
      (l, { val := redOut t (if excl then a else r.val), flags := f }) :: scanFold op t z excl val ls (some r.val) f

/-- SCAN (R211). -/
def execScan (x : RedArgs) (s : State) : Host.Outcome State Fault Refusal :=
  runInstr s (.scan x) x.g fun h act srcs =>
    let t := redTy x.op x.ty
    let rs := scanFold x.op t x.ftz x.excl (fun l => h.src srcs 0 (Ty.signed t) l) (lanesOf act) none 0
    .ok (finish h (.scan x) srcs x.d t.wide x.nwb act fun l =>
      match rs.find? fun p => p.1 == l with
      | some p => p.2
      | none => Res.plain 0)

/-- REGROUP (R212, R213): the split parks at the collective. -/
def execRegroup (x : RegroupArgs) (s : State) : Host.Outcome State Fault Refusal :=
  runOn s fun h => do
    h.pending [(x.d, false), (x.live, false)]
    pause (.collective (.regroup x))

end Sys2Proof.Machine
end

