-- ==== Sys2Proof/Machine/Matrix.lean ====
section
/-! DEFINITION. Group 11: stamp slots, products, scale and accumulate, accumulator read-out (R49 to R51, R116 to R124, R250 to R271, R495). -/
namespace Sys2Proof.Machine

/-! ### Formats and images (R116, R118, R252) -/

/-- The float format of a matrix element format, if it is one. -/
def mFmt : MFmt → Option Fmt
  | .e4m3 => some fmtE4m3
  | .e5m2 => some fmtE5m2
  | .e3m2 => some fmtE3m2
  | .e2m3 => some fmtE2m3
  | .e2m1 => some fmtE2m1
  | _ => none

/-- N of a block floating point format. -/
def mBits : MFmt → Nat
  | .m2 => 2
  | .m3 => 3
  | .m4 => 4
  | .m5 => 5
  | .m6 => 6
  | .m7 => 7
  | _ => 8

/-- The shift q of Table 4.6. -/
def mShift : MFmt → Int
  | .e4m3 => 9
  | .e5m2 => 16
  | .e3m2 => 4
  | .e2m3 => 3
  | .e2m1 => 1
  | f => mBits f - 1

/-- The image of an element's bits as an exact value: an integer, or a special (R116, R262). -/
def image (f : MFmt) (z : Bool) (x : Nat) : FVal :=
  match mFmt f with
  | none =>
    let n := x % 2 ^ mBits f
    if 2 ^ (mBits f - 1) ≤ n then .num true (2 ^ mBits f - n) 0 else .num false n 0
  | some g =>
    match g.input z (BitVec.ofNat 64 (x % 2 ^ g.bits)) with
    | .num n m e => .num n (m * 2 ^ (e + mShift f).toNat) 0
    | v => v

/-- The integer of an image. -/
def imageInt : FVal → Int
  | .num n m _ => if n then -(m : Int) else m
  | _ => 0

/-- One signed product of a sum: `neg` subtracts it. -/
structure Term where
  neg : Bool
  a : FVal
  b : FVal
  deriving DecidableEq, Repr

/-- A product is a NaN: a NaN factor, or infinity times zero (R118). -/
def Term.isNan (t : Term) : Bool := t.a.isNan || t.b.isNan || (t.a.isInf && t.b.isZero) || (t.a.isZero && t.b.isInf)
/-- A product is an infinity of sign `n`. -/
def Term.isInf (t : Term) (n : Bool) : Bool :=
  !t.isNan && (t.a.isInf || t.b.isInf) && ((xor (xor t.a.neg t.b.neg) t.neg) == n)

/-- The cell of a sum of products (R118, Table 4.7). -/
def cellOf (ts : List Term) : W64 :=
  let pos := ts.any (·.isInf false)
  let neg := ts.any (·.isInf true)
  if ts.any (·.isNan) || (pos && neg) then 0x8000000000000000
  else if pos then 0x7FFFFFFFFFFFFFFF
  else if neg then 0x8000000000000001
  else BitVec.ofInt 64 (ts.foldl (fun s t => let p := imageInt t.a * imageInt t.b; if t.neg then s - p else s + p) 0)

/-! ### Tiles and octets (R50, R250) -/

/-- The number of a cell of an octet's tiles. -/
def cellNo (octet t row col : Nat) : Nat := ((octet * 4 + t) * 8 + row) * 64 + col

/-- The crew octet of a lane (R18). -/
def Here.octet (h : Here) (lane : Nat) : Nat := (h.u.pair * h.crew.grant + lane) / 8

/-- The crew octets with an active lane (R250). -/
def Here.octets (h : Here) (act : W64) : List Nat := dedup ((lanesOf act).map h.octet)

/-- Every acting octet owns tiles (R50). -/
def Here.tilesOk (h : Here) (act : W64) : Part Unit :=
  guardPart ((h.octets act).all fun o => decide (o < h.crew.kern.ta)) { cause := cause0 15 h.u.slice }

/-- Sets bits of an octet's $acst (R46). -/
def Here.orAcst (h : Here) (o : Nat) (f : W32) : Here :=
  { h with crew := { h.crew with acst := Cells.set h.crew.acst o (Cells.get h.crew.acst o ||| f) } }

def stOf : W32 := 1
def stNv : W32 := 2
def stSat : W32 := 4
def stNans : W32 := 8

/-- Writes m cells. -/
def Here.setM (h : Here) (l : List (Nat × W32)) : Here :=
  { h with crew := { h.crew with mt := l.foldl (fun m c => Cells.set m c.1 c.2) h.crew.mt } }
/-- Writes p cells. -/
def Here.setP (h : Here) (l : List (Nat × W64)) : Here :=
  { h with crew := { h.crew with pt := l.foldl (fun m c => Cells.set m c.1 c.2) h.crew.pt } }

/-- The cells of active rows: lane, octet, row and column. -/
def rowCells (h : Here) (act : W64) (cols : List Nat) : List (Nat × Nat × Nat) :=
  (lanesOf act).flatMap fun l => cols.map fun c => (l, h.octet l, c)

/-! ### Stamp slots (R255 to R258) -/

/-- A slot number below the crew's allocation (R49). -/
def Here.slotOk (h : Here) (j : Nat) : Part Unit := guardPart (decide (j < h.crew.kern.ns)) { cause := cause0 13 h.u.slice }

/-- The bytes of an image (Table 5.14). -/
def imageBytes (sparse : Bool) : Nat := if sparse then 2688 else 2112

/-- The metadata nibble of a group and a column (Table 5.14). -/
def nibble (img : Cells 8) (g n : Nat) : Nat :=
  let i := 64 * g + n
  fld (Cells.get img (2048 + i / 2)) (4 * (i % 2)) 4

/-- What a stamp load sees: the stores of its crew and of the paired access warp (R257, R327). -/
def stampViewer (h : Here) : Viewer := { agent := .warp h.u.crew h.u.pair .access, core := h.crew.core, crew := h.u.crew }

/-- The bytes a stamp load reads: those of the crew, with the paired access warp's own stores, and those still in its store queue that happen before (R257, R327). -/
def stampBytes (s : State) (h : Here) (off n : Nat) : List Byte :=
  let a := h.crew.scratch + off
  let base := scratchGiven s h.crew.core a (s.viewBytes (stampViewer h) (.scratch h.crew.core) a n)
  (h.pair.acc.stores.filter fun e => decide (e.seq < h.warp.seen) && (e.kind == .sdsp || e.kind == .ssa)).foldl (fun l e =>
    e.lanes.foldl (fun l x => if x.off then l else
      (List.range e.size).foldl (fun l i =>
        if a ≤ x.pa + i ∧ x.pa + i < a + n then l.set (x.pa + i - a) (x.val.extractLsb' (8 * i) 8) else l) l) l) base

/-- An earlier store of the paired access warp to the image still waits for its data. -/
def stampWaits (h : Here) (off n : Nat) : Bool :=
  h.pair.acc.stores.any fun e => !e.paired && decide (e.seq < h.warp.seen) &&
    e.hits h.crew.core (.scratch h.crew.core) (h.crew.scratch + off) n

/-- Every metadata nibble has i0 < i1 (R148). -/
def metadataOk (img : Cells 8) : Bool :=
  (List.range 512).all fun b => let x := Cells.get img (2048 + b); decide (fld x 0 2 < fld x 2 2) && decide (fld x 4 2 < fld x 6 2)

/-- A stamp write meets an armed injection of the core's stamp array (R369): the words of the slot that stand with an error, which a read corrects or not. Slot j holds words 512 j to 512 j + 511 of the array. -/
def stampInjected (s : State) (core j n : Nat) : State × List Nat × List Nat :=
  let e := s.err core
  let idx := fld e.inj 16 48
  let w := if idx = 2 ^ 48 - 1 then 0 else idx % 512
  if bitAt e.inj 8 && decide (fld e.inj 0 8 = 9) && (decide (idx = 2 ^ 48 - 1) || (decide (idx / 512 = j) && decide (w < n / 8))) then
    let s := s.setErr core { e with inj := setFld e.inj 8 1 0 }
    if bitAt e.inj 9 then (s, [w], []) else (s, [], [w])
  else (s, [], [])

/-- The words that hold elements, metadata and scales of a slot (Table 5.14). -/
def Stamp.isElement (_ : Stamp) (w : Nat) : Bool := decide (w < 256)
def Stamp.isMeta (st : Stamp) (w : Nat) : Bool := st.sparse && decide (256 ≤ w) && decide (w < 320)
def Stamp.isScale (st : Stamp) (w : Nat) : Bool := decide ((if st.sparse then 320 else 256) ≤ w)

/-- STLD and STSP (R255): one image into a slot. -/
def stampLoad (sparse : Bool) (x : StampArgs) (s : State) : Host.Outcome State Fault Refusal :=
  runOn s fun h =>
    match lowest (h.active x.g) with
    | none => .ok (s.put (h.advance 8))
    | some lane => do
      let j := x.j.toNat
      let off := fld (h.read x.off false 0 false 0) 0 32
      let n := imageBytes sparse
      h.slotOk j
      guardPart (decide (off % 64 = 0) && decide (off + n ≤ h.crew.kern.scratch)) { cause := cause0 16 h.u.slice }
      if stampWaits h off n then pause (.storeDrain [])
      lineFree s (.scratch h.crew.core) (h.crew.scratch + off) n
      let s := Here.met s h h.crew.core (h.crew.scratch + off) n
      let img : Cells 8 := Cells.setList [] 0 (stampBytes s h off n)
      let s := hear s h.viewer (releasesRead s (stampViewer h) (.scratch h.crew.core) (h.crew.scratch + off) n)
      if sparse && !metadataOk img then meeting (.scratch h.crew.core) (h.crew.scratch + off) n (raise { cause := cause0 17 h.u.slice })
      watch s h 3 n [(lane, BitVec.ofNat 64 (h.crew.scratch + off))]
      let r := stampInjected s h.crew.core j n
      let st : Stamp := { sparse := sparse, src := off, img := img, lost := r.2.1, soft := r.2.2 }
      pure (r.1.put ({ h with crew := { h.crew with stamps := Tbl.set h.crew.stamps j st } }.advance 8))
/-- STLD (R255). -/
def execStld (x : StampArgs) (s : State) : Host.Outcome State Fault Refusal := stampLoad false x s
/-- STSP (R255). -/
def execStsp (x : StampArgs) (s : State) : Host.Outcome State Fault Refusal := stampLoad true x s

/-- STINV (R256). -/
def execStinv (x : StampArgs) (s : State) : Host.Outcome State Fault Refusal :=
  runOn s fun h =>
    if h.active x.g = 0 then .ok (s.put (h.advance 8))
    else do
      h.slotOk x.j.toNat
      pure (s.put ({ h with crew := { h.crew with stamps := Tbl.erase h.crew.stamps x.j.toNat } }.advance 8))

/-- The stamp a product or `msca` names (R49, R256). -/
def Here.stamp (h : Here) (j : Nat) : Part Stamp := do
  h.slotOk j
  match Tbl.get? h.crew.stamps j with
  | none => raise { cause := cause0 14 h.u.slice }
  | some st => pure st

/-- The trap of an uncorrectable error in a slot (Table 14.4). -/
def stampTrap (j : Nat) (scales : Bool) : Trap := { cause := 0x128 + 2 * (j % 2) + (if scales then 1 else 0) }

/-- Words of slot `j` are read (R258, R367): errors are logged, those that can be are corrected, and the first other one is the trap. -/
def stampRead (s : State) (h : Here) (j : Nat) (st : Stamp) (reads : Nat → Bool) : State × Here × Option Trap :=
  let log := fun (unc : Bool) (s : State) (w : Nat) => logError s h.crew.core 9 unc h.crew.ctx (512 * j + w)
  let s := (st.lost.filter reads).foldl (log true) ((st.soft.filter reads).foldl (log false) s)
  let h := { h with crew := { h.crew with stamps := Tbl.set h.crew.stamps j { st with soft := st.soft.filter fun w => !reads w } } }
  (s, h, ((st.lost.filter reads).head?).map fun w => stampTrap j (!st.isElement w))

/-! ### Products (R259 to R263, R495) -/

/-- Registers or entries of an A row (Table 9.3). -/
def rowRegs (fa : MFmt) (sparse : Bool) : Nat := (if fa = .e2m1 then 4 else 8) * (if sparse then 2 else 1)

/-- Element k of an A row, from the row's register values (R259). -/
def rowElem (fa : MFmt) (reg : Nat → W64) (k : Nat) : Nat :=
  if fa = .e2m1 then fld (reg (k / 8)) (4 * (k % 8)) 4 else fld (reg (k / 4)) (8 * (k % 4)) 8

/-- The cells of one row of `mma` on a dense slot (R262). -/
def denseCell (x : MmaArgs) (img : Cells 8) (row : Nat → Nat) (k n : Nat) : W64 :=
  cellOf ((List.range k).map fun i =>
    { neg := false, a := image x.fa x.ftz (row i), b := image x.fb x.ftz (Cells.get img (64 * i + n)).toNat })

/-- Block b of one column of `mma` on a sparse slot (R148, R262). -/
def sparseCell (x : MmaArgs) (img : Cells 8) (row : Nat → Nat) (k b n : Nat) : W64 :=
  cellOf ((List.range 16).filterMap fun i =>
    let r := 16 * b + i
    let g := r / 2
    let p := 4 * g + fld (BitVec.ofNat 4 (nibble img g n)) (2 * (r % 2)) 2
    if p < k then some { neg := false, a := image x.fa x.ftz (row p), b := image x.fb x.ftz (Cells.get img (64 * r + n)).toNat } else none)

/-- The real or imaginary sum of one column of `mmac` (R121, R263). -/
def complexCell (x : MmaArgs) (img : Cells 8) (row : Nat → Nat) (k n : Nat) (im : Bool) : W64 :=
  cellOf ((List.range (k / 2)).flatMap fun i =>
    let ar := image x.fa x.ftz (row (2 * i))
    let ai := image x.fa x.ftz (row (2 * i + 1))
    let br := image x.fb x.ftz (Cells.get img (64 * (2 * i) + n)).toNat
    let bi := image x.fb x.ftz (Cells.get img (64 * (2 * i + 1) + n)).toNat
    if im then [{ neg := false, a := ar, b := bi }, { neg := false, a := ai, b := br }]
    else [{ neg := false, a := ar, b := br }, { neg := true, a := ai, b := bi }])

/-- The K-length operand (R260): a value in range, and the same in every active lane of an octet. -/
def Here.kLength (h : Here) (x : MmaArgs) (act : W64) (lo hi : Nat) (even : Bool) : Part (Nat → Nat) :=
  let v := fun l => (h.read x.klen false 0 false l).toNat
  let ok := fun l => decide (lo ≤ v l) && decide (v l ≤ hi) && (!even || decide (v l % 2 = 0))
  let bad : Trap := { cause := cause0 18 h.u.slice }
  if x.klen.isUniform then (if ok 0 then .ok v else raise bad)
  else if (lanesOf act).all fun l => ok l && (lanesOf act).all fun m => decide (h.octet m ≠ h.octet l) || decide (v m = v l) then .ok v
  else raise bad

/-- MMA and MMAC in the check order of R495; `cplx` tells `mmac`. -/
def product (i : Instr) (cplx : Bool) (op : BitVec 10) (x : MmaArgs) (s : State) : Host.Outcome State Fault Refusal :=
  runOn s fun h => do
    let act := h.active x.g
    let j := x.j.toNat
    let st ← h.stamp j
    guardPart (!((x.fa = .e5m2 ∧ x.fb = .e5m2) ∨ (cplx ∧ st.sparse) ∨ ((cplx ∨ st.sparse) ∧ x.t.toNat % 2 = 1)))
      { cause := cause0 19 h.u.slice }
    let nA := rowRegs x.fa st.sparse
    let base := match x.a with
      | .v n => n.toNat
      | _ => 0
    guardPart (decide (¬ x.a.isPer) || decide (base + nA ≤ h.crew.kern.nv)) { cause := cause0 9 h.u.slice }
    h.tilesOk act
    let regs : List Use := if x.a.isPer then (List.range nA).map fun k => (.v (BitVec.ofNat 8 (base + k)), false) else List.replicate nA (x.a, false)
    let r ← fillRegs s h (dedup (spilledRegs ((x.klen, false) :: regs)))
    let s := r.1
    let h := r.2
    h.serve [] regs
    let kl ← h.kLength x act (if cplx then 2 else 1) (if st.sparse then 64 else 32) cplx
    let m := stampRead s h j st fun w => st.isElement w || st.isMeta w
    if m.2.2.isSome then pure (takeTrap m.1 h.u (m.2.2.getD (stampTrap j false))) else do
    let s := m.1
    let h := m.2.1
    h.markers regs act
    let row := fun l => rowElem x.fa fun k => h.src regs k false l
    let t := x.t.toNat
    let cells := (rowCells h act (List.range 64)).flatMap fun c =>
      let l := c.1
      let at_ := fun tile => cellNo c.2.1 tile (l % 8) c.2.2
      if cplx then
        [(at_ t, complexCell x st.img (row l) (kl l) c.2.2 false), (at_ (t + 1), complexCell x st.img (row l) (kl l) c.2.2 true)]
      else if st.sparse then
        (at_ t, sparseCell x st.img (row l) (kl l) 0 c.2.2) ::
          (if 32 < kl l then [(at_ (t + 1), sparseCell x st.img (row l) (kl l) 1 c.2.2)] else [])
      else [(at_ t, denseCell x st.img (row l) (kl l) c.2.2)]
    let k := s.core h.crew.core
    let ops := (h.octets act).map fun _ => { crew := h.u.crew, slot := j, opcode := op, fa := x.fa, fb := x.fb, ftz := x.ftz : BankOp }
    let s := s.setCore h.crew.core { k with banks := k.banks.modify (j % 2) fun b => b ++ ops }
    pure (s.put (((h.popAll regs).setP cells).advance i.length))

/-- MMA (R262). -/
def execMma (x : MmaArgs) (s : State) : Host.Outcome State Fault Refusal := product (.mma x) false 0x2C3 x s
/-- MMAC (R263). -/
def execMmac (x : MmaArgs) (s : State) : Host.Outcome State Fault Refusal := product (.mmac x) true 0x2C4 x s

/-! ### Scale and accumulate (R122, R265) -/

/-- ScaleAccumulate (R122): the new element and its $acst flags. -/
def scaleAccumulate (acc : W32) (p : W64) (ea eb shift : Nat) (z : Bool) : W32 × W32 :=
  let nan : W32 := 0x7FC00000
  let a := fmtF32.value acc.toNat
  let x : Option FVal :=
    if p = 0x7FFFFFFFFFFFFFFF then some (.inf false)
    else if p = 0x8000000000000001 then some (.inf true)
    else
      let n := p.toInt
      if n < 2 ^ 62 ∧ -(2 ^ 62 : Int) < n then some (.num (decide (n < 0)) n.natAbs ((ea : Int) + eb - 254 - shift)) else none
  if ea = 0xFF ∨ eb = 0xFF then (nan, stNans)
  else match x with
  | none => (nan, stNv)
  | some x =>
    if a.isNan then (nan, 0)
    else
      let r := fmtF32.add .rn false (fmtF32.flush z a) x
      let v := r.val.setWidth 32
      let fl := flagIf (r.flags &&& fNv ≠ 0) stNv ||| flagIf (r.flags &&& fOf ≠ 0) stOf
      (if z && fmtF32.subnormal (fmtF32.value v.toNat) then v &&& 0x80000000 else v, fl)

/-- The scale of a column (R265). -/
def columnScale (st : Stamp) (t n : Nat) : Nat :=
  (Cells.get st.img (if st.sparse then 2560 + 64 * (t % 2) + n else 2048 + n)).toNat

/-- MSCA (R265, R495). -/
def execMsca (x : MscaArgs) (s : State) : Host.Outcome State Fault Refusal :=
  runOn s fun h => do
    let act := h.active x.g
    let st ← h.stamp x.j.toNat
    h.tilesOk act
    let srcs : List Use := [(x.e, false)]
    let r ← prepare s h [] srcs act
    let s := r.1
    let h := r.2
    let m := stampRead s h x.j.toNat st st.isScale
    if m.2.2.isSome then pure (takeTrap m.1 h.u (m.2.2.getD (stampTrap x.j.toNat true))) else do
    let s := m.1
    let h := m.2.1
    let t := x.t.toNat
    let res := (rowCells h act (List.range 64)).map fun c =>
      let k := cellNo c.2.1 x.u.toNat (c.1 % 8) c.2.2
      let v := scaleAccumulate (Cells.get h.crew.mt k) (Cells.get h.crew.pt (cellNo c.2.1 t (c.1 % 8) c.2.2))
        (fld (h.src srcs 0 false c.1) 0 8) (columnScale st t c.2.2) x.shift.toNat x.ftz
      (c.2.1, k, v)
    let h := (h.popAll srcs).setM (res.map fun r => (r.2.1, r.2.2.1))
    let h := res.foldl (fun h r => if r.2.2.2 = 0 then h else h.orAcst r.1 r.2.2.2) h
    pure (s.put (h.advance 8))

/-! ### Clearing and read-out (R266 to R271) -/

/-- MZERO (R266). -/
def execMzero (x : MzeroArgs) (s : State) : Host.Outcome State Fault Refusal :=
  runOn s fun h => do
    let act := h.active x.g
    h.tilesOk act
    let cs := rowCells h act (List.range 64)
    let tiles := fun (m : BitVec 4) => (List.range 4).filter fun i => bitAt m i
    let h := h.setM (cs.flatMap fun c => (tiles x.mm).map fun t => (cellNo c.2.1 t (c.1 % 8) c.2.2, 0))
    let h := h.setP (cs.flatMap fun c => (tiles x.pm).map fun t => (cellNo c.2.1 t (c.1 % 8) c.2.2, 0))
    pure (s.put (h.advance 8))

/-- The cell of an m tile in the row of a lane. -/
def Here.mCell (h : Here) (u lane col : Nat) : W32 := Cells.get h.crew.mt (cellNo (h.octet lane) u (lane % 8) col)

/-- Conversion of one cell at read-out: the pattern and whether it saturated (R267). -/
def readOut (f : Fmt) (x : W32) : Nat × Bool :=
  match fmtF32.value x.toNat with
  | .nan _ => (f.nan, false)
  | .inf n => if f.ieee then (f.inf n, false) else (f.sgn n f.maxPat, true)
  | .num n m e =>
    let r := f.round .rn false n m e
    if r.2 &&& (fOf ||| fSat) ≠ 0 then (f.sgn n f.maxPat, true) else (r.1, false)

/-- Registers `n` on written with per-lane values; the latches take the first (R254). -/
def Here.writeRegs (h : Here) (d : Opnd) (n : Nat) (act : W64) (val : Nat → Nat → W64) : Here :=
  match d with
  | .v b =>
    let h := (List.range n).foldl (fun h i => h.write (.v (b + BitVec.ofNat 8 i)) false false act (val i)) h
    h.latch (cellsOf act fun l => ((val 0 l).setWidth 32).setWidth 64)
  | _ => h

/-- The uses of consecutive destination registers. -/
def destUses (d : Opnd) (n : Nat) : List Use :=
  match d with
  | .v b => (List.range n).map fun i => (.v (b + BitVec.ofNat 8 i), false)
  | _ => []

/-- MRD (R267). -/
def execMrd (x : MrdArgs) (s : State) : Host.Outcome State Fault Refusal :=
  runOn s fun h => do
    let act := h.active x.g
    h.tilesOk act
    let n := Ty.readRegs x.ty
    let us := destUses x.d n
    let r ← fillRegs s h (dedup (spilledRegs us))
    let s := r.1
    let h := r.2
    let u := x.u.toNat
    let g := x.col.toNat
    let per := 8 / n
    let f := if n = 8 then none else Fmt.ofTy x.ty
    let one := fun l c => match f with
      | none => (if (fmtF32.value (h.mCell u l (8 * g + c)).toNat).isNan then fmtF32.nan else (h.mCell u l (8 * g + c)).toNat, false)
      | some f => readOut f (h.mCell u l (8 * g + c))
    let val := fun i l => BitVec.ofNat 64 ((List.range per).foldl (fun w k => w + (one l (i * per + k)).1 * 2 ^ (32 / per * k)) 0)
    let h' := h.writeRegs x.d n act val
    let h' := (lanesOf act).foldl (fun h' l =>
      if (List.range 8).any fun c => (one l c).2 then h'.orAcst (h'.octet l) stSat else h') h'
    let h' := if x.clr then h'.setM ((rowCells h act (List.range 8)).map fun c => (cellNo c.2.1 u (c.1 % 8) (8 * g + c.2.2), 0)) else h'
    let s ← spillRegs s h' (dedup (spilledRegs us))
    pure (s.put (h'.advance 8))

/-- T[i] of R123, times 2^23: the .f32 nearest to 2^(i/64). -/
def expTable : List Nat :=
  [0x800000, 0x8164D2, 0x82CD87, 0x843A29, 0x85AAC3, 0x871F62, 0x88980F, 0x8A14D5, 0x8B95C2, 0x8D1ADF, 0x8EA43A, 0x9031DC, 0x91C3D3,
   0x935A2B, 0x94F4F0, 0x96942D, 0x9837F0, 0x99E046, 0x9B8D3A, 0x9D3EDA, 0x9EF532, 0xA0B051, 0xA27043, 0xA43516, 0xA5FED7, 0xA7CD94,
   0xA9A15B, 0xAB7A3A, 0xAD583F, 0xAF3B79, 0xB123F6, 0xB311C4, 0xB504F3, 0xB6FD92, 0xB8FBAF, 0xBAFF5B, 0xBD08A4, 0xBF179A, 0xC12C4D,
   0xC346CD, 0xC5672A, 0xC78D75, 0xC9B9BE, 0xCBEC15, 0xCE248C, 0xD06334, 0xD2A81E, 0xD4F35B, 0xD744FD, 0xD99D16, 0xDBFBB8, 0xDE60F5,
   0xE0CCDF, 0xE33F89, 0xE5B907, 0xE8396A, 0xEAC0C7, 0xED4F30, 0xEFE4BA, 0xF28177, 0xF5257D, 0xF7D0DF, 0xFA83B3, 0xFD3E0C, 0x1000000]

/-- Exp2Read (R123): the result and the flags of, uf and nv as $fflags bits. -/
def exp2Read (acc c r : FVal) (z : Bool) : Res :=
  let pinf := fun (v : Option FVal) => v == some (.inf false)
  let ninf := fun (v : Option FVal) => v == some (.inf true)
  if acc.isNan || c.isNan || r.isNan then fmtF32.nanRes fNv
  else
    let p := acc.times c
    if ninf p && r == .inf true then Res.plain 0
    else if pinf p && r == .inf false then Res.plain 0x3F800000
    else
      match fmtF32.value (fmtF32.fused .rn false [(acc, c)] r.negate).val.toNat with
      | .nan _ => fmtF32.nanRes fNv
      | .inf true => Res.plain 0
      | .inf false => fmtF32.infRes false fOf
      | .num neg m e =>
        let k := (-e).toNat
        let y : Int := if 0 ≤ e then m * 2 ^ (if 9 < e then 9 else e).toNat else m
        let y := if neg then -y else y
        let n := Int.fdiv y (2 ^ k)
        let f := (y - n * 2 ^ k).toNat
        let i := f * 64 / 2 ^ k
        let t := f * 64 % 2 ^ k
        let lo := expTable[i]?.getD 0
        let hi := expTable[i + 1]?.getD 0
        let sv := fmtF32.value (fmtF32.round .rn false false (lo * 2 ^ k + t * (hi - lo)) (-23 - (k : Int))).1
        let n := if n < -400 then -400 else if 400 < n then 400 else n
        match sv with
        | .num _ sm se =>
          let q := fmtF32.res .rn z false sm (se + n) 0
          { q with flags := q.flags &&& (fOf ||| fUf) }
        | _ => Res.plain 0

/-- MRDX (R268): .ftz flushes the inputs acc, c and r (R108) and makes tiny results +0 (R123). -/
def execMrdx (x : MrdxArgs) (s : State) : Host.Outcome State Fault Refusal :=
  runOn s fun h => do
    let act := h.active x.g
    h.tilesOk act
    let us := destUses x.d 8
    let srcs : List Use := [(x.c, false), (x.r, false)]
    let r ← prepare s h us srcs act
    let s := r.1
    let h := r.2
    let u := x.u.toNat
    let g := x.col.toNat
    let f := fmtF32.input x.ftz
    let one := fun c l => exp2Read (f ((h.mCell u l (8 * g + c)).setWidth 64)) (f (h.src srcs 0 false l)) (f (h.src srcs 1 false l)) x.ftz
    let h' := (h.popAll srcs).writeRegs x.d 8 act fun c l => (one c l).val
    let h' := (lanesOf act).foldl (fun h' l =>
      let fl := (List.range 8).foldl (fun a c => a ||| (one c l).flags) 0
      h'.orAcst (h'.octet l) (flagIf (fl &&& fOf ≠ 0) stOf ||| flagIf (fl &&& fNv ≠ 0) stNv)) h'
    let h' := if x.st then
        h'.setM ((rowCells h act (List.range 8)).map fun c => (cellNo c.2.1 u (c.1 % 8) (8 * g + c.2.2), (one c.2.2 c.1).val.setWidth 32))
      else h'
    let s ← spillRegs s h' (dedup (spilledRegs us))
    pure (s.put (h'.advance 8))

/-- MRMAX and MRSUM (R269): one value of each active row. -/
def rowReduce (i : Instr) (x : MredArgs) (op : List W32 → W64) (s : State) : Host.Outcome State Fault Refusal :=
  runOn s fun h => do
    let act := h.active x.g
    h.tilesOk act
    let us : List Use := [(x.d, false)]
    let r ← prepare s h us [] act
    let s := r.1
    let h := r.2
    let h' := finish h i [] x.d false x.nwb act fun l => Res.plain (op ((List.range 64).map fun c => h.mCell x.u.toNat l c))
    let s ← spillRegs s h' (spilledRegs us)
    pure (s.put h')

/-- The largest cell of a row; a NaN cell gives the canonical NaN. -/
def rowMax (l : List W32) : W64 :=
  let vs := l.map fun c => fmtF32.value c.toNat
  if vs.any (·.isNan) then BitVec.ofNat 64 fmtF32.nan
  else match vs with
    | [] => 0
    | v :: vs => (fmtF32.ofVal (vs.foldl FVal.maxNum v) 0).val

/-- The pairwise tree sum of a row (R211, R269). -/
def rowSum (l : List W32) : W64 :=
  redOut .f32 ((redTree .add .f32 false 6 (l.map fun c => some (c.setWidth 64)) 0).1.getD 0)

/-- MRMAX (R269). -/
def execMrmax (x : MredArgs) (s : State) : Host.Outcome State Fault Refusal := rowReduce (.mrmax x) x rowMax s
/-- MRSUM (R269). -/
def execMrsum (x : MredArgs) (s : State) : Host.Outcome State Fault Refusal := rowReduce (.mrsum x) x rowSum s

/-- MST (R270): eight entries of a store-data queue, pushed together. -/
def execMst (x : MrdArgs) (s : State) : Host.Outcome State Fault Refusal :=
  runOn s fun h =>
    match queueNo x.d with
    | none => .ok (s.put (h.advance 8))
    | some qn => do
      let act := h.active x.g
      h.tilesOk act
      let _ ← h.pushReady qn 8
      let col := fun c => cellsOf act fun l => h.mCell x.u.toNat l (8 * x.col.toNat + c)
      let h := (List.range 8).foldl (fun h c => h.push qn (col c) 0) h
      let h := h.latch (cellsOf act fun l => (h.mCell x.u.toNat l (8 * x.col.toNat)).setWidth 64)
      pure (s.put (h.advance 8))

/-- MFLAG (R271). -/
def execMflag (x : MflagArgs) (s : State) : Host.Outcome State Fault Refusal :=
  runOn s fun h => do
    let act := h.active x.g
    h.tilesOk act
    let us : List Use := [(x.d, false)]
    let r ← prepare s h us [] act
    let s := r.1
    let h := r.2
    let h' := finish h (.mflag x) [] x.d false x.nwb act fun l => Res.plain ((Cells.get h.crew.acst (h.octet l)).setWidth 64)
    let acst := (h.octets act).foldl (fun a o => Cells.set a o (Cells.get a o &&& ~~~(x.mask.setWidth 32))) h'.crew.acst
    let s ← spillRegs s h' (spilledRegs us)
    pure (s.put { h' with crew := { h'.crew with acst := acst } })

end Sys2Proof.Machine
end

