-- ==== Sys2Proof/Machine/Attention.lean ====
section
/-! DEFINITION. Group 12: the softmax step, and key-value blocks: headers, appends, evictions, weights, packing (R141 to R143, R272 to R281). -/
namespace Sys2Proof.Machine

/-! ### The softmax step -/

/-- Smx (R272): the new maximum, alpha and the flags; .ftz flushes the inputs, and t where its rounded value is subnormal. -/
def smxOp (z : Bool) (rold mx c : W64) : W64 × W64 × W32 :=
  let f := fmtF32
  let r := f.input z rold
  let m := f.input z mx
  let k := f.input z c
  let t := f.mul .rn false m k
  let tv := f.input z t.val
  let tf := t.flags ||| flagIf (z && f.subnormal (f.value t.val.toNat)) (fUf ||| fNx)
  if r.isNan || m.isNan || k.isNan || tv.isNan then (BitVec.ofNat 64 f.nan, BitVec.ofNat 64 f.nan, tf ||| fNv)
  else
    let rnew := r.maxNum tv
    let a := exp2Read r (.num false 1 0) rnew z
    ((f.ofVal rnew 0).val, a.val, tf ||| snanFlag [r] ||| (a.flags &&& (fUf ||| fNv)))

/-- SMX (R272). -/
def execSmx (x : SmxArgs) (s : State) : Host.Outcome State Fault Refusal :=
  runInstr s (.smx x) x.g fun h act srcs =>
    let r := fun l => smxOp x.ftz (h.src srcs 0 false l) (h.src srcs 1 false l) (h.src srcs 2 false l)
    let h := (h.popAll srcs).write x.d true x.nwb act fun l => pair64 ((r l).1.setWidth 32) ((r l).2.1.setWidth 32)
    let h := h.latch (cellsOf act fun l => ((r l).1.setWidth 32).setWidth 64)
    .ok ((h.flags act fun l => (r l).2.2).advance 8)

/-! ### Headers (R141 to R143) -/

def kvSurv (b : List Byte) : W64 := BitVec.ofNat 64 (bytesAt b 0 8)
def kvPage (b : List Byte) (p : Nat) : W64 := BitVec.ofNat 64 (bytesAt b (8 + 8 * p) 8)
/-- The E8 scale of page `p`, keys (0) or values (1), channel group `g`. -/
def kvScale (b : List Byte) (p hv g : Nat) : Nat := bytesAt b (40 + 8 * p + 4 * hv + g) 1
def kvBudget (b : List Byte) : Nat := bytesAt b 72 2
def kvFill (b : List Byte) : Nat := bytesAt b 74 1
def kvFlags (b : List Byte) : Nat := bytesAt b 75 1
def kvUnpacked (b : List Byte) : Bool := (kvFlags b).testBit 1
def kvWgt (b : List Byte) : W64 := BitVec.ofNat 64 (bytesAt b 88 8)
def kvBase (b : List Byte) : W64 := BitVec.ofNat 64 (bytesAt b 96 8)

/-- The positions whose tokens' ranks are their slots (R142): the survivors, or while the block is unpacked those that survived when its tokens were last in order; for a block that no eviction step made so, every appended position. -/
def kvPlaced (s : State) (pa : Nat) (b : List Byte) : W64 :=
  if kvUnpacked b then (Tbl.get? s.kvOld pa).getD (maskN (kvFill b)) else kvSurv b

/-- Page `p` holds a token: a survivor's slot lies in it (R142). -/
def kvHolds (placed : W64) (b : List Byte) (p : Nat) : Bool := (lanesOf (kvSurv b)).any fun i => popc placed i / 16 == p

/-- The header breaks R143; `placed` gives its tokens' slots. -/
def kvCorrupt (placed : W64) (b : List Byte) : Bool :=
  decide (bytesAt b 76 4 ≠ 0) || decide (bytesAt b 104 24 ≠ 0) || decide (4 ≤ kvFlags b) || decide (64 < kvFill b) ||
  decide (2 ^ kvFill b ≤ (kvSurv b).toNat) || decide (kvBudget b = 0) || decide (64 < kvBudget b) ||
  ((kvFlags b).testBit 0 != decide (kvFill b = 64)) || decide ((kvBase b).toNat % 64 ≠ 0) ||
  ((List.range 4).any fun p => decide (fld (kvPage b p) 0 12 ≠ 0) ||
    (kvHolds placed b p && (List.range 8).any fun i => bytesAt b (40 + 8 * p + i) 1 == 0xFF))

/-- Causes of class 1 found by a check on a header (R393). -/
def kvTrap (kind : Nat) (l : LaneVa) : Trap := { cause := cause1 kind 2, lane := some l.1, addr := l.2 }

/-- Raises a header's cause for the first lane that has it. -/
def kvFail (kind : Nat) (l : List (LaneVa × List Byte)) (bad : LaneVa → List Byte → Bool) : Part Unit :=
  match l.find? fun x => bad x.1 x.2 with
  | none => .ok ()
  | some x => raise (kvTrap kind x.1)

/-- What a step on objects in memory waits for: the warp's earlier stores have left, its loads and its pair's copies of those bytes have read them, no command owns the lines and nobody waits there before it (R128, R322, R329, R353). -/
def Here.stepReady (s : State) (h : Here) (ps : List (Nat × Nat)) : Part Unit := do
  h.acquired
  h.awaitData h.warp.stores
  if !h.warp.stores.isEmpty then pause .ordering
  if h.warp.loads.any fun l => ps.any fun p => l.hits p.1 p.2 .phys then pause .ordering
  if h.pair.xcps.any fun x => ps.any fun p => x.reads p.1 p.2 then pause .ordering
  match dedup (ps.flatMap fun p => lineWaits s .phys p.1 p.2) with
  | [] => pure ()
  | ls => pause (.line ls)

/-- Places of checked addresses. -/
def placesOf (l : List (LaneVa × TlbEntry)) (n : Nat) : List (Nat × Nat) := l.map fun t => (t.2.phys t.1.2, n)

/-- A step's store to memory by the issuing warp, performed on the whole die: records of a region's line are applied first (R365), a partial write of a unit checks it (R357), and the store carries the releases of the warp's earlier fences (R241, R326). -/
def stepStore (s : State) (h : Here) (t : LaneVa × TlbEntry) (off : Nat) (d : List Byte) : State :=
  let a := t.2.phys t.1.2 + off
  storeAt (partialCheck (applyLines s a d.length) h.crew.ctx a d.length)
    { agent := h.agent, core := h.crew.core, crew := h.u.crew, space := .phys, addr := a, data := d,
      ms := pteBit t.2.pte 5 || regionLine s (a / 128), scope := .die, rel := liveReleases s h.warp.fences }

/-- Bytes are read at one place after another. -/
def readEach (read : State → Nat → State × List Byte) : State → List (Nat × Nat) → State × List (List Byte)
  | s, [] => (s, [])
  | s, p :: ps =>
    let r := read s p.1
    let q := readEach read r.1 ps
    (q.1, r.2 :: q.2)

/-- The headers at checked addresses, each in the state of its single order (R128). -/
def headers (s : State) (h : Here) (l : List (LaneVa × TlbEntry)) : State × List (LaneVa × List Byte) :=
  let r := readEach (fun s a => Here.readStep s h a 128) s (placesOf l 128)
  (r.1, (l.map (·.1)).zip r.2)

/-- A header that was read at one of some places breaks R143. -/
def headerBad (s : State) (ts : List (LaneVa × TlbEntry)) (l : LaneVa) (b : List Byte) : Bool :=
  kvCorrupt (((ts.find? fun t => t.1 == l).map fun t => kvPlaced s (t.2.phys l.2) b).getD (kvSurv b)) b

/-- The logical index of a position in a block, when it is appended there and not evicted (R275, R278). -/
def kvIndex (b : List Byte) (pos : W64) : Option Nat :=
  let i := pos.toInt - (kvBase b).toInt
  if 0 ≤ i ∧ i < 64 ∧ bitAt (kvSurv b) i.toNat = true then some i.toNat else none

/-- KVMAP (R275). -/
def execKvmap (x : KvArgs) (s : State) : Host.Outcome State Fault Refusal :=
  runOn s fun h => do
    h.pending [(x.d, false), (x.h, false), (x.b, false)]
    let act := h.active x.g
    let all := (lanesOf act).map fun l => (l, h.read x.h true 0 false l)
    let ts ← checkGlobal s h 0 128 .r all
    watch s h 0 128 all
    Here.stepReady s h (placesOf ts 128)
    let r := headers s h ts
    let s := r.1
    let hs := r.2
    let row := fun (l : LaneVa) (b : List Byte) =>
      (kvIndex b (h.read x.b true 0 false l.1)).map fun i => popc (kvSurv b) i
    meetingAll (placesOf ts 128) do
      kvFail 11 hs (headerBad s ts)
      kvFail 12 hs fun _ b => kvUnpacked b
      kvFail 14 hs fun l b => match row l b with
        | none => false
        | some n => decide (kvPage b (n / 16) = 0)
    let s := touchAll s h.crew.core false ts
    let val := fun l => match hs.find? fun y => y.1.1 == l with
      | none => 0
      | some y => match row y.1 y.2 with
        | none => 0
        | some n => kvPage y.2 (n / 16) + BitVec.ofNat 64 (128 * (n % 16))
    pure (s.put ((h.write x.d true false act val).bump.advance 8))

/-! ### Appending (R276, R277) -/

/-- RoundRNE(j / 2^n) for a signed mantissa byte. -/
def shiftMant (j : Byte) (n : Nat) : Byte :=
  let v := j.toInt
  let q := (roundShift .rn (decide (v < 0)) v.natAbs n).1
  BitVec.ofInt 8 (if v < 0 then -(q : Int) else q)

/-- A staging record breaks R276. -/
def tokenBad (st : List Byte) : Bool :=
  decide (bytesAt st 264 56 ≠ 0) || (List.range 8).any fun i => bytesAt st (256 + i) 1 == 0xFF

/-- The raised scale of a group at an append (R277): `n` is the slot within the page. -/
def appendScale (b st : List Byte) (p n hv g : Nat) : Nat :=
  let es := bytesAt st (256 + 4 * hv + g) 1
  if n = 0 then es else max (kvScale b p hv g) es

/-- The 32-byte pieces of page `p` that an append writes: byte offset and new bytes (R277). -/
def appendPieces (b st page : List Byte) (p n : Nat) : List (Nat × List Byte) :=
  (List.range 8).flatMap fun k =>
    let hv := k / 4
    let g := k % 4
    let en := appendScale b st p n hv g
    let ep := kvScale b p hv g
    let old := if ep < en then (List.range n).map fun t =>
        let o := 2048 * hv + 128 * t + 32 * g
        (o, ((page.drop o).take 32).map fun j => shiftMant j (en - ep))
      else []
    let new := (2048 * hv + 128 * n + 32 * g,
      ((st.drop (128 * hv + 32 * g)).take 32).map fun j => shiftMant j (en - bytesAt st (256 + 4 * hv + g) 1))
    old ++ [new]

/-- The header after an append (R277). -/
def appendHeader (b st : List Byte) (p n : Nat) : List Byte :=
  let i := kvFill b
  let sc := (List.range 8).map fun k => BitVec.ofNat 8 (appendScale b st p n (k / 4) (k % 4))
  let b := patch b 0 (natToBytes (kvSurv b ||| laneBit i).toNat 8)
  let b := patch b (40 + 8 * p) sc
  let b := patch b 74 [BitVec.ofNat 8 (i + 1)]
  patch b 75 [BitVec.ofNat 8 ((if i + 1 = 64 then 1 else 0) + kvFlags b / 2 % 2 * 2)]

/-- KVAPP (R276, R277). -/
def execKvapp (x : KvArgs) (s : State) : Host.Outcome State Fault Refusal :=
  runOn s fun h =>
    match lowest (h.active x.g) with
    | none => .ok (s.put (h.advance 8))
    | some lane => do
      h.pending [(x.h, false), (x.b, false)]
      let hv := h.uniform x.h
      let sv := h.uniform x.b
      let ht ← checkGlobal s h 2 128 .w [(lane, hv)]
      let units := (List.range 5).map fun i => (lane, sv + BitVec.ofNat 64 (64 * i))
      let st ← checkGlobal s h 0 64 .r units
      Here.stepReady s h (placesOf ht 128 ++ placesOf st 64)
      let r := headers s h ht
      let s := r.1
      let b := (r.2.head?.map (·.2)).getD []
      let n := popc (kvSurv b) 64
      let page := kvPage b (n / 16)
      let wva := kvWgt b + BitVec.ofNat 64 (4 * kvFill b)
      let one := [((lane, hv), b)]
      let open_ := !headerBad s ht (lane, hv) b && decide (kvFill b < 64)
      let pw ← meetingAll (placesOf ht 128) do
        let pt ← if open_ && decide (page ≠ 0) then checkGlobal s h 1 4096 .w [(lane, page)] else pure []
        let wt ← if open_ then checkGlobal s h 1 4 .w [(lane, wva)] else pure []
        watch s h 2 128 [(lane, hv)]
        watch s h 0 320 [(lane, sv)]
        kvFail 11 one (headerBad s ht)
        kvFail 12 one fun _ b => kvUnpacked b
        pure (pt, wt)
      let pt := pw.1
      let wt := pw.2
      let tk := readEach (fun s a => Here.readPlain s h a 64) s (placesOf st 64)
      let s := tk.1
      let tok := tk.2.flatten
      meetingAll (placesOf ht 128 ++ placesOf st 64) do
        kvFail 15 one fun _ _ => tokenBad tok
        kvFail 13 one fun _ b => decide (kvFill b = 64)
        kvFail 14 one fun _ _ => decide (page = 0)
        watch s h 1 32 ((appendPieces b tok [] (n / 16) (n % 16)).map fun q => (lane, page + BitVec.ofNat 64 q.1))
        watch s h 1 4 [(lane, wva)]
      Here.stepReady s h (placesOf pt 4096 ++ placesOf wt 4)
      let s := touchAll (touchAll s h.crew.core true (ht ++ pt ++ wt)) h.crew.core false st
      let pr := readEach (fun s a => Here.readStep s h a 4096) s (placesOf pt 4096)
      let s := pt.foldl (fun s t => (appendPieces b tok pr.2.flatten (n / 16) (n % 16)).foldl (fun s q => stepStore s h t q.1 q.2) s) pr.1
      let s := ht.foldl (fun s t => stepStore s h t 0 (appendHeader b tok (n / 16) (n % 16))) s
      let s := wt.foldl (fun s t => stepStore s h t 0 (natToBytes 0 4)) s
      pure (s.put (h.bump.advance 8))

/-! ### Weights, eviction, packing (R278 to R280) -/

/-- The binding of an accumulated weight: float add on .f32 (R278). -/
def weightBinding (s : State) (ctx : Nat) (va : W64) : Bool :=
  match bindingAt s ctx va with
  | none => false
  | some b => decide (b.2.oper = 0) && decide (b.2.etype = 0x0D)

/-- KVACC (R278). -/
def execKvacc (x : KvArgs) (s : State) : Host.Outcome State Fault Refusal :=
  runOn s fun h =>
    let srcs : List Use := [(x.h, false), (x.b, false), (x.w, false)]
    let act := h.active x.g
    match prepare s h [] srcs act with
    | .error t => .error t
    | .ok (s, h) => do
      let all := (lanesOf act).map fun l => (l, h.read x.h true 0 false l)
      let ts ← checkGlobal s h 0 128 .r all
      watch s h 0 128 all
      Here.stepReady s h (placesOf ts 128)
      let r := headers s h ts
      let s := r.1
      let hs := r.2
      let emits : List LaneVa := hs.filterMap fun y =>
        (kvIndex y.2 (h.read x.b true 0 false y.1.1)).map fun i => (y.1.1, kvWgt y.2 + BitVec.ofNat 64 (4 * i))
      let us ← meetingAll (placesOf ts 128) do
        kvFail 11 hs (headerBad s ts)
        failFirst 0 2 (fun a => !canonical a) emits
        failFirst 9 2 (fun a => !weightBinding s h.crew.ctx a) emits
        failFirst 1 2 (fun a => decide (a.toNat % 4 ≠ 0)) emits
        let us ← translateAll s h 2 .w emits
        permitAll 2 .w us
        watch s h 2 4 emits
        pure us
      let r := if emits.isEmpty then none else withMode s h false .thread
      h.releaseData r
      h.storeRoom
      let s := touchAll (touchAll s h.crew.core false ts) h.crew.core true us
      let lanes := updateLanes s h us fun l => h.src srcs 2 false l
      let h := h.popAll srcs
      let h := if lanes.isEmpty then h else h.enterStore
        { seq := 0, kind := .upd, size := 0, rel := r, q := 0, lanes := lanes, paired := true }
      pure (s.put (h.bump.advance 8))

/-- The survivor with the least weight; NaN ranks above every number, ties go to the lowest (R279). -/
def leastWeight (surv : W64) (w : Nat → FVal) : Option Nat :=
  minBy (fun i j => (!(w i).isNan && (w j).isNan) || (w i).lt (w j)) (lanesOf surv)

/-- Evicts `n` survivors (R279). -/
def evict (w : Nat → FVal) : Nat → W64 → W64
  | 0, surv => surv
  | n + 1, surv => match leastWeight surv w with
    | none => surv
    | some i => evict w n (surv &&& ~~~(laneBit i))

/-- KVSEL (R279). -/
def execKvsel (x : KvArgs) (s : State) : Host.Outcome State Fault Refusal :=
  runOn s fun h =>
    match lowest (h.active x.g) with
    | none => .ok (s.put (h.advance 8))
    | some lane => do
      h.pending [(x.d, false), (x.h, false)]
      let hv := h.uniform x.h
      let ht ← checkGlobal s h 2 128 .w [(lane, hv)]
      watch s h 2 128 [(lane, hv)]
      Here.stepReady s h (placesOf ht 128)
      let r := headers s h ht
      let s := r.1
      let b := (r.2.head?.map (·.2)).getD []
      let ws := (List.range 64).map fun i => (lane, kvWgt b + BitVec.ofNat 64 (4 * i))
      let wt ← meetingAll (placesOf ht 128) do
        let wt ← if headerBad s ht (lane, hv) b then pure [] else checkGlobal s h 0 4 .r ws
        let one := [((lane, hv), b)]
        kvFail 11 one (headerBad s ht)
        kvFail 12 one fun _ b => kvUnpacked b
        watch s h 0 256 [(lane, kvWgt b)]
        pure wt
      Here.stepReady s h (placesOf wt 4)
      let s := touchAll (touchAll s h.crew.core true ht) h.crew.core false wt
      let rw := readEach (fun s a => Here.readPlain s h a 4) s (placesOf wt 4)
      let s := rw.1
      let vals := rw.2.map fun l => fmtF32.value (bytesToNat l)
      let e := popc (kvSurv b) 64 - kvBudget b
      let surv := evict (fun i => vals[i]?.getD (.num false 0 0)) e (kvSurv b)
      let b' := patch (patch b 0 (natToBytes surv.toNat 8)) 75 [BitVec.ofNat 8 (kvFlags b % 2 + (if 0 < e then 2 else kvFlags b / 2 % 2 * 2))]
      let s := if e = 0 then s else ht.foldl (fun s t =>
        let s := stepStore s h t 0 b'
        { s with kvOld := Tbl.set s.kvOld (t.2.phys t.1.2) (kvSurv b) }) s
      pure (s.put ((h.write x.d true false (h.active x.g) fun _ => BitVec.ofNat 64 e).bump.advance 8))

/-- Hands commands to the request engine after the release at die scope that their acceptance is (R287, R328); the split goes on when they are accepted (R286). -/
def postAll (s : State) (h : Here) (ps : List Post) (len : Nat) : Part State :=
  if ps.isEmpty then .ok (s.put (h.advance len))
  else
    match releaseAt s h .die with
    | .error t => .error t
    | .ok s =>
      let k := s.core h.crew.core
      let s := s.setCore h.crew.core { k with posts := k.posts ++ ps }
      .ok (parkUnit (s.put (h.bump.advance len)) h.u .posting)

/-- A command of the issuing split. -/
def Here.post (h : Here) (kind : CmdKind) (bar : Option Nat) (cont : Bool) : Post :=
  { crew := h.u.crew, pair := h.u.pair, split := h.u.split, kind := kind, bar := bar, cont := cont, resume := false }

/-- KVPACK (R280): the header is checked at issue; the engine does the rest. -/
def execKvpack (x : KvArgs) (s : State) : Host.Outcome State Fault Refusal :=
  runOn s fun h =>
    match lowest (h.active x.g) with
    | none => .ok (s.put (h.advance 8))
    | some lane => do
      h.pending [(x.h, false), (x.b, false)]
      let hv := h.uniform x.h
      let ht ← checkGlobal s h 2 128 .w [(lane, hv)]
      Here.stepReady s h (placesOf ht 128)
      let r := headers s h ht
      meetingAll (placesOf ht 128) (kvFail 11 r.2 (headerBad r.1 ht))
      let s := touchAll r.1 h.crew.core true ht
      postAll s h [h.post (.pack hv) (some (fld (h.uniform x.b) 0 32)) false] 8

/-- KVSCL (R274). -/
def execKvscl (x : KvsclArgs) (s : State) : Host.Outcome State Fault Refusal :=
  runInstr s (.kvscl x) x.g fun h act srcs =>
    let v := fun l => h.src srcs 0 false l
    let q := fun (b : Nat) =>
      let mine := (lanesOf act).filter fun l => l / 32 == b
      let ef := fld (h.src srcs 1 false (mine.head?.getD 0)) 0 8
      let xs := blockVals act x.ftz b v
      if ef = 0xFF then (0xFF, xs.map fun _ => 0, fNv)
      else
        let r := quantise xs 8 none
        if r.1 = 0xFF ∨ ef ≤ r.1 then r else quantise xs 8 (some ef)
    let q0 := q 0
    let q1 := q 1
    .ok (finish h (.kvscl x) srcs x.d false x.nwb act fun l =>
      let r := if l < 32 then q0 else q1
      { val := blockWord r.1 (r.2.1[l % 32]?.getD 0), flags := r.2.2 })

end Sys2Proof.Machine
end

