-- ==== Sys2Proof/Machine/Engine.lean ====
section
/-! DEFINITION. Group 13: bulk copies posted to the request engine, per-lane copies, barriers, continuation records (R284 to R304, R138 to R140). -/
namespace Sys2Proof.Machine

/-! ### Posting (R286 to R290) -/

/-- XPOST (R286, R287): with a uniform base once, else each active lane in order; nothing is posted before every check has passed. -/
def execXpost (x : XpostArgs) (s : State) : Host.Outcome State Fault Refusal :=
  runOn s fun h => do
    h.pending [(x.base, false)]
    let act := h.active x.g
    let n := x.n.toNat + 1
    let lanes := if x.base.isUniform then (lanesOf act).take 1 else lanesOf act
    let at_ := lanes.map fun l => (l, BitVec.ofNat 64 (h.crew.scratch + fld (h.read x.base true 0 false l) 0 32))
    let off := fun (a : W64) => a.toNat - h.crew.scratch
    failFirst 1 0 (fun a => decide (off a % 64 ≠ 0)) at_
    failFirst 2 0 (fun a => decide (h.crew.kern.scratch < off a + 64 * n)) at_
    let rec0 : CmdRec :=
      { src := 0, dst := 0, bpr := 0, rows := 0, sstride := 0, dstride := 0, vlast := 0, bar := 0, idx := 0, icount := 0, op := 0,
        flags := 0, rdev := 0, zero := true }
    postAll s h (at_.flatMap fun a => (List.range n).map fun i => h.post (.record (off a.2 + 64 * i) rec0) none false) 8

/-- XGATH (R289): one command whose rows are the active lanes. -/
def execXgath (x : XgathArgs) (s : State) : Host.Outcome State Fault Refusal :=
  runOn s fun h =>
    match lowest (h.active x.g) with
    | none => .ok (s.put (h.advance 16))
    | some lane => do
      h.pending [(x.a, false)]
      let e := x.esize.toNat + 1
      let dst := x.dst.toNat
      guardPart (decide (dst + e * h.crew.grant ≤ h.crew.kern.scratch))
        { cause := cause1 2 1, lane := some lane, addr := BitVec.ofNat 64 (h.crew.scratch + dst) }
      let bar := if x.bar.toNat = 2 ^ 19 - 1 then none else some (16 * x.bar.toNat)
      guardPart (match bar with
        | none => true
        | some b => barrierOk h.crew b) { cause := 0x0F4, lane := some lane }
      let srcs := (lanesOf (h.active x.g)).map fun l => (l, h.read x.a true 0 false l)
      postAll s h [h.post (.gather srcs dst e) bar x.cont] 16

/-- XSTAT (R288). -/
def execXstat (x : XstatArgs) (s : State) : Host.Outcome State Fault Refusal :=
  runInstr s (.xstat x) x.g fun h act _ =>
    let h' := h.write x.d true false act fun _ => h.pair.status
    let st := if x.clr && decide (act ≠ 0) then BitVec.ofNat 64 (fld h.pair.status 0 9) else h.pair.status
    .ok ({ h' with pair := { h'.pair with status := st } }.advance 8)

/-! ### Per-lane copies (R291 to R293) -/

/-- Counter of batch tag `n` (R292). -/
def tagCount (p : Pair) (n : Nat) : Nat := fld p.tagcnt (8 * n) 8

/-- The addresses of the first byte and of the first byte of a second page among `n` bytes. -/
def pageHeads (va : W64) (n : Nat) : List W64 :=
  let last := va + BitVec.ofNat 64 (n - 1)
  if n = 0 then [] else if va.toNat / 4096 = last.toNat / 4096 then [va] else [va, BitVec.ofNat 64 (last.toNat / 4096 * 4096)]

/-- The physical addresses of `n` bytes from translations of their pages. -/
def bytePlaces (ts : List (LaneVa × TlbEntry)) (va : W64) (n : Nat) : List Nat :=
  (List.range n).filterMap fun i =>
    let a := va + BitVec.ofNat 64 i
    (ts.find? fun t => t.1.2.toNat / 4096 == a.toNat / 4096).map fun t => t.2.phys a

/-- XCP (R291, R292). -/
def execXcp (x : XcpArgs) (s : State) : Host.Outcome State Fault Refusal :=
  runOn s fun h => do
    h.pending [(x.d, false), (x.s, false), (x.n, false)]
    let act := h.active x.g
    let size := 4 * 2 ^ x.sz.toNat
    let len := fun l => (h.read x.n true 0 false l).toNat
    let dst := fun l => h.crew.scratch + fld (h.read x.d true 0 false l) 0 32
    let src := fun l => h.read x.s true 0 false l
    let all := lanesOf act
    match all.find? fun l => decide (size < len l) with
    | some l => raise { cause := cause0 20 h.u.slice, lane := some l }
    | none => pure ()
    let ds : List LaneVa := all.map fun l => (l, BitVec.ofNat 64 (dst l))
    failFirst 1 1 (fun a => decide ((a.toNat - h.crew.scratch) % size ≠ 0)) ds
    failFirst 2 1 (fun a => !inScratch h.crew a size) ds
    let ss : List LaneVa := all.flatMap fun l => (pageHeads (src l) (len l)).map fun a => (l, a)
    failFirst 0 0 (fun a => !canonical a) ss
    let ts ← translateAll s h 0 .r ss
    permitAll 0 .r ts
    h.acquired
    let mine := fun l => bytePlaces (ts.filter fun t => t.1.1 == l) (src l) (len l)
    h.awaitData (h.warp.stores.filter fun e => all.any fun l => (mine l).any fun a => e.hits h.crew.core .phys a 1)
    let n := x.tag.toNat
    if tagCount h.pair n = 255 then pause (.tagFull n)
    let s := touchAll s h.crew.core false ts
    let c : Xcp := { id := h.warp.seq, tag := n, size := size, lanes := all.map fun l => { dst := dst l, src := mine l }, split := h.u.split }
    let p := { h.pair with tagcnt := setFld h.pair.tagcnt (8 * n) 8 (tagCount h.pair n + 1), xcps := h.pair.xcps ++ [c] }
    pure (s.put ({ h with pair := p }.bump.advance 8))

/-- XTWAIT (R293): it waits whatever its guard's lanes are, if it has an active lane. -/
def execXtwait (x : XtwaitArgs) (s : State) : Host.Outcome State Fault Refusal :=
  runOn s fun h =>
    if h.active x.g ≠ 0 ∧ x.m.toNat < tagCount h.pair x.tag.toNat then pause (.tags x.tag.toNat x.m.toNat)
    else .ok (s.put (h.advance 8))

/-! ### Barriers (R294 to R300) -/

/-- The offset in a uniform register (R284). -/
def Here.offset (h : Here) (o : Opnd) : Nat := fld (h.read o false 0 false 0) 0 32

/-- What an object step of a warp waits for: earlier acquires and release fences (R324), what comes before it on the object's bytes (R322, R327): stores, loads and copies, and a command that owns the object's line (R317, R329). -/
def Here.objReady (s : State) (h : Here) (off : Nat) : Part Unit := do
  h.acquired
  h.unfenced
  let at_ := h.crew.scratch + off
  let sp := Space.scratch h.crew.core
  let es := h.storesBefore.filter fun e => e.hits h.crew.core sp at_ 16
  if h.u.slice = .access then h.awaitData es
  if !es.isEmpty || (h.loadsBefore.any fun l => l.hits at_ 16 sp) || (h.copiesBefore.any fun x => x.writes at_ 16) then pause .ordering
  lineFree s sp at_ 16

/-- A barrier instruction acts once: checks 1 and 2 of R294, then its own step. -/
def barrierOp (g : Guard) (b : Opnd) (init : Bool) (f : State → Here → Nat → Nat → Obj → Part State) (s : State) :
    Host.Outcome State Fault Refusal :=
  runOn s fun h =>
    match lowest (h.active g) with
    | none => .ok (s.put (h.advance 8))
    | some lane => do
      h.pending [(b, false)]
      let off := h.offset b
      guardPart (barrierOk h.crew off) { cause := 0x0F4, lane := some lane }
      Here.objReady s h off
      let t := Here.met s h h.crew.core (h.crew.scratch + off) 16
      let o := readObj t h.crew off
      meeting (.scratch h.crew.core) (h.crew.scratch + off) 16 (do
        guardPart (init || !objCorrupt o) { cause := 0x0F3, lane := some lane }
        f t h lane off o)

/-- The code of a barrier mode (Table 5.2). -/
def BarMode.num : BarMode → Nat
  | .bytes => 0
  | .rows => 1
  | .arrivals => 2

/-- BINIT (R295). -/
def execBinit (x : BinitArgs) (s : State) : Host.Outcome State Fault Refusal :=
  barrierOp x.g x.b true (fun s h lane off o => do
    guardPart (decide (objWaiters o = 0)) { cause := 0x0F5, lane := some lane }
    let s := writeObj s h.u.crew h.crew off (objInit (BarMode.num x.mode) x.exp.toNat)
    pure (s.put (h.bump.advance 8))) s

/-- BARR (R296): a release at crew scope before the arrival. -/
def execBarr (x : BarrArgs) (s : State) : Host.Outcome State Fault Refusal :=
  barrierOp x.g x.b false (fun s h lane off o => do
    guardPart (decide (objMode o = 2)) { cause := 0x0F6, lane := some lane }
    guardPart (decide (objExpected o = 0) || decide (objArrived o + x.n.toNat < 2 ^ 16)) { cause := 0x0F2, lane := some lane }
    let s ← releaseAt s h .crew
    let s := carry s (.scratch h.crew.core) (h.crew.scratch + off) [Here.release s h .crew]
    let s := writeObj s h.u.crew h.crew off (objArrive o x.n.toNat)
    pure (s.put (h.bump.advance 8))) s

/-- The wait of `bwait` and `byld` (R297, R298): `cont` is where the split continues. -/
def barrierWait (ph : Phase) (s : State) (h : Here) (off : Nat) (o : Obj) (cont : W64) : Part State :=
  if objError o then raise (barrierTrap o off)
  else
    let want := match ph with
      | .recorded => !objPhase o
      | .p0 => true
      | .p1 => false
    if objReleases o want then
      .ok ((acquireStep s h.viewer .crew (.scratch h.crew.core) (h.crew.scratch + off)).put { h with split := { h.split with pc := cont } })
    else .ok (parkUnit ((writeObj s h.u.crew h.crew off (objWait o true)).put h) h.u (.barrier off want cont))

/-- BWAIT (R297). -/
def execBwait (x : BwaitArgs) (s : State) : Host.Outcome State Fault Refusal :=
  barrierOp x.g x.b false (fun s h _ off o => barrierWait x.ph s h off o (h.split.pc + 8)) s

/-- BYLD (R298): the continuation is checked before the step. -/
def execByld (x : BwaitArgs) (s : State) : Host.Outcome State Fault Refusal :=
  barrierOp x.g x.b false (fun s h lane off o => do
    h.pending [(x.t, true)]
    let t := h.read x.t true 0 false 0
    guardPart (decide (fld t 0 3 = 0)) { cause := cause0 8 h.u.slice, lane := some lane }
    barrierWait x.ph s h off o t) s

/-- CBAR (R300, R163): the split parks at the collective. -/
def execCbar (x : BareArgs) (s : State) : Host.Outcome State Fault Refusal :=
  runOn s fun _ => pause (.collective (.cbar x))

/-! ### Work deques (R138 to R140) -/

/-- The deque of a launch on a core. -/
def dequeOf (k : Core) (launch : Nat) : Option Deque := k.deques.find? fun d => d.launch == launch

/-- Bytes of a core's scratchpad, last in their order. -/
def coreBytes (s : State) (core a n : Nat) : List Byte := scratchGiven s core a (s.latestBytes (.scratch core) a n)

def dqHead (s : State) (core : Nat) (d : Deque) : Nat := bytesToNat (coreBytes s core d.off 8)
def dqTail (s : State) (core : Nat) (d : Deque) : Nat := bytesToNat (coreBytes s core (d.off + 8) 8)
/-- The header breaks R140. -/
def dqCorrupt (s : State) (core : Nat) (d : Deque) : Bool :=
  let hd := dqHead s core d
  let tl := dqTail s core d
  decide (tl < hd) || decide (hd + d.cap < tl) || bytesToNat (coreBytes s core (d.off + 16) 4) != d.cap
/-- Where slot `i` lies (R139). -/
def dqSlot (d : Deque) (i : Nat) : Nat := d.off + 64 + 64 * (i % d.cap)

/-- A step on a deque reads its header and one slot: an error is reported as the reader asks (R217, R346). -/
def dqMet (s : State) (core ctx : Nat) (d : Deque) (slot : Nat) (report : State → W64 → State) : State :=
  scratchMet (scratchMet s core ctx d.off 24 report) core ctx (dqSlot d slot) 64 report

/-- Stores of a step on a deque, by an agent. -/
def dqStore (s : State) (ag : Agent) (core crew a : Nat) (d : List Byte) : State :=
  storeAt s { agent := ag, core := core, crew := crew, space := .scratch core, addr := a, data := d, ms := false, scope := .cluster }

/-- A push (R140). -/
def dqPush (s : State) (ag : Agent) (crew core : Nat) (d : Deque) (r : List Byte) : State :=
  let tl := dqTail s core d
  dqStore (dqStore s ag core crew (dqSlot d tl) r) ag core crew (d.off + 8) (natToBytes (tl + 1) 8)

/-- A take at the tail by the owner or the packer: the record, unless the deque is empty (R140). -/
def dqTake (s : State) (ag : Agent) (crew core : Nat) (d : Deque) : Option (State × List Byte) :=
  let tl := dqTail s core d
  if tl = dqHead s core d then none
  else some (dqStore s ag core crew (d.off + 8) (natToBytes (tl - 1) 8), coreBytes s core (dqSlot d (tl - 1)) 64)

/-- A steal at the head: none when the deque is empty or its oldest record is pinned (R140). -/
def dqSteal (s : State) (ag : Agent) (crew core : Nat) (d : Deque) : Option (State × List Byte) :=
  let hd := dqHead s core d
  let r := coreBytes s core (dqSlot d hd) 64
  if hd = dqTail s core d ∨ bytesAt r 4 1 % 2 = 1 then none
  else some (dqStore s ag core crew d.off (natToBytes (hd + 1) 8), r)

/-- The record a lane emits (R301, Table 5.7). -/
def emitRecord (h : Here) (x : EmitArgs) (l : Nat) : List Byte :=
  natToBytes (fld (h.read x.e true 0 false l) 0 32) 4 ++ natToBytes (fld (h.read x.fh true 0 false l) 0 32) 4 ++
    (List.range 7).flatMap fun j => natToBytes (h.warp.getA (x.n.toNat + j) l).toNat 8

/-- The a registers `n` to `n + k - 1`. -/
def aRegs (n k : Nat) : List Use := (List.range k).map fun j => (.a (BitVec.ofNat 4 (n + j)), false)

/-- EMIT (R301). -/
def execEmit (x : EmitArgs) (s : State) : Host.Outcome State Fault Refusal :=
  runOn s fun h => do
    let act := h.active x.g
    if act = 0 then pure (s.put (h.advance 8))
    else do
      h.pending ([(x.e, false), (x.fh, false)] ++ aRegs x.n.toNat 7)
      h.unfenced
      let core := h.crew.core
      let all := lanesOf act
      match dequeOf (s.core core) h.crew.launch with
      | none => raise { cause := 0x0F7, lane := lowest act }
      | some d => do
        let s := Here.met s h core d.off 24
        meeting (.scratch core) d.off 24 do
        let entry := fun l => fld (h.read x.e true 0 false l) 0 32
        match all.find? fun l => decide (entry l % 16 ≠ 0) || decide (16 * h.crew.entries.length ≤ entry l) with
        | some l => raise { cause := 0x0FA, lane := some l }
        | none => pure ()
        match all.find? fun l => decide (fld (h.read x.fh true 0 false l) 1 15 ≠ 0) with
        | some l => raise { cause := cause0 5 h.u.slice, lane := some l }
        | none => pure ()
        guardPart (decide (dqTail s core d - dqHead s core d + all.length ≤ d.cap)) { cause := 0x0F8, lane := lowest act }
        guardPart (!dqCorrupt s core d) { cause := 0x0F9, lane := lowest act }
        let s ← releaseAt s h .cluster
        let s := carry s (.scratch core) d.off [Here.release s h .cluster]
        let s := all.foldl (fun s l => dqPush s h.agent h.u.crew core d (emitRecord h x l)) s
        pure (s.put (h.bump.advance 8))

/-- What a lane receives: record bytes 0 to 7 and the payload in eight a registers, and its status (R302). -/
def Here.receive (h : Here) (n : Nat) (kt : BitVec 4) (l : Nat) (r : Option (List Byte)) : Here :=
  let w := (List.range 8).foldl (fun w j => w.setA (n + j) l (match r with
    | none => 0
    | some b => BitVec.ofNat 64 (bytesAt b (8 * j) 8))) h.warp
  { h with warp := w.setPred kt.toNat (laneBit l) (if r.isSome then laneBit l else 0) }

/-- Takes records for lanes in order (R302, R303), each taking step an acquire at cluster scope: a corrupt header traps with the lanes not yet served, which resume after the instruction. -/
def takeLanes (h0 : Here) (n : Nat) (kt : BitVec 4) (place : Nat → Option (Nat × Deque)) (slot : State → Nat → Deque → Nat)
    (take : State → Nat → Deque → Option (State × List Byte)) : State → Here → List Nat → State
  | s, h, [] => s.put (h.bump.advance 8)
  | s, h, l :: ls =>
    match place l with
    | none => takeLanes h0 n kt place slot take s (h.receive n kt l none) ls
    | some (core, d) =>
      let s := Here.met s h core d.off 24
      let s := Here.met s h core (dqSlot d (slot s core d)) 64
      if dqCorrupt s core d then
        takeTrap (s.put h) h.u { cause := 0x0F9, lane := some l, resume := some (h0.split.pc + 8), mask := some (maskOf (l :: ls)) }
      else
        match take s core d with
        | none => takeLanes h0 n kt place slot take s (h.receive n kt l none) ls
        | some (s, r) =>
          let s := acquireStep s h.viewer .cluster (.scratch core) d.off
          takeLanes h0 n kt place slot take s (h.receive n kt l (some r)) ls

/-- The number of the first of an instruction's a registers. -/
def aNumber : Opnd → Nat
  | .a n => n.toNat
  | _ => 0

/-- WQPOP (R302). -/
def execWqpop (x : WqArgs) (s : State) : Host.Outcome State Fault Refusal :=
  runOn s fun h => do
    h.pending (aRegs (aNumber x.d) 8)
    h.acquired
    h.unfenced
    let core := h.crew.core
    let d := (dequeOf (s.core core) h.crew.launch).map fun d => (core, d)
    pure (takeLanes h (aNumber x.d) x.kt (fun _ => d) (fun s core d => dqTail s core d - 1) (fun s core d => dqTake s h.agent h.u.crew core d) s h (lanesOf (h.active x.g)))

/-- WQSTEAL (R303). -/
def execWqsteal (x : WqArgs) (s : State) : Host.Outcome State Fault Refusal :=
  runOn s fun h => do
    h.pending ((x.c, false) :: aRegs (aNumber x.d) 8)
    h.acquired
    h.unfenced
    let place := fun l =>
      let core := 8 * clusterOf h.crew.core + fld (h.read x.c true 0 false l) 0 3
      if core = h.crew.core then none else (dequeOf (s.core core) h.crew.launch).map fun d => (core, d)
    pure (takeLanes h (aNumber x.d) x.kt place dqHead (fun s core d => dqSteal s h.agent h.u.crew core d) s h (lanesOf (h.active x.g)))

end Sys2Proof.Machine
end

