-- ==== Sys2Proof/Machine/Fabric.lean ====
section
/-! DEFINITION. The domain fabric: reaching other devices and serving their requests (R331, R332, R453 to R456), and the host and the fabric reading memory (R245, R338, R357). -/
namespace Sys2Proof.Machine

/-- A disabled event changes nothing. -/
def orSame (s : State) (x : Option State) : Host.Outcome State Fault Refusal := .next (x.getD s)

/-! ### Access by physical address -/

/-- No line of some physical bytes belongs to a command. -/
def unownedBytes (s : State) (except : Option (Nat × Nat)) (as : List Nat) : Bool :=
  (dedup (as.map (· / 128))).all fun l => !owned s except l

/-- Applies the update records of the lines of some bytes (R245). -/
def applyBytes (s : State) (as : List Nat) : State :=
  (dedup (as.map (· / 128))).foldl (fun s l => applyLines s (128 * l) 128) s

/-- A unit among some bytes fails its end-to-end check; each failure is logged (R356, R357). -/
def endToEnd (s : State) (ctx : Nat) (as : List Nat) : State × Bool :=
  if s.faults.isEmpty then (s, false)
  else (dedup (as.map (· / 64))).foldl (fun p u =>
    let r := crcCheck p.1 u ctx
    (r.1, p.2 || r.2)) (s, false)

/-- The bytes an observer reads at physical addresses, zero in units with an uncorrectable error, and its cause (R217, R357). -/
def readBytes (s : State) (v : Viewer) (ctx : Nat) (as : List Nat) : State × List Byte × Option Nat :=
  let r := unitsRead s (dedup (as.map (· / 64))) ctx
  (r.1, as.map (fun a => if r.2.1.contains (a / 64) then 0 else r.1.view v .phys a), r.2.2)

/-- An uncorrectable error that an agent of a context met is a machine check of the context (R408). -/
def errorSeen (r : State × List Byte × Option Nat) (ctx : Nat) (a : Nat) : State :=
  match r.2.2 with
  | none => r.1
  | some cause => contextCheck r.1 ctx cause (BitVec.ofNat 64 a)

/-- Runs of consecutive addresses with their bytes, as stores take them. -/
def runsOf : List (Nat × Byte) → List (Nat × List Byte)
  | [] => []
  | (a, b) :: r =>
    match runsOf r with
    | (c, l) :: rest => if c = a + 1 then (a, b :: l) :: rest else (a, [b]) :: (c, l) :: rest
    | [] => [(a, [b])]

/-- Stores bytes at physical addresses at a scope, as one agent's write; `ms` says which lines are written past the L2. -/
def writeBytes (s : State) (ag : Agent) (core crew : Nat) (sp : Space) (ms : Nat → Bool) (sc : Scope) (l : List (Nat × Byte)) : State :=
  ((runsOf l).flatMap fun r => lineRuns s r.1 r.2).foldl (fun s r =>
    storeAt s { agent := ag, core := core, crew := crew, space := sp, addr := r.1, data := r.2, ms := ms (r.1 / 128), scope := sc }) s

/-- The checks of the old units of runs of bytes that are about to be written (R356, R357). -/
def partialChecks (s : State) (ctx : Nat) (l : List (Nat × Byte)) : State :=
  (runsOf l).foldl (fun s r => partialCheck s ctx r.1 r.2.length) s

/-! ### Serving requests (R455) -/

/-- Some bytes are free for an access of another agent: no command owns a line of them, or one that the records of their lines go to, and nobody waits there. -/
def freeBytes (s : State) (as : List Nat) : Bool := (dedup (as.map (· / 128))).all fun l => (lineWaits s .phys (128 * l) 128).isEmpty

/-- The page of a context at an address, by a walk that uses no TLB, with its a and d bits set (R359, R360). -/
def visit (s : State) (ctx : Nat) (va : W64) (n : Need) : Except XFault (State × Nat) :=
  if !canonical va then .error .nonCanonical
  else
    match walk s ctx va with
    | .error f => .error f
    | .ok t =>
      if isHole (t.phys va) then .error .badPhys
      else if !permits t.pte n then .error .protection
      else
        .ok (markLeaf (walkReads s ctx va) t (decide (n = .w)), t.phys va)

/-- The physical addresses of `n` bytes of a context. -/
def visitBytes (s : State) (ctx : Nat) (va : W64) (nd : Need) : Nat → Except XFault (State × List Nat)
  | 0 => .ok (s, [])
  | n + 1 =>
    match visit s ctx va nd with
    | .error f => .error f
    | .ok (s, pa) =>
      match visitBytes s ctx (va + 1) nd n with
      | .error f => .error f
      | .ok (s, l) => .ok (s, pa :: l)

/-- A remote requester as an observer. -/
def remoteViewer : Viewer := { agent := .remote, core := 0, crew := 0 }

/-- Serves a remote request of an observer: nothing while an engine owns a line of it, else the result and the data read. A unit that fails its check is not sent, and is a machine check of the serving context (R357, R408); so is an uncorrectable error, whose data leave as zero (R217). -/
def serveAs (s : State) (v : Viewer) (tag : Nat) (va : W64) (len : Nat) (write : Bool) (data : List Byte) : Option (State × RemoteResult × List Byte) :=
  match tagged s tag with
  | none => some (s, .fault, [])
  | some ctx =>
    match visitBytes s ctx va (if write then .w else .r) len with
    | .error (.waits _) => none
    | .error _ => some (walkReads s ctx va, .fault, [])
    | .ok (s, as) =>
      if !freeBytes s as then none
      else
        let s := applyBytes s as
        if write then
          let side := sidePages (peek s ctx) va len
          some (writeBytes (partialChecks s ctx (as.zip data)) .remote 0 0 .phys (sideLine s side) .die (as.zip data), .ok, [])
        else
          let c := endToEnd s ctx as
          if c.2 then some (contextCheck c.1 ctx 0x11F (BitVec.ofNat 64 (as.headD 0)), .check, [])
          else
            let r := readBytes s v ctx as
            some (errorSeen r ctx (as.headD 0), .ok, r.2.1)
/-- Serves a request that comes over the fabric, or from this device's own engines. -/
def serve (s : State) (tag : Nat) (va : W64) (len : Nat) (write : Bool) (data : List Byte) : Option (State × RemoteResult × List Byte) :=
  serveAs s remoteViewer tag va len write data

/-- A device can be reached (R453, R454). -/
def reachable (s : State) (dev : Nat) : Bool :=
  let e := Cells.get s.dev.endpoints dev
  bitAt e 63 && decide (fld e 48 8 &&& s.dev.ports.toNat ≠ 0)

/-- REMOTE_REQUEST (R455): the reply to the sender is kept in the device block; a device with no identifier, or that is not ready, is sent none. Requests are of 4 to 4096 bytes (Table 16.5; log 16). -/
def execRemoteRequest (r : RemoteReq) (s : State) : Host.Outcome State Fault Refusal :=
  orSame s (
    if s.dev.domain = 0x3FF || !s.dev.ready then none
    else if r.len < 4 ∨ 4096 < r.len ∨ (r.write ∧ r.data.length ≠ r.len) then
      some { s with dev := { s.dev with reply := some (r.sender, r.tag, .fault, []) } }
    else match serve s r.tag.toNat r.addr r.len r.write r.data with
      | none => none
      | some x => some { x.1 with dev := { x.1.dev with reply := some (r.sender, r.tag, x.2.1, x.2.2) } })

/-! ### The host (R338, R444 to R446) -/

/-- The host as an observer of device memory. -/
def hostViewer : Viewer := { agent := .host, core := 0, crew := 0 }

/-- Bytes of the host's own memory (Table 12.2). -/
def inHostMem (addr len : Nat) : Bool := isHostMem addr && isHostMem (addr + (len - 1))

/-- HOST_MEM_READ (R338, R444, R446): the answer stands in the device block; none is an unsuccessful completion. Of its own memory the host reads what the device's caches hold too, with the checks of data that leave the device. A line of device memory that it reads it holds a copy of (R352). -/
def execHostMemRead (addr len : Nat) (s : State) : Host.Outcome State Fault Refusal :=
  let as := (List.range len).map (addr + ·)
  orSame s (
    let own := inHostMem addr len
    if !own && (!s.dev.memActive || decide (2 ^ 39 < addr + len)) then some { s with dev := { s.dev with hostData := none } }
    else if !freeBytes s as then none
    else
      let s := applyBytes s as
      let leaving := if own then as.filter fun a => !(holders s (a / 128)).isEmpty else as
      let c := endToEnd s 0xFF leaving
      if c.2 then some { c.1 with dev := { c.1.dev with hostData := none, aer := some addr } }
      else
        let r := unitsRead c.1 (dedup (leaving.map (· / 64))) 0xFF
        let s := r.1
        let l := as.map fun a => if r.2.1.contains (a / 64) then 0 else s.view hostViewer .phys a
        some { s with hostCopies := if own then s.hostCopies else s.hostCopies ++ (dedup (as.map (· / 128))).filter (fun l => !s.hostCopies.contains l),
                      dev := { s.dev with hostData := some l } })

/-- HOST_MEM_WRITE (R338, R444, R445): a write of the host at die scope, to device memory or to its own, where it takes the line out of the device's caches. The old data of a unit that it writes part of are checked, a failure being logged (R356, R357). -/
def execHostMemWrite (addr : Nat) (data : List Byte) (s : State) : Host.Outcome State Fault Refusal :=
  let as := (List.range data.length).map (addr + ·)
  orSame s (
    if !inHostMem addr data.length && (!s.dev.memActive || decide (2 ^ 39 < addr + data.length)) then none
    else if !freeBytes s as then none
    else
      let s := applyBytes s as
      some (writeBytes (partialCheck s 0xFF addr data.length) .host 0 0 .phys (regionLine s) .domain (as.zip data)))

end Sys2Proof.Machine
end

