-- ==== Sys2Proof/Machine/Lsu.lean ====
section
/-! DEFINITION. The load-store unit and its events: values arriving, stores pairing and leaving, updates accepted, per-lane copies, remote replies (R219 to R223, R228, R242 to R245, R291, R292, R350, R456). -/
namespace Sys2Proof.Machine

/-! ### The places of the arrays of the register files and of queue memory (the model's own numbering of R369's index) -/

/-- A warp pair among all. -/
def pairEntry (u : UnitRef) : Nat := u.crew % 2 ^ 20 * 64 + u.pair
/-- Register `n` of a lane: arrays 1 and 2. -/
def regEntry (u : UnitRef) (n lane : Nat) : Nat := (pairEntry u * 256 + n) * 64 + lane
/-- Cell pair `k` of an entry of queue `q`: array 3. -/
def cellPair (u : UnitRef) (q id k : Nat) : Nat := ((pairEntry u * 16 + q) * 64 + id % 64) * 32 + k
/-- A cell of the m or p tiles: array 10. -/
def accEntry (u : UnitRef) (m : Bool) (cell : Nat) : Nat := ((u.crew % 2 ^ 20) * 2 + if m then 1 else 0) * 2 ^ 16 + cell
/-- Two lane cells of an entry with nothing in them. -/
def QEntry.blank (e : QEntry) (k : Nat) : QEntry :=
  { e with vals := Cells.set (Cells.set e.vals (2 * k) 0) (2 * k + 1) 0, tags := e.tags &&& ~~~(laneBit (2 * k) ||| laneBit (2 * k + 1)) }

/-- An entry leaves the queue memory, or is looked at: cell pairs with an uncorrectable error read as value 0 with tag 0 (R342). -/
def entryRead (s : State) (core ctx : Nat) (u : UnitRef) (q : Nat) (e : QEntry) : State × QEntry × Bool :=
  (List.range 32).foldl (fun (p : State × QEntry × Bool) k =>
    let r := injectRead p.1 core 3 (cellPair u q e.id k) ctx
    if r.2 then (r.1, p.2.1.blank k, true) else (r.1, p.2)) (s, e, false)

/-! ### Loads and stores on their way -/

/-- An access warp as an observer. -/
def accessViewer (uid pn : Nat) (c : Crew) : Viewer := { agent := .warp uid pn .access, core := c.core, crew := uid }

/-- The page of an address has the memory-side attribute, or its line lies in a bound region (R246). -/
def memorySide (s : State) (c : Crew) (va : W64) : Bool :=
  match check4 s c.core c.ctx va .r with
  | .ok t => pteBit t.pte 5 || regionLine s (t.phys va / 128)
  | .error _ => false

/-- Where an access has to wait for lines (R353), it takes its place there. -/
def atHomes (s : State) (me : Held) (ls : List Nat) : Option State := if ls.isEmpty then none else some (waitAt s (dedup ls) me)

/-- Bytes overlaid with those that store-queue entries older than `seq` hold for them (R222). -/
def overlay (core : Nat) (es : List StoreEntry) (seq : Nat) (sp : Space) (a n : Nat) (base : List Byte) : List Byte :=
  (es.filter fun e => decide (e.seq < seq) && e.hits core sp a n).foldl (fun l e =>
    e.lanes.foldl (fun l x =>
      if x.off then l
      else (List.range e.size).foldl (fun l i =>
        if a ≤ x.pa + i ∧ x.pa + i < a + n then l.set (x.pa + i - a) (x.val.extractLsb' (8 * i) 8) else l) l) l) base

/-- An older update of the warp to the line of an address is still in the store queue (R245). -/
def updateBefore (p : Pair) (seq pa : Nat) : Bool :=
  p.acc.stores.any fun e => e.kind == .upd && decide (e.seq < seq) && e.lanes.any fun x => x.pa / 128 == pa / 128

/-- An earlier copy of the pair has still to read some bytes (R322). -/
def copyReads (p : Pair) (seq a n : Nat) : Bool := p.xcps.any fun x => decide (x.id < seq) && x.reads a n

/-- A load without a lane that has its value; with its last lane it is no more. -/
def Load.without (l : Load) (lane : Nat) : Option Load :=
  let rest := l.lanes.filter fun x => x.lane != lane
  if rest.isEmpty then none else some { l with lanes := rest }

/-- Puts a lane's value where its load delivers it (R219, R221); `re` marks a remote failure (R228). -/
def deliverLane (p : Pair) (l : Load) (lane : Nat) (v : W64) (re : Bool) : Pair :=
  let w := { p.acc with loads := p.acc.loads.filterMap fun m => if m.id = l.id ∧ m.dest = l.dest then m.without lane else some m }
  match l.dest with
  | .areg n => { p with acc := w.setA n lane v }
  | .creg n => { p with acc := w.setC n v }
  | .entry q id =>
    let fill := fun (e : QEntry) =>
      if e.id == id && bitAt e.missing lane then
        { e with vals := Cells.set e.vals lane (v.setWidth 32), missing := e.missing &&& ~~~(laneBit lane) }
      else e
    match Tbl.get? p.queues q with
    | none => { p with acc := w }
    | some x => { p with acc := w, queues := Tbl.set p.queues q { x with entries := x.entries.map fill, re := x.re || re } }

/-- A lane of a load is written into the register file or the queue memory (R369). -/
def laneWritten (s : State) (core : Nat) (u : UnitRef) (d : LoadDest) (lane : Nat) : State :=
  match d with
  | .areg n => injectWrite s core 2 (regEntry u n lane)
  | .entry q id => injectWrite s core 3 (cellPair u q id (lane / 2))
  | .creg _ => s

/-- A load of the core stands earlier in its order: an older ticket, or a lower lane of the same load. -/
def Load.before (l : Load) (x : LoadLane) (m : Load) (y : LoadLane) : Bool :=
  decide (m.ticket < l.ticket) || (decide (m.ticket = l.ticket) && decide (y.lane < x.lane))

/-- A lane's request is the first at its scratchpad bank: banks serve in the order in which requests were presented, lanes of a load in lane order, those that read one word as one request (R343, R344). -/
def bankFirst (s : State) (core : Nat) (l : Load) (x : LoadLane) : Bool :=
  s.crews.all fun e => e.2.saved.isSome || e.2.core != core || e.2.pairs.all fun p => p.2.acc.loads.all fun m =>
    m.space != .scratch core || m.lanes.all fun y =>
      y.pa / 8 % 31 != x.pa / 8 % 31 || !l.before x m y || (m.ticket == l.ticket && y.pa / 8 == x.pa / 8)

/-- The lanes of a load that one request gives their values: those that read one word of scratchpad, else the lane alone. -/
def Load.together (l : Load) (x : LoadLane) : List LoadLane :=
  match l.space with
  | .phys => [x]
  | .scratch _ => l.lanes.filter fun y => y.pa / 8 == x.pa / 8

/-- The word or unit of a load is read: the cause of an uncorrectable error, logged, if it meets one (R217, R346, R367); `err` is one that the world names. DESIGN CHOICE (log 79): data of host memory that arrive with an error are logged as L2 data of the line's home slice, no array of Table 12.5 being theirs. -/
def loadRead (s : State) (ctx : Nat) (sp : Space) (pa : Nat) (err : Bool) : State × Option Nat :=
  match sp with
  | .phys =>
    let r := unitRead s (pa / 64) ctx
    if err && r.2.isNone then
      if isDevice pa then (logError r.1 (108 + dieOf pa) 0x20 true ctx (pa / 64 * 64), some 0x126)
      else (logError r.1 (96 + homeSlice (pa / 128)) 0x10 true ctx (pa / 128 * 128), some 0x127)
    else r
  | .scratch k =>
    let r := injectRead s k 4 (pa / 8) ctx
    if r.2 then (r.1, some 0x123) else if err then (logError r.1 k 4 true ctx (pa / 8), some 0x123) else (r.1, none)

/-- A lane of a load gets its value (R217, R219, R221). -/
def giveLane (s : State) (crew pair : Nat) (c : Crew) (p : Pair) (l : Load) (bad : Bool) (x : LoadLane) : State :=
  let n := Size.bytes l.sz
  let v := accessViewer crew pair c
  let b := s.viewBytes v l.space x.pa n
  let b := if l.space = .phys then b.zipIdx.map fun y => y.1 ^^^ l1Bits s c.core (x.pa + y.2) else b
  let b := overlay c.core p.acc.stores l.seq l.space x.pa n b
  let rs := releasesRead s v l.space x.pa n
  let s := observe s v l.acq rs
  let s := s.onPair crew pair fun p => deliverLane p l x.lane (if bad then 0 else Size.extend l.sz (bytesToNat b)) false
  laneWritten s c.core { crew := crew, pair := pair, slice := .access, split := l.split } l.dest x.lane

/-- LOAD_VALUE_ARRIVAL (R217, R219, R221, R322): a lane's value is fixed and delivered, unless the L1 has not granted its request, the bank has an earlier one, an older operation of the warp on the same bytes is outstanding, a copy's reads among them, or a command owns its line, where it then waits in order of arrival (R353). With `err`, or on an injected uncorrectable error, the lane reads zero and the split's machine check follows. -/
def execLoadValueArrival (crew pair load lane : Nat) (err : Bool) (s : State) : Host.Outcome State Fault Refusal :=
  orSame s (
    match placedPair s crew pair with
    | none => none
    | some (c, p) =>
      match findLane p load lane with
      | none => none
      | some (l, x) =>
        let n := Size.bytes l.sz
        let me := Held.load crew pair load lane
        if l.remote.isSome || l.todo.contains (x.pa / 128) || (p.acc.loads.any fun m => decide (m.seq < l.seq) && m.hits x.pa n l.space)
            || (decide (l.space = .phys) && (updateBefore p l.seq x.pa || copyReads p l.seq x.pa n))
            || (decide (l.space ≠ .phys) && !bankFirst s c.core l x) then none
        else (atHomes s me (lineWaitsFor s (some me) l.space x.pa n)).orElse fun _ =>
          let s := if l.space = .phys then applyLines s x.pa n else s
          let r := loadRead s c.ctx l.space x.pa err
          let s := if l.space = .phys ∧ memorySide r.1 c x.va = false then missDone (fillL1 r.1 c.core c.ctx x.va (x.pa / 128) l.ro) c.core (x.pa / 128)
            else r.1
          let s := (l.together x).foldl (fun s y => giveLane s crew pair c p l r.2.isSome y) (waitDone s me)
          match r.2 with
          | none => some s
          | some code => some (splitCheck s c.ctx { crew := crew, pair := pair, slice := .access, split := l.split } code (BitVec.ofNat 64 x.pa)))

/-- STORE_PAIRING (R223, R327): the oldest address entry takes the oldest complete data entry; a marked data lane is suppressed. -/
def execStorePairing (crew pair q : Nat) (s : State) : Host.Outcome State Fault Refusal :=
  orSame s (
    match placedPair s crew pair with
    | none => none
    | some (c, p) =>
      match Tbl.get? p.queues q with
      | none => none
      | some x =>
        match x.addrs, x.entries with
        | sq :: addrs, e :: es =>
          if !e.complete then none
          else
            let r := entryRead s c.core c.ctx { crew := crew, pair := pair, slice := .access, split := 0 } q e
            let e := r.2.1
            let s := learnStores (if r.2.2 then contextCheck r.1 c.ctx 0x122 0 else r.1) (.warp crew pair .access) e.past
            let fill := fun (t : StoreEntry) =>
              { t with paired := true, lanes := t.lanes.map fun m =>
                { m with val := (Cells.get e.vals m.lane).setWidth 64, off := bitAt e.tags m.lane } }
            let w := { p.acc with stores := replaceIf (fun t => t.seq == sq && !t.paired) fill p.acc.stores }
            some (s.onPair crew pair fun p => { p with acc := w, queues := Tbl.set p.queues q { x with addrs := addrs, entries := es } })
        | _, _ => none)

/-- The orderings a store-queue entry waits for at the head of the queue (R224, R241, R331). -/
def releaseReady (w : Warp) (e : StoreEntry) : Bool :=
  match e.rel with
  | none => true
  | some sc => w.loads.all (fun l => decide (e.seq ≤ l.seq)) && (decide (sc ≠ .domain) || decide (w.acks = 0)) && decide (w.maint = 0)

/-- Performs what a release orders before its store (R224, R241): the releases that the store then carries. -/
def releaseEntry (s : State) (crew pair : Nat) (c : Crew) (e : StoreEntry) : State × List Release :=
  match e.rel with
  | none => (s, [])
  | some sc =>
    let r := releaseBy s (accessViewer crew pair c) sc
    (r.1, [r.2])

/-- The words of scratchpad that a store's lanes write meet armed injections once each (R345, R369). -/
def meetWords (s : State) (core : Nat) (l : List (Nat × Nat)) : State :=
  (dedup (l.flatMap fun x => blocksOf x.1 x.2 8)).foldl (fun s w =>
    let whole := (List.range 8).all fun i => l.any fun y => decide (y.1 ≤ 8 * w + i) && decide (8 * w + i < y.1 + y.2)
    injectWrite (writeInto s whole core 4 w) core 5 (w / 31)) s

/-- Writes the lanes of a store that leaves the queue, the highest lane last (R317, R319). Lanes that write one word of scratchpad are one operation of its bank (R345). It carries releases for those who read it (R325), and is in the past of an execute warp that has taken a later push (R327). -/
def writeLanes (s : State) (crew pair : Nat) (c : Crew) (p : Pair) (e : StoreEntry) (rs : List Release) : State :=
  let sp := e.space c.core
  let sc : Scope := if fenceMode s c.ctx then .crew else .warp
  let rs := liveReleases s (rs ++ p.acc.fences)
  let known := if e.seq < p.exe.seen then [Agent.warp crew pair .execute] else []
  let on := e.lanes.filter fun x => !x.off
  let words := on.map fun x => (x.pa, e.size)
  let s := match sp with
    | .phys => s
    | .scratch k => meetWords (scratchPartial s k c.ctx words) k words
  on.foldl (fun s x =>
      let s := if sp = .phys then l1Store (partialCheck (applyLines s x.pa e.size) c.ctx x.pa e.size) c.core x.pa e.size else s
      let w : Wide :=
        { agent := .warp crew pair .access, core := c.core, crew := crew, space := sp, addr := x.pa,
          data := natToBytes x.val.toNat e.size, ms := decide (sp = .phys) && memorySide s c x.va, scope := sc, known := known, rel := rs,
          seq := e.seq }
      if sp = .phys then storeAt s w else enterWide s w) s

/-- Removes the head of a store queue; the releases of a fence go on to later stores (R325). -/
def popStore (s : State) (crew pair : Nat) (fences : List Release) : State :=
  s.onWarp crew pair .access fun w => { w with stores := w.stores.drop 1, fences := if fences.isEmpty then w.fences else liveReleases s (w.fences ++ fences) }

/-- STORE_QUEUE_DRAIN (R222): the head entry leaves, unless it waits for its data, an ordering, an older load or copy of its bytes (R322), or a command that owns its line, where it then waits in order of arrival (R353). -/
def execStoreQueueDrain (crew pair : Nat) (s : State) : Host.Outcome State Fault Refusal :=
  orSame s (
    match placedPair s crew pair with
    | none => none
    | some (c, p) =>
      match p.acc.stores with
      | [] => none
      | e :: _ =>
        let sp := e.space c.core
        let me := Held.store crew pair e.seq
        let on := e.lanes.filter fun x => !x.off
        if !e.paired || e.kind == .upd || !releaseReady p.acc e
            || (on.any fun x => (p.acc.loads.any fun l => decide (l.seq < e.seq) && l.hits x.pa e.size sp)
              || (decide (sp = .phys) && copyReads p e.seq x.pa e.size)) then none
        else (atHomes s me (on.flatMap fun x => lineWaitsFor s (some me) sp x.pa e.size)).orElse fun _ =>
          let r := releaseEntry s crew pair c e
          some (popStore (writeLanes (waitDone r.1 me) crew pair c p e r.2) crew pair (if e.kind = .fence then r.2 else [])))

/-- The drawer an update of a lane asks for (R363, R364): its binding, and where its shadow record lies. -/
def drawerFor (s : State) (c : Crew) (x : StoreLane) : Option Drawer :=
  match Tbl.get? (s.ctx c.ctx).bindings x.slot with
  | none => none
  | some b =>
    let k := (x.va.toNat - b.rbase.toNat) / etypeBytes b.etype
    let at_ := b.sbase + BitVec.ofNat 64 (40 * k)
    let first := min 40 (4096 - at_.toNat % 4096)
    let place := fun (a : W64) => match walk s c.ctx a with
      | .ok t => t.phys a
      | .error _ => 0
    let sh := if isFloatAdd b.oper b.etype then
        (place at_, first) :: (if first < 40 then [(place (at_ + BitVec.ofNat 64 first), 40 - first)] else [])
      else []
    some { key := x.pa, va := x.va, ctx := c.ctx, slot := x.slot, oper := b.oper, etype := b.etype, sh := sh, val := 0, used := 0 }

/-- The pair of a lane enters the update unit (R363). -/
def acceptLane (s : State) (c : Crew) (x : StoreLane) : State :=
  match drawerFor s c x with
  | none => s
  | some d => acceptPair s d (x.val.toNat % 2 ^ (8 * etypeBytes d.etype))

/-- UPDATE_ACCEPT (R244, R333, R363): the pairs of the head entry enter the update unit, once older loads of the warp on their lines have their values (R245, R322) and the drawers that give way can be spilled. -/
def execUpdateAccept (crew pair : Nat) (s : State) : Host.Outcome State Fault Refusal :=
  orSame s (
    match placedPair s crew pair with
    | none => none
    | some (c, p) =>
      match p.acc.stores with
      | [] => none
      | e :: _ =>
        if e.kind != .upd || !releaseReady p.acc e || !e.lanes.all (fun x => roomFor s x.pa)
            || (e.lanes.any fun x => (p.acc.loads.any fun l => decide (l.seq < e.seq) && l.hits (x.pa / 128 * 128) 128 .phys)
              || copyReads p e.seq (x.pa / 128 * 128) 128) then none
        else
          some (popStore (e.lanes.foldl (fun s x => acceptLane s c x) (releaseEntry s crew pair c e).1) crew pair []))

/-- No warp of the core that became aged earlier has requests waiting (R350). -/
def agedTurn (s : State) (core : Nat) (w : Warp) : Bool :=
  !w.aged || (s.crews.all fun e => e.2.core != core || e.2.saved.isSome || e.2.pairs.all fun p =>
    !p.2.acc.aged || decide (w.agedAt ≤ p.2.acc.agedAt) || p.2.acc.loads.all fun l => l.todo.isEmpty)

/-- MISS_REJECTION_AGED (R349, R350): the requests of the warp's current memory instruction that the L1 rejected are presented again; the sixteenth rejection makes the warp aged, and aged warps are served in the order in which they became so. -/
def execMissRejectionAged (crew pair : Nat) (s : State) : Host.Outcome State Fault Refusal :=
  orSame s (
    match placedPair s crew pair with
    | none => none
    | some (c, p) => if agedTurn s c.core p.acc && p.acc.loads.any fun l => !l.todo.isEmpty then some (presentWarp s crew pair) else none)

/-! ### Per-lane copies (R291, R292) -/

/-- Two copies of a pair write some byte both. -/
def Xcp.meets (x y : Xcp) : Bool := x.lanes.any fun a => y.lanes.any fun b => decide (a.dst < b.dst + y.size) && decide (b.dst < a.dst + x.size)

/-- Writes one lane of a copy: its source bytes, then zeros (R291); an error is a machine check of the split that issued it (R315, R408). -/
def copyLane (s : State) (crew pair : Nat) (c : Crew) (p : Pair) (x : Xcp) (l : XcpLane) : State :=
  let s := applyBytes s l.src
  let r := unitsRead s (dedup (l.src.map (· / 64))) c.ctx
  let s := r.1
  let v := accessViewer crew pair c
  let bytes := l.src.map fun a =>
    if r.2.1.contains (a / 64) then 0
    else (overlay c.core p.acc.stores x.id .phys a 1 [s.view v .phys a]).headD 0
  let s := scratchPartial s c.core c.ctx [(l.dst, x.size)]
  let s := storeAt s { agent := .warp crew pair .access, core := c.core, crew := crew, space := .scratch c.core, addr := l.dst,
                       data := bytes ++ List.replicate (x.size - bytes.length) 0, ms := false, scope := .crew }
  match r.2.2 with
  | none => s
  | some cause => splitCheck s c.ctx { crew := crew, pair := pair, slice := .access, split := x.split } cause (BitVec.ofNat 64 (64 * r.2.1.headD 0))

/-- Older operations of the warp on the bytes that a copy reads and writes are outstanding: loads, and stores to its destination (R322, R475), updates of its source's lines (R245). -/
def copyBehind (c : Crew) (p : Pair) (x : Xcp) : Bool :=
  x.lanes.any fun l =>
    (p.acc.loads.any fun m => decide (m.seq < x.id) && (m.hits l.dst x.size (.scratch c.core) || l.src.any fun a => m.hits a 1 .phys))
      || (p.acc.stores.any fun e => decide (e.seq < x.id) && e.hits c.core (.scratch c.core) l.dst x.size)
      || l.src.any (updateBefore p x.id)

/-- XCP_COMPLETE (R292): copies that write the same byte finish in issue order, behind what the warp did before on the bytes (R322); the tag's counter falls by one. -/
def execXcpComplete (crew pair idx : Nat) (s : State) : Host.Outcome State Fault Refusal :=
  orSame s (
    match placedPair s crew pair with
    | none => none
    | some (c, p) =>
      match p.xcps[idx]? with
      | none => none
      | some x =>
        let me := Held.copy crew pair x.id
        let waits := (dedup ((x.lanes.flatMap (·.src)).map (· / 128))).flatMap (fun l => lineWaitsFor s (some me) .phys (128 * l) 128)
          ++ x.lanes.flatMap fun l => lineWaitsFor s (some me) (.scratch c.core) l.dst x.size
        if (p.xcps.take idx).any (·.meets x) || copyBehind c p x then none
        else (atHomes s me waits).orElse fun _ =>
          let s := x.lanes.foldl (fun s l => copyLane s crew pair c p x l) (waitDone s me)
          some (s.onPair crew pair fun p =>
            { p with xcps := p.xcps.eraseIdx idx, tagcnt := setFld p.tagcnt (8 * x.tag) 8 (tagCount p x.tag - 1) }))

/-! ### Remote loads (R228, R455, R456) -/

/-- A remote request that was sent at a cycle is lost at another (R456). -/
def overdue (s : State) (core sent : Nat) : Bool := decide (sent + s.dev.rtimeout.toNat ≤ (s.core core).cyc.toNat)

/-- The result of a remote lane and its bytes: this device serves its own identifier, to the warp, which sees its own stores (R228, R321), unless the time is over; a device that cannot be reached fails the lane (R453, R454); other answers come from the fabric, a loss when the time is over, and nothing else after it (R456). -/
def remoteLane (s : State) (uid pn : Nat) (c : Crew) (p : Pair) (l : Load) (dev : Nat) (va : W64) (r : RemoteResult) (data : W64) :
    Option (State × RemoteResult × Nat) :=
  let n := Size.bytes l.sz
  if dev = s.dev.domain.toNat then
    if overdue s c.core l.sent then some (s, .lost, 0)
    else
    (serveAs s (accessViewer uid pn c) l.tag va n false []).map fun x =>
      let own := match tagged s l.tag with
        | none => x.2.2
        | some ctx => match visitBytes s ctx va .r n with
          | .ok (_, as) => (as.zip x.2.2).map fun e => (overlay c.core p.acc.stores l.seq .phys e.1 1 [e.2]).headD 0
          | .error _ => x.2.2
      (x.1, x.2.1, bytesToNat own)
  else if !reachable s dev then some (s, .unreachable, 0)
  else if (r = .lost) != overdue s c.core l.sent then none
  else some (s, r, data.toNat % 2 ^ (8 * n))

/-- What an own-device lane of a remote load waits for, as any load does: older loads and copies of its bytes, older updates of its line (R244, R322), and older stores of its bytes whose data came after it was issued (R222). -/
def remoteBehind (c : Crew) (p : Pair) (l : Load) (x : LoadLane) : Bool :=
  let n := Size.bytes l.sz
  (p.acc.loads.any fun m => decide (m.seq < l.seq) && m.hits x.pa n .phys) || updateBefore p l.seq x.pa || copyReads p l.seq x.pa n
    || p.acc.stores.any fun e => decide (e.seq < l.seq) && !e.paired && e.hits c.core .phys x.pa n

/-- REMOTE_REPLY (R228): a failure gives zero and sets RE. -/
def execRemoteReply (crew pair load lane : Nat) (r : RemoteResult) (data : W64) (s : State) : Host.Outcome State Fault Refusal :=
  orSame s (
    match placedPair s crew pair with
    | none => none
    | some (c, p) =>
      match findLane p load lane with
      | none => none
      | some (l, x) =>
        match l.remote with
        | none => none
        | some dev =>
          if dev == s.dev.domain.toNat && !overdue s c.core l.sent && remoteBehind c p l x then none
          else match remoteLane s crew pair c p l dev x.va r data with
          | none => none
          | some (s, r, v) =>
            let ok := decide (r = .ok)
            some (s.onPair crew pair fun p => deliverLane p l lane (if ok then Size.extend l.sz v else 0) (!ok)))

/-- A lane whose reply has not come in time: zero, and RE (R456). -/
def laneTimeout (s : State) (crew pair load lane : Nat) : Option State :=
  match placedPair s crew pair with
  | none => none
  | some (c, p) =>
    match findLane p load lane with
    | none => none
    | some (l, _) =>
      if l.remote.isNone || !overdue s c.core l.sent then none
      else some (s.onPair crew pair fun p => deliverLane p l lane 0 true)

end Sys2Proof.Machine
end

