-- ==== Sys2Proof/Machine/Copy.lean ====
section
/-! DEFINITION. The request engine and the tile copy engine: acceptance of commands, their rows, engine faults, packing of key-value blocks, remote rows (R131 to R136, R280, R286 to R290, R328 to R331, R456). -/
namespace Sys2Proof.Machine

/-! ### Records (R132 to R134) -/

/-- The fields of a record's 64 bytes (Table 5.4). -/
def CmdRec.ofBytes (l : List Byte) : CmdRec :=
  { src := BitVec.ofNat 64 (bytesAt l 0 8), dst := BitVec.ofNat 64 (bytesAt l 8 8), bpr := bytesAt l 16 4, rows := bytesAt l 20 4,
    sstride := bytesAt l 24 4, dstride := bytesAt l 28 4, vlast := bytesAt l 32 4, bar := BitVec.ofNat 32 (bytesAt l 36 4),
    idx := BitVec.ofNat 64 (bytesAt l 40 8), icount := bytesAt l 48 4, op := bytesAt l 52 2, flags := BitVec.ofNat 16 (bytesAt l 54 2),
    rdev := BitVec.ofNat 16 (bytesAt l 56 2), zero := decide (bytesAt l 58 6 = 0) }

/-- The 64 bytes of a record. -/
def CmdRec.bytes (r : CmdRec) : List Byte :=
  natToBytes r.src.toNat 8 ++ natToBytes r.dst.toNat 8 ++ natToBytes r.bpr 4 ++ natToBytes r.rows 4 ++ natToBytes r.sstride 4
    ++ natToBytes r.dstride 4 ++ natToBytes r.vlast 4 ++ natToBytes r.bar.toNat 4 ++ natToBytes r.idx.toNat 8 ++ natToBytes r.icount 4
    ++ natToBytes r.op 2 ++ natToBytes r.flags.toNat 2 ++ natToBytes r.rdev.toNat 2 ++ natToBytes 0 6

/-- Flags of a record (Table 5.6). -/
def CmdRec.srcScratch (r : CmdRec) : Bool := decide (fld r.flags 0 2 = 1)
def CmdRec.dstScratch (r : CmdRec) : Bool := decide (fld r.flags 2 2 = 1)
def CmdRec.cont (r : CmdRec) : Bool := bitAt r.flags 9
/-- Bytes of an index entry. -/
def CmdRec.isz (r : CmdRec) : Nat := if fld r.flags 4 2 = 1 then 8 else 4

/-- Bytes of the last row, and of row `i` (R132). -/
def CmdRec.lastLen (r : CmdRec) : Nat := if r.vlast = 0 then r.bpr else r.vlast
def CmdRec.rowLen (r : CmdRec) (i : Nat) : Nat := if i + 1 = r.rows then r.lastLen else r.bpr

/-- The address of row `i` on one side: stride times the row number, or times its index (Table 5.5, R133). -/
def rowAt (base : W64) (stride : Nat) (i : W64) : W64 := base + i * BitVec.ofNat 64 stride
def CmdRec.rowSrc (r : CmdRec) (i : Nat) (index : W64) : W64 := rowAt r.src r.sstride (if r.op = 1 then index else BitVec.ofNat 64 i)
def CmdRec.rowDst (r : CmdRec) (i : Nat) (index : W64) : W64 := rowAt r.dst r.dstride (if r.op = 2 then index else BitVec.ofNat 64 i)

/-- A span of rows lies in an allocation of `size` bytes. -/
def CmdRec.spanIn (r : CmdRec) (base stride size : Nat) : Bool :=
  decide (base + (r.rows - 1) * stride + r.lastLen ≤ size) && (decide (r.rows ≤ 1) || decide (base + (r.rows - 2) * stride + r.bpr ≤ size))

/-- The scratchpad spans of a record lie in the allocation (R134); `index` holds the indices of a gather's or scatter's scratchpad side. -/
def CmdRec.spansIn (r : CmdRec) (size : Nat) (index : Tbl W64) : Bool :=
  let lin := fun (b : Bool) (base : W64) (stride : Nat) => !b || r.spanIn base.toNat stride size
  let ind := fun (b : Bool) (at_ : Nat → W64 → W64) => !b || index.all fun e => decide ((at_ e.1 e.2).toNat + r.rowLen e.1 ≤ size)
  match r.op with
  | 0 | 5 => lin r.srcScratch r.src r.sstride && lin r.dstScratch r.dst r.dstride
  | 1 => ind r.srcScratch r.rowSrc && lin r.dstScratch r.dst r.dstride
  | 2 => lin r.srcScratch r.src r.sstride && ind r.dstScratch r.rowDst
  | 3 | 6 => lin r.dstScratch r.dst r.dstride
  | 4 => lin r.srcScratch r.src r.sstride && (!r.dstScratch || decide (r.dst.toNat + 8 ≤ size))
  | _ => lin r.srcScratch r.src r.sstride

/-- The first check of Table 14.4 that a record fails (R134). -/
def CmdRec.malformed (r : CmdRec) (size : Nat) (index : Tbl W64) : Option Nat :=
  let indexed := r.op == 1 || r.op == 2
  let remote := r.op == 6 || r.op == 7
  if !r.zero || decide (fld r.flags 10 6 ≠ 0) || decide (fld r.rdev 10 6 ≠ 0) || (!remote && decide (fld r.rdev 0 10 ≠ 0))
      || (!indexed && r.op != 5 && decide (r.idx ≠ 0)) || (!indexed && decide (r.icount ≠ 0)) then some 0
  else if 8 ≤ r.op then some 1
  else if 2 ≤ fld r.flags 0 2 ∨ 2 ≤ fld r.flags 2 2 ∨ 2 ≤ fld r.flags 4 2 then some 2
  else if r.bpr = 0 ∨ r.rows = 0 then some 3
  else if r.bpr < r.vlast then some 4
  else if indexed && r.rows != r.icount then some 5
  else if remote && decide (575 < r.rdev.toNat) then some 6
  else if !r.spansIn size index then some 7
  else none

/-! ### Commands -/

/-- Counts of a command by barrier mode (R135, R289, R280): its total, and what row `i` subtracts. -/
def CmdKind.total (k : CmdKind) (mode : Nat) : Nat :=
  match k with
  | .record _ r => if mode = 0 then r.bpr * (r.rows - 1) + r.lastLen else if mode = 1 then r.rows else 1
  | .gather srcs _ e => if mode = 0 then srcs.length * e else if mode = 1 then srcs.length else 1
  | .pack _ => 1
def CmdKind.rowCount (k : CmdKind) (mode i : Nat) : Nat :=
  match k with
  | .record _ r => if mode = 0 then r.rowLen i else if mode = 1 then 1 else 0
  | .gather _ _ e => if mode = 0 then e else if mode = 1 then 1 else 0
  | .pack _ => if mode ≤ 1 then 1 else 0
/-- Rows of a command. -/
def CmdKind.rows : CmdKind → Nat
  | .record _ r => r.rows
  | .gather srcs _ _ => srcs.length
  | .pack _ => 1
/-- What names the command in a barrier or a status word (Tables 5.2, 10.3). -/
def CmdKind.recoff : CmdKind → Nat
  | .record off _ => off / 64
  | _ => 0x7FFFFF
/-- Writes to other devices (operation 7). -/
def CmdKind.remoteWrite : CmdKind → Bool
  | .record _ r => r.op == 7
  | _ => false

/-- The accepted command `id` of a core. -/
def Core.cmd? (k : Core) (id : Nat) : Option Cmd := k.cmds.find? fun c => c.id == id
/-- Changes an accepted command. -/
def State.onCmd (s : State) (core id : Nat) (f : Cmd → Cmd) : State :=
  let k := s.core core
  s.setCore core { k with cmds := replaceIf (fun c => c.id == id) f k.cmds }

/-- A step on the barrier object of a command: a corrupt one takes that error instead (R131). -/
def objStep (s : State) (uid : Nat) (c : Crew) (off recoff : Nat) (f : Obj → Obj) : State :=
  let s := crewMet s c off 16
  let o := readObj s c off
  writeObj s uid c off (if objCorrupt o then objError' o 0x0F3 recoff else f o)

/-- Records a failure that no barrier object carries (R288). -/
def statusFail (w : W64) (cause recoff : Nat) : W64 := if bitAt w 9 then w else setFld (setFld (setFld w 9 1 1) 10 9 cause) 19 23 recoff
/-- Changes the number of unfinished commands (Table 10.3). -/
def statusCount (w : W64) (up : Bool) : W64 := setFld w 0 9 (if up then fld w 0 9 + 1 else fld w 0 9 - 1)

/-- The error step of a command: on its barrier object, or on the pair's status word (R288, Table 5.3). -/
def failStep (s : State) (uid pair : Nat) (c : Crew) (bar : Option Nat) (cause recoff remainder : Nat) : State :=
  match bar with
  | none => s.onPair uid pair fun p => { p with status := statusFail p.status cause recoff }
  | some off => objStep s uid c off recoff fun o => objFail o cause recoff remainder

/-- The command is no more: it owns nothing and counts no longer in inflight (R286, R329). -/
def dropCmd (s : State) (core : Nat) (k : Cmd) : State :=
  let x := s.core core
  (s.setCore core { x with cmds := x.cmds.filter fun c => c.id != k.id }).onPair k.crew k.pair fun p =>
    { p with status := statusCount p.status false }

/-- Acknowledgements the posting warp need not wait for any more (R331). -/
def acked (s : State) (k : Cmd) (n : Nat) : State :=
  if k.kind.remoteWrite then s.onWarp k.crew k.pair .access fun w => { w with acks := w.acks - n } else s

/-- Barrier mode of a command. -/
def barMode (s : State) (c : Crew) (bar : Option Nat) : Nat :=
  match bar with
  | none => 0
  | some off => objMode (readObj s c off)

/-! ### Places of rows -/

/-- The parameter of an engine translation fault (Table 14.4). -/
def XFault.param : XFault → Nat
  | .nonCanonical => 0
  | .page => 1
  | .protection => 2
  | .corrupt | .badPhys | .waits _ => 3
/-- An engine translation fault: `r` is 0 source, 1 destination, 2 index, 3 header or result. -/
def rowCause (r : Nat) (f : XFault) : Nat := 0x100 + 4 * r + f.param

/-- The bytes of a row's side: their space and addresses. -/
def sideBytes (s : State) (c : Crew) (scratch : Bool) (va : W64) (n : Nat) (nd : Need) : Except XFault (State × Space × List Nat) :=
  if scratch then
    if va.toNat + n ≤ c.kern.scratch then .ok (s, .scratch c.core, (List.range n).map (c.scratch + va.toNat + ·)) else .error .badPhys
  else
    match useBytes s c.core c.ctx va nd n with
    | .error f => .error f.1
    | .ok (s, as) => .ok (s, .phys, as)

/-- The lines of some bytes. -/
def byteLines (sp : Space) (as : List Nat) : List Nat := dedup (as.map (lineOf sp))

/-- The lines of the bytes `va` to `va + n - 1` that can be translated, for ownership (R329). -/
def takeLines (s : State) (c : Crew) (scratch : Bool) (va : W64) (n : Nat) : List Nat :=
  if scratch then (List.range (n / 128 + 2)).filterMap fun i =>
      let a := c.scratch + va.toNat
      if (a / 128 + i) * 128 < a + n then some (lineOf (.scratch c.core) ((a / 128 + i) * 128)) else none
  else (List.range (n / 128 + 2)).filterMap fun i =>
      let a := BitVec.ofNat 64 ((va.toNat / 128 + i) * 128)
      if n ≤ i * 128 - va.toNat % 128 then none
      else match check s c.core c.ctx a .w with
        | .error _ => none
        | .ok t => some (t.phys a / 128)

/-- No other command owns any of some lines. -/
def freeOf (s : State) (core id : Nat) (ls : List Nat) : Bool := ls.all fun l => !owned s (some (core, id)) l
/-- A fingerprint or compare: what it writes is one result of 8 bytes. -/
def CmdKind.result (k : CmdKind) : Bool :=
  match k with
  | .record _ r => r.op == 4 || r.op == 5
  | _ => false
/-- The lines of a result are free for it. DESIGN CHOICE (log 87): results of several commands that lie in one line of a scratchpad, which has no directory entry, do not wait for each other, as the sixteen of R482 do not. -/
def resultFree (s : State) (core id : Nat) (ls : List Nat) : Bool :=
  ls.all fun l => s.cores.all fun e => e.2.cmds.all fun c =>
    (e.1 == core && c.id == id) || !c.own.any (·.1 == l) || (decide (2 ^ 45 ≤ l) && c.kind.result)
/-- The barrier object of a command lies in no line that another command owns (R317, R329). -/
def barFree (s : State) (core id : Nat) (c : Crew) (bar : Option Nat) : Bool :=
  match bar with
  | none => true
  | some off => freeOf s core id [lineOf (.scratch c.core) (c.scratch + off)]

/-- Bytes of memory as the last step on an object left them, with the errors and the check of an engine's read (R128, R217, R357). -/
def engineLatest (s : State) (c : Crew) (as : List Nat) : State × List Byte × Bool :=
  let e := endToEnd (applyBytes s as) c.ctx as
  let r := unitsRead e.1 (dedup (as.map (· / 64))) c.ctx
  let b := as.map fun a => if r.2.1.contains (a / 64) then 0 else r.1.latest .phys a
  (errorSeen (r.1, b, r.2.2) c.ctx (as.headD 0), b, e.2)

/-- What an engine reads (R299, R357, R217): the bytes, and whether a unit fails its end-to-end check. -/
def engineRead (s : State) (uid : Nat) (c : Crew) (sp : Space) (as : List Nat) : State × List Byte × Bool :=
  match sp with
  | .phys =>
    let e := endToEnd (applyBytes s as) c.ctx as
    let r := readBytes e.1 (crewEngine uid c) c.ctx as
    (errorSeen r c.ctx (as.headD 0), r.2.1, e.2)
  | .scratch k =>
    let r := (dedup (as.map (· / 8))).foldl (fun (q : State × List Nat) w =>
      let t := injectRead q.1 k 4 w c.ctx
      (t.1, if t.2 then w :: q.2 else q.2)) (s, [])
    let bytes := as.map fun a => if r.2.contains (a / 8) then 0 else r.1.view (crewEngine uid c) sp a
    (if r.2.isEmpty then r.1 else contextCheck r.1 c.ctx 0x123 (BitVec.ofNat 64 (8 * r.2.headD 0)), bytes, false)

/-- What an engine writes: at die scope, or at crew scope in the scratchpad (R330). -/
def engineWrite (s : State) (uid : Nat) (c : Crew) (sp : Space) (va : W64) (l : List (Nat × Byte)) : State :=
  match sp with
  | .phys =>
    let s := partialChecks (applyBytes s (l.map (·.1))) c.ctx l
    writeBytes s (.engine uid) c.core uid sp (sideLine s (sidePages (check4 s c.core c.ctx · .r) va l.length)) .die l
  | .scratch k => writeBytes (scratchPartial s k c.ctx ((runsOf l).map fun r => (r.1, r.2.length))) (.engine uid) c.core uid sp (fun _ => false) .crew l

/-! ### Rows -/

/-- CRC-64 (R133): one byte, most significant bit first. -/
def crc64Byte (c : W64) (b : Byte) : W64 :=
  (List.range 8).foldl (fun c _ => if c.msb then (c <<< 1) ^^^ 0x42F0E1EBA9EA3693 else c <<< 1) (c ^^^ (b.setWidth 64 <<< 56))
def crc64 (c : W64) (l : List Byte) : W64 := l.foldl crc64Byte c

/-- What performing a row comes to. -/
inductive RowEnd
  /-- a line belongs to another command, an earlier row of a fingerprint or compare is unfinished, or a reply is missing -/
  | held
  /-- the row faults, with an engine translation fault if the record is rewritten -/
  | fault (s : State) (cause : Nat) (rewrite : Bool)
  /-- a remote write has left -/
  | sent (s : State)
  /-- finished, with the fingerprint and the comparison so far -/
  | done (s : State) (crc diff : W64)
  /-- the whole command is finished: a difference was found before (R136) -/
  | all (s : State)
  deriving DecidableEq, Repr

/-- A row whose place cannot be translated: an engine translation fault, unless the walk waits (R353). -/
def RowEnd.walk (s : State) (r : Nat) (f : XFault) : RowEnd := if f.line?.isSome then .held else .fault s (rowCause r f) true

/-- The index entry of row `i`: read at acceptance, or now (R133). -/
def indexOf (s : State) (core uid : Nat) (c : Crew) (id : Nat) (index : Tbl W64) (r : CmdRec) (i : Nat) : RowEnd ⊕ (State × W64) :=
  match Tbl.get? index i with
  | some x => .inr (s, x)
  | none =>
    match useBytes s c.core c.ctx (r.idx + BitVec.ofNat 64 (i * r.isz)) .r r.isz with
    | .error f => .inl (.walk s 2 f.1)
    | .ok (s, as) =>
      if !freeOf s core id (byteLines .phys as) then .inl .held
      else
        let e := engineRead s uid c .phys as
        if e.2.2 then .inl (.fault e.1 0x11C false) else .inr (e.1, sext (bytesToNat e.2.1) (8 * r.isz) 64)

/-- The parameter of a remote failure (Table 14.4). -/
def RemoteResult.param : RemoteResult → Nat
  | .unreachable => 0
  | .fault => 1
  | .lost => 2
  | _ => 3

/-- A row of a copy, gather, scatter or fill: its destination is checked, and gets the bytes. -/
def putRow (s : State) (core uid : Nat) (c : Crew) (k : Cmd) (scratch : Bool) (va : W64) (data : List Byte) : RowEnd :=
  match sideBytes s c scratch va data.length .w with
  | .error f => .walk s 1 f
  | .ok (s, sp, as) =>
    if !freeOf s core k.id (byteLines sp as) then .held
    else .done (engineWrite s uid c sp va (as.zip data)) k.crc k.diff

/-- The source bytes of a row. -/
def getRow (s : State) (core uid : Nat) (c : Crew) (id : Nat) (scratch : Bool) (va : W64) (n : Nat) : RowEnd ⊕ (State × List Byte) :=
  match sideBytes s c scratch va n .r with
  | .error f => .inl (.walk s 0 f)
  | .ok (s, sp, as) =>
    if !freeOf s core id (byteLines sp as) then .inl .held
    else
      let r := engineRead s uid c sp as
      if r.2.2 then .inl (.fault r.1 0x11C false) else .inr (r.1, r.2.1)

/-- The pattern of a fill repeated over `n` bytes (R133). -/
def fillRow (r : CmdRec) (n : Nat) : List Byte :=
  let w := 2 ^ fld r.flags 6 2
  (List.range n).map fun i => r.src.extractLsb' (8 * (i % w)) 8

/-- Reads 8 bytes of a result: the fingerprint at dst or the comparison at idx of a continuing record (R133, R136). -/
def resultSoFar (s : State) (core uid : Nat) (c : Crew) (k : Cmd) (scratch : Bool) (va : W64) : RowEnd ⊕ (State × W64) :=
  match sideBytes s c scratch va 8 .r with
  | .error f => .inl (.walk s 3 f)
  | .ok (s, sp, as) =>
    if !resultFree s core k.id (byteLines sp as) then .inl .held
    else
      let e := engineRead s uid c sp as
      if e.2.2 then .inl (.fault e.1 0x11C false) else .inr (e.1, BitVec.ofNat 64 (bytesToNat e.2.1))

/-- Writes a result of 8 bytes. -/
def putResult (s : State) (core uid : Nat) (c : Crew) (k : Cmd) (scratch : Bool) (va v crc diff : W64) : RowEnd :=
  match sideBytes s c scratch va 8 .w with
  | .error f => .walk s 3 f
  | .ok (s, sp, as) =>
    if !resultFree s core k.id (byteLines sp as) then .held
    else .done (engineWrite s uid c sp va (as.zip (natToBytes v.toNat 8))) crc diff

/-- A row of a fingerprint (R133). -/
def fingerprintRow (s : State) (core uid : Nat) (c : Crew) (k : Cmd) (r : CmdRec) (i : Nat) : RowEnd :=
  let start := if i = 0 ∧ r.cont = true then resultSoFar s core uid c k r.dstScratch r.dst else .inr (s, k.crc)
  match start with
  | .inl e => e
  | .inr (s, crc) =>
    match getRow s core uid c k.id r.srcScratch (r.rowSrc i 0) (r.rowLen i) with
    | .inl e => e
    | .inr (s, d) =>
      let crc := crc64 crc d
      if i + 1 = r.rows then putResult s core uid c k r.dstScratch r.dst crc crc 0 else .done s crc 0

/-- The source address of the first byte that differs (R133). -/
def firstDiff (va : W64) (n : Nat) : List Byte → List Byte → W64
  | a :: as, b :: bs => if a = b then firstDiff va (n + 1) as bs else va + BitVec.ofNat 64 n
  | _, _ => 0

/-- A row of a compare (R133, R136). -/
def compareRow (s : State) (core uid : Nat) (c : Crew) (k : Cmd) (r : CmdRec) (i : Nat) : RowEnd :=
  let start := if i = 0 ∧ r.cont = true then resultSoFar s core uid c k false r.idx else .inr (s, k.diff)
  match start with
  | .inl e => e
  | .inr (s, diff) =>
    if i = 0 ∧ diff ≠ 0 then .all s
    else
      match getRow s core uid c k.id r.srcScratch (r.rowSrc i 0) (r.rowLen i) with
      | .inl e => e
      | .inr (s, a) =>
        match sideBytes s c r.dstScratch (r.rowDst i 0) (r.rowLen i) .r with
        | .error f => .walk s 1 f
        | .ok (s, sp, as) =>
          if !freeOf s core k.id (byteLines sp as) then .held
          else
            let e := engineRead s uid c sp as
            if e.2.2 then .fault e.1 0x11C false
            else
              let diff := if diff ≠ 0 then diff else firstDiff (r.rowSrc i 0) 0 a e.2.1
              if i + 1 = r.rows then putResult e.1 core uid c k false r.idx diff 0 diff else .done e.1 0 diff

/-- A row of a remote read (R332): its bytes come from the device itself or from the fabric, in either case a loss when the time is over and nothing else after it (R228, R456). -/
def remoteReadRow (s : State) (core uid : Nat) (c : Crew) (k : Cmd) (r : CmdRec) (i : Nat) (reply : Option (RemoteResult × List Byte)) :
    RowEnd :=
  let dev := r.rdev.toNat
  let n := r.rowLen i
  let put := fun (s : State) (x : RemoteResult) (d : List Byte) =>
    if x = .ok then putRow s core uid c k r.dstScratch (r.rowDst i 0) (d.take n ++ List.replicate (n - d.length) 0)
    else .fault s (0x118 + RemoteResult.param x) false
  if s.dev.domain = 0x3FF then put s .unreachable []
  else if dev = s.dev.domain.toNat then
    if overdue s core k.born then put s .lost []
    else match serve s k.tag (r.rowSrc i 0) n false [] with
    | none => .held
    | some x => put x.1 x.2.1 x.2.2
  else if !reachable s dev then put s .unreachable []
  else match reply with
    | none => .held
    | some x => if (x.1 = .lost) != overdue s core k.born then .held else put s x.1 x.2

/-- A row of a remote write (R331). One to this device itself that could not be made in time is lost like any other (R456). -/
def remoteWriteRow (s : State) (core uid : Nat) (c : Crew) (k : Cmd) (r : CmdRec) (i : Nat) : RowEnd :=
  let dev := r.rdev.toNat
  match getRow s core uid c k.id r.srcScratch (r.rowSrc i 0) (r.rowLen i) with
  | .inl e => e
  | .inr (s, d) =>
    if s.dev.domain = 0x3FF then .fault s 0x118 false
    else if dev = s.dev.domain.toNat then
      if overdue s core k.born then .fault s 0x11A false
      else match serve s (fld (s.ctx c.ctx).rtag 0 16) (r.rowDst i 0) d.length true d with
      | none => .held
      | some x => if x.2.1 = .ok then .done x.1 0 0 else .fault x.1 (0x118 + RemoteResult.param x.2.1) false
    else if !reachable s dev then .fault s 0x118 false
    else .sent s

/-! ### Packing (R280) -/

/-- The slot each survivor's token leaves, in position order: the tokens lie as the survivors of the last pack and the appends since place them (R142). -/
def packSlots (b : List Byte) (old : W64) : List Nat := (lanesOf (kvSurv b)).map fun i => popc old i

/-- The new scale of a page and group: the largest old scale of the tokens that land there, 0 without any. -/
def packScale (b : List Byte) (slots : List Nat) (p hv g : Nat) : Nat :=
  ((slots.drop (16 * p)).take 16).foldl (fun m o => max m (kvScale b (o / 16) hv g)) 0

/-- The bytes of a page after packing. -/
def packPage (b : List Byte) (slots : List Nat) (pages : List (List Byte)) (p : Nat) : List Byte :=
  let mine := (slots.drop (16 * p)).take 16
  (List.range 16).foldl (fun page t =>
    match mine[t]? with
    | none => page
    | some o =>
      (List.range 8).foldl (fun page k =>
        let hv := k / 4
        let g := k % 4
        let j := ((pages[o / 16]?.getD []).drop (2048 * hv + 128 * (o % 16) + 32 * g)).take 32
        patch page (2048 * hv + 128 * t + 32 * g) (j.map fun x => shiftMant x (packScale b slots p hv g - kvScale b (o / 16) hv g))) page)
    (pages[p]?.getD [])

/-- The header after packing. -/
def packHeader (b : List Byte) (slots : List Nat) : List Byte :=
  let b' := (List.range 4).foldl (fun l p =>
    patch l (40 + 8 * p) ((List.range 8).map fun k => BitVec.ofNat 8 (packScale b slots p (k / 4) (k % 4)))) b
  patch b' 75 [BitVec.ofNat 8 (kvFlags b % 2)]

/-- The places of the header and of the four pages; a page without an address has none. -/
def packPlaces (s : State) (c : Crew) (hv : W64) : RowEnd ⊕ (State × List Nat × List (Option (List Nat))) :=
  let fails := fun (r : Nat) (f : XFault) => if f.line?.isSome then RowEnd.held else .fault s (rowCause r f) false
  match useBytes s c.core c.ctx hv .w 128 with
  | .error f => .inl (fails 3 f.1)
  | .ok (s, ha) =>
    let s := applyBytes s ha
    let b := ha.map fun a => s.latest .phys a
    (List.range 4).foldl (fun r p => match r with
      | .inl e => .inl e
      | .inr (s, ha, ps) =>
        if kvPage b p = 0 then .inr (s, ha, ps ++ [none])
        else match useBytes s c.core c.ctx (kvPage b p) .w 4096 with
          | .error f => .inl (fails 1 f.1)
          | .ok (s, as) => .inr (s, ha, ps ++ [some as])) (.inr (s, ha, []))

/-- Packs a block: its tokens move, then one header step clears the unpacked bit (R280). Its header and pages are sources of the engine (R357). -/
def packRow (s : State) (uid : Nat) (c : Crew) (hv : W64) : RowEnd :=
  match packPlaces s c hv with
  | .inl e => e
  | .inr (s, ha, ps) =>
    let r := engineLatest s c ha
    let b := r.2.1
    if r.2.2 then .fault r.1 0x11C false
    else if kvCorrupt (kvPlaced r.1 (ha.headD 0) b) b || !kvUnpacked b then .done r.1 0 0
    else
      let key := ha.headD 0
      let slots := packSlots b (kvPlaced r.1 key b)
      let got := ps.foldl (fun (q : State × List (List Byte) × Bool) p => match p with
        | none => (q.1, q.2.1 ++ [[]], q.2.2)
        | some as =>
          let e := engineLatest q.1 c as
          (e.1, q.2.1 ++ [e.2.1], q.2.2 || e.2.2)) (r.1, [], false)
      let s := got.1
      let pages := got.2.1
      if got.2.2 then .fault s 0x11C false else
      let s := (List.range 4).foldl (fun s p => match ps[p]? with
        | some (some as) => engineWrite s uid c .phys (kvPage b p) (as.zip (packPage b slots pages p))
        | _ => s) s
      let s := engineWrite s uid c .phys hv (ha.zip (packHeader b slots))
      .done { s with kvOld := Tbl.erase s.kvOld key } 0 0

/-! ### Finishing rows -/

/-- Performs row `i` of a command (Table 5.5, R289, R280). -/
def performRow (s : State) (core : Nat) (c : Crew) (k : Cmd) (i : Nat) (reply : Option (RemoteResult × List Byte)) : RowEnd :=
  let uid := k.crew
  match k.kind with
  | .pack hv => packRow s uid c hv
  | .gather srcs dst e =>
    match srcs[i]? with
    | none => .held
    | some (lane, va) =>
      match getRow s core uid c k.id false va e with
      | .inl x => x
      | .inr (s, d) => putRow s core uid c k true (BitVec.ofNat 64 (dst + e * lane)) d
  | .record _ r =>
    match r.op with
    | 3 => putRow s core uid c k r.dstScratch (r.rowDst i 0) (fillRow r (r.rowLen i))
    | 4 => if (List.range i).all k.done.contains then fingerprintRow s core uid c k r i else .held
    | 5 => if (List.range i).all k.done.contains then compareRow s core uid c k r i else .held
    | 6 => remoteReadRow s core uid c k r i reply
    | 7 => remoteWriteRow s core uid c k r i
    | op =>
      let ix := if op = 0 then .inr (s, 0) else indexOf s core uid c k.id k.index r i
      match ix with
      | .inl e => e
      | .inr (s, x) =>
        match getRow s core uid c k.id r.srcScratch (r.rowSrc i x) (r.rowLen i) with
        | .inl e => e
        | .inr (s, d) => putRow s core uid c k r.dstScratch (r.rowDst i x) d

/-- The command has finished (Table 5.3): in mode 2 it arrives once. -/
def finishCmd (s : State) (core : Nat) (c : Crew) (k : Cmd) : State :=
  let s := match k.bar with
    | none => s
    | some off => objStep s k.crew c off k.kind.recoff fun o =>
        if objMode o = 2 then
          let o := setFld o 0 36 (objPending o + (2 ^ 36 - 1))
          if objExpected o ≠ 0 ∧ 2 ^ 16 ≤ objArrived o + 1 then objError' o 0x0F2 k.kind.recoff else objArrive o 1
        else o
  dropCmd s core k

/-- Rows have finished (R135): their lines are free and their counts leave the barrier; with the last one the command is finished. -/
def finishRows (s : State) (core : Nat) (c : Crew) (k : Cmd) (rows : List Nat) (crc diff : W64) : State :=
  let done := k.done ++ rows
  let own := k.own.filter fun l => k.own.any fun m => m.1 == l.1 && !done.contains m.2
  let k' := { k with done := done, own := own, crc := crc, diff := diff, sent := k.sent.filter fun e => !rows.contains e.1 }
  let s := s.onCmd core k.id fun _ => k'
  let s := acked s k rows.length
  let s := match k.bar with
    | none => s
    | some off => objStep s k.crew c off k.kind.recoff fun o =>
        if objMode o ≤ 1 then objFinish o (rows.foldl (fun n i => n + k.kind.rowCount (objMode o) i) 0) else o
  if k'.rows ≤ done.length then finishCmd s core c k' else s

/-- The resume form of a record from row `f` on (Table 5.17). -/
def CmdRec.resume (r : CmdRec) (f : Nat) : CmdRec :=
  let up := fun (b : W64) (n : Nat) => b + BitVec.ofNat 64 (f * n)
  let ops := fun (l : List Nat) => l.contains r.op
  { r with
    src := if ops [0, 2, 4, 5, 6, 7] then up r.src r.sstride else r.src,
    dst := if ops [0, 1, 3, 5, 6, 7] then up r.dst r.dstride else r.dst,
    idx := if ops [1, 2] then up r.idx r.isz else r.idx,
    icount := if ops [1, 2] then r.icount - f else r.icount,
    rows := r.rows - f, flags := r.flags ||| 0x200 }

/-- Writes what Table 5.17 writes before the rewrite: the fingerprint or the result so far; a place that cannot be written gets nothing. -/
def writeSoFar (s : State) (core : Nat) (c : Crew) (k : Cmd) (r : CmdRec) : State :=
  let e := match r.op with
    | 4 => if r.cont && k.done.isEmpty then RowEnd.held else putResult s core k.crew c k r.dstScratch r.dst k.crc 0 0
    | 5 => if r.cont && k.done.isEmpty then RowEnd.held else putResult s core k.crew c k false r.idx k.diff 0 0
    | _ => .held
  match e with
  | .done s _ _ => s
  | _ => s

/-- The bytes of a record that its rewrite changes, by offset (R287). -/
def rewriteBytes (r : CmdRec) : List (Nat × List Byte) :=
  let b := r.bytes
  let part := fun (lo n : Nat) => (lo, (b.drop lo).take n)
  let ops := fun (l : List Nat) => l.contains r.op
  (if ops [0, 2, 4, 5, 6, 7] then [part 0 8] else []) ++ (if ops [0, 1, 3, 5, 6, 7] then [part 8 8] else []) ++ [part 20 4]
    ++ (if ops [1, 2] then [part 40 8, part 48 4] else []) ++ [part 54 2]

/-- Rewrites a record in place as its resume form from row `f` on (R136). -/
def rewriteRecord (s : State) (core : Nat) (c : Crew) (k : Cmd) (f : Nat) : State :=
  match k.kind with
  | .record off r =>
    (rewriteBytes (r.resume f)).foldl (fun s p => crewStore s k.crew c (off + p.1) p.2) (writeSoFar s core c k r)
  | _ => s

/-- Rows of a failing command that were sent and are not answered, but for row `f`: they stay outstanding (R331). -/
def lateRows (k : Cmd) (f : Nat) : List LateRow :=
  match k.kind with
  | .record _ r => (k.sent.filter fun e => e.1 != f).map fun e => { cmd := k.id, row := e.1, crew := k.crew, pair := k.pair, dev := r.rdev.toNat, sent := e.2 }
  | _ => []

/-- An engine fault at row `f` (R136, R290): the record is rewritten if the fault is of translation, and the remainder, the counts not yet subtracted, leaves the barrier with the cause (log 24). Rows that were not sent, and row `f`, are no more to be acknowledged (R331). -/
def engineFault (s : State) (core : Nat) (c : Crew) (k : Cmd) (f cause : Nat) (rewrite : Bool) : State :=
  let s := if rewrite then rewriteRecord s core c k f else s
  let mode := barMode s c k.bar
  let gone := if mode ≤ 1 then k.done.foldl (fun n i => n + k.kind.rowCount mode i) 0 else 0
  let s := failStep s k.crew k.pair c k.bar cause k.kind.recoff (k.kind.total mode - gone)
  let late := lateRows k f
  let s := dropCmd (acked s k (k.rows - k.done.length - late.length)) core k
  let x := s.core core
  if late.isEmpty then s else s.setCore core { x with late := x.late ++ late }

/-- Rows finish one after another until one faults: the state, and the row that faults with its cause, or none when the rest has to wait. -/
def runRows (s : State) (core : Nat) (c : Crew) (id : Nat) : List Nat → State × Bool × Option (Nat × Nat × Bool)
  | [] => (s, true, none)
  | i :: is =>
    match (s.core core).cmd? id with
    | none => (s, false, none)
    | some k =>
      match if barFree s core id c k.bar then performRow s core c k i none else .held with
      | .held => (s, false, none)
      | .fault s cause rw => (s, true, some (i, cause, rw))
      | .sent s =>
        let s := s.onCmd core id fun k => { k with sent := k.sent ++ [(i, (s.core core).cyc.toNat)] }
        runRows s core c id is
      | .done s crc diff => runRows (finishRows s core c k [i] crc diff) core c id is
      | .all s => (s, false, none)

/-- The fault of row `i` is taken once every earlier row has finished (R136). -/
def faultAt (s : State) (core : Nat) (c : Crew) (id i cause : Nat) (rw : Bool) : State :=
  match (s.core core).cmd? id with
  | none => s
  | some k => if (List.range i).all k.done.contains then engineFault s core c k i cause rw else s

/-- A row faults: the rows before it finish first, and the lowest that faults is the one (R136). -/
def rowFault (s : State) (core : Nat) (c : Crew) (k : Cmd) (i cause : Nat) (rw : Bool) : State :=
  let before := (List.range i).filter fun j => !k.done.contains j && !k.sent.any (·.1 == j)
  match runRows s core c k.id before with
  | (s, false, _) => s
  | (s, true, some (j, cause, rw)) => faultAt s core c k.id j cause rw
  | (s, true, none) => faultAt s core c k.id i cause rw

/-- ENGINE_ROW_FINISH (R135, R136). -/
def execEngineRowFinish (core cmd row : Nat) (r : RemoteResult) (data : List Byte) (s : State) : Host.Outcome State Fault Refusal :=
  orSame s (
    match (s.core core).cmd? cmd with
    | none => none
    | some k =>
      match placedPair s k.crew k.pair with
      | none => none
      | some (c, _) =>
        if k.rows ≤ row || k.done.contains row || k.sent.any (·.1 == row) || !barFree s core cmd c k.bar then none
        else
          match performRow s core c k row (some (r, data)) with
          | .held => none
          | .fault s cause rw => some (rowFault s core c k row cause rw)
          | .sent s => some (s.onCmd core cmd fun k => { k with sent := k.sent ++ [(row, (s.core core).cyc.toNat)] })
          | .done s crc diff => some (finishRows s core c k [row] crc diff)
          | .all s => some (finishRows s core c k ((List.range k.rows).filter fun i => !k.done.contains i) 0 0))

/-- The outcome of a remote request: a device that cannot be reached answers nothing (R453, R454), a loss comes when the time is over, and nothing else after it (R456). -/
def outcome (s : State) (core dev sent : Nat) (r : RemoteResult) : Option RemoteResult :=
  if !reachable s dev then some .unreachable else if (r = .lost) != overdue s core sent then none else some r

/-- What becomes of a remote write row that was sent (R331). A row of a command that has failed before only counts as acknowledged. -/
def rowAnswer (s : State) (core cmd row : Nat) (r : RemoteResult) : Option State :=
  let x := s.core core
  match x.late.find? fun l => l.cmd == cmd && l.row == row with
  | some l =>
    (outcome s core l.dev l.sent r).map fun _ =>
      (s.setCore core { x with late := x.late.filter (· != l) }).onWarp l.crew l.pair .access fun w => { w with acks := w.acks - 1 }
  | none =>
    match x.cmd? cmd with
    | none => none
    | some k =>
      match placedPair s k.crew k.pair, k.kind, k.sent.find? (·.1 == row) with
      | some (c, _), .record _ rc, some e =>
        if !barFree s core cmd c k.bar then none
        else match outcome s core rc.rdev.toNat e.2 r with
        | none => none
        | some .ok => some (finishRows s core c k [row] 0 0)
        | some r => some (engineFault s core c k row (0x118 + RemoteResult.param r) false)
      | _, _, _ => none

/-- REMOTE_WRITE_ACK (R331). -/
def execRemoteWriteAck (core cmd row : Nat) (r : RemoteResult) (s : State) : Host.Outcome State Fault Refusal :=
  orSame s (rowAnswer s core cmd row r)

/-- REMOTE_TIMEOUT (R456). -/
def execRemoteTimeout (r : RemoteRef) (s : State) : Host.Outcome State Fault Refusal :=
  orSame s (match r with
    | .lane crew pair load lane => laneTimeout s crew pair load lane
    | .row core cmd row => rowAnswer s core cmd row .lost)

/-- The device of a command's remote requests can be reached. -/
def Cmd.reached (s : State) (k : Cmd) : Bool :=
  match k.kind with
  | .record _ r => reachable s r.rdev.toNat
  | _ => true

/-- PORT_DOWN (R454): a port that goes down leaves every mask; what is outstanding to a device that no port reaches any more fails. -/
def execPortDown (port : Nat) (s : State) : Host.Outcome State Fault Refusal :=
  let s := { s with dev := { s.dev with ports := s.dev.ports &&& ~~~(BitVec.ofNat 8 (2 ^ port)) } }
  let lanes := s.crews.flatMap fun e => e.2.pairs.flatMap fun p => p.2.acc.loads.flatMap fun l => match l.remote with
    | none => []
    | some dev => if dev = s.dev.domain.toNat || reachable s dev then [] else l.lanes.map fun x => (e.1, p.1, l, x.lane)
  let s := lanes.foldl (fun s x => s.onPair x.1 x.2.1 fun p => deliverLane p x.2.2.1 x.2.2.2 0 true) s
  let rows := s.cores.flatMap fun k =>
    ((k.2.cmds.filter fun c => !Cmd.reached s c).flatMap fun c => c.sent.map fun e => (k.1, c.id, e.1)) ++
      (k.2.late.filter fun l => !reachable s l.dev).map fun l => (k.1, l.cmd, l.row)
  .next (rows.foldl (fun s x => (rowAnswer s x.1 x.2.1 x.2.2 .unreachable).getD s) s)

/-! ### Acceptance (R286 to R290, R328, R329) -/

/-- The lines a command takes, each with the row that frees it (R329). -/
def takenLines (s : State) (c : Crew) (k : CmdKind) (index : Tbl W64) : List (Nat × Nat) :=
  let tag := fun (row : Nat) (l : List Nat) => l.map fun x => (x, row)
  match k with
  | .gather srcs dst e => (List.range srcs.length).flatMap fun i =>
      match srcs[i]? with
      | none => []
      | some x => tag i (takeLines s c true (BitVec.ofNat 64 (dst + e * x.1)) e)
  | .pack hv =>
    let b := match useBytes s c.core c.ctx hv .w 128 with
      | .error _ => []
      | .ok (s, as) => as.map fun a => (applyBytes s as).latest .phys a
    tag 0 (takeLines s c false hv 128 ++ (List.range 4).flatMap fun p => if kvPage b p = 0 then [] else takeLines s c false (kvPage b p) 4096)
  | .record _ r =>
    match r.op with
    | 0 | 1 | 3 | 6 => (List.range r.rows).flatMap fun i => tag i (takeLines s c r.dstScratch (r.rowDst i 0) (r.rowLen i))
    | 2 => index.flatMap fun e => tag e.1 (takeLines s c r.dstScratch (r.rowDst e.1 e.2) (r.rowLen e.1))
    | 4 => tag (r.rows - 1) (takeLines s c r.dstScratch r.dst 8)
    | 5 => tag (r.rows - 1) (takeLines s c false r.idx 8)
    | _ => []

/-- The indices that acceptance reads: a scatter's (R329), and those of a gather whose source is the scratchpad (R134). An entry that cannot be read is left to its row; none while a command owns a line of them. -/
def readIndices (s : State) (core uid : Nat) (c : Crew) (r : CmdRec) : List Nat → Option (State × Tbl W64)
  | [] => some (s, [])
  | i :: is =>
    match indexOf s core uid c (s.core core).nextCmd [] r i with
    | .inl .held => none
    | .inl _ => readIndices s core uid c r is
    | .inr (s, x) => (readIndices s core uid c r is).map fun q => (q.1, (i, x) :: q.2)

/-- The acceptance step on the barrier (Table 5.3, R131): the state, and whether the command runs. -/
def acceptStep (s : State) (uid : Nat) (c : Crew) (bar : Option Nat) (k : CmdKind) (cont : Bool) : State × Bool :=
  match bar with
  | none => (s, true)
  | some off =>
    let s := crewMet s c off 16
    let o := readObj s c off
    let n := if objMode o = 2 then 1 else k.total (objMode o)
    if objCorrupt o then (writeObj s uid c off (objError' o 0x0F3 k.recoff), false)
    else if 2 ^ 36 ≤ objPending o + n then (writeObj s uid c off (objError' o 0x0F2 k.recoff), false)
    else
      let o := setFld o 0 36 (objPending o + n)
      (writeObj s uid c off (if cont then objCleared o else o), true)

/-- Enters an accepted command. -/
def enterCmd (s : State) (core : Nat) (c : Crew) (p : Post) (k : CmdKind) (bar : Option Nat) (own : List (Nat × Nat)) (index : Tbl W64) :
    State :=
  let x := s.core core
  let cmd : Cmd := { id := x.nextCmd, crew := p.crew, pair := p.pair, kind := k, bar := bar, rows := k.rows, done := [], own := own,
                     index := index, crc := 0, diff := 0, sent := [], tag := fld (s.ctx c.ctx).rtag 0 16, born := x.cyc.toNat }
  let s := s.setCore core { x with cmds := x.cmds ++ [cmd], nextCmd := x.nextCmd + 1 }
  let s := s.onPair p.crew p.pair fun q => if p.resume then q else { q with status := statusCount q.status true }
  let s := if k.remoteWrite then s.onWarp p.crew p.pair .access fun w => { w with acks := w.acks + k.rows } else s
  match k with
  | .pack hv =>
    match packPlaces s c hv with
    | .inl (.fault s cause _) => match (s.core core).cmd? cmd.id with
      | none => s
      | some y => engineFault s core c y 0 cause false
    | _ => s
  | _ => s

/-- Accepts a command that passed its checks, unless another command owns a line it takes, or the line of its barrier object, or accesses that arrived before it wait there (R353). -/
def acceptCmd (s : State) (core : Nat) (c : Crew) (p : Post) (k : CmdKind) (bar : Option Nat) (cont : Bool) (index : Tbl W64) : Option State :=
  let own := takenLines s c k index
  let id := (s.core core).nextCmd
  if !(if k.result then resultFree else freeOf) s core id (own.map (·.1)) || waitsBehind s (own.map (·.1)) none || !barFree s core id c bar then none
  else if p.resume then some (enterCmd s core c p k bar own index)
  else
    let r := acceptStep s p.crew c bar k cont
    some (if r.2 then enterCmd r.1 core c p k bar own index else r.1)

/-- Accepts a record: it is read once, checked, and run (R134, R286, R287); a resume posts the record of the image (R414). -/
def acceptRecord (s : State) (core : Nat) (c : Crew) (p : Post) (off : Nat) : Option State :=
  let lines := takeLines s c true (BitVec.ofNat 64 off) 64
  if !freeOf s core (s.core core).nextCmd lines then none
  else
    let s := if p.bytes.isEmpty then crewMet s c off 64 else s
    let r := CmdRec.ofBytes (if p.bytes.isEmpty then crewBytes s p.crew c off 64 else p.bytes)
    let bar := if r.bar = 0xFFFFFFFF then none else some r.bar.toNat
    let fail := fun (s : State) (cause : Nat) => s.onPair p.crew p.pair fun q => { q with status := statusFail q.status cause (off / 64) }
    if (match bar with | none => false | some b => !barrierOk c b) then some (fail s 0x0F4)
    else if !barFree s core (s.core core).nextCmd c bar then none
    else
      match r.malformed c.kern.scratch [] with
      | some n => some (failStep s p.crew p.pair c bar (0x110 + n) (off / 64) 0)
      | none =>
        let wants := r.op == 2 || (r.op == 1 && r.srcScratch)
        match readIndices s core p.crew c r (if wants then List.range r.rows else []) with
        | none => none
        | some (s, index) =>
          match r.malformed c.kern.scratch index with
          | some n => some (failStep s p.crew p.pair c bar (0x110 + n) (off / 64) 0)
          | none => acceptCmd s core c p (.record off r) bar r.cont index

/-- COMMAND_ACCEPTANCE (R286): the oldest posted command of a core, unless 256 are unfinished or a line it needs is owned. -/
def execCommandAcceptance (core : Nat) (s : State) : Host.Outcome State Fault Refusal :=
  orSame s (
    let k := s.core core
    match k.posts with
    | [] => none
    | p :: rest =>
      if 256 ≤ k.cmds.length then none
      else
        let s := s.setCore core { k with posts := rest }
        match placedPair s p.crew p.pair with
        | none => some s
        | some (c, _) =>
          match p.kind with
          | .record off _ => acceptRecord s core c p off
          | .gather _ _ _ => acceptCmd s core c p p.kind p.bar p.cont []
          | .pack _ =>
            if (match p.bar with | none => false | some b => !barrierOk c b) then
              some (s.onPair p.crew p.pair fun q => { q with status := statusFail q.status 0x0F4 0x7FFFFF })
            else acceptCmd s core c p p.kind p.bar p.cont [])

/-- A list without the first `n` elements equal to one. -/
def takeEqual (o : BankOp) : (n : Nat) → List BankOp → List BankOp
  | 0, l => l
  | _, [] => []
  | n + 1, x :: xs => if x = o then takeEqual o n xs else x :: takeEqual o (n + 1) xs

/-- MATRIX_PASS (R264): the bank takes its oldest instruction, and with it every other that waits on the same slot with the same opcode, formats and flush, up to four; those of an `mmac` stay for a second pass. -/
def execMatrixPass (core bank : Nat) (s : State) : Host.Outcome State Fault Refusal :=
  orSame s (
    let k := s.core core
    match k.banks[bank]? with
    | some (o :: os) =>
      let n := 1 + min 3 (os.filter (· == o)).length
      let again := if o.opcode = 0x2C4 ∧ o.second = false then List.replicate n { o with second := true } else []
      some (s.setCore core { k with banks := k.banks.set bank (again ++ takeEqual o 3 os) })
    | _ => none)

end Sys2Proof.Machine
end

