-- ==== Sys2Proof/Machine/Place.lean ====
section
/-! DEFINITION. Crews on cores: resources (R379), grants (R380), pipes and registers at the start of a warp pair (R381, R98, R99), the continuation packer (R385), re-slicing (R20, R21), waking a core (R387). -/
namespace Sys2Proof.Machine

/-! ### Gating (R386, R387) -/

/-- An event wakes a gated core; of several in one cycle the lowest value stands. -/
def wakeCore (s : State) (core reason : Nat) : State :=
  let k := s.core core
  if k.gated then s.setCore core { k with gated := false, idle := 0, waking := 24, wake := BitVec.ofNat 32 reason }
  else if k.waking = 24 ∧ reason < k.wake.toNat then s.setCore core { k with wake := BitVec.ofNat 32 reason }
  else s

/-! ### Resources of a core (R379) -/

/-- The crews placed on a core. -/
def State.onCore (s : State) (core : Nat) : List (Nat × Crew) := s.crews.filter fun e => e.2.core == core && e.2.saved.isNone

/-- Queue memory of a warp pair at a grant (R342). -/
def queueBytes (k : Kernel) (g : Nat) : Nat :=
  roundUp (k.queues.foldl (fun n q => match q with
    | none => n
    | some x => n + x.2 * g * 4) 0) 256

/-- Warp pairs of a crew of `t` threads at a grant (R16). -/
def pairsAt (t g : Nat) : Nat := (t + (g - 1)) / g

/-- Sum over a list. -/
def sumOf {α : Type} (f : α → Nat) (l : List α) : Nat := l.foldl (fun n x => n + f x) 0

/-- Two ranges of numbers meet; an empty one meets none. -/
def rangesMeet (a b : Nat × Nat) : Bool := decide (a.1 < b.1 + b.2) && decide (b.1 < a.1 + a.2) && decide (0 < a.2) && decide (0 < b.2)

/-- A range lies within `limit` and meets none of those in use. -/
def rangeFree (used : List (Nat × Nat)) (limit : Nat) (r : Nat × Nat) : Bool := decide (r.1 + r.2 ≤ limit) && !used.any (rangesMeet r)

/-- The lowest free offset that is a multiple of `align`. -/
def lowestFree (used : List (Nat × Nat)) (align size limit : Nat) : Option Nat :=
  minBy (fun a b => decide (a < b)) ((0 :: used.map fun u => roundUp (u.1 + u.2) align).filter fun o => rangeFree used limit (o, size))

/-- The highest free offset that is a multiple of `align`. -/
def highestFree (used : List (Nat × Nat)) (align size limit : Nat) : Option Nat :=
  minBy (fun a b => decide (b < a))
    ((((limit :: used.map (·.1)).filter fun e => decide (size ≤ e)).map fun e => (e - size) / align * align).filter fun o => rangeFree used limit (o, size))

/-- Bytes of a core's scratchpad (R343). -/
def scratchBytes : Nat := 4317184

/-- Bytes of a work deque (R379 item 5). -/
def dequeBytes (cap : Nat) : Nat := 64 + 64 * cap

/-- Scratchpad ranges in use on a core, but those of one crew. -/
def scratchUsed (s : State) (core : Nat) (own : Option Nat) : List (Nat × Nat) :=
  ((s.onCore core).filter fun e => own != some e.1).map (fun e => (e.2.scratch, roundUp e.2.kern.scratch 256))
    ++ (s.core core).deques.map fun d => (d.off, dequeBytes d.cap)

/-- Ranges of a context's backing-store pool in use, as offsets from its base, but the runs of one crew. -/
def runsUsed (s : State) (ctx : Nat) (own : Option Nat) : List (Nat × Nat) :=
  let base := (s.ctx ctx).bspool.toNat
  (s.crews.filter fun e => e.2.ctx == ctx && own != some e.1).flatMap fun e =>
    (e.2.run.toNat - base, e.2.runLen) :: (e.2.pairs.filter (·.2.packed)).map fun p =>
      (p.2.area.toNat - base, areaBytes e.2.grant e.2.kern.nv)

/-- What a crew asks of a core: its launch and kernel, a scratchpad offset it must have, a backing-store run it has at one grant. -/
structure Wanted where
  ctx : Nat
  launch : Nat
  cap : Nat
  kern : Kernel
  threads : Nat
  fixed : Option Nat
  keeps : Option (Nat × W64 × Nat)
  /-- warp pairs that the packer started, which it keeps at its own grant (R385) -/
  packed : Nat := 0
  deriving DecidableEq, Repr

/-- Where a crew goes on a core. -/
structure Spot where
  scratch : Nat
  deque : Option Nat
  run : W64
  runLen : Nat
  deriving DecidableEq, Repr

/-- The scratchpad of a crew and of its launch's deque on a core (R379 items 4 and 5). A crew without scratchpad takes offset 0. -/
def fitScratch (s : State) (core : Nat) (own : Option Nat) (q : Wanted) : Option (Nat × Option Nat) :=
  let used := scratchUsed s core own
  let size := roundUp q.kern.scratch 256
  let off := match q.fixed with
    | some o => if size = 0 || rangeFree used scratchBytes (o, size) then some o else none
    | none => if size = 0 then some 0 else lowestFree used 256 size scratchBytes
  match off with
  | none => none
  | some o =>
    if q.cap = 0 ∨ ((s.core core).deques.any (·.launch == q.launch)) = true then some (o, none)
    else (highestFree ((o, size) :: used) 64 (dequeBytes q.cap) scratchBytes).map fun d => (o, some d)

/-- The backing-store run of a crew (R379 item 8). -/
def fitRun (s : State) (own : Option Nat) (q : Wanted) (g : Nat) : Option (W64 × Nat) :=
  let fresh := fun (_ : Unit) =>
    let n := pairsAt q.threads g * areaBytes g q.kern.nv
    let c := s.ctx q.ctx
    (lowestFree (runsUsed s q.ctx own) 4096 n c.bssize.toNat).map fun o => (c.bspool + BitVec.ofNat 64 o, n)
  match q.keeps with
  | some (g0, r, n) => if g0 = g then some (r, n) else fresh ()
  | none => fresh ()

/-- Items 1 to 3, 6 and 7 of R379 for `w` warp pairs at grant `g`, with the resources of crew `own` counted as free. -/
def fitCounts (s : State) (core : Nat) (own : Option Nat) (k : Kernel) (w g : Nat) : Bool :=
  let cs := (s.onCore core).filter fun e => own != some e.1
  decide (sumOf (fun e => e.2.pairs.length) cs + w ≤ 48)
    && decide (sumOf (fun e => e.2.pairs.length * e.2.grant) cs + w * g ≤ 3072)
    && decide (sumOf (fun e => e.2.pairs.length * queueBytes e.2.kern e.2.grant) cs + w * queueBytes k g ≤ 786432)
    && decide (sumOf (fun e => e.2.kern.ns) cs + k.ns ≤ 512)
    && decide (sumOf (fun e => e.2.kern.ta) cs + k.ta ≤ 42)

/-- A crew fits on a core at a grant (R379). -/
def fit (s : State) (core : Nat) (own : Option Nat) (q : Wanted) (g : Nat) : Option Spot :=
  let w := pairsAt q.threads g + (match q.keeps with
    | some (g0, _, _) => if g0 = g then q.packed else 0
    | none => 0)
  if 48 < w ∨ fitCounts s core own q.kern w g = false then none
  else
    match fitScratch s core own q, fitRun s none q g with
    | some x, some r => some { scratch := x.1, deque := x.2, run := r.1, runLen := r.2 }
    | _, _ => none

/-- The grants, narrow to wide. -/
def grants : List Nat := [8, 16, 32, 64]
/-- The place of a grant in their order. -/
def grantIndex (g : Nat) : Nat := if g = 8 then 0 else if g = 16 then 1 else if g = 32 then 2 else 3
/-- Distance of two grants in the order 8, 16, 32, 64. -/
def grantGap (a b : Nat) : Nat := grantIndex a - grantIndex b + (grantIndex b - grantIndex a)

/-- ChooseGrant (R380): the fitting grant nearest to the preferred one among those allowed, and of two equally near the wider. -/
def chooseGrant (s : State) (core : Nat) (own : Option Nat) (q : Wanted) (ok : Nat → Bool) (pref : Nat) : Option (Nat × Spot) :=
  let cands := (grants.filter ok).filterMap fun g => (fit s core own q g).map fun x => (g, x)
  minBy (fun a b => decide (grantGap a.1 pref < grantGap b.1 pref) || (decide (grantGap a.1 pref = grantGap b.1 pref) && decide (b.1 < a.1))) cands

/-- The cores of the device (Table 0.2). -/
def coreNumbers : List Nat := List.range 96

/-- The core a crew goes to, of those it may have, with its grant (R381). -/
def chooseCore (s : State) (may : Nat → Bool) (q : Wanted) (ok : Nat → Bool) (pref : Nat) : Option (Nat × Nat × Spot) :=
  let all := (coreNumbers.filter may).filterMap fun c => (chooseGrant s c none q ok pref).map fun x => (c, x)
  let best := all.filter fun x => x.2.1 == pref
  let from_ := if best.isEmpty then all else best
  minBy (fun a b =>
    let n := fun (c : Nat) => sumOf (fun e => e.2.pairs.length) (s.onCore c)
    decide (n a.1 < n b.1) || (decide (n a.1 = n b.1) && decide (a.1 < b.1))) from_

/-! ### Starting warp pairs (R381, R98, R99) -/

/-- The pipe with the fewest bound warps, but those of one crew. -/
def freePipe (s : State) (core : Nat) (own : Option Nat) : Nat :=
  let bound := fun (p : Nat) => sumOf (fun e => (e.2.pairs.filter fun x => !x.2.exe.ended && x.2.exe.pipe == p).length)
    ((s.onCore core).filter fun e => own != some e.1)
  (minBy (fun a b => decide (bound a < bound b)) (List.range 4)).getD 0

/-- The pipe of warp `w` (R381). -/
def pipeOf (f w g : Nat) : Nat := (f + w / (if g = 8 then 4 else if g = 16 then 2 else 1)) % 4

/-- Bytes of the parameter block, zero beyond its length (R98). -/
def paramWord (ps : List Byte) (n j : Nat) : Nat := bytesAt ps (n * j) n

/-- A warp that starts at an address. -/
def Warp.start (pc mask : W64) (pipe now : Nat) : Warp :=
  { splits := [(0, { Split.start pc mask with readyAt := now })], nextSplit := 1, dead := 0, v := [], s := [], a := [], c := [], k := [],
    fflags := [], role := 0, tctl := 0, holdSplits := none, holdPair := none, pipe := pipe, ended := false, seq := 0, stores := [], loads := [],
    acks := 0, maint := 0, seen := 0, rejects := 0, aged := false }

/-- The queues a kernel declares, empty. -/
def emptyQueues (k : Kernel) : Tbl Queue :=
  (List.range 16).filterMap fun n => match k.queues[n]? with
    | some (some (dir, depth)) => some (n, { dir := dir, depth := depth, entries := [], nf := false, re := false, addrs := [] })
    | _ => none

/-- A warp pair at its start: Table 3.3 in its c and s registers, a payload for each lane of a packed one (R98, R99). -/
def startPair (c : Crew) (apc xpc live : W64) (pipe now : Nat) (area : W64) (payloads : List (List Byte)) : Pair :=
  let acc := Warp.start apc live pipe now
  let exe := Warp.start xpc live pipe now
  let cs := [(0, c.paddr), (1, BitVec.ofNat 64 c.plen), (2, BitVec.ofNat 64 c.scratch), (3, BitVec.ofNat 64 c.kern.scratch)]
    ++ (List.range 12).map fun j => (4 + j, BitVec.ofNat 64 (paramWord c.params 8 j))
  let acc := cs.foldl (fun w x => w.setC x.1 x.2) acc
  let exe := (List.range 32).foldl (fun w j => w.setS j (BitVec.ofNat 32 (paramWord c.params 4 j))) exe
  let acc := (List.range payloads.length).foldl (fun w l => (List.range 7).foldl (fun w j =>
    w.setA j l (BitVec.ofNat 64 (bytesAt (payloads[l]?.getD []) (8 * j) 8))) w) acc
  { acc := acc, exe := exe, queues := emptyQueues c.kern, status := 0, tagcnt := 0, xcps := [], area := area, live := live,
    packed := !payloads.isEmpty }

/-- The lanes of warp `w` that hold a thread (R16). -/
def liveLanes (threads w g : Nat) : W64 := maskN (min g (threads - w * g))

/-- A thread of a Portable Form program enters a region (R431): all threads run a parallel-for, thread 0 alone a serial region, at whose end the others stand. Word `n` has its address at the kernel's execute slice (log 4). -/
def Split.enter (base : W64) (r : Region) (tid now : Nat) (x : Split) : Split :=
  if r.par ∨ tid = 0 then { x with pc := base + BitVec.ofNat 64 (8 * r.first), wait := .ready, readyAt := now }
  else { x with pc := base + BitVec.ofNat 64 (8 * r.last), wait := .region }

/-- A warp pair as threads of a Portable Form program: one split for each lane of the execute warp, the lane's number its number, and an access warp that has ended. -/
def Pair.threads (p : Pair) (base : W64) (r : Region) (first now : Nat) : Pair :=
  let thread := fun (l : Nat) => (l, { Split.start 0 (laneBit l) with born := l }.enter base r (first + l) now)
  { p with acc := { p.acc with splits := [], ended := true }, exe := { p.exe with splits := (lanesOf p.live).map thread, nextSplit := 64 } }

/-- The warp pairs of a crew at its placement. -/
def startPairs (s : State) (c : Crew) : Tbl Pair :=
  let f := freePipe s c.core none
  let now := (s.core c.core).cyc.toNat
  (List.range (pairsAt c.threads c.grant)).map fun w =>
    let p := startPair c c.abase c.xbase (liveLanes c.threads w c.grant) (pipeOf f w c.grant) now
      (c.run + BitVec.ofNat 64 (w * areaBytes c.grant c.kern.nv)) []
    (w, match c.kern.prog.bind (·.regions.head?) with
      | none => p
      | some r => p.threads c.xbase r (w * c.grant) now)

/-- A crew's allocation is zero when it is placed: Table 18.9 step 9 has `binit` on a byte range that an earlier crew wrote (R482; log 75). -/
def clearScratch (s : State) (core off n : Nat) : State :=
  let inside := fun (a : Nat) => decide (off ≤ a) && decide (a < off + n)
  let k := s.core core
  { s.setCore core { k with scratch := Cells.keep k.scratch fun a => !inside a } with
    wide := s.wide.filter fun w => !(w.space == .scratch core && inside w.addr) }

/-- The registers above the bound of a warp pair that starts are zero (R98, R99): their places in its area are cleared, register by register. None while a line that this writes or walks through is waited for (R329, R353). A register that no translation reaches keeps what it holds, and an instruction that names it traps (R33; log 80). -/
def clearArea (s : State) (core ctx : Nat) (area : W64) (g nv : Nat) : Option State :=
  (List.range (nv - 80)).foldlM (fun s i =>
    match writeAt s core ctx (area + BitVec.ofNat 64 (saveAreaBytes g + 4 * g * i)) (List.replicate (4 * g) 0) with
    | .ok s => some s
    | .error f => if f.line?.isSome then none else some s) s

/-- A launch's deque is put into a core's scratchpad, empty (R139). -/
def addDeque (s : State) (core launch cap off : Nat) : State :=
  let k := s.core core
  let s := s.setCore core { k with deques := k.deques ++ [{ launch := launch, off := off, cap := cap, stopped := false }] }
  dqStore s .launch core 0 off (natToBytes 0 16 ++ natToBytes cap 4 ++ natToBytes 0 44)

/-! ### Continuation packing (R385) -/

/-- A warp of the crew waits at a crew-collective. -/
def atCollective (c : Crew) : Bool :=
  c.pairs.any fun p => (p.2.acc.splits ++ p.2.exe.splits).any fun x => match x.2.wait with
    | .collective _ => true
    | _ => false

/-- The crew that receives a record (R138). Of two that match the hint in its 16 bits the one placed first receives it, and a crew whose save has begun receives none (log 81). -/
def receiver (s : State) (core launch hint : Nat) : Option (Nat × Crew) :=
  let cs := (s.onCore core).filter fun e => e.2.launch == launch && !e.2.saving
  match cs.find? fun e => hint != 0xFFFF && decide (e.2.num.toNat % 65536 = hint) with
  | some e => some e
  | none => minBy (fun a b => decide (a.2.pairs.length < b.2.pairs.length)
      || (decide (a.2.pairs.length = b.2.pairs.length) && decide (a.2.num.toNat < b.2.num.toNat))) cs

/-- The record at the tail of a deque. -/
def tailRecord (s : State) (core : Nat) (d : Deque) : List Byte := coreBytes s core (dqSlot d (dqTail s core d - 1)) 64

/-- A record is counted in dropped (Table 5.8). -/
def countDropped (s : State) (core : Nat) (d : Deque) (n : Nat) : State :=
  let old := bytesToNat (coreBytes s core (d.off + 20) 4)
  dqStore s .launch core 0 (d.off + 20) (natToBytes (min (old + n) (2 ^ 32 - 1)) 4)

/-- The last crew of a launch has left a core, where none is placed or saved (R139, R415): what its deque holds is counted in dropped, and the deque goes. -/
def freeDeque (s : State) (core launch : Nat) : State :=
  if s.crews.any fun e => e.2.core == core && e.2.launch == launch then s
  else
    let s := ((s.core core).deques.filter (·.launch == launch)).foldl (fun s d => countDropped s core d (dqTail s core d - dqHead s core d)) s
    let k := s.core core
    s.setCore core { k with deques := k.deques.filter (·.launch != launch) }

/-- The context of a launch whose records are packed. -/
def launchCtx (s : State) (launch : Nat) : Nat := ((Tbl.get? s.launches launch).map (·.ctx)).getD 0xFF

/-- The packer reads a deque's header and the record at its tail: an error is a machine check of the launch's context (R217, R346, R408). -/
def packerMet (s : State) (core : Nat) (d : Deque) : State :=
  let ctx := launchCtx s d.launch
  dqMet s core ctx d (dqTail s core d - 1) fun s a => contextCheck s ctx 0x123 a

/-- The packer takes the record at the tail for warp pair `w` of a crew: an acquire at cluster scope by both its warps, as `wqpop` is one (R385, R302). -/
def packTake (s : State) (core uid w : Nat) (d : Deque) : Option (State × List Byte) :=
  (dqTake s .launch 0 core d).map fun r =>
    let hear := fun (s : State) (sl : Slice) => acquireStep s { agent := .warp uid w sl, core := core, crew := uid } .cluster (.scratch core) d.off
    (hear (hear r.1 .access) .execute, r.2)

/-- Further records with the same entry from the tail, at most `n`. -/
def moreRecords (s : State) (core uid w : Nat) (d : Deque) (entry : Nat) : Nat → State × List (List Byte)
  | 0 => (s, [])
  | n + 1 =>
    let s := packerMet s core d
    if dqCorrupt s core d || decide (dqTail s core d = dqHead s core d) || bytesAt (tailRecord s core d) 0 4 != entry then (s, [])
    else match packTake s core uid w d with
      | none => (s, [])
      | some (s, r) =>
        let q := moreRecords s core uid w d entry n
        (q.1, r :: q.2)

/-- Where a packed warp pair fits: its number and its area (R385, R379). -/
def packRoom (s : State) (core uid : Nat) (c : Crew) : Option (Nat × W64) :=
  let n := areaBytes c.grant c.kern.nv
  let x := s.ctx c.ctx
  if !fitCounts s core (some uid) c.kern (c.pairs.length + 1) c.grant then none
  else
    match (List.range 48).find? fun w => (Tbl.get? c.pairs w).isNone, lowestFree (runsUsed s c.ctx none) 4096 n x.bssize.toNat with
    | some w, some o => some (w, x.bspool + BitVec.ofNat 64 o)
    | _, _ => none

/-- The packer has something to do with a deque: a corrupt header to find, or a record and a crew that can take one more warp pair. -/
def packable (s : State) (core : Nat) (d : Deque) : Bool :=
  !d.stopped && (dqCorrupt s core d || (decide (dqTail s core d ≠ dqHead s core d) &&
    (match receiver s core d.launch (bytesAt (tailRecord s core d) 6 2) with
      | none => false
      | some (uid, c) => (packRoom s core uid c).isSome && !atCollective c)))

/-- The deque the packer of a core serves next (R385): the deques take turns in ascending launch start order. -/
def nextDeque (s : State) (core : Nat) : Option Nat :=
  let ids := ((s.core core).deques.filter (packable s core)).map (·.launch)
  let least := minBy (fun (a b : Nat) => decide (a < b))
  match (s.core core).served with
  | none => least ids
  | some n => match least (ids.filter fun i => decide (n < i)) with
    | some i => some i
    | none => least ids

/-- The packer has served a deque. -/
def markServed (s : State) (core launch : Nat) : State := s.setCore core { s.core core with served := some launch }

/-- CONTINUATION_PACK (R385): the packer of a core draws on the deque whose turn it is. -/
def execContinuationPack (core deque : Nat) (s : State) : Host.Outcome State Fault Refusal :=
  orSame s (
    match (s.core core).deques[deque]? with
    | none => none
    | some d =>
      if d.stopped || nextDeque s core != some d.launch then none
      else
      let s := packerMet s core d
      if dqCorrupt s core d then
        let k := s.core core
        some (countDropped (s.setCore core { k with deques := k.deques.set deque { d with stopped := true }, served := some d.launch }) core d 1)
      else if dqTail s core d = dqHead s core d then none
      else
        let r := tailRecord s core d
        match receiver s core d.launch (bytesAt r 6 2) with
        | none => none
        | some (uid, c) =>
          match packRoom s core uid c with
          | none => none
          | some (w, area) =>
            if atCollective c then none
            else match packTake s core uid w d with
              | none => none
              | some (s, first) =>
                let entry := bytesAt first 0 4
                match c.entries[entry / 16]? with
                | none => some (markServed (countDropped s core d 1) core d.launch)
                | some e =>
                  if entry % 16 ≠ 0 ∨ 2 ≤ bytesAt first 4 2 then some (markServed (countDropped s core d 1) core d.launch)
                  else
                    let q := moreRecords s core uid w d entry (c.grant - 1)
                    let rs := first :: q.2
                    let s := q.1
                    let pipe := pipeOf (freePipe s core none) w c.grant
                    let p := startPair c (c.abase + BitVec.ofNat 64 e.1) (c.xbase + BitVec.ofNat 64 e.2) (maskN rs.length) pipe
                      (s.core core).cyc.toNat area (rs.map (·.drop 8))
                    (clearArea (markServed s core d.launch) core c.ctx area c.grant c.kern.nv).map fun s =>
                      wakeCore (s.onCrew uid fun c => { c with pairs := Tbl.set c.pairs w p }) core 7)

/-! ### Re-slicing (R20, R21) -/

/-- The conditions of R20 on the crew as it is. -/
def quiescent (c : Crew) : Bool :=
  c.pairs.all fun p =>
    (p.2.queues.all fun q => q.2.entries.isEmpty && q.2.addrs.isEmpty) && !(p.2.packed && !(p.2.acc.ended && p.2.exe.ended)) &&
    [p.2.acc, p.2.exe].all fun w => w.ended || (decide (w.splits.length = 1) && w.splits.all fun x => x.2.stack.isEmpty)

/-- The address at which a warp is parked. -/
def parkedAt (w : Warp) : Option W64 := w.splits.head?.map (·.2.pc)

/-- The old warps that hold the threads of new warp `w`. -/
def suppliers (c : Crew) (g w : Nat) : List (Nat × Pair) :=
  c.pairs.filter fun p => !p.2.packed && decide (p.1 * c.grant < (w + 1) * g) && decide (w * g < (p.1 + 1) * c.grant)

/-- The conditions of R20 at a new grant. -/
def joinable (c : Crew) (g : Nat) : Bool :=
  let w' := pairsAt c.threads g
  ((List.range w').all fun w =>
    [Slice.access, Slice.execute].all fun sl =>
      let at_ := ((suppliers c g w).map fun p => p.2.warp sl).filterMap parkedAt
      at_.all fun a => at_.head? == some a)
  && c.pairs.all fun p => decide (p.1 < w') || !bitAt p.2.status 9

/-- The warps of a slice before the move. -/
def oldWarp (c : Crew) (sl : Slice) (w : Nat) : Option Warp := (Tbl.get? c.pairs w).map fun p => p.warp sl

/-- Cells of a per-thread register file moved to new warp `w` at grant `g`. -/
def moveCells {n : Nat} (c : Crew) (g w : Nat) (sl : Slice) (file : Warp → Cells n) : Cells n :=
  (suppliers c g w).foldl (fun m p =>
    (file (p.2.warp sl)).foldl (fun m x =>
      let tid := p.1 * c.grant + x.1 % 64
      if tid / g = w then Cells.set m (x.1 / 64 * 64 + tid % g) x.2 else m) m) []

/-- A lane mask moved to new warp `w`. -/
def moveMask (c : Crew) (g w : Nat) (sl : Slice) (mask : Warp → W64) : W64 :=
  (suppliers c g w).foldl (fun m p =>
    (lanesOf (mask (p.2.warp sl))).foldl (fun m l =>
      let tid := p.1 * c.grant + l
      if l < c.grant ∧ tid / g = w then m ||| laneBit (tid % g) else m) m) 0

/-- New warp `w` of a slice after a re-slice (R21). DESIGN CHOICE (log 90): its split's trap registers, when the old warp that held its lowest $tid has ended, are those of the first supplier that still has a split. A copied hold bit of $tctl has the new warp's one split as its holder. -/
def movedWarp (c : Crew) (g w : Nat) (sl : Slice) (pipe now top : Nat) : Warp :=
  let base := (oldWarp c sl (w * g / c.grant)).getD (Warp.start 0 0 pipe now)
  let live := liveLanes c.threads w g
  let dead := moveMask c g w sl (·.dead)
  let mask := live &&& ~~~dead
  let from_ := ((suppliers c g w).map fun p => p.2.warp sl).find? fun x => !x.splits.isEmpty
  let split := match from_.bind (fun x => x.splits.head?) with
    | none => []
    | some x => [(0, { x.2 with mask := mask, lat := [], readyAt := now, issued := now, boosted := none })]
  let k := (List.range 15).foldl (fun m i => Cells.set m (i + 1) (moveMask c g w sl fun x => Cells.get x.k (i + 1))) []
  { base with
    splits := if mask = 0 then [] else split, nextSplit := 1, dead := dead, ended := decide (mask = 0), pipe := pipe,
    v := moveCells c g w sl (·.v), a := moveCells c g w sl (·.a), k := k,
    fflags := (suppliers c g w).foldl (fun m p => (p.2.warp sl).fflags.foldl (fun m x =>
      let tid := p.1 * c.grant + x.1
      if tid / g = w then Cells.set m (tid % g) x.2 else m) m) [],
    seq := top, seen := top, stores := [], loads := [], maint := 0, rejects := 0, aged := false, agedAt := 0,
    holdSplits := base.holdSplits.map fun _ => 0, holdPair := base.holdPair.map fun _ => 0,
    fences := (suppliers c g w).flatMap fun p => (p.2.warp sl).fences }

/-- The queues of new pair `w`: empty at the same depths, with the sticky bits of the old pair that held its lowest $tid (R21, R233). -/
def movedQueues (c : Crew) (g w : Nat) : Tbl Queue :=
  let old := ((Tbl.get? c.pairs (w * g / c.grant)).map (·.queues)).getD []
  (emptyQueues c.kern).map fun q => match Tbl.get? old q.1 with
    | none => q
    | some o => (q.1, { q.2 with nf := o.nf, re := o.re })

/-- The number of a pair to which the commands of old pair `p` belong after a re-slice to `w` pairs (R21). -/
def pairAfter (w p : Nat) : Nat := if p < w then p else 0

/-- New pair `w` after a re-slice. -/
def movedPair (c : Crew) (g w pipe now top : Nat) (run : W64) : Pair :=
  let w' := pairsAt c.threads g
  let old := Tbl.get? c.pairs w
  let far := if w = 0 then c.pairs.filter fun p => decide (w' ≤ p.1) else []
  let status := (old.map (·.status)).getD 0
  let inflight := fld status 0 9 + sumOf (fun p => fld p.2.status 0 9) far
  let acks := (old.map (·.acc.acks)).getD 0 + sumOf (fun p => p.2.acc.acks) far
  { acc := { movedWarp c g w .access pipe now top with acks := acks }, exe := movedWarp c g w .execute pipe now top,
    queues := movedQueues c g w, status := setFld status 0 9 inflight, tagcnt := 0, xcps := [],
    area := run + BitVec.ofNat 64 (w * areaBytes g c.kern.nv), live := liveLanes c.threads w g, packed := false }

/-- A spilled register of a thread, at its place in the backing store of old or new pair `w` (R442). -/
def spilledPlace (area : W64) (g n lane : Nat) : W64 := area + BitVec.ofNat 64 (saveAreaBytes g + 4 * g * (n - 80) + 4 * lane)

/-- Moves the registers above the bound of one thread into the new run (R21, R32). A backing store that fails stops the warp that the thread comes from, at its `setw` or `pyld` (R33; log 80). -/
def moveSpilled (s : State) (uid : Nat) (c : Crew) (g : Nat) (run : W64) (tid : Nat) : Except (UnitRef × Stop) State :=
  match (Tbl.get? c.pairs (tid / c.grant)).bind fun p => p.exe.splits.head?.map fun x => (p.area, x.1) with
  | none => .ok s
  | some (area, i) =>
    let u : UnitRef := { crew := uid, pair := tid / c.grant, slice := .execute, split := i }
    match s.here? u with
    | none => .ok s
    | some h =>
      let move : Part State := (List.range (c.kern.nv - 80)).foldlM (fun s i => do
        let r ← bsLoad s h (spilledPlace area c.grant (80 + i) (tid % c.grant)) 4
        bsStore r.1 h (spilledPlace (run + BitVec.ofNat 64 (tid / g * areaBytes g c.kern.nv)) g (80 + i) (tid % g)) r.2) s
      match move with
      | .ok s => .ok s
      | .error e => .error (u, e)

/-- What a crew asks for at a re-slice point or a resume: its offset, and its run at its own grant. -/
def Crew.wanted (c : Crew) (cap : Nat) : Wanted :=
  { ctx := c.ctx, launch := c.launch, cap := cap, kern := c.kern, threads := c.threads, fixed := some c.scratch,
    keeps := some (c.grant, c.run, c.runLen), packed := c.pairs.length - pairsAt c.threads c.grant }

/-- The new warp pairs that take threads of old pair `p`; the stores of a pair none of whose threads go on keep a number of their own. -/
def takers (c : Crew) (g p : Nat) : List Nat :=
  let l := (List.range (pairsAt c.threads g)).filter fun w => (suppliers c g w).any (·.1 == p)
  if l.isEmpty then [48 + p] else l

/-- The agents that stand for an agent after a re-slice: a thread's earlier stores stay its own (R21, R321). -/
def agentAfter (uid : Nat) (c : Crew) (g : Nat) : Agent → List Agent
  | .warp u p sl => if u = uid then (takers c g p).map fun w => .warp u w sl else [.warp u p sl]
  | a => [a]

/-- A store whose agents are renamed by a re-slice; threads of one warp that go to several take it with them at crew scope. -/
def Wide.rename (f : Agent → List Agent) (w : Wide) : Wide :=
  { w with scope := if 1 < (f w.agent).length ∧ w.scope.code < 2 then .crew else w.scope,
           agent := (f w.agent).headD w.agent, known := (f w.agent).drop 1 ++ w.known.flatMap f,
           heard := w.heard.flatMap fun h => (f h.1).map fun a => (a, h.2) }

/-- The unit of a crew from which a unit of it at grant `g` has its threads. -/
def unitBefore (c : Crew) (g : Nat) (u : UnitRef) : UnitRef :=
  if g = c.grant then u
  else (((suppliers c g u.pair).findSome? fun q => (q.2.warp u.slice).splits.head?.map fun x => (q.1, x.1)).map fun r =>
    { u with pair := r.1, split := r.2 }).getD u

/-- The threads of a quiescent crew move to grant `g` (R21), their commands follow the pair numbers, and its run is the new one. -/
def resliced (s : State) (uid : Nat) (c : Crew) (core g : Nat) (run : W64) (runLen : Nat) : State :=
  let w' := pairsAt c.threads g
  let f := freePipe s core (some uid)
  let now := (s.core core).cyc.toNat
  let top := c.pairs.foldl (fun m p => Nat.max m (Nat.max p.2.acc.seq p.2.exe.seq)) 0
  let pairs := (List.range w').map fun w => (w, movedPair c g w (pipeOf f w g) now top run)
  let s : State := { s with wide := s.wide.map fun (x : Wide) => x.rename (agentAfter uid c g) }
  let k : Core := s.core c.core
  let s := s.setCore c.core { k with
    cmds := replaceIf (fun x => x.crew == uid) (fun x => { x with pair := pairAfter w' x.pair }) k.cmds,
    posts := replaceIf (fun x => x.crew == uid) (fun x => { x with pair := pairAfter w' x.pair }) k.posts,
    pipes := k.pipes.map fun p => if p.running.any (·.crew == uid) then Pipe.reset else p }
  s.setCrew uid { c with grant := g, pairs := pairs, run := run, runLen := runLen }

/-- Changes the grant of a quiescent crew (R21). A spilled register that cannot be moved leaves the grant as it is, and stops a warp. -/
def reslice (s : State) (uid : Nat) (c : Crew) (core g : Nat) (run : W64) (runLen : Nat) : Except (UnitRef × Stop) State :=
  match (List.range (if c.kern.nv ≤ 80 then 0 else c.threads)).foldlM (fun s t => moveSpilled s uid c g run t) s with
  | .error e => .error e
  | .ok s => .ok (resliced s uid c core g run runLen)

end Sys2Proof.Machine
end

