-- ==== Sys2Proof/Machine/Begin.lean ====
section
/-! DEFINITION. How a word comes to be the next instruction: a context with its page tables, a crew of one warp pair at the word's address, and the turn that issues it (log 2). Programs come to run through a mailbox load and a launch record; this stands for both. -/
namespace Sys2Proof.Machine

/-- The page tables of the stand-in: three levels of one entry each, and a page of 1 GiB that maps address 0 on (R358, R359). -/
def stubTables (m : Mem) : Mem :=
  let put := fun (m : Mem) (a v : Nat) => Cells.setList m a (natToBytes v 8)
  put (put (put m 0x1000 0x2001) 0x2000 0x3001) 0x3000 0x19F

/-- The address at which the word lies. -/
def stubPc : W64 := 0x10000

/-- A kernel that declares 256 v registers, and every queue: 0 to 5 from access to execute, 6 to 11 back, 12 to 15 for store data. -/
def stubKernel : Kernel :=
  { width := 8, ta := 1, nv := 256, threads := 8, ns := 0, nentry := 0, scratch := 65536,
    queues := (List.range 16).map fun n => some (if n < 6 then .fwd else if n < 12 then .ret else .sd, 16), portable := false }

/-- A crew of one warp pair at grant 8 whose warps stand at the word. -/
def stubCrew : Crew :=
  let c : Crew :=
    { launch := 0, queue := 0, ctx := 0, num := 0, core := 0, grant := 8, threads := 8, kern := stubKernel, abase := stubPc,
      xbase := stubPc, entries := [], paddr := 0, plen := 0, params := [], scratch := 0, run := 0x100000, runLen := 0x10000, pairs := [],
      mt := [], pt := [], acst := [], stamps := [], preq := false, deadline := 0, widthReq := none, saving := false, yielded := false,
      saved := none }
  { c with pairs := [(0, startPair c stubPc stubPc 0xFF 0 0 0x100000 [])] }

/-- The context of the stand-in: its root, and a handler for each slice. -/
def stubCtx : Ctx := { Ctx.reset with root := 0x1001, hacc := 0x20000, hexe := 0x20000 }

/-- The word stands in memory where the crew's warps fetch, and the agenda's first turn issues the warp of the slice that may run it. -/
def placeWord (s : State) (nbits w : Nat) : State :=
  let n := w % 2 ^ nbits
  let sl := sliceOfWord (BitVec.ofNat 64 n)
  { s with
    mem := Cells.setList (stubTables s.mem) stubPc.toNat (natToBytes n 16),
    wide := [], crews := [(0, stubCrew)], cores := Tbl.set s.cores 0 Core.reset, ctxs := Tbl.set s.ctxs 0 stubCtx,
    agenda := .issue 0 (if sl = .access then 4 else 0) :: s.agenda,
    dev := { s.dev with ready := true } }

end Sys2Proof.Machine
end

