-- ==== Sys2Proof/Machine/Fetch.lean ====
section
/-! DEFINITION. Fetching an instruction: instruction cache and words fetched ahead (R74, R334, R351), faults (R75), code breakpoints (R420), the order of the decode checks (R77). -/
namespace Sys2Proof.Machine

/-- The sixteen words of the 128-byte line that holds a physical address, as performed at die scope: records of a bound region are applied first (R365), an error that the read meets is the fetching split's (R217, R408), and the line stands in the cluster's L2 slice if it may (R352). -/
def lineWords (s : State) (core ctx : Nat) (u : UnitRef) (ms : Bool) (pa : Nat) : State × List W64 :=
  let a := pa / 128 * 128
  let r := loadChecked (applyLines s a 128) ctx u a 128 fun s => deviceLoad s a 128
  let s := if ms || regionLine r.1 (pa / 128) then r.1 else l2Read' r.1 (clusterOf core) (pa / 128)
  (s, (List.range 16).map fun i => BitVec.ofNat 64 (bytesAt r.2 (8 * i) 8))

/-- The line of a core's instruction cache that holds an address of a context. -/
def cachedLine (k : Core) (ctx line : Nat) : Option ILine := k.icache.find? fun l => l.ctx == ctx && l.line == line

/-- Puts a line into the instruction cache: 128 KiB of 128-byte lines, of which the oldest leaves (R351). The words as they stand there: a line with a detected parity error, logged as corrected, is discarded. -/
def fillLine (s : State) (core ctx line : Nat) (ws : List W64) : State × List W64 :=
  let r := lineWrite s core 7 (line % 1024) ctx
  if r.2.1 then (r.1, ws)
  else
    let ws := if r.2.2.isEmpty then ws else (ws.zip r.2.2).map fun x => x.1 ^^^ x.2
    let k := r.1.core core
    (r.1.setCore core { k with icache := ({ ctx := ctx, line := line, words := ws } :: k.icache.filter fun l => !(l.ctx == ctx && l.line == line)).take 1024 }, ws)

/-- Fetches the word at an address for a split (R74): one it has fetched ahead, or one of a line of the instruction cache; a line that is not cached and that a command owns is waited for (R353). A hit is translated too, and checked for permission (log 14). -/
def fetchWord (s : State) (h : Here) (va : W64) : Except XFault (State × W64) :=
  match Tbl.get? h.split.ahead va.toNat with
  | some w => .ok (s, w)
  | none =>
    let core := h.crew.core
    match use s core h.crew.ctx va .x with
    | .error f => .error f
    | .ok (s, pa, ms) =>
      let line := va.toNat / 128
      let i := va.toNat % 128 / 8
      match cachedLine (s.core core) h.crew.ctx line with
      | some l => .ok (s, (l.words[i]?).getD 0)
      | none =>
        match lineWaits s .phys (pa / 128 * 128) 128 with
        | l :: _ => .error (.waits l)
        | [] =>
          let r := lineWords s core h.crew.ctx h.u ms pa
          let r := fillLine r.1 core h.crew.ctx line r.2
          .ok (r.1, (r.2[i]?).getD 0)

/-- The trap of a failed fetch: the instruction's address and the word's (R75). -/
def fetchTrap (f : XFault) (a word : W64) : Trap := { cause := cause1 f.kind 3, addr := a, addr2 := word }

/-- What a failed fetch does: its trap, or a wait for an owned line (R75, R353). -/
def fetchStop (f : XFault) (a word : W64) : Stop :=
  match f.line? with
  | some l => .wait (.line [l])
  | none => .trap (fetchTrap f a word)

/-- The class 0 kind of a decode failure (Table 14.1). -/
def decodeKind : DecodeErr → Nat
  | .reservedForm => 0
  | .illegalOpcode => 1
  | .wrongSlice => 2
  | .guardOnCollective => 3
  | .illegalOperand => 4
  | .illegalModifier => 5
  | .illegalPair => 6
  | .pairBankConflict => 7
  | .registerBeyondCount => 9
  | .misalignedPair => 10
  | .queueDirection => 11

/-- Code breakpoint `n` matches an address in a slice (Table 14.13). -/
def breaksAt (c : Ctx) (sl : Slice) (a : W64) (n : Nat) : Bool :=
  let b := Cells.get c.dbg.bp n
  decide (fld b 57 7 = 0) && bitAt b (if sl = .execute then 2 else 1) && decide (fld b 3 54 = fld a 3 54)

/-- The trap of a code breakpoint that matches, which a resumed or returning split may ignore (R403, R420, R422). -/
def breakTrap (s : State) (h : Here) : Option Trap :=
  if h.split.skip then none
  else
    let c := s.ctx h.crew.ctx
    ((List.range 8).find? (breaksAt c h.u.slice h.split.pc)).map fun n =>
      { cause := 0x144 + n, halt := bitAt (Cells.get c.dbg.bp n) 0 }

/-- Directions of a pair's declared queues. -/
def Here.dirs (h : Here) (n : BitVec 4) : Option QDir := (h.queue? n.toNat).map (·.dir)

/-- Fetches and decodes the instruction at a split's program counter (R77): the first trap that the procedure reaches, or the wait of the fetch, or the instruction. A program counter that an image gives may be misaligned (R150). -/
def fetchInstr (s : State) (h : Here) : State × Except Stop Instr :=
  let a := h.split.pc
  if fld a 0 3 ≠ 0 then (s, .error (.trap { cause := cause0 8 h.u.slice }))
  else
  match fetchWord s h a with
  | .error f => (s, .error (fetchStop f a a))
  | .ok (s, w) =>
    match breakTrap s h with
    | some t => (s, .error (.trap t))
    | none =>
      let ext : Except XFault (State × W64) := if needsExt w then fetchWord s h (a + 8) else .ok (s, 0)
      match ext with
      | .error f => (s, .error (fetchStop f a (a + 8)))
      | .ok (s, x) =>
        match decodeChecked h.u.slice h.crew.kern.nv h.dirs w x with
        | .error e => (s, .error (.trap { cause := cause0 (decodeKind e) h.u.slice }))
        | .ok i => (s, .ok i)

end Sys2Proof.Machine
end

