-- ==== Sys2Proof/Machine/Save.lean ====
section
/-! DEFINITION. Pre-emption requests, saving a crew into its context image and resuming it, machine checks at a split (R52, R149, R150, R388, R389, R408 to R418). -/
namespace Sys2Proof.Machine

/-! ### The context image (R149) -/

/-- Pads bytes with zeros to a multiple of `n`. -/
def padTo (n : Nat) (l : List Byte) : List Byte := l ++ List.replicate (roundUp l.length n - l.length) 0
/-- `n` zero bytes. -/
def zeros (n : Nat) : List Byte := List.replicate n 0
/-- The bytes of `k` cells from `lo` on, `n` bytes each. -/
def cellBytes {w : Nat} (m : Cells w) (lo k n : Nat) : List Byte := (List.range k).flatMap fun i => natToBytes (Cells.get m (lo + i)).toNat n

/-- A split record (Table 5.16 section 0). -/
def splitRecord (c : Crew) (p : Pair) (x : Option Split) (i : Nat) : List Byte :=
  match x with
  | none => zeros 296
  | some x =>
    let top := x.stack.take 16
    let at_ := p.area + BitVec.ofNat 64 (roundUp (bsBytes c.grant c.kern.nv) 64 + 3840 * i)
    natToBytes x.pc.toNat 8 ++ natToBytes x.mask.toNat 8 ++ natToBytes 1 4 ++ natToBytes x.stack.length 4 ++ natToBytes top.length 4
      ++ zeros 4 ++ natToBytes at_.toNat 8 ++ (top.reverse.flatMap StackEntry.bytes) ++ zeros (256 - 16 * top.length)

/-- The bound of a warp's v registers (R379). -/
def Kernel.bound (k : Kernel) : Nat := min k.nv 80

/-- Register-major bytes of a register file: `n` registers of `g` lanes. -/
def fileBytes {w : Nat} (m : Cells w) (n g size : Nat) : List Byte := (List.range n).flatMap fun r => cellBytes m (64 * r) g size

/-- Sections 0 to 5 for one warp pair or the crew (Table 5.16). -/
def imageSplits (c : Crew) : List Byte :=
  c.pairs.flatMap fun p => [p.2.acc, p.2.exe].flatMap fun w => (List.range 4).flatMap fun i => splitRecord c p.2 (Tbl.get? w.splits i) i
def imageExecute (c : Crew) : List Byte :=
  c.pairs.flatMap fun p => fileBytes p.2.exe.v c.kern.bound c.grant 4 ++ natToBytes c.kern.bound 4 ++ zeros 4
    ++ cellBytes p.2.exe.s 0 64 4 ++ cellBytes p.2.exe.k 1 15 8
def imageAccess (c : Crew) : List Byte :=
  c.pairs.flatMap fun p => fileBytes p.2.acc.a 16 c.grant 8 ++ cellBytes p.2.acc.c 0 16 8 ++ cellBytes p.2.acc.k 1 15 8

/-- Code of a queue direction in an image. -/
def dirCode : QDir → Nat
  | .fwd => 1
  | .ret => 2
  | .sd => 3
/-- A queue descriptor, with NF and RE in its nf byte (R233). -/
def imageQueue (q : Option Queue) : List Byte :=
  match q with
  | none => zeros 16
  | some q => natToBytes q.depth 1 ++ natToBytes (dirCode q.dir) 1 ++ [0] ++ natToBytes q.entries.length 1
    ++ natToBytes ((if q.nf then 1 else 0) + (if q.re then 2 else 0)) 1 ++ zeros 11
def imageQueues (c : Crew) : List Byte :=
  c.pairs.flatMap fun p => ((List.range 16).flatMap fun n => imageQueue (Tbl.get? p.2.queues n))
    ++ p.2.queues.flatMap fun q => q.2.entries.flatMap fun e => cellBytes e.vals 0 c.grant 4 ++ natToBytes e.tags.toNat 8
def imageSpecial (c : Crew) : List Byte :=
  (c.pairs.flatMap fun p => (lanesOf p.2.live).flatMap fun l => natToBytes (p.2.exe.getF l).toNat 4)
    ++ (c.pairs.flatMap fun p => [p.2.acc, p.2.exe].flatMap fun w => natToBytes w.role.toNat 4 ++ zeros 8)
    ++ cellBytes c.acst 0 c.kern.ta 4 ++ c.pairs.flatMap fun p => natToBytes p.2.tagcnt.toNat 8
def imageTiles (c : Crew) : List Byte :=
  (List.range c.kern.ta).flatMap fun o => cellBytes c.mt (o * 2048) 2048 4 ++ cellBytes c.pt (o * 2048) 2048 8

/-- Section 6: a stamp is unchanged since it was loaded, so its source stands for it (R52). -/
def imageStamps (c : Crew) : List Byte :=
  (List.range c.kern.ns).flatMap fun j => match Tbl.get? c.stamps j with
    | none => zeros 16
    | some t => natToBytes (if t.sparse then 2 else 1) 4 ++ zeros 4 ++ natToBytes t.src 8

/-- Section 7: the batch tag counters, which a save leaves zero, and the resume and status-word records (R288, R414). -/
def imageEngines (c : Crew) (records : List (Nat × List Byte)) : List Byte :=
  let words := (c.pairs.filter fun p => bitAt p.2.status 9).map fun p =>
    natToBytes p.2.status.toNat 8 ++ zeros 44 ++ natToBytes 0xFFFF 2 ++ zeros 2 ++ natToBytes p.1 2 ++ zeros 6
  natToBytes (records.length + words.length) 4 ++ zeros 12 ++ (records.flatMap (·.2)) ++ words.flatMap id
/-- Section 8. -/
def imageDoorbells (s : State) (c : Crew) : List Byte :=
  match (s.hq c.queue).latched with
  | none => zeros 8
  | some v => natToBytes 1 4 ++ zeros 4 ++ natToBytes c.queue 4 ++ zeros 4 ++ natToBytes v.toNat 8

/-- The sections of an image, each padded to 64 bytes. -/
def imageSections (s : State) (c : Crew) (records : List (Nat × List Byte)) : List (List Byte) :=
  [imageSplits c, imageExecute c, imageAccess c, imageQueues c, imageSpecial c, imageTiles c, imageStamps c, imageEngines c records,
   imageDoorbells s c].map (padTo 64)

/-- Offsets of consecutive sections from `o` on. -/
def sectionOffsets (o : Nat) : List (List Byte) → List Nat
  | [] => []
  | l :: ls => o :: sectionOffsets (o + l.length) ls

/-- The header with its crc taken as zero (Table 5.15). DESIGN CHOICE (log 91): nwarp counts the live warp pairs that the packer started too, which are saved with the crew (R385). -/
def imageHeader (c : Crew) (offs : List Nat) : List Byte :=
  natToBytes 3 4 ++ zeros 4 ++ natToBytes c.grant 2 ++ natToBytes c.pairs.length 2 ++ natToBytes c.threads 4 ++ natToBytes c.kern.nv 2
    ++ natToBytes c.kern.ns 2 ++ natToBytes c.kern.ta 2 ++ zeros 2 ++ natToBytes c.num.toNat 4 ++ zeros 4
    ++ (offs.flatMap fun o => natToBytes o 8) ++ zeros 152

/-- The whole image with its crc, and the crc: header, sections, and the scratchpad at the next 4 KiB boundary (R149, R415). -/
def contextImage (s : State) (uid : Nat) (c : Crew) (records : List (Nat × List Byte)) : List Byte × W32 :=
  let secs := imageSections s c records
  let body := padTo 4096 (imageHeader c (sectionOffsets 256 secs) ++ secs.flatMap id) ++ crewBytes s uid c 0 c.kern.scratch
  let crc := crc32c body
  (patch body 4 (natToBytes crc.toNat 4), crc)

/-! ### Save areas (R413) -/

/-- Kind code of a carried store-queue entry. -/
def StoreKind.num : StoreKind → Nat
  | .sd => 0
  | .sdsp => 1
  | .sa => 2
  | .ssa => 3
  | _ => 4

/-- A carried store-queue entry (Table 14.11). -/
def storeRecord (g : Nat) (e : StoreEntry) : List Byte :=
  let lane := fun l => e.lanes.find? (·.lane == l)
  let paired := e.kind == .sa || e.kind == .ssa
  natToBytes e.kind.num 1 ++ natToBytes e.sz.code.toNat 1 ++ natToBytes (if e.rel.isSome then 2 else 0) 1
    ++ natToBytes ((e.rel.map (·.code)).getD 0) 1 ++ natToBytes e.q 1 ++ zeros 3
    ++ natToBytes (maskOf ((e.lanes.filter fun x => !x.off).map (·.lane))).toNat 8 ++ zeros 48
    ++ ((List.range g).flatMap fun l => natToBytes ((lane l).map (·.va.toNat) |>.getD 0) 8)
    ++ ((List.range g).flatMap fun l => natToBytes (if paired then 0 else (lane l).map (·.val.toNat) |>.getD 0) 8)

/-- The split record of a save area for split `i` of a warp (Table 14.11): its trap registers, its holds and its first pending machine check. -/
def splitArea (w : Warp) (i : Nat) (x : Split) : List Byte :=
  let ctl := (w.tctl &&& ~~~6) ||| (if w.holdSplits = some i then 2 else 0) ||| (if w.holdPair = some i then 4 else 0)
  natToBytes x.record.tcause.toNat 4 ++ natToBytes x.record.targ.toNat 4 ++ natToBytes x.record.taddr.toNat 8
    ++ natToBytes x.record.taddr2.toNat 8 ++ natToBytes ctl.toNat 4 ++ natToBytes ((x.mc.head?.map (·.1.toNat)).getD 0x1FF) 4
    ++ natToBytes ((x.mc.head?.map (·.2.toNat)).getD 0) 8 ++ zeros 24

/-- The record of a split number that no split of the pair has. -/
def noSplitArea : List Byte := zeros 28 ++ natToBytes 0x1FF 4 ++ zeros 32

/-- The save area of a warp pair: of each split number the record of the execute warp's split, or of the access warp's where the execute warp has none, and the carried entries of the access warp's store queue (log 25). -/
def saveArea (c : Crew) (p : Pair) : List Byte :=
  let rec1 := fun (i : Nat) => match Tbl.get? p.exe.splits i, Tbl.get? p.acc.splits i with
    | some x, _ => splitArea p.exe i x
    | none, some x => splitArea p.acc i x
    | none, none => noSplitArea
  let es := p.acc.stores.filter (·.kind != .fence)
  ((List.range 4).flatMap rec1) ++ natToBytes es.length 4 ++ zeros 60 ++ es.flatMap (storeRecord c.grant)

/-- Writes bytes at consecutive virtual addresses of a context; none while a line that this writes or walks through is waited for (R329, R353). Where a page cannot be written none of them is: R33 has software keep the pool mapped, and what a save area holds stays with the device too (log 25). -/
def putVirtual (s : State) (core ctx : Nat) (va : W64) (l : List Byte) : Option State :=
  match writeRun s core ctx (pageRuns va (l.length / 4096 + 2) l) with
  | .ok s => some s
  | .error f => if f.1.line?.isSome then none else some s

/-- Reads bytes at consecutive virtual addresses of a context, page by page, with the same waits. -/
def readRun (s : State) (core ctx : Nat) : List (W64 × Nat) → Except XFault (State × List Byte)
  | [] => .ok (s, [])
  | r :: rs =>
    match readAt s core ctx r.1 r.2 fun s c x => contextCheck s ctx c x with
    | .error f => .error f
    | .ok (s, b) =>
      match readRun s core ctx rs with
      | .error f => .error f
      | .ok (s, l) => .ok (s, b ++ l)
/-- The bytes at consecutive virtual addresses: none while they are waited for, and no bytes where a page cannot be read. -/
def getVirtual (s : State) (core ctx : Nat) (va : W64) (n : Nat) : Option (State × Option (List Byte)) :=
  match readRun s core ctx ((pageRuns va (n / 4096 + 2) (zeros n)).map fun r => (r.1, r.2.length)) with
  | .ok (s, l) => some (s, some l)
  | .error f => if f.line?.isSome then none else some (s, none)

/-! ### Requests (R388, R409) -/

/-- The save pool's ranges in use, as offsets from its base (R416): those of images and those that saves under way have taken. -/
def poolUsed (s : State) (ctx : Nat) : List (Nat × Nat) :=
  let base := fld (s.ctx ctx).pool 12 40 * 4096
  s.crews.filterMap fun e => if e.2.ctx = ctx then (match e.2.saved with
    | some i => some (i.image - base, i.size)
    | none => e.2.room) else none

/-- The bytes that the image of a crew can need: as it stands, with a resume record for each command (R149, R414). -/
def imageRoom (s : State) (uid : Nat) (c : Crew) : Nat :=
  let n := ((s.core c.core).cmds.filter fun x => x.crew == uid).length + ((s.core c.core).posts.filter fun x => x.crew == uid).length
  (contextImage s uid c (List.replicate n (0, zeros 64))).1.length

/-- Room for a crew's image in the pool of its context, as offset and size (R416). -/
def saveRoom (s : State) (uid : Nat) (c : Crew) : Option (Nat × Nat) :=
  let n := imageRoom s uid c
  (lowestFree (poolUsed s c.ctx) 4096 n (s.ctx c.ctx).psize.toNat).map fun o => (o, n)

/-- A save begins (R411): no unit issues any more, parked barrier waiters leave their objects' counts, one whose object lies in a line that a command owns when the command has stopped (R329), what was parked or stalled restarts at resume (Table 14.10). Without room in the save pool it does not begin, and the crew runs on (R416). -/
def beginSave (s : State) (uid : Nat) : State :=
  match s.crew? uid with
  | none => s
  | some c =>
    let room := saveRoom s uid c
    if c.saving || c.saved.isSome || room.isNone then s
    else
      let held := fun (w : Wait) => match w with
        | .barrier off _ _ => crewWaits s c off 16
        | _ => false
      let keep := fun (w : Wait) => match w with
        | .arrived _ _ _ | .region | .posting | .unbinding _ | .unwinding => w
        | .barrier _ _ _ => if held w then w else .ready
        | _ => .ready
      let s := (crewUnits uid c).foldl (fun t x => match x.2.wait with
        | .barrier off _ _ => if crewWaits s c off 16 then t else leaveObj t uid c off
        | _ => t) s
      let warp := fun (w : Warp) => { w with splits := w.splits.map fun x => (x.1, { x.2 with
        wait := keep x.2.wait, lat := [], ahead := [], step := x.2.step || (x.2.stepDue && x.2.wait != .posting),
        stepDue := x.2.stepDue && x.2.wait == .posting }) }
      let k := s.core c.core
      let s := s.setCore c.core { k with pipes := k.pipes.map fun p => if p.running.any (·.crew == uid) then Pipe.reset else p }
      s.onCrew uid fun c => { c with saving := true, room := room, pairs := c.pairs.map fun p => (p.1, { p.2 with acc := warp p.2.acc, exe := warp p.2.exe }) }

/-- Every split of a warp that asked for it takes the pre-emption request trap at its next boundary (R409). -/
def armPreqTrap (w : Warp) : Warp :=
  if bitAt w.tctl 3 then { w with splits := w.splits.map fun x => (x.1, { x.2 with preqTrap := true }) } else w

/-- A pre-emption request is raised on a crew (R388): a second one changes nothing; a deadline of 0 forces the save at once. -/
def raiseRequest (s : State) (uid : Nat) : State :=
  match s.crew? uid with
  | none => s
  | some c =>
    if c.preq || c.saving || c.saved.isSome then s
    else
      let d : W32 := BitVec.ofNat 32 (fld (s.hq c.queue).cfg 32 32)
      let s := s.setCrew uid { c with
        preq := true, deadline := d, pairs := c.pairs.map fun p => (p.1, { p.2 with acc := armPreqTrap p.2.acc, exe := armPreqTrap p.2.exe }) }
      let s := wakeCore s c.core 5
      if d = 0 then beginSave s uid else s

/-- DEADLINE_EXPIRY (R388): the deadline has reached zero, and the forced save begins. -/
def execDeadlineExpiry (crew : Nat) (s : State) : Host.Outcome State Fault Refusal :=
  orSame s (match s.crew? crew with
    | none => none
    | some c =>
      if c.preq && decide (c.deadline = 0) && !c.saving && c.saved.isNone && (saveRoom s crew c).isSome then some (beginSave s crew) else none)

/-- Priority of a queue (Table 13.1). -/
def State.prio (s : State) (q : Nat) : Nat := fld (s.hq q).cfg 4 3

/-- The running launch of a queue. -/
def State.runningLaunch (s : State) (q : Nat) : Option (Nat × Launch) :=
  match (s.hq q).run with
  | some (.launch id) => (Tbl.get? s.launches id).map fun l => (id, l)
  | _ => none

/-- The preferred width of a crew (R380). -/
def prefWidth (req : Option Nat) (width : Nat) (k : Kernel) : Nat :=
  match req with
  | some g => g
  | none => if 1 ≤ width ∧ width ≤ 4 then 2 ^ (width + 2) else k.width

/-- A crew that waits for a core: a saved crew first, then the next crew of the launch (R378). -/
structure Waiting where
  saved : Option Nat
  want : Wanted
  pref : Nat
  /-- grants it may take, as bits of their index -/
  ok : List Nat
  deriving DecidableEq, Repr

/-- The grants at which a saved crew may resume (R417). -/
def resumeGrants (c : Crew) (i : SaveInfo) : List Nat := grants.filter fun g => g == c.grant || (i.reslice && joinable c g)

/-- What a saved crew asks for. -/
def savedWaiting (uid : Nat) (c : Crew) (i : SaveInfo) (l : Launch) : Waiting :=
  { saved := some uid, want := c.wanted l.cap, pref := prefWidth c.widthReq l.width c.kern, ok := resumeGrants c i }

/-- What the next crew of a launch asks for. -/
def nextWaiting (id : Nat) (l : Launch) : Waiting :=
  { saved := none, want := { ctx := l.ctx, launch := id, cap := l.cap, kern := l.entry.kern, threads := l.threads, fixed := none, keeps := none },
    pref := prefWidth none l.width l.entry.kern, ok := grants }

/-- The crew of a launch that goes next (R378). -/
def waitingOf (s : State) (id : Nat) (l : Launch) : Option Waiting :=
  if (s.hq l.queue).held then none
  else
    match s.crews.find? fun e => e.2.launch == id && (match e.2.saved with | some i => !i.corrupt | none => false) with
    | some e => e.2.saved.map fun i => savedWaiting e.1 e.2 i l
    | none => if l.nx * l.ny * l.nz ≤ l.placed then none else some (nextWaiting id l)

/-- A launch may place its crew on a core: no other launch of equal or higher priority has a crew waiting for which that core is freed (R389). Of two equal ones that had the same core freed the earlier goes first. -/
def mayUse (s : State) (id : Nat) (l : Launch) (core : Nat) : Bool :=
  s.launches.all fun e =>
    e.1 == id || e.2.freed != some core || (waitingOf s e.1 e.2).isNone || decide (s.prio e.2.queue < s.prio l.queue)
      || (l.freed == some core && decide (s.prio e.2.queue = s.prio l.queue) && decide (id < e.1))

/-- Where the waiting crew of a launch goes now: the core freed for it (R389), else by R381. -/
def Waiting.spot (s : State) (id : Nat) (l : Launch) (w : Waiting) : Option (Nat × Nat × Spot) :=
  let freed := match l.freed with
    | none => none
    | some core => if mayUse s id l core then (chooseGrant s core none w.want w.ok.contains w.pref).map fun x => (core, x) else none
  match freed with
  | some x => some x
  | none => chooseCore s (mayUse s id l) w.want w.ok.contains w.pref

/-- The state with crews counted as saved, for the test of R389. -/
def withoutCrews (s : State) (us : List Nat) : State :=
  { s with crews := s.crews.map fun e =>
      if us.contains e.1 then (e.1, { e.2 with saved := some { image := 0, size := 0, reslice := false, crc := 0, records := [], offs := [], corrupt := true } })
      else e }

/-- The saving of some crews of a core frees it for the waiting crew. -/
def frees (s : State) (core : Nat) (w : Waiting) (us : List Nat) : Bool :=
  (chooseGrant (withoutCrews s us) core none w.want w.ok.contains w.pref).isSome

/-- The first choice of `n` elements of a list, in the list's order, that with those taken satisfies `ok`: earlier elements are taken first. -/
def pickSome (ok : List Nat → Bool) : (n : Nat) → (taken l : List Nat) → Option (List Nat)
  | n, taken, [] => if n = 0 ∧ ok taken = true then some taken else none
  | n, taken, u :: us =>
    if n = 0 then (if ok taken then some taken else none)
    else match pickSome ok (n - 1) (taken ++ [u]) us with
      | some l => some l
      | none => pickSome ok n taken us

/-- Of some crews of a core, youngest first, the fewest whose saving frees it (R389 rule 2); of equally many the youngest. -/
def freeing (s : State) (core : Nat) (w : Waiting) (us : List Nat) : Option (List Nat) :=
  if frees s core w us then (List.range (us.length + 1)).findSome? fun n => pickSome (frees s core w) n [] us else none

/-- The core to free for the waiting crew of a launch, and the crews on it to pre-empt (R389): on each core the crews of the lowest prios whose saving frees it. -/
def victims (s : State) (id : Nat) (l : Launch) (w : Waiting) : Option (Nat × List Nat) :=
  let p := s.prio l.queue
  let prio := fun u => match s.crew? u with
    | none => 0
    | some c => s.prio c.queue
  let top := fun (l : List Nat) => l.foldl (fun m u => Nat.max m (prio u)) 0
  let sets := (coreNumbers.filter (mayUse s id l)).filterMap fun core =>
    let cs := (((s.onCore core).filter fun e => decide (s.prio e.2.queue < p)).map (·.1)).reverse
    ((List.range p).findSome? fun q => freeing s core w (cs.filter fun u => decide (prio u ≤ q))).map fun l => (core, l)
  minBy (fun (a b : Nat × List Nat) =>
    decide (top a.2 < top b.2) || (decide (top a.2 = top b.2) && (decide (a.2.length < b.2.length)
      || (decide (a.2.length = b.2.length) && decide (a.1 < b.1))))) (sets.filter fun x => !x.2.isEmpty)

/-- PREEMPTION_REQUEST (R389): for the next crew of a queue's launch, which fits nowhere. -/
def execPreemptionRequest (queue : Nat) (s : State) : Host.Outcome State Fault Refusal :=
  orSame s (
    match s.runningLaunch queue with
    | none => none
    | some (id, l) =>
      let out := l.asked.filter fun u => match s.crew? u with
        | none => false
        | some c => c.preq || c.saving
      if !out.isEmpty then none
      else
        match waitingOf s id l with
        | none => none
        | some w =>
          if (w.spot s id l).isSome then none
          else (victims s id l w).map fun v =>
            v.2.foldl raiseRequest { s with launches := Tbl.set s.launches id { l with asked := v.2, freed := some v.1 } })

/-! ### Saving (R411 to R416) -/

/-- Every store that can leave has left, and every address with complete data is paired (R411). -/
def storesSettled (p : Pair) : Bool :=
  (p.queues.all fun q => q.2.addrs.isEmpty || (match q.2.entries with
    | [] => true
    | e :: _ => !e.complete)) &&
  (match p.acc.stores with
    | [] => true
    | e :: _ => !e.paired)

/-- A command of the crew may be stopped at a row boundary: its finished rows are its first ones and none is under way (R414). -/
def Cmd.atBoundary (k : Cmd) : Bool :=
  (match k.kind with
    | .record _ _ => true
    | _ => false) && k.sent.isEmpty && k.done.all fun i => decide (i < k.done.length)

/-- Everything that Table 14.10 lets finish has finished. -/
def saveReady (s : State) (uid : Nat) (c : Crew) : Bool :=
  let k := s.core c.core
  (k.posts.all fun p => p.crew != uid) && (k.cmds.all fun x => x.crew != uid || x.atBoundary) &&
  c.pairs.all fun p => p.2.acc.loads.isEmpty && (p.2.exe.splits.all fun x => x.2.flight.isEmpty) && p.2.xcps.isEmpty && decide (p.2.acc.maint = 0)
    && storesSettled p.2

/-- Stops the commands of a crew: their records are rewritten, and the resume forms of the accepted records (R287) kept with the posting pair and the offset (R414). -/
def stopCmds (s : State) (uid : Nat) (c : Crew) : State × List (Nat × Nat × List Byte) :=
  let mine := (s.core c.core).cmds.filter fun x => x.crew == uid
  mine.foldl (fun (r : State × List (Nat × Nat × List Byte)) x =>
    match x.kind with
    | .record off rec =>
      let s := rewriteRecord r.1 c.core c x x.done.length
      let s := acked s x (x.rows - x.done.length)
      let k := s.core c.core
      let s := s.setCore c.core { k with cmds := k.cmds.filter fun y => y.id != x.id }
      (s, r.2 ++ [(x.pair, off, (rec.resume x.done.length).bytes)])
    | _ => r) (s, [])

/-- Barrier waiters whose objects were in owned lines when the save began leave them now (R411, R329). -/
def leaveBarriers (s : State) (uid : Nat) (c : Crew) : State :=
  (crewUnits uid c).foldl (fun s x => match x.2.wait with
    | .barrier off _ _ => (leaveObj s uid c off).onSplit x.1 fun x => { x with wait := .ready }
    | _ => s) s

/-- Writes the image, into the room that the save has taken, and the save areas, and frees the core: the crew is saved (R411, R416). None while a line it writes is waited for (R329). -/
def writeImage (s : State) (uid : Nat) (c : Crew) (records : List (Nat × Nat × List Byte)) : Option State :=
  let s := crewMet s c 0 c.kern.scratch
  let img := contextImage s uid c (records.map fun r => (r.1, r.2.2))
  let n := img.1.length
  let x := s.ctx c.ctx
  let base := fld x.pool 12 40 * 4096
  c.room.bind fun r =>
    let o := r.1
    (c.pairs.foldlM (fun s p => putVirtual s c.core c.ctx p.2.area (saveArea c p.2)) s).bind fun s =>
    if !(lineWaits s .phys (base + o) n).isEmpty then none else
    let s := deviceStore s c.ctx false (base + o) img.1
    let info : SaveInfo := { image := base + o, size := n, reslice := c.yielded, crc := img.2,
                             records := records.map fun r => (r.1, r.2.2), offs := records.map (·.2.1), corrupt := false }
    let k := s.core c.core
    let s := s.setCore c.core { k with banks := k.banks.map fun b => b.filter (·.crew != uid) }
    some (s.setCrew uid { c with preq := false, deadline := 0, saving := false, yielded := false, saved := some info, room := none })

/-- The agents of a crew (R411). -/
def Agent.ofCrew (uid : Nat) : Agent → Bool
  | .warp u _ _ | .engine u | .thread u _ | .members u => u == uid
  | _ => false

/-- A store happens before what some agent of a crew does next. -/
def Wide.pastCrew (w : Wide) (uid : Nat) : Bool := w.agent.ofCrew uid || w.known.any (·.ofCrew uid)

/-- What a crew's warps can see stays in their sight wherever it resumes (R320, R337). -/
def keepSight (s : State) (uid : Nat) (c : Crew) : State :=
  let v : Viewer := { agent := .members uid, core := c.core, crew := uid }
  { s with wide := s.wide.map fun w => if w.visible v then { w with also := uid :: w.also } else w }

/-- CREW_SAVE (R411): the save of a stopped crew completes, a release at die scope by each warp. -/
def execCrewSave (crew : Nat) (s : State) : Host.Outcome State Fault Refusal :=
  orSame s (
    match s.crew? crew with
    | none => none
    | some c =>
      if !c.saving || c.saved.isSome || !saveReady s crew c then none
      else
        let r := stopCmds s crew c
        let r := (leaveBarriers r.1 crew c, r.2)
        match r.1.crew? crew with
        | none => none
        | some c =>
          if c.pairs.any fun p => decide (0 < p.2.acc.acks) then none
          else
            writeImage (keepSight (performWhere r.1 (·.pastCrew crew) .die) crew c) crew c r.2)

/-! ### Resuming (R150, R417) -/

/-- A stamp reloaded from its scratchpad source (R53). -/
def reloadStamp (s : State) (uid : Nat) (c : Crew) (t : Stamp) : Stamp :=
  { t with img := Cells.setList [] 0 (crewBytes s uid c t.src (imageBytes t.sparse)), lost := [], soft := [] }

/-- Cells of `size` bytes each read from the front of a list, from cell `lo` on, and the rest of the list. -/
def takeCells (w lo size : Nat) : (k : Nat) → List Byte → Cells w × List Byte
  | 0, l => ([], l)
  | k + 1, l =>
    let x := BitVec.ofNat w (bytesToNat (l.take size))
    let r := takeCells w (lo + 1) size k (l.drop size)
    (if x = 0 then r.1 else (lo, x) :: r.1, r.2)

/-- A register file of `k` registers from number `n` on, `g` lanes each, register-major. -/
def takeFile (w n g size : Nat) : (k : Nat) → List Byte → Cells w × List Byte
  | 0, l => ([], l)
  | k + 1, l =>
    let x := takeCells w (64 * n) size g l
    let r := takeFile w (n + 1) g size k x.2
    (x.1 ++ r.1, r.2)

/-- Reads a section warp pair by warp pair. -/
def readPairs (f : Pair → List Byte → Pair × List Byte) : Tbl Pair → List Byte → Tbl Pair × List Byte
  | [], l => ([], l)
  | p :: ps, l =>
    let x := f p.2 l
    let r := readPairs f ps x.2
    ((p.1, x.1) :: r.1, r.2)

/-- A split of its record in an image: pc, mask and stack, whose spilled entries stand in the backing store. -/
def readSplit (old : Option Split) (l : List Byte) : Option Split :=
  if bytesAt l 16 4 = 0 then none
  else
    let x := old.getD (Split.start 0 0)
    let n := min (bytesAt l 24 4) 16
    let at_ := fun (i : Nat) => x.stack.getD i { tag := 0, pc := 0, low := 0, mask := 0, arr := 0 }
    let top := (List.range n).map fun i => StackEntry.ofBytes ((l.drop (40 + 16 * (n - 1 - i))).take 16) (at_ i).low (at_ i).arr
    some { x with pc := BitVec.ofNat 64 (bytesAt l 0 8), mask := BitVec.ofNat 64 (bytesAt l 8 8),
                  stack := top ++ (List.range (min (bytesAt l 20 4) 256 - n)).map fun i => at_ (n + i) }

/-- Section 0 for a warp. -/
def readSplits (w : Warp) (l : List Byte) : Warp × List Byte :=
  ({ w with splits := ((List.range 4).filterMap fun i => (readSplit (Tbl.get? w.splits i) ((l.drop (296 * i)).take 296)).map fun x => (i, x))
      ++ w.splits.filter fun x => decide (4 ≤ x.1) }, l.drop 1184)

/-- Section 1 for a warp pair. -/
def readExecute (bound g : Nat) (p : Pair) (l : List Byte) : Pair × List Byte :=
  let v := takeFile 32 0 g 4 bound l
  let x := takeCells 32 0 4 64 (v.2.drop 8)
  let k := takeCells 64 1 8 15 x.2
  ({ p with exe := { p.exe with v := v.1, s := x.1, k := k.1 } }, k.2)

/-- Section 2 for a warp pair. -/
def readAccess (g : Nat) (p : Pair) (l : List Byte) : Pair × List Byte :=
  let a := takeFile 64 0 g 8 16 l
  let c := takeCells 64 0 8 16 a.2
  let k := takeCells 64 1 8 15 c.2
  ({ p with acc := { p.acc with a := a.1, c := c.1, k := k.1 } }, k.2)

/-- The entries of a queue. -/
def takeEntries (g i : Nat) (old : List QEntry) : (n : Nat) → List Byte → List QEntry × List Byte
  | 0, l => ([], l)
  | n + 1, l =>
    let v := takeCells 32 0 4 g l
    let e := old.getD i { id := 2 ^ 64 + i, vals := [], tags := 0, missing := 0 }
    let r := takeEntries g (i + 1) old n (v.2.drop 8)
    ({ e with vals := v.1, tags := BitVec.ofNat 64 (bytesAt v.2 0 8) } :: r.1, r.2)

/-- Declared queues of a pair: their descriptors stand in `d`, their entries follow in the list. -/
def readQueues (g : Nat) (d : List Byte) : Tbl Queue → List Byte → Tbl Queue × List Byte
  | [], l => ([], l)
  | q :: qs, l =>
    let x := takeEntries g 0 q.2.entries (bytesAt d (16 * q.1 + 3) 1) l
    let r := readQueues g d qs x.2
    let sticky := bytesAt d (16 * q.1 + 4) 1
    ((q.1, { q.2 with entries := x.1, nf := sticky.testBit 0, re := sticky.testBit 1 }) :: r.1, r.2)

/-- Section 3 for a warp pair. -/
def readQueueSet (g : Nat) (p : Pair) (l : List Byte) : Pair × List Byte :=
  let r := readQueues g (l.take 256) p.queues (l.drop 256)
  ({ p with queues := r.1 }, r.2)

/-- $fflags of the threads of a warp pair, in section 4. -/
def readFlags (p : Pair) (l : List Byte) : Pair × List Byte :=
  let ls := lanesOf p.live
  ({ p with exe := { p.exe with fflags := ls.zipIdx.foldl (fun m x => Cells.set m x.1 (BitVec.ofNat 32 (bytesAt l (4 * x.2) 4))) p.exe.fflags } },
   l.drop (4 * ls.length))

/-- $role of the warps of a pair. -/
def readRoles (p : Pair) (l : List Byte) : Pair × List Byte :=
  ({ p with acc := { p.acc with role := BitVec.ofNat 32 (bytesAt l 0 4) }, exe := { p.exe with role := BitVec.ofNat 32 (bytesAt l 12 4) } }, l.drop 24)

/-- $tagcnt of a pair. -/
def readTags (p : Pair) (l : List Byte) : Pair × List Byte := ({ p with tagcnt := BitVec.ofNat 64 (bytesAt l 0 8) }, l.drop 8)

/-- Section 5: the tiles of the octets from `o` on. -/
def readTiles (o : Nat) : (k : Nat) → List Byte → Cells 32 × Cells 64
  | 0, _ => ([], [])
  | k + 1, l =>
    let m := takeCells 32 (o * 2048) 4 2048 l
    let p := takeCells 64 (o * 2048) 8 2048 m.2
    let r := readTiles (o + 1) k p.2
    (m.1 ++ r.1, p.1 ++ r.2)

/-- Section 6 for slots from `j` on, before the reload of R53: kinds and sources, and the contents that follow a kind 3, whose slot keeps the kind it had. -/
def readStamps (old : Tbl Stamp) (d : List Byte) (j : Nat) : (k : Nat) → List Byte → Tbl Stamp
  | 0, _ => []
  | k + 1, l =>
    let kind := bytesAt d (16 * j) 4
    let src := bytesAt d (16 * j + 8) 8
    let was := ((Tbl.get? old j).map (·.sparse)).getD false
    if kind = 0 then readStamps old d (j + 1) k l
    else if kind = 3 then
      let n := imageBytes was
      (j, { sparse := was, src := src, img := Cells.setList [] 0 (l.take n), lost := [], soft := [] })
        :: readStamps old d (j + 1) k (l.drop (roundUp n 64))
    else (j, { sparse := kind == 2, src := src, img := [], lost := [], soft := [] }) :: readStamps old d (j + 1) k l

/-- The slots of an image that its section 6 fills itself. -/
def stampContents (l : List Byte) (j : Nat) : Bool := decide (bytesAt l (16 * j) 4 = 3)

/-- A crew as its image has it (R52, R149, R417). The threads of a Portable Form program come back from the device's own record: what stands in which native split is its translation's (log 4). -/
def readImage (c : Crew) (l : List Byte) : Crew :=
  if c.kern.prog.isSome then c else
  let sec := fun n => l.drop (bytesAt l (32 + 8 * n) 8)
  let run := fun (ps : Tbl Pair) (f : Pair → List Byte → Pair × List Byte) (l : List Byte) => readPairs f ps l
  let ps := (run c.pairs (fun p l =>
    let a := readSplits p.acc l
    let x := readSplits p.exe a.2
    ({ p with acc := a.1, exe := x.1 }, x.2)) (sec 0)).1
  let ps := (run ps (readExecute c.kern.bound c.grant) (sec 1)).1
  let ps := (run ps (readAccess c.grant) (sec 2)).1
  let ps := (run ps (readQueueSet c.grant) (sec 3)).1
  let f := run ps readFlags (sec 4)
  let r := run f.1 readRoles f.2
  let acst := takeCells 32 0 4 c.kern.ta r.2
  let ps := (run r.1 readTags acst.2).1
  let t := readTiles 0 c.kern.ta (sec 5)
  { c with pairs := ps, acst := acst.1, mt := t.1, pt := t.2,
           stamps := readStamps c.stamps (sec 6) 0 c.kern.ns ((sec 6).drop (roundUp (16 * c.kern.ns) 64)) }

/-- A queue descriptor with count above depth, in section 3 (R150). -/
def badQueues (g : Nat) : Tbl Pair → List Byte → Bool
  | [], _ => false
  | p :: ps, l => ((List.range 16).any fun q => decide (bytesAt l (16 * q) 1 < bytesAt l (16 * q + 3) 1)) || badQueues g ps (readQueueSet g p.2 l).2

/-- The first check of R150 that an image fails, as the parameter of *corrupt context image*. -/
def imageFault (c : Crew) (l : List Byte) : Option Nat :=
  let secs := fun n => bytesAt l (32 + 8 * n) 8
  if bytesAt l 0 4 ≠ 3 ∨ bytesAt l 22 2 ≠ 0 ∨ bytesAt l 28 4 ≠ 0 ∨ (l.drop 104).take 152 ≠ zeros 152 then some 0
  else if bytesAt l 4 4 ≠ (crc32c (patch l 4 (zeros 4))).toNat then some 1
  else if bytesAt l 8 2 ≠ c.grant ∨ bytesAt l 10 2 ≠ c.pairs.length ∨ bytesAt l 12 4 ≠ c.threads ∨ bytesAt l 16 2 ≠ c.kern.nv
      ∨ bytesAt l 18 2 ≠ c.kern.ns ∨ bytesAt l 20 2 ≠ c.kern.ta ∨ bytesAt l 24 4 ≠ c.num.toNat then some 2
  else if badQueues c.grant c.pairs (l.drop (secs 3)) || (List.range c.kern.ns).any (fun j => decide (3 < bytesAt l (secs 6 + 16 * j) 4))
    then some 3
  else none

/-- The records of a save posted again, as section 7 has them (R414). -/
def resumePosts (uid : Nat) (i : SaveInfo) (sec : List Byte) : List Post :=
  (i.records.zip i.offs).zipIdx.map fun r =>
    let b := (sec.drop (16 + 64 * r.2)).take 64
    { crew := uid, pair := r.1.1.1, split := 99, kind := .record r.1.2 (CmdRec.ofBytes b), bar := none, cont := false, resume := true, bytes := b }

/-- The engine status words of an image's records, whose op is 0xFFFF, in section 7 (R288). -/
def readStatus (sec : List Byte) (ps : Tbl Pair) : Tbl Pair :=
  (List.range (bytesAt sec 0 4)).foldl (fun ps k =>
    let r := (sec.drop (16 + 64 * k)).take 64
    if bytesAt r 52 2 = 0xFFFF then
      ps.map fun p => if p.1 = bytesAt r 56 2 then (p.1, { p.2 with status := BitVec.ofNat 64 (bytesAt r 0 8) }) else p
    else ps) ps

/-- A split as its record in a save area has it: trap registers and the first pending machine check (Table 14.11). -/
def Split.areaBack (x : Split) (r : List Byte) : Split :=
  let cause := bytesAt r 28 4
  { x with record := { tcause := BitVec.ofNat 32 (bytesAt r 0 4), taddr := BitVec.ofNat 64 (bytesAt r 8 8), taddr2 := BitVec.ofNat 64 (bytesAt r 16 8),
                       targ := BitVec.ofNat 32 (bytesAt r 4 4) },
           mc := if cause = 0x1FF then [] else (BitVec.ofNat 9 cause, BitVec.ofNat 64 (bytesAt r 32 8)) :: x.mc.drop 1 }

/-- The splits of a warp whose records stand in a save area, with the warp's $tctl and its holders as those records have them. -/
def Warp.areaBack (w : Warp) (mine : Nat → Bool) (l : List Byte) : Warp :=
  let ns := (w.splits.map (·.1)).filter fun i => decide (i < 4) && mine i
  let at_ := fun i => (l.drop (64 * i)).take 64
  let ctl := fun i => (BitVec.ofNat 32 (bytesAt (at_ i) 24 4) : W32)
  match ns with
  | [] => w
  | n :: _ =>
    let holder := fun (o : Option Nat) (b : Nat) => match ns.find? fun i => bitAt (ctl i) b with
      | some i => some i
      | none => o.bind fun i => if ns.contains i then none else some i
    let hs := holder w.holdSplits 1
    let hp := holder w.holdPair 2
    { w with tctl := (ctl n &&& ~~~6) ||| (if hs.isSome then 2 else 0) ||| (if hp.isSome then 4 else 0), holdSplits := hs, holdPair := hp,
             splits := w.splits.map fun x => if ns.contains x.1 then (x.1, x.2.areaBack (at_ x.1)) else x }

/-- A carried entry of a store queue as its record in a save area has it (R412, Table 14.11). -/
def StoreEntry.areaBack (e : StoreEntry) (g : Nat) (r : List Byte) : StoreEntry :=
  let paired := e.kind == .sa || e.kind == .ssa
  { e with q := bytesAt r 4 1, rel := if bytesAt r 2 1 = 0 then none else Scope.ofBits (BitVec.ofNat 3 (bytesAt r 3 1)),
           lanes := e.lanes.map fun x => { x with off := !(bytesAt r 8 8).testBit x.lane, va := BitVec.ofNat 64 (bytesAt r (64 + 8 * x.lane) 8),
                                                  val := if paired then x.val else BitVec.ofNat 64 (bytesAt r (64 + 8 * g + 8 * x.lane) 8) } }

/-- A warp pair as its save area has it (R413). The records belong to the splits that `saveArea` wrote. -/
def Pair.areaBack (p : Pair) (g : Nat) (l : List Byte) : Pair :=
  let es := (p.acc.stores.filter (·.kind != .fence)).zipIdx
  let exe := p.exe.areaBack (fun _ => true) l
  let acc := p.acc.areaBack (fun i => (Tbl.get? p.exe.splits i).isNone) l
  { p with exe := exe,
           acc := { acc with stores := acc.stores.map fun e => match es.find? fun x => x.1.seq == e.seq && x.1.kind == e.kind with
             | some x => if x.2 < bytesAt l 256 4 then x.1.areaBack g ((l.drop (320 + (64 + 16 * g) * x.2)).take (64 + 16 * g)) else e
             | none => e } }

/-- The save areas of a crew's warp pairs are read back: none while a line of them is waited for; of a pair whose area cannot be read, the device keeps what it holds (log 25). -/
def readAreas (s : State) (core : Nat) (c : Crew) : Tbl Pair → Option (State × Tbl Pair)
  | [] => some (s, [])
  | p :: ps =>
    match getVirtual s core c.ctx p.2.area (saveArea c p.2).length with
    | none => none
    | some (s, l) => (readAreas s core c ps).map fun r => (r.1, (p.1, match l with
      | none => p.2
      | some l => p.2.areaBack c.grant l) :: r.2)

/-- A saved crew is put on a core (R417), as its image and its save areas have it: every unit is ready at its saved pc. What none of them holds comes back from the record the device keeps (log 49). DESIGN CHOICE (log 92): a pending width request ends with a resume only at the grant it names. It waits for lines it reads, and stops where a spilled register cannot be moved to a new grant. -/
def resumeOn (s : State) (uid : Nat) (c : Crew) (i : SaveInfo) (img : List Byte) (core g : Nat) (p : Spot) (cap : Nat) : Except Stop State :=
  let s := match p.deque with
    | none => s
    | some off => addDeque s core c.launch cap off
  let f := freePipe s core none
  let now := (s.core core).cyc.toNat
  let warp := fun (n : Nat) (w : Warp) =>
    { w with pipe := pipeOf f n c.grant, splits := w.splits.map fun (x : Nat × Split) => (x.1, { x.2 with readyAt := now, issued := now, boosted := none }) }
  let from_ := c.core
  let c := readImage c img
  let sec := fun n => img.drop (bytesAt img (32 + 8 * n) 8)
  let c := { c with core := core, saved := none, pairs := readStatus (sec 7) (c.pairs.map fun (q : Nat × Pair) => (q.1, { q.2 with acc := warp q.1 q.2.acc, exe := warp q.1 q.2.exe })) }
  let areas : Option (State × Tbl Pair) := if c.kern.prog.isSome then some (s, c.pairs) else readAreas s core c c.pairs
  match areas with
  | none => pause .ordering
  | some (s, ps) =>
  let c := { c with pairs := ps }
  let mem := (img.drop (i.size - c.kern.scratch)).take c.kern.scratch
  let s := if mem.isEmpty then s else crewStore s uid c 0 mem
  let s := c.stamps.foldl (fun s t => if stampContents (sec 6) t.1 then s else crewMet s c t.2.src (imageBytes t.2.sparse)) s
  let c := { c with stamps := c.stamps.map fun t => if stampContents (sec 6) t.1 then t else (t.1, reloadStamp s uid c t.2) }
  let k := s.core core
  let s := (s.setCore core { k with posts := k.posts ++ resumePosts uid i (sec 7) }).setCrew uid c
  let s := freeDeque s from_ c.launch
  let moved : Except (UnitRef × Stop) State := if g = c.grant then .ok s else reslice s uid c core g p.run p.runLen
  match moved with
  | .error e => .error e.2
  | .ok s => .ok (wakeCore (s.onCrew uid fun c => { c with widthReq := if i.reslice && c.widthReq == some g then none else c.widthReq }) core 7)

/-- A resume at a grant; where a spilled register cannot be moved there, at the crew's own (log 80). -/
def resumeAt (s : State) (uid : Nat) (c : Crew) (i : SaveInfo) (img : List Byte) (core g : Nat) (p : Spot) (l : Launch) : Option State :=
  match resumeOn s uid c i img core g p l.cap with
  | .ok s => some s
  | .error (.wait _) => none
  | .error (.trap _) => (fit s core none (c.wanted l.cap) c.grant).bind fun p => (resumeOn s uid c i img core c.grant p l.cap).toOption

/-- Launches whose crews go before those of launch `id` (R378): higher priority, or equal and started earlier. -/
def ahead (s : State) (id : Nat) (l : Launch) : List (Nat × Launch) :=
  s.launches.filter fun e =>
    decide (s.prio l.queue < s.prio e.2.queue) || (decide (s.prio l.queue = s.prio e.2.queue) && decide (e.1 < id))

/-- No launch before this one has a crew that could go now (R378). -/
def turnOf (s : State) (id : Nat) (l : Launch) : Bool :=
  (ahead s id l).all fun e => match waitingOf s e.1 e.2 with
    | none => true
    | some w => (w.spot s e.1 e.2).isNone

/-- CREW_RESUME (R417): the crew of its launch that goes next (R378), its image checked (R150), is placed on a core where it fits. -/
def execCrewResume (crew : Nat) (s : State) : Host.Outcome State Fault Refusal :=
  orSame s (
    match s.crew? crew with
    | none => none
    | some c =>
      match c.saved, Tbl.get? s.launches c.launch with
      | some i, some l =>
        if i.corrupt || ((waitingOf s c.launch l).bind (·.saved)) != some crew || !turnOf s c.launch l then none
        else
          if !(lineWaits s .phys i.image i.size).isEmpty then none else
          let r := loadWith (applyLines s i.image i.size) c.ctx i.image i.size (fun s => deviceLoad s i.image i.size) fun s x a => contextCheck s c.ctx x a
          let s := r.1
          let img := r.2
          match imageFault c img with
          | some n =>
            let s := s.setCrew crew { c with saved := some { i with corrupt := true } }
            some (contextCheck (logError s (108 + dieOf i.image) 0x20 true c.ctx i.image) c.ctx (0x134 + n) (BitVec.ofNat 64 i.image))
          | none =>
            match (savedWaiting crew c i l).spot s c.launch l with
            | none => none
            | some (core, g, p) =>
              (resumeAt s crew c i img core g p l).map fun s => { s with launches := Tbl.set s.launches c.launch { l with asked := [], freed := none } }
      | _, _ => none)

/-- The object of a barrier that a split waits at stands in a line that a command owns: no step of it is performed (R329). -/
def barrierHeld (s : State) (c : Crew) (w : Wait) : Bool :=
  match w with
  | .barrier off _ _ => crewWaits s c off 16
  | _ => false

/-- A split leaves the barrier it is parked at without its release: the object's count falls (R297). -/
def leaveBarrier (s : State) (h : Here) : State :=
  match h.split.wait with
  | .barrier off _ _ => leaveObj s h.u.crew h.crew off
  | _ => s

/-- A split takes the first machine check it has met, at its boundary (R408): before its next instruction, also where that is parked or stalled. None while it has no boundary. -/
def checkTaken (s : State) (h : Here) : Option State :=
  match h.split.mc with
  | [] => none
  | (cause, addr) :: rest =>
    if h.split.halted || !h.split.wait.restarts || barrierHeld s h.crew h.split.wait then none
    else some (takeTrap ((leaveBarrier s h).onSplit h.u fun x => { x with mc := rest }) h.u { cause := cause.toNat, addr := addr })

/-- MACHINE_CHECK_DELIVERY (R408): at the split's instruction boundary. -/
def execMachineCheckDelivery (u : UnitRef) (s : State) : Host.Outcome State Fault Refusal :=
  orSame s (
    match s.here? u with
    | none => none
    | some h => if h.crew.saving then none else checkTaken s h)

end Sys2Proof.Machine
end

