-- ==== Sys2Proof/Machine/System.lean ====
section
/-! DEFINITION. Group 14: software traps and breakpoints, arithmetic traps, return from traps, special registers, instruction-cache maintenance (R44 to R48, R305 to R313, R401 to R403). -/
namespace Sys2Proof.Machine

/-- TRAP (R307): resumes after itself (Table 10.7). -/
def execTrap (x : TrapArgs) (s : State) : Host.Outcome State Fault Refusal :=
  runOn s fun h =>
    if h.active x.g = 0 then .ok (s.put (h.advance 8))
    else raise { cause := 0x140, arg := x.n.setWidth 32, resume := some (h.split.pc + 8) }

/-- BRK (R307, R420): halts for an attached debugger. -/
def execBrk (x : TrapArgs) (s : State) : Host.Outcome State Fault Refusal :=
  runOn s fun h =>
    if h.active x.g = 0 then .ok (s.put (h.advance 8))
    else raise { cause := 0x141, arg := x.n.setWidth 32, halt := (s.ctx h.crew.ctx).attached }

/-- The lanes of a mask whose flag `f` is set and enabled (R308). -/
def trapLanes (w : Warp) (act : W64) (f : Nat) : List Nat := (lanesOf act).filter fun l => bitAt (w.getF l) f && bitAt (w.getF l) (f + 8)

/-- TFENCE (R308): the arithmetic cause of the first flag that is set and enabled (R394). -/
def execTfence (x : BareArgs) (s : State) : Host.Outcome State Fault Refusal :=
  runOn s fun h =>
    let act := h.active x.g
    if h.u.slice = .access then .ok (s.put (h.advance 8))
    else
      match (List.range 6).find? fun f => !(trapLanes h.warp act f).isEmpty with
      | none => .ok (s.put (h.advance 8))
      | some f =>
        let l := (trapLanes h.warp act f).headD 0
        raise { cause := 0x80 + 8 * f + l / 8, lane := some l, resume := some (h.split.pc + 8) }

/-- RTE (R309); the never-execute guard changes nothing (R305). -/
def execRte (x : BareArgs) (s : State) : Host.Outcome State Fault Refusal :=
  runOn s fun h => if x.g.neg then .ok (s.put (h.advance 8)) else returnFromTrap s h

/-! ### Special registers (Table 1.4) -/

/-- The columns of Table 1.4 that instructions check. -/
structure Special where
  wide : Bool
  /-- thread or crew-octet scope -/
  thread : Bool
  /-- the only slice that has it -/
  only : Option Slice
  writable : Bool
  deriving DecidableEq, Repr

/-- Table 1.4. -/
def special (n : Nat) : Option Special :=
  match n with
  | 0x00 | 0x01 => some ⟨false, true, none, false⟩
  | 0x02 | 0x03 | 0x04 | 0x05 | 0x06 | 0x07 | 0x08 | 0x09 | 0x13 | 0x20 | 0x25 => some ⟨false, false, none, false⟩
  | 0x10 => some ⟨false, true, some .execute, true⟩
  | 0x11 => some ⟨false, true, some .execute, false⟩
  | 0x12 | 0x18 | 0x1C | 0x23 | 0x24 => some ⟨true, false, none, false⟩
  | 0x14 | 0x26 => some ⟨false, false, none, true⟩
  | 0x1D => some ⟨true, false, some .access, false⟩
  | 0x21 | 0x22 => some ⟨true, false, none, true⟩
  | _ => none

/-- The checks of R44 that `rds` and `wrs` share: the index, then the slice. -/
def specialOk (sl : Slice) (n : Nat) : Part Special :=
  match special n with
  | none => raise { cause := cause0 22 sl }
  | some p =>
    match p.only with
    | none => .ok p
    | some o => if o = sl then .ok p else raise { cause := cause0 25 sl }

/-- $qcfg (Table 1.4): store-data queues run from execute too (R40; log 15). -/
def qcfg (p : Pair) : W64 :=
  BitVec.ofNat 64 (p.queues.foldl (fun a e =>
    a + 2 ^ e.1 + (if producer e.2.dir = .execute then 2 ^ (16 + e.1) else 0) + (if e.2.dir = .sd then 2 ^ (32 + e.1) else 0)) 0)

/-- $preq (R388). -/
def Crew.preqWord (c : Crew) : W64 := BitVec.ofNat 64 (c.deadline.toNat * 2 ^ 32 + (if c.preq then 1 else 0))

/-- The stack of a split with its spilled entries read back (R28, R401). -/
def wholeStack (s : State) (h : Here) : (n : Nat) → Part (State × List StackEntry)
  | 0 => .ok (s, h.split.stack.take 16)
  | n + 1 =>
    match wholeStack s h n with
    | .error t => .error t
    | .ok (s, l) =>
      match h.split.stack[16 + n]? with
      | none => .ok (s, l)
      | some o =>
        match fillEntry s h (h.split.stack.length - 1 - (16 + n)) o with
        | .error t => .error t
        | .ok (s, e) => .ok (s, l ++ [e])

/-- The topmost trap entry with its depth (R401). -/
def topTrap (l : List StackEntry) : Option (Nat × StackEntry) :=
  match l.findIdx? (·.isTrap) with
  | none => none
  | some i => (l[i]?).map fun e => (i, e)

/-- The value of a special register of uniform scope; the trap registers are those of the split (Table 14.7). -/
def Here.special (s : State) (h : Here) (top : Option StackEntry) (n : Nat) : W64 :=
  let k := s.core h.crew.core
  match n with
  | 0x02 => BitVec.ofNat 64 h.crew.grant
  | 0x03 => BitVec.ofNat 64 h.u.pair
  | 0x04 => h.crew.num.setWidth 64
  | 0x05 => BitVec.ofNat 64 h.crew.core
  | 0x06 => BitVec.ofNat 64 (clusterOf h.crew.core)
  | 0x08 => s.dev.domain.setWidth 64
  | 0x09 => BitVec.ofNat 64 h.crew.ctx
  | 0x12 => h.crew.preqWord
  | 0x13 => k.wake.setWidth 64
  | 0x14 => h.warp.role.setWidth 64
  | 0x18 => k.cyc
  | 0x1C => qcfg h.pair
  | 0x1D => h.pair.tagcnt
  | 0x20 => h.split.record.tcause.setWidth 64
  | 0x21 => (top.map (·.addr)).getD 0
  | 0x22 => (top.map (·.mask)).getD 0
  | 0x23 => h.split.record.taddr
  | 0x24 => h.split.record.taddr2
  | 0x25 => h.split.record.targ.setWidth 64
  | 0x26 => h.warp.tctl.setWidth 64
  | _ => 0

/-- The value of a special register in a lane. -/
def Here.specialLane (s : State) (h : Here) (top : Option StackEntry) (n lane : Nat) : W64 :=
  match n with
  | 0x00 => BitVec.ofNat 64 (h.u.pair * h.crew.grant + lane)
  | 0x01 => BitVec.ofNat 64 lane
  | 0x10 => (h.warp.getF lane).setWidth 64
  | 0x11 => (Cells.get h.crew.acst (h.octet lane)).setWidth 64
  | _ => Here.special s h top n

/-- The stack as `rds` and `wrs` of $tpc and $tmask need it; other registers leave it alone. -/
def stackFor (s : State) (h : Here) (n : Nat) : Part (State × List StackEntry) :=
  if n = 0x21 ∨ n = 0x22 then wholeStack s h (h.split.stack.length - 16) else .ok (s, [])

/-- RDS (R310). -/
def execRds (x : RdsArgs) (s : State) : Host.Outcome State Fault Refusal :=
  runOn s fun h => do
    let n := x.idx.toNat
    let sl := h.u.slice
    let p ← specialOk sl n
    guardPart (!(p.thread && x.d.isUniform) && !(p.wide && x.d.isQueue)) { cause := cause0 4 sl }
    let wide := p.wide && decide (sl = .execute)
    guardPart (!wide || pairAligned (x.d, true)) { cause := cause0 10 sl }
    let act := h.active x.g
    let us : List Use := [(x.d, wide)]
    let r ← prepare s h us [] act
    let t ← stackFor r.1 r.2 n
    let h := r.2
    let top := (topTrap t.2).map (·.2)
    let h' := (h.result x.d (wide || decide (sl = .access)) x.nwb act fun l => Here.specialLane t.1 h top n l).advance 8
    let s ← spillRegs t.1 h' (dedup (spilledRegs us))
    pure (s.put h')

/-- Changes entry `i` of a split's stack, in the backing store when it is spilled (R402). -/
def setEntry (s : State) (h : Here) (i : Nat) (e : StackEntry) : Part (State × Here) :=
  let h' := { h with split := { h.split with stack := h.split.stack.set i e } }
  if i < 16 then .ok (s, h')
  else
    match spillEntry s h (h.split.stack.length - 1 - i) e with
    | .error t => .error t
    | .ok s => .ok (s, h')

/-- Writes $fflags in the active lanes (R311). -/
def writeFflags (h : Here) (act : W64) (v : Nat → W32) : Part Here :=
  match (lanesOf act).find? fun l => decide (v l &&& 0xFFFFC0C0 ≠ 0) with
  | some l => raise { cause := cause0 24 h.u.slice, lane := some l }
  | none => .ok { h with warp := (lanesOf act).foldl (fun w l => { w with fflags := Cells.set w.fflags l (v l) }) h.warp }

/-- Writes $tctl (R403): the holder of a hold bit is the split that writes it as 1. -/
def writeTctl (h : Here) (v : W32) : Here :=
  { h with warp := { h.warp with tctl := v, holdSplits := if bitAt v 1 then some h.u.split else none,
                                 holdPair := if bitAt v 2 then some h.u.split else none } }

/-- Writes $tpc (R402): bits [56:0] are kept, the entry's address is checked at `rte`. -/
def StackEntry.setAddr (e : StackEntry) (a : W64) : StackEntry := { e with pc := pcBits a, low := a.extractLsb' 0 3 }

/-- WRS (R311). -/
def execWrs (x : WrsArgs) (s : State) : Host.Outcome State Fault Refusal :=
  runOn s fun h => do
    let n := x.idx.toNat
    let sl := h.u.slice
    let p ← specialOk sl n
    guardPart p.writable { cause := cause0 23 sl }
    guardPart (!p.wide || x.a.isUniform) { cause := cause0 4 sl }
    let wide := p.wide && decide (sl = .execute)
    guardPart (!wide || pairAligned (x.a, true)) { cause := cause0 10 sl }
    let act := h.active x.g
    let us : List Use := [(x.a, wide)]
    let r ← prepare s h [] us act
    let s := r.1
    let h := r.2
    match lowest act with
    | none => pure (s.put (h.advance 8))
    | some l0 => do
      let v := fun l => h.src us 0 false l
      let bits : Trap := { cause := cause0 24 sl, lane := some l0 }
      match n with
      | 0x10 => do
        let h ← writeFflags h act fun l => (v l).setWidth 32
        pure (s.put (h.advance 8))
      | 0x14 => do
        let w : W32 := (v l0).setWidth 32
        guardPart (decide (w.toNat < 4)) bits
        pure (s.put ({ h with warp := { h.warp with role := w } }.advance 8))
      | 0x26 => do
        let w : W32 := (v l0).setWidth 32
        guardPart (decide (w.toNat < 32)) bits
        pure (s.put ((writeTctl h w).advance 8))
      | _ => do
        let t ← stackFor s h n
        match topTrap t.2 with
        | none => raise { cause := cause0 21 sl, lane := some l0 }
        | some e => do
          guardPart (decide (n = 0x21) || decide (v l0 &&& ~~~e.2.mask = 0)) bits
          let e' := if n = 0x21 then e.2.setAddr (v l0) else { e.2 with mask := v l0 }
          let r ← setEntry t.1 h e.1 e'
          pure (r.1.put (r.2.advance 8))

/-! ### Instruction caches (R312, R313) -/

/-- Discards instruction-cache lines of every core and words fetched ahead by every split (R313). -/
def dropCode (s : State) (hit : Nat → W64 → Bool) : State :=
  let cores := s.cores.map fun e => (e.1, { e.2 with icache := e.2.icache.filter fun l => !hit l.ctx (BitVec.ofNat 64 (128 * l.line)) })
  let warp := fun (ctx : Nat) (w : Warp) =>
    { w with splits := w.splits.map fun x => (x.1, { x.2 with ahead := x.2.ahead.filter fun a => !hit ctx (BitVec.ofNat 64 a.1) }) }
  let crews := s.crews.map fun e => (e.1, { e.2 with pairs := e.2.pairs.map fun p =>
    (p.1, { p.2 with acc := warp e.2.ctx p.2.acc, exe := warp e.2.ctx p.2.exe }) })
  { s with cores := cores, crews := crews }

/-- ICINV (R313): `flag` is .all. -/
def execIcinv (x : RangeArgs) (s : State) : Host.Outcome State Fault Refusal :=
  runFull s (.icinv x) x.g fun s h act _ =>
    let h := h.advance 8
    if act = 0 then .ok (s, h)
    else if x.flag then
      let s := dropCode (s.put h) fun _ _ => true
      .ok (s, (s.here? h.u).getD h)
    else
      let rs := ranges h act x.base x.len true
      let s := dropCode (s.put h) fun ctx a => ctx == h.crew.ctx && lineMeets rs (fld a 0 64)
      .ok (s, (s.here? h.u).getD h)

/-- ISYNC (R312). -/
def execIsync (x : BareArgs) (s : State) : Host.Outcome State Fault Refusal :=
  runOn s fun h =>
    if h.active x.g = 0 then .ok (s.put (h.advance 8))
    else do
      h.awaitData h.warp.stores
      if !h.warp.stores.isEmpty then pause .ordering
      let s := performAgent s (· == h.agent) .die
      pure (s.put ({ h with split := { h.split with ahead := [] } }.advance 8))

end Sys2Proof.Machine
end

