-- ==== Sys2Proof/Machine/Launch.lean ====
section
/-! DEFINITION. Host command queues, their commands and residency, launches and the placement of crews (R335, R370 to R381, R390). -/
namespace Sys2Proof.Machine

/-! ### Queue registers (Table 13.1) -/

def HostQueue.en (q : HostQueue) : Bool := bitAt q.cfg 14
def HostQueue.ctx (q : HostQueue) : Nat := fld q.cfg 8 6
def HostQueue.prio (q : HostQueue) : Nat := fld q.cfg 4 3
/-- Records in the ring. -/
def HostQueue.size (q : HostQueue) : Nat := 2 ^ (fld q.cfg 0 4 + 4)
/-- Ring, lsize and ctx can change (R370). -/
def HostQueue.quiet (q : HostQueue) : Bool := !q.en && q.progress == q.tail
/-- A launch runs that has not completed (R371, R377). -/
def HostQueue.launching (q : HostQueue) : Bool :=
  match q.run with
  | some (.launch _) | some (.complete _) => true
  | _ => false
/-- The queue waits for an event counter. -/
def HostQueue.waiting (q : HostQueue) : Bool :=
  match q.run with
  | some (.wait _ _) => true
  | _ => false
/-- State of Table 13.2. -/
def HostQueue.state (q : HostQueue) : Nat :=
  if !q.en then (if q.launching then 2 else 0) else if q.err ≠ 0 then 3 else if q.progress = q.tail then 1 else 2
/-- The status register (Table 13.2). -/
def HostQueue.status (q : HostQueue) : W64 :=
  BitVec.ofNat 64 (q.err.toNat * 256 + (if q.held then 16 else 0) + (if q.regress then 8 else 0) + (if q.res then 4 else 0) + q.state)
/-- Eligible (R377). -/
def HostQueue.eligible (q : HostQueue) : Bool := q.en && !q.held && decide (q.err = 0) && decide (q.progress.toNat < q.tail.toNat)

/-- A write to the control aperture is refused (Table 16.3). -/
def refuseWrite (s : State) : State := { s with dev := { s.dev with refused := true } }
/-- Vector `n` of MSI-X is signalled (R447). -/
def signal (s : State) (n : Nat) : State := { s with dev := { s.dev with msix := s.dev.msix ||| BitVec.ofNat 66 (2 ^ n) } }

/-- A queue stops on an error (Table 13.4, R447). -/
def stopQueue (s : State) (n : Nat) (err : Nat) : State :=
  let q := s.hq n
  signal (s.setHq n { q with err := BitVec.ofNat 8 err }) (2 + q.ctx)

/-- A queue stops at a launch record, which may name a kernel of a load (R441). -/
def stopNamed (s : State) (n err : Nat) (e : Option LoadEntry) : State :=
  let s := stopQueue s n err
  s.setHq n { s.hq n with named := e.map (·.loadid) }

/-- A time stamp for a queue that becomes idle or waits (R377). -/
def stampQueue (s : State) (n : Nat) : State := { s with clock := s.clock + 1 }.setHq n { s.hq n with since := s.clock }
/-- A queue leaves its slot, with a time stamp (R377). -/
def leaveSlot (s : State) (n : Nat) : State := { s with clock := s.clock + 1 }.setHq n { s.hq n with res := false, away := s.clock }

/-- A disabled queue without a running launch holds no slot (R377 item 4). -/
def dropSlot (s : State) (n : Nat) : State :=
  let q := s.hq n
  if q.res && !q.en && !q.launching then leaveSlot s n else s

/-- A write to cfg (R370, R371): disabling abandons an event wait and enabling sets tail and done to zero. -/
def writeCfg (s : State) (n : Nat) (val : W64) : State :=
  let q := s.hq n
  if decide (fld val 15 17 ≠ 0) || bitAt val 7 || decide (12 < fld val 0 4) then refuseWrite s
  else
    let cfg := if q.quiet then val else setFld (setFld val 0 4 (fld q.cfg 0 4)) 8 6 q.ctx
    let q' := { q with cfg := cfg }
    let q' := if !q.en && q'.en then { q' with tail := 0, progress := 0 } else q'
    let q' := if !q'.en && q'.waiting then { q' with run := none } else q'
    dropSlot (s.setHq n q') n

/-- CFG (R370, R371). -/
def execCfgW (queue : Nat) (val : W64) (s : State) : Host.Outcome State Fault Refusal := .next (if 1024 ≤ queue then s else writeCfg s queue val)

/-- A write to ring (R370). -/
def writeRing (s : State) (n : Nat) (val : W64) : State :=
  let q := s.hq n
  if fld val 0 6 ≠ 0 then refuseWrite s else if q.quiet then s.setHq n { q with ring := val } else s

/-- A write to tail (R373): on a non-resident queue the accepted value is also latched until switch-in. -/
def writeTail (s : State) (n : Nat) (val : W64) : State :=
  let q := s.hq n
  if val.toNat < q.tail.toNat then s.setHq n { q with regress := true }
  else if q.progress.toNat + q.size < val.toNat then stopQueue s n 5
  else s.setHq n { q with tail := val, latched := if q.res then none else some val }

/-- TAIL (R373). -/
def execTailW (queue : Nat) (val : W64) (s : State) : Host.Outcome State Fault Refusal := .next (if 1024 ≤ queue then s else writeTail s queue val)

/-! ### Commands (R372, R375, R376) -/

/-- A load of the launch engine at die scope in a context: none while an engine owns a line of it. -/
def launchRead (s : State) (ctx : Nat) (va : W64) (n : Nat) : Except XFault (Option (State × List Byte)) :=
  match visitBytes s ctx va .r n with
  | .error f => if f.line?.isSome then .ok none else .error f
  | .ok (s, as) =>
    if !freeBytes s as then .ok none
    else
      let r := readBytes (applyBytes s as) dieViewer ctx as
      .ok (some (errorSeen r ctx (as.headD 0), r.2.1))

/-- A store of the launch engine, a release at die scope (R335): none while an engine owns a line of it. Partial writes are checked (R357), and lines of memory-side pages go past the L2 (Table 12.4). -/
def launchWrite (s : State) (ctx : Nat) (va : W64) (d : List Byte) : Except XFault (Option State) :=
  match visitBytes s ctx va .w d.length with
  | .error f => if f.line?.isSome then .ok none else .error f
  | .ok (s, as) =>
    if !freeBytes s as then .ok none
    else .ok (some (writeBytes (partialChecks (applyBytes s as) ctx (as.zip d)) .launch 0 0 .phys (sideLine s (sidePages (peek s ctx) va d.length)) .domain (as.zip d)))

/-- A command of a queue has completed (R376, R447): done rises; a queue without further commands becomes idle, and a disabled one leaves its slot. -/
def completeCommand (s : State) (n : Nat) : State :=
  let q := s.hq n
  let q := { q with progress := q.progress + 1, run := none }
  let s := stampQueue (s.setHq n q) n
  let s := if q.state = 1 then signal s (2 + q.ctx) else s
  dropSlot s n

/-- Tests the counter of a waiting queue (R376): the wait completes, goes on, or stops the queue. -/
def pollQueue (s : State) (n : Nat) : State :=
  let q := s.hq n
  match q.run with
  | some (.wait a v) =>
    match launchRead s q.ctx a 8 with
    | .error _ => stopQueue (s.setHq n { q with run := none }) n 6
    | .ok none => s
    | .ok (some (s, d)) => if v.toNat ≤ bytesToNat d then completeCommand s n else s
  | _ => s

/-- Tests the counters of every resident waiting queue, as after an event write or a completion event (R376). -/
def pollAll (s : State) : State :=
  (Tbl.keys s.queues).foldl (fun s n => if (s.hq n).res then pollQueue s n else s) s

/-- What the start of a queue's next command meets. -/
inductive CmdStart
  /-- the queue starts nothing now -/
  | idle
  /-- an error stops it -/
  | error (code : Nat)
  /-- the record at done -/
  | record (s : State) (r : List Byte)
  deriving DecidableEq, Repr

/-- The record that a resident eligible queue starts (R372, R378). -/
def startCommand (s : State) (n : Nat) : CmdStart :=
  let q := s.hq n
  if !q.res || !q.eligible || q.run.isSome then .idle
  else if !bitAt (s.ctx q.ctx).root 0 then .error 7
  else
    match launchRead s q.ctx (q.ring + BitVec.ofNat 64 (64 * (q.progress.toNat % q.size))) 64 with
    | .error _ => .error 2
    | .ok none => .idle
    | .ok (some (s, r)) => .record s r

/-- Bytes `lo` to `hi - 1` of a record are zero. -/
def zeroRange (r : List Byte) (lo hi : Nat) : Bool := bytesAt r lo (hi - lo) == 0

/-- Starts the next command of a queue when its record has operation `op`; an error of the start, or a reserved operation, stops the queue whichever operation is asked for (R375). -/
def onRecord (s : State) (n op : Nat) (f : State → List Byte → Option State) : Option State :=
  match startCommand s n with
  | .idle => none
  | .error e => some (stopQueue s n e)
  | .record s r => if 4 ≤ bytesAt r 0 2 then some (stopQueue s n 1) else if bytesAt r 0 2 = op then f s r else none

/-- NO_OP_RECORD (R375). -/
def execNoOpRecord (queue : Nat) (s : State) : Host.Outcome State Fault Refusal :=
  orSame s (onRecord s queue 0 fun s r => some (if zeroRange r 2 64 then completeCommand s queue else stopQueue s queue 1))

/-- Layout of an event record (Table 13.3). -/
def eventRecordOk (r : List Byte) : Bool :=
  zeroRange r 2 10 && zeroRange r 32 64 && decide (bytesAt r 16 8 ≠ 0) && decide (bytesAt r 16 8 % 8 = 0)

/-- The counter address and the value of an event record. -/
def eventAddr (r : List Byte) : W64 := BitVec.ofNat 64 (bytesAt r 16 8)
def eventValue (r : List Byte) : W64 := BitVec.ofNat 64 (bytesAt r 24 8)

/-- EVENT_WAIT (R376): the counter is read at start. -/
def execEventWait (queue : Nat) (s : State) : Host.Outcome State Fault Refusal :=
  orSame s (onRecord s queue 2 fun s r =>
    some (
      if !eventRecordOk r then stopQueue s queue 1
      else pollQueue (stampQueue (s.setHq queue { s.hq queue with run := some (.wait (eventAddr r) (eventValue r)) }) queue) queue))

/-- EVENT_WAIT_POLL (R376). -/
def execEventWaitPoll (queue : Nat) (s : State) : Host.Outcome State Fault Refusal :=
  orSame s (if (s.hq queue).res && (s.hq queue).waiting then some (pollQueue s queue) else none)

/-- EVENT_WRITE (R376). -/
def execEventWrite (queue : Nat) (s : State) : Host.Outcome State Fault Refusal :=
  orSame s (onRecord s queue 3 fun s r =>
    if !eventRecordOk r then some (stopQueue s queue 1)
    else
      match launchWrite s (s.hq queue).ctx (eventAddr r) (natToBytes (eventValue r).toNat 8) with
      | .error _ => some (stopQueue s queue 6)
      | .ok none => none
      | .ok (some s) => some (pollAll (completeCommand s queue)))

/-! ### Launches -/

/-- Layout of a launch record (Table 13.3), but for the capacity, which depends on the kernel. -/
def launchRecordOk (r : List Byte) : Bool :=
  let f := fun lo => bytesAt r lo 2
  decide (f 2 ≤ 4) && decide (1 ≤ f 4) && decide (1 ≤ f 6) && decide (1 ≤ f 8) && decide (f 4 * f 6 * f 8 < 2 ^ 32) && decide (f 10 ≤ 3072)
    && decide (f 14 ≤ 256) && decide (bytesAt r 32 8 % 8 = 0) && zeroRange r 48 64

/-- The deque capacity of a record fits its kernel (Table 13.3). -/
def capOk (k : Kernel) (c : Nat) : Bool := if k.nentry = 0 then decide (c = 0) else [16, 32, 64, 128, 256, 512, 1024, 2048, 4096].contains c

/-- The kernel that a context's launch names (R438). -/
def loadedAt (s : State) (ctx : Nat) (a : W64) : Option LoadEntry := s.loads.find? fun e => e.ctx == ctx && e.addr == a

/-- The grants at which a crew fits an empty core, its backing store aside. -/
def emptyGrants (s : State) (q : Wanted) : List Nat :=
  let e := { s with crews := [], cores := [] }
  grants.filter fun g => decide (pairsAt q.threads g ≤ 48) && fitCounts e 0 none q.kern (pairsAt q.threads g) g && (fitScratch e 0 none q).isSome

/-- The error of a launch whose crews can never be placed (Table 13.4: 0x04, 0x08). -/
def neverFits (s : State) (q : Wanted) : Option Nat :=
  let gs := emptyGrants s q
  if gs.isEmpty then some 4
  else if gs.all fun g => decide ((s.ctx q.ctx).bssize.toNat < pairsAt q.threads g * areaBytes g q.kern.nv) then some 8
  else none

/-- The launch of a record; a translated kernel has no use for the record's width (R434). -/
def launchOf (queue ctx : Nat) (e : LoadEntry) (r params : List Byte) : Launch :=
  let f := fun lo => bytesAt r lo 2
  { queue := queue, ctx := ctx, entry := e, width := if e.kern.portable then 0 else f 2, nx := f 4, ny := f 6, nz := f 8,
    threads := if f 10 = 0 then e.kern.threads else f 10, cap := f 12, paddr := BitVec.ofNat 64 (bytesAt r 24 8), plen := f 14,
    params := params, caddr := BitVec.ofNat 64 (bytesAt r 32 8), cval := BitVec.ofNat 64 (bytesAt r 40 8), placed := 0, uids := [], asked := [] }

/-- LAUNCH (R376): the record, the kernel, the parameter block, and whether a crew can ever be placed. -/
def execLaunch (queue : Nat) (s : State) : Host.Outcome State Fault Refusal :=
  orSame s (onRecord s queue 1 fun s r =>
    let ctx := (s.hq queue).ctx
    if !launchRecordOk r then some (stopNamed s queue 1 (loadedAt s ctx (eventAddr r)))
    else
      match loadedAt s ctx (eventAddr r) with
      | none => some (stopQueue s queue 3)
      | some e =>
        if !capOk e.kern (bytesAt r 12 2) then some (stopNamed s queue 1 (some e))
        else
          match launchRead s ctx (BitVec.ofNat 64 (bytesAt r 24 8)) (bytesAt r 14 2) with
          | .error _ => some (stopNamed s queue 9 (some e))
          | .ok none => none
          | .ok (some (s, params)) =>
            let l := launchOf queue ctx e r params
            match neverFits s (nextWaiting s.nextLaunch l).want with
            | some code => some (stopNamed s queue code (some e))
            | none =>
              let s := dropCode s fun c _ => c == ctx
              some { s.setHq queue { s.hq queue with run := some (.launch s.nextLaunch) } with
                launches := Tbl.set s.launches s.nextLaunch l, nextLaunch := s.nextLaunch + 1 })

/-- The completion write of a launch (R376), and its completion. -/
def finishLaunch (s : State) (queue id : Nat) (l : Launch) : Option State :=
  let done := fun (s : State) => pollAll (completeCommand { s with launches := Tbl.erase s.launches id } queue)
  if l.caddr = 0 then some (done s)
  else
    match launchWrite s l.ctx l.caddr (natToBytes l.cval.toNat 8) with
    | .error _ => some (stopQueue (s.setHq queue { s.hq queue with run := some (.complete id) }) queue 6)
    | .ok none => none
    | .ok (some s) => some (done s)

/-- The launch whose failed completion write a clr has let the queue retry (R376). -/
def retriedLaunch (s : State) (queue : Nat) : Option (Nat × Launch) :=
  match (s.hq queue).run with
  | some (.complete id) => if (s.hq queue).err = 0 then (Tbl.get? s.launches id).map fun l => (id, l) else none
  | _ => none

/-- LAUNCH_COMPLETION (R335): every crew of the launch has ended, with its updates accepted and its commands finished; the completion is a release at die scope. A retried completion write that had to wait goes on (R376). -/
def execLaunchCompletion (queue : Nat) (s : State) : Host.Outcome State Fault Refusal :=
  orSame s (match s.runningLaunch queue with
    | none => (retriedLaunch s queue).bind fun r => finishLaunch s queue r.1 r.2
    | some (id, l) =>
      if l.placed < l.nx * l.ny * l.nz ∨ (s.crews.any fun e => e.2.launch == id) = true then none
      else
        finishLaunch (performWhere s (fun w => l.uids.any fun u => w.pastCrew u) .die) queue id l)

/-- CREW_PLACEMENT (R378, R381): the next crew of the queue's launch goes to its core. -/
def execCrewPlacement (queue : Nat) (s : State) : Host.Outcome State Fault Refusal :=
  orSame s (match s.runningLaunch queue with
    | none => none
    | some (id, l) =>
      match waitingOf s id l with
      | none => none
      | some w =>
        if w.saved.isSome || !turnOf s id l then none
        else (w.spot s id l).bind fun (core, g, p) =>
          let uid := s.nextCrew
          let c : Crew :=
            { launch := id, queue := queue, ctx := l.ctx, num := BitVec.ofNat 32 l.placed, core := core, grant := g, threads := l.threads,
              kern := l.entry.kern, abase := l.entry.addr, xbase := l.entry.xaddr, entries := l.entry.entries, paddr := l.paddr, plen := l.plen,
              params := l.params, scratch := p.scratch, run := p.run, runLen := p.runLen, pairs := [], mt := [], pt := [], acst := [],
              stamps := [], preq := false, deadline := 0, widthReq := none, saving := false, yielded := false, saved := none }
          let c := { c with pairs := startPairs s c }
          let s := clearScratch s core p.scratch (roundUp l.entry.kern.scratch 256)
          let s := match p.deque with
            | none => s
            | some off => addDeque s core id l.cap off
          (c.pairs.foldlM (fun s p => clearArea s core c.ctx p.2.area g c.kern.nv) s).map fun s =>
          wakeCore ({ s with nextCrew := uid + 1,
                             launches := Tbl.set s.launches id { l with placed := l.placed + 1, uids := l.uids ++ [uid], asked := [], freed := none } }.setCrew uid c) core 7)

/-! ### Residency (R377) -/

/-- The eligible non-resident queue that takes the next slot: highest priority, then non-resident longest. -/
def nextResident (s : State) : Option Nat :=
  (minBy (fun (a b : Nat × HostQueue) => decide (b.2.prio < a.2.prio) || (decide (a.2.prio = b.2.prio) && decide (a.2.away < b.2.away)))
    (s.queues.filter fun e => e.2.eligible && !e.2.res)).map (·.1)

/-- Slots in use. -/
def residents (s : State) : Nat := (s.queues.filter fun e => e.2.res).length

/-- QUEUE_SWITCH_IN: a latched tail acts, and a waiting queue is tested (R373, R376). -/
def execQueueSwitchIn (queue : Nat) (s : State) : Host.Outcome State Fault Refusal :=
  orSame s (
    if nextResident s = some queue ∧ residents s < 64 then
      some (pollQueue (s.setHq queue { s.hq queue with res := true, latched := none }) queue)
    else none)

/-- The resident queue that makes room for a waiting one of priority `p`: an idle one before one in an event wait, then lower priority, then idle or waiting longest. -/
def switchOut (s : State) (p : Nat) : Option Nat :=
  (minBy (fun (a b : Nat × HostQueue) =>
      decide (a.2.waiting.toNat < b.2.waiting.toNat) || (decide (a.2.waiting = b.2.waiting) && (decide (a.2.prio < b.2.prio)
        || (decide (a.2.prio = b.2.prio) && decide (a.2.since < b.2.since)))))
    (s.queues.filter fun e => e.2.res && !e.2.launching && decide (e.2.prio ≤ p))).map (·.1)

/-- QUEUE_SWITCH_OUT: with no free slot, for a waiting queue whose priority is no lower. -/
def execQueueSwitchOut (queue : Nat) (s : State) : Host.Outcome State Fault Refusal :=
  orSame s (match nextResident s with
    | none => none
    | some n =>
      if residents s < 64 ∨ switchOut s (s.hq n).prio ≠ some queue then none
      else some (leaveSlot s queue))

/-! ### Control (R375, R390) -/

/-- Hold (R390): a request on every placed crew of the running launch. -/
def holdQueue (s : State) (n : Nat) : State :=
  let s' := s.setHq n { s.hq n with held := true }
  match s.runningLaunch n with
  | none => s'
  | some (id, _) => ((s.crews.filter fun e => e.2.launch == id && e.2.saved.isNone).map (·.1)).foldl raiseRequest s'

/-- Rel (R390). -/
def releaseQueue (s : State) (n : Nat) : State := s.setHq n { s.hq n with held := false }

/-- Clr (R375, R376): the error and the regression bit are cleared, and a queue that becomes idle by it signals so (R447); a failed completion write is retried, and goes on with the launch's completion event when it has to wait. -/
def clearQueue (s : State) (n : Nat) : State :=
  let stopped := decide ((s.hq n).state = 3)
  let s := s.setHq n { s.hq n with err := 0, regress := false, named := none }
  match (s.hq n).run with
  | some (.complete id) =>
    match Tbl.get? s.launches id with
    | none => s
    | some l => (finishLaunch s n id l).getD s
  | _ => if stopped && decide ((s.hq n).state = 1) then signal s (2 + (s.hq n).ctx) else s

/-- HOLD. -/
def execHoldW (queue : Nat) (s : State) : Host.Outcome State Fault Refusal := .next (if 1024 ≤ queue then s else holdQueue s queue)
/-- REL. -/
def execRelW (queue : Nat) (s : State) : Host.Outcome State Fault Refusal := .next (if 1024 ≤ queue then s else releaseQueue s queue)
/-- CLR. -/
def execClrW (queue : Nat) (s : State) : Host.Outcome State Fault Refusal := .next (if 1024 ≤ queue then s else clearQueue s queue)

/-- A write to control (R370). -/
def writeControl (s : State) (n : Nat) (val : W64) : State :=
  if fld val 3 61 ≠ 0 ∨ (bitAt val 0 && bitAt val 1) = true then refuseWrite s
  else
    let s := if bitAt val 0 then holdQueue s n else s
    let s := if bitAt val 1 then releaseQueue s n else s
    if bitAt val 2 then clearQueue s n else s

end Sys2Proof.Machine
end

