-- ==== Sys2Proof/Machine/QueueOps.lean ====
section
/-! DEFINITION. Group 9: explicit queue pushes, pops, peeks, end markers, status and drops (R229 to R235). -/
namespace Sys2Proof.Machine

/-- Pushes a value with tags and shifts the latches with the value; with nwb nothing is pushed (R229, R230, R39). -/
def Here.pushValue (h : Here) (qd : Opnd) (nwb : Bool) (act : W64) (val : Nat → W64) (tags : W64) : Here :=
  let v := cellsOf act fun l => (val l).setWidth 32
  let h' := match queueNo qd with
    | none => h
    | some n => if nwb then h else h.push n v (tags &&& act)
  h'.latch (cellsOf act fun l => ((val l).setWidth 32).setWidth 64)

/-- QPUSH (R230). -/
def execQpush (x : QpushArgs) (s : State) : Host.Outcome State Fault Refusal :=
  runInstr s (.qpush x) x.g fun h act srcs =>
    let k := h.warp.pred x.kt.toNat
    let tags := if x.en then (if x.neg then ~~~k else k) else 0
    .ok ((h.pushValue x.qd x.nwb act (fun l => h.src srcs 0 false l) tags).advance 8)

/-- QEND (R230): tag 1 in every active lane. -/
def execQend (x : QendArgs) (s : State) : Host.Outcome State Fault Refusal :=
  runInstr s (.qend x) x.g fun h act srcs =>
    .ok ((h.pushValue x.qd x.nwb act (fun l => h.src srcs 0 false l) act).advance 8)

/-- Writes what the front entry of a queue holds: values to a register, tags to a predicate (R231). -/
def Here.takeFront (h : Here) (i : Instr) (e : QEntry) (d : Opnd) (nwb : Bool) (kt : BitVec 4) (act : W64) : Here :=
  let h := finish h i [] d false nwb act fun l => Res.plain ((Cells.get e.vals l).setWidth 64)
  { h with warp := h.warp.setPred kt.toNat act e.tags }

/-- QPOP (R231): never raises *marker on implicit pop*. -/
def execQpop (x : QpopArgs) (s : State) : Host.Outcome State Fault Refusal :=
  runOn s fun h =>
    let act := h.active x.g
    match prepare s h [(x.d, false)] [] act with
    | .error t => .error t
    | .ok (s, h) =>
      let n := (queueNo x.q).getD 0
      match h.popReady n 1 with
      | .error t => .error t
      | .ok q =>
        let e := q.entries.headD { id := 0, vals := [], tags := 0, missing := 0 }
        let h := (h.takeFront (.qpop x) e x.d x.nwb x.kt act).drop n 1
        match spillRegs s h (spilledRegs [(x.d, false)]) with
        | .error t => .error t
        | .ok s => .ok (s.put h)

/-- QPEEK (R231): as `qpop`, with the entry left in place. -/
def execQpeek (x : QpeekArgs) (s : State) : Host.Outcome State Fault Refusal :=
  runOn s fun h =>
    let act := h.active x.g
    match prepare s h [(x.d, false)] [] act with
    | .error t => .error t
    | .ok (s, h) =>
      match h.popReady x.n.toNat 1 with
      | .error t => .error t
      | .ok q =>
        let e := q.entries.headD { id := 0, vals := [], tags := 0, missing := 0 }
        let h := (h.takeFront (.qpeek x) e x.d x.nwb x.kt act).sees [e]
        match spillRegs s h (spilledRegs [(x.d, false)]) with
        | .error t => .error t
        | .ok s => .ok (s.put h)

/-- A split runs a handler for a memory fault or is held by the debug unit (R234). -/
def Split.faulted (x : Split) : Bool :=
  x.halted || x.stack.any fun e => e.isTrap && decide ((e.tag.toNat - 0x200) / 64 = 1)

/-- The producer field of the status word (Table 8.5, R234). -/
def Here.producerState (h : Here) (q : Queue) : Nat :=
  let sl := producer q.dir
  if h.ended sl then 2
  else
    let w := if sl = h.u.slice then h.warp else h.pair.warp sl
    if w.splits.any fun e => e.2.faulted then 1 else 0

/-- The queue status word (Table 8.5). -/
def Here.queueStatus (h : Here) (q : Queue) : W32 :=
  let n := q.entries.length
  let ready := (q.entries.head?.map (·.complete)).getD false
  let mark := ready && (q.entries.head?.map fun e => decide (e.tags ≠ 0)).getD false
  BitVec.ofNat 32 (n + (q.depth - n) * 2 ^ 7 + (if q.nf then 2 ^ 14 else 0) + (if q.re then 2 ^ 15 else 0)
    + h.producerState q * 2 ^ 16 + (if ready then 2 ^ 18 else 0) + (if mark then 2 ^ 19 else 0) + q.addrs.length * 2 ^ 20)

/-- QSTAT (R233): .clr clears NF and RE after they are read. -/
def execQstat (x : QstatArgs) (s : State) : Host.Outcome State Fault Refusal :=
  runInstr s (.qstat x) x.g fun h act srcs =>
    match h.queue? x.n.toNat with
    | none => raise (directionTrap h.u.slice)
    | some q =>
      let w := (h.queueStatus q).setWidth 64
      let h := finish h (.qstat x) srcs x.d false x.nwb act fun _ => Res.plain w
      .ok (if x.clr then h.setQueue x.n.toNat { q with nf := false, re := false } else h)

/-- QDROP (R232, R235): a counted drop waits for its entries; `all` removes what is present at issue, at once or when the last of it is complete (`completeWait`). DESIGN CHOICE (log 89): a count above the depth traps at issue, after the check of the queue's role, for decoding knows no depths. -/
def execQdrop (x : QdropArgs) (s : State) : Host.Outcome State Fault Refusal :=
  runOn s fun h =>
    let n := x.n.toNat
    match h.queue? n with
    | none => raise (directionTrap h.u.slice)
    | some q =>
      if x.all then
        let m := q.entries.length
        if q.entries.all (·.complete) then .ok (s.put ((h.drop n m).advance 8)) else pause (.dropping n m)
      else
        let m := x.cnt.toNat + 1
        if q.depth < m then raise { cause := cause0 5 h.u.slice }
        else
          match h.popReady n m with
          | .error t => .error t
          | .ok _ => .ok (s.put ((h.drop n m).advance 8))

end Sys2Proof.Machine
end

