-- ==== Sys2Proof/Machine/Debug.lean ====
section
/-! DEFINITION. The debug access port (R419, R421 to R424). -/
namespace Sys2Proof.Machine

/-- Fields of dcmd (Table 14.14). -/
def cmdOp (c : W64) : Nat := fld c 0 4
def cmdSlice (c : W64) : Slice := if bitAt c 14 then .access else .execute

/-- Changes the debug block of a context. -/
def State.onDebug (s : State) (ctx : Nat) (f : Debug → Debug) : State :=
  let c := s.ctx ctx
  s.setCtx ctx { c with dbg := f c.dbg }

/-- A command ends: 2 done, 3 refused with a reason (Table 14.13). -/
def debugDone (s : State) (ctx : Nat) : State := s.onDebug ctx fun d => { d with dstat := 2 }
def debugRefuse (s : State) (ctx reason : Nat) : State := s.onDebug ctx fun d => { d with dstat := BitVec.ofNat 64 (reason * 256 + 3) }
/-- A command runs. -/
def debugBusy (s : State) (ctx : Nat) : Bool := decide (fld (s.ctx ctx).dbg.dstat 0 2 = 1)

/-- The target of a command: the unit, or the reason of refusal (R422). -/
def debugTarget (s : State) (ctx : Nat) (cmd : W64) : Nat ⊕ UnitRef :=
  match s.crews.find? fun e => e.2.ctx == ctx && decide (e.2.num.toNat = fld cmd 32 32) with
  | none => .inl 1
  | some (uid, c) =>
    if c.saved.isSome || c.saving then .inl 5
    else
      match Tbl.get? c.pairs (fld cmd 8 6) with
      | none => .inl 1
      | some p =>
        if (Tbl.get? (p.warp (cmdSlice cmd)).splits (fld cmd 15 2)).isNone then .inl 1
        else .inr { crew := uid, pair := fld cmd 8 6, slice := cmdSlice cmd, split := fld cmd 15 2 }

/-- A write of dcmd: ignored while a command runs, refused with a reserved bit set; a request wakes the target's core (R387, R421, R422). -/
def onCommand (s : State) (ctx : Nat) (cmd : W64) (op : Nat) (f : State → UnitRef → State) : Option State :=
  if 64 ≤ ctx ∨ debugBusy s ctx = true ∨ cmdOp cmd ≠ op then none
  else if fld cmd 4 4 ≠ 0 ∨ fld cmd 17 15 ≠ 0 then some (refuseWrite s)
  else
    let s := s.onDebug ctx fun d => { d with dcmd := cmd }
    match debugTarget s ctx cmd with
    | .inl r => some (debugRefuse s ctx r)
    | .inr u => some (f (match s.crew? u.crew with
      | none => s
      | some c => wakeCore s c.core 6) u)

/-- A write of dcmd with a reserved operation: refused with reason 4. -/
def reservedCommand (s : State) (ctx : Nat) (cmd : W64) : State :=
  if debugBusy s ctx then s
  else if fld cmd 4 4 ≠ 0 ∨ fld cmd 17 15 ≠ 0 then refuseWrite s
  else debugRefuse (s.onDebug ctx fun d => { d with dcmd := cmd }) ctx 4

/-- A halt command. -/
def haltCommand (s : State) (ctx : Nat) (cmd : W64) : Option State :=
  onCommand s ctx cmd 1 fun s u => debugDone (debugHalt s (haltScope s ctx u)) ctx

/-- DEBUG_HALT (R421, R422). -/
def execDebugHalt (ctx : Nat) (cmd : W64) (s : State) : Host.Outcome State Fault Refusal := orSame s (haltCommand s ctx cmd)

/-! ### Resume (R422, R423) -/

/-- A debug split at a resume: a split of its own when the warp has fewer than four, else a deferred path on the stack of the split it was stepped out of, or, when that has merged or ended, of the first split of the warp (R423). -/
def settleDebugSplit (s : State) (u : UnitRef) : State :=
  match s.here? u with
  | none => s
  | some h =>
    if !h.split.debug then s
    else
      match h.warp.freeSplit with
      | some i =>
        let k := { h with u := { u with split := i } }
        let k := { k with split := { k.split with inside := placeTaken k } }
        match spillStack s k 0 (h.split.stack.drop 16).reverse with
        | .error _ => s
        | .ok s => s.onWarp u.crew u.pair u.slice fun w =>
            { w with splits := Tbl.set (Tbl.erase w.splits u.split) i { k.split with debug := false, born := w.nextSplit }, nextSplit := w.nextSplit + 1 }
      | none =>
        let own := h.warp.splits.find? fun x => x.1 == h.split.parent && !x.2.debug
        match (match own with
          | some o => some o
          | none => h.warp.splits.find? fun x => !x.2.debug) with
        | none => s
        | some o =>
          match s.here? { u with split := o.1 } with
          | none => s
          | some h' =>
            match pushEntry s h' (deferEntry h.split.pc h.split.mask) with
            | .error _ => s
            | .ok (s, h') => (s.put h').onWarp u.crew u.pair u.slice fun w => { w with splits := Tbl.erase w.splits u.split }

/-- Releases a halted unit; its next instruction ignores breakpoints and watchpoints (R422). -/
def resumeUnit (s : State) (u : UnitRef) : State :=
  match s.here? u with
  | none => s
  | some h =>
    if !h.split.halted then s
    else
      let now := (s.core h.crew.core).cyc.toNat
      settleDebugSplit (s.onSplit u fun x => { x with halted := false, skip := true, dstep := none, readyAt := now }) u

/-- Units with the debug splits that were stepped out of them (R423). -/
def withDebugSplits (s : State) (us : List UnitRef) : List UnitRef :=
  dedup (us.flatMap fun u => u :: ((s.splitsOf u.crew u.pair u.slice).filter fun x => x.2.debug && x.2.parent == u.split).map (·.1))

/-- A resume command. -/
def resumeCommand (s : State) (ctx : Nat) (cmd : W64) : Option State :=
  onCommand s ctx cmd 2 fun s u => debugDone ((withDebugSplits s (haltScope s ctx u)).foldl resumeUnit s) ctx

/-- DEBUG_RESUME (R422). -/
def execDebugResume (ctx : Nat) (cmd : W64) (s : State) : Host.Outcome State Fault Refusal := orSame s (resumeCommand s ctx cmd)

/-! ### Step (R423) -/

/-- The next instruction of a split is a crew-collective. -/
def nextCollective (s : State) (h : Here) : Bool :=
  match (fetchInstr s { h with split := { h.split with skip := true } }).2 with
  | .ok (.setw _) | .ok (.pyld _) | .ok (.regroup _) | .ok (.cbar _) => true
  | _ => false

/-- The split of a step: all of S, or the lanes of the mask as a debug split, number 4 or above (R423). -/
def beginStep (s : State) (u : UnitRef) (h : Here) (m : W64) : State :=
  let x := h.split
  let step := fun (x : Split) => { x with halted := false, dstep := some m, skip := true, stepDue := x.wait.inEffect }
  if m = x.mask then s.onSplit u step
  else
    match (List.range (h.warp.splits.length + 1)).map (· + 4) |>.find? fun i => (Tbl.get? h.warp.splits i).isNone with
    | none => s.onSplit u step
    | some i =>
      let d := step { x with mask := m, wait := .ready, debug := true, born := h.warp.nextSplit, lat := [], inside := true,
                             parent := if x.debug then x.parent else u.split }
      s.onWarp u.crew u.pair u.slice fun w =>
        { w with nextSplit := w.nextSplit + 1, splits := Tbl.set (Tbl.set w.splits u.split { x with mask := x.mask &&& ~~~m }) i d }

/-- A step command: busy until the stepped lanes reach their next boundary. DESIGN CHOICE (log 93): the debug unit has no step-out mode, which R158 names and chapter 14 does not describe; a step of `ret` is a step of `brx`. -/
def stepCommand (s : State) (ctx : Nat) (cmd : W64) : Option State :=
  onCommand s ctx cmd 3 fun s u =>
    match s.here? u with
    | none => debugRefuse s ctx 1
    | some h =>
      let m := (s.ctx ctx).dbg.dmask &&& h.split.mask
      if !h.split.halted then debugRefuse s ctx 2
      else if nextCollective s h then debugRefuse s ctx 3
      else if m = 0 then debugDone s ctx
      else (beginStep s u h m).onDebug ctx fun d => { d with dstat := 1 }

/-- DEBUG_STEP (R423). -/
def execDebugStep (ctx : Nat) (cmd : W64) (s : State) : Host.Outcome State Fault Refusal := orSame s (stepCommand s ctx cmd)

/-! ### Read and write (R424, Table 14.15) -/

/-- The queue entry that a selector names. -/
def selectedEntry (h : Here) (index : Nat) : Option QEntry :=
  match h.queue? (index % 16) with
  | none => none
  | some q => q.entries[index / 16 % 64]?

/-- The octet of the crew that holds a lane of a unit. -/
def selectedOctet (h : Here) (lane : Nat) : Nat := (h.u.pair * h.crew.grant + lane) / 8

/-- An entry of an array of a core is read for the debug unit: an error is logged and is a machine check of the context, and what cannot be read is zero (R367, R408). -/
def debugMet (s : State) (h : Here) (array cause idx : Nat) (v : W64) : State × W64 :=
  let r := injectRead s h.crew.core array idx h.crew.ctx
  if r.2 then (contextCheck r.1 h.crew.ctx cause (BitVec.ofNat 64 idx), 0) else (r.1, v)

/-- Reads the selected state of a halted unit; none for a bad selector. -/
def debugValue (s : State) (h : Here) (kind index lane : Nat) : Option (State × W64) :=
  let exe := decide (h.u.slice = .execute)
  let inGrant := decide (lane < h.crew.grant)
  match kind with
  | 0 =>
    if exe && inGrant && decide (index < h.crew.kern.nv) then
      match fillRegs s h (if 80 ≤ index then [index] else []) with
      | .error _ => none
      | .ok (s, h) => some (debugMet s h 1 0x120 (regEntry h.u index lane) ((h.warp.getV index lane).setWidth 64))
    else none
  | 1 => if exe && decide (index < 64) then some (s, (h.warp.getS index).setWidth 64) else none
  | 2 => if exe && decide (index < 16) then some (s, h.warp.pred index) else none
  | 3 => if !exe && inGrant && decide (index < 16) then some (debugMet s h 2 0x121 (regEntry h.u index lane) (h.warp.getA index lane)) else none
  | 4 => if !exe && decide (index < 16) then some (s, h.warp.getC index) else none
  | 5 => if !exe && decide (index < 16) then some (s, h.warp.pred index) else none
  | 6 => if index < 16 then (h.queue? index).map fun q => (s, (h.queueStatus q).setWidth 64) else none
  | 7 =>
    if index < 1024 ∧ inGrant = true then
      (selectedEntry h index).map fun e =>
        debugMet s h 3 0x122 (cellPair h.u (index % 16) e.id (lane / 2))
          (BitVec.ofNat 64 ((Cells.get e.vals lane).toNat + (if bitAt e.tags lane then 2 ^ 32 else 0)))
    else none
  | 8 =>
    match special index with
    | none => none
    | some p =>
      if (p.only.all fun o => o == h.u.slice) && inGrant then
        match stackFor s h index with
        | .error _ => none
        | .ok (s, l) => some (s, Here.specialLane s h ((topTrap l).map (·.2)) index lane)
      else none
  | 9 =>
    match wholeStack s h (h.split.stack.length - 16) with
    | .error _ => none
    | .ok (s, l) =>
      if 512 ≤ index then none
      else (l[index / 2]?).map fun e => (s, BitVec.ofNat 64 (bytesAt e.bytes (8 * (index % 2)) 8))
  | 10 =>
    let o := selectedOctet h lane
    if index < 512 ∧ inGrant = true ∧ o < h.crew.kern.ta then
      let cell := ((o * 4 + index % 4) * 8 + lane % 8) * 64 + index / 8
      let m := decide (index / 4 % 2 = 0)
      some (debugMet s h 10 0x124 (accEntry h.u m cell) (if m then (Cells.get h.crew.mt cell).setWidth 64 else Cells.get h.crew.pt cell))
    else none
  | 11 => if index = 0 then some (s, h.split.pc) else if index = 1 then some (s, h.split.mask) else none
  | _ => none

/-- A load or a store at crew scope of the scratchpad word at offset ddata (kind 12): refused for a bad offset, busy while its line is owned (R353). The value of a store is a free value: ddata holds its offset (log 32). -/
def debugWord (s : State) (ctx : Nat) (u : UnitRef) (write : Bool) : State :=
  let off := (s.ctx ctx).dbg.ddata.toNat
  match s.crew? u.crew with
  | none => debugRefuse s ctx 1
  | some c =>
    if off % 8 ≠ 0 ∨ c.kern.scratch < off + 8 then debugRefuse s ctx 4
    else if crewWaits s c off 8 then s.onDebug ctx fun d => { d with dstat := 1 }
    else if write then debugDone (crewStore { s with clock := s.clock + 1 } u.crew c off (natToBytes (Config.debugWord s.clock).toNat 8)) ctx
    else
      let s := crewMet s c off 8
      debugDone (s.onDebug ctx fun d => { d with ddata := BitVec.ofNat 64 (bytesToNat (crewBytes s u.crew c off 8)) }) ctx

/-- Commands that run: a step has ended when no split of the context is being stepped, and an access to scratchpad is made as soon as its line is free. -/
def endCommands (s : State) : State :=
  (Tbl.keys s.ctxs).foldl (fun s ctx =>
    let cmd := (s.ctx ctx).dbg.dcmd
    if !debugBusy s ctx then s
    else if cmdOp cmd = 3 then
      (if s.crews.all fun e => e.2.ctx != ctx || (crewUnits e.1 e.2).all fun x => x.2.dstep.isNone then debugDone s ctx else s)
    else match debugTarget s ctx cmd with
      | .inl r => debugRefuse s ctx r
      | .inr u => debugWord s ctx u (decide (cmdOp cmd = 5))) s

/-- A unit of the target's crew is halted. -/
def anyHalted (s : State) (uid : Nat) : Bool :=
  match s.crew? uid with
  | none => false
  | some c => (crewUnits uid c).any fun x => x.2.halted

/-- A read command. -/
def readCommand (s : State) (ctx : Nat) (cmd : W64) : Option State :=
  onCommand s ctx cmd 4 fun s u =>
    let d := (s.ctx ctx).dbg
    let kind := fld d.dsel 0 8
    let give := fun (s : State) (v : W64) => debugDone (s.onDebug ctx fun d => { d with ddata := v }) ctx
    match s.here? u with
    | none => debugRefuse s ctx 1
    | some h =>
      if kind = 12 then
        if !anyHalted s u.crew then debugRefuse s ctx 2
        else debugWord s ctx u false
      else if !h.split.halted then debugRefuse s ctx 2
      else match debugValue s h kind (fld d.dsel 8 16) (fld d.dsel 24 6) with
        | none => debugRefuse s ctx 4
        | some (s, v) => give s v

/-- DEBUG_READ (R424). -/
def execDebugRead (ctx : Nat) (cmd : W64) (s : State) : Host.Outcome State Fault Refusal := orSame s (readCommand s ctx cmd)

/-- Writes a special register that `wrs` may write, with its checks; none for a bad selector. -/
def debugSpecial (s : State) (h : Here) (n lane : Nat) (v : W64) : Option State :=
  match n with
  | 0x10 =>
    if h.u.slice = .execute ∧ (v.setWidth 32 : W32) &&& 0xFFFFC0C0 = 0 ∧ lane < h.crew.grant then
      some (s.put { h with warp := { h.warp with fflags := Cells.set h.warp.fflags lane (v.setWidth 32) } })
    else none
  | 0x14 => if v.toNat < 4 then some (s.put { h with warp := { h.warp with role := v.setWidth 32 } }) else none
  | 0x26 => if v.toNat < 32 then some (s.put (writeTctl h (v.setWidth 32))) else none
  | 0x21 | 0x22 =>
    match stackFor s h n with
    | .error _ => none
    | .ok (s, l) =>
      match topTrap l with
      | none => none
      | some (i, e) =>
        if n = 0x22 ∧ v &&& ~~~e.mask ≠ 0 then none
        else
          match setEntry s h i (if n = 0x21 then e.setAddr v else { e with mask := v }) with
          | .error _ => none
          | .ok (s, h) => some (s.put h)
  | _ => none

/-- Writes the selected state of a halted unit, a register under an armed injection (R369); none for a bad or read-only selector. -/
def debugPut (s : State) (h : Here) (kind index lane : Nat) (v : W64) : Option State :=
  let exe := decide (h.u.slice = .execute)
  let inGrant := decide (lane < h.crew.grant)
  let put := fun (w : Warp) => some (s.put { h with warp := w })
  match kind with
  | 0 =>
    if exe && inGrant && decide (index < h.crew.kern.nv) then
      let names := if 80 ≤ index then [index] else []
      match fillRegs s h names with
      | .error _ => none
      | .ok (s, h) =>
        let h := { h with warp := h.warp.setV index lane (v.setWidth 32) }
        match spillRegs s h names with
        | .error _ => none
        | .ok s => some (injectWrite (s.put h) h.crew.core 1 (regEntry h.u index lane))
    else none
  | 1 => if exe && decide (index < 64) then put (h.warp.setS index (v.setWidth 32)) else none
  | 2 => if exe && decide (index < 16) then put (h.warp.setPred index (maskN h.crew.grant) v) else none
  | 3 => if !exe && inGrant && decide (index < 16) then
      (put (h.warp.setA index lane v)).map fun s => injectWrite s h.crew.core 2 (regEntry h.u index lane)
    else none
  | 4 => if !exe && decide (index < 16) then put (h.warp.setC index v) else none
  | 5 => if !exe && decide (index < 16) then put (h.warp.setPred index (maskN h.crew.grant) v) else none
  | 8 => debugSpecial s h index lane v
  | _ => none

/-- A write command. -/
def writeCommand (s : State) (ctx : Nat) (cmd : W64) : Option State :=
  onCommand s ctx cmd 5 fun s u =>
    let d := (s.ctx ctx).dbg
    let kind := fld d.dsel 0 8
    match s.here? u with
    | none => debugRefuse s ctx 1
    | some h =>
      if !h.split.halted then debugRefuse s ctx 2
      else if kind = 12 then debugWord s ctx u true
      else match debugPut s h kind (fld d.dsel 8 16) (fld d.dsel 24 6) d.ddata with
        | none => debugRefuse s ctx 4
        | some s => debugDone s ctx

/-- DEBUG_WRITE (R424). -/
def execDebugWrite (ctx : Nat) (cmd : W64) (s : State) : Host.Outcome State Fault Refusal := orSame s (writeCommand s ctx cmd)

end Sys2Proof.Machine
end

