-- ==== Sys2Proof/Machine/Crypto.lean ====
section
/-! DEFINITION. SHA-384 (FIPS 180-4) and ECDSA verification on P-384 (FIPS 186-4), which R427, R439, R458 and R464 name. Their constants are those of the standards (log 29). -/
namespace Sys2Proof.Machine

/-! ### SHA-384 -/

/-- The largest number below 2^bits whose `k`-th power is at most `x`, its bits found from the top; `r` is what is found so far. -/
def powerRoot (k x : Nat) : (bits : Nat) → (r : Nat) → Nat
  | 0, r => r
  | n + 1, r => powerRoot k x n (if (r + 2 ^ n) ^ k ≤ x then r + 2 ^ n else r)

/-- The first 64 bits of the fraction of the `k`-th root of a prime below 512, from which the standard takes all its constants. -/
def rootFraction (k p : Nat) : W64 := BitVec.ofNat 64 (powerRoot k (p * 2 ^ (64 * k)) 69 0)

/-- The first 80 primes. -/
def shaPrimes : List Nat :=
  [2, 3, 5, 7, 11, 13, 17, 19, 23, 29, 31, 37, 41, 43, 47, 53, 59, 61, 67, 71] ++
  [73, 79, 83, 89, 97, 101, 103, 107, 109, 113, 127, 131, 137, 139, 149, 151, 157, 163, 167, 173] ++
  [179, 181, 191, 193, 197, 199, 211, 223, 227, 229, 233, 239, 241, 251, 257, 263, 269, 271, 277, 281] ++
  [283, 293, 307, 311, 313, 317, 331, 337, 347, 349, 353, 359, 367, 373, 379, 383, 389, 397, 401, 409]

/-- The initial hash value: square roots of the ninth to the sixteenth prime. -/
def shaStart : List W64 := ((shaPrimes.drop 8).take 8).map (rootFraction 2)

/-- A word's rotations to the right, combined. -/
def turned (x : W64) (ns : List Nat) : W64 := ns.foldl (fun y n => y ^^^ x.rotateRight n) 0

/-- One round on the eight working words, first to last; `x` is the round's constant and schedule word together. -/
def shaRound : List W64 → W64 → List W64
  | [p, q, r, s, t, u, v, w], x =>
    let y := w + x + turned t [14, 18, 41] + (v ^^^ (t &&& (u ^^^ v)))
    [y + turned p [28, 34, 39] + ((p &&& q) ||| (r &&& (p ||| q))), p, q, r, s + y, t, u, v]
  | l, _ => l

/-- The schedule word that follows sixteen. -/
def shaNext (l : List W64) : W64 :=
  let at_ := fun n => (l[n]?).getD 0
  at_ 0 + (turned (at_ 1) [1, 8] ^^^ (at_ 1 >>> 7)) + at_ 9 + (turned (at_ 14) [19, 61] ^^^ (at_ 14 >>> 6))

/-- A block's rounds, one for each prime: the next sixteen schedule words, and the working words so far. -/
def shaRounds : (primes : List Nat) → (words work : List W64) → List W64
  | [], _, work => work
  | p :: ps, words, work => shaRounds ps (words.drop 1 ++ [shaNext words]) (shaRound work (rootFraction 3 p + words.headD 0))

/-- A big-endian number. -/
def beNat (l : List Byte) : Nat := bytesToNat l.reverse
/-- The `n` big-endian bytes of a number. -/
def beBytes (x n : Nat) : List Byte := (natToBytes x n).reverse

/-- The hash value after one block of 128 bytes. -/
def shaBlock (v : List W64) (l : List Byte) : List W64 :=
  let words := (List.range 16).map fun i => BitVec.ofNat 64 (beNat ((l.drop (8 * i)).take 8))
  (v.zip (shaRounds shaPrimes words v)).map fun e => e.1 + e.2

/-- The hash value after the blocks of a padded message. -/
def shaBlocks : (blocks : Nat) → List Byte → List W64 → List W64
  | 0, _, v => v
  | n + 1, l, v => shaBlocks n (l.drop 128) (shaBlock v (l.take 128))

/-- The SHA-384 digest: the first six words of the hash value of the message, padded to whole blocks that end with its length in bits. -/
def sha384 (l : List Byte) : List Byte :=
  let n := (l.length + 144) / 128
  let zeros := List.replicate (128 * n - l.length - 17) 0
  ((shaBlocks n (l ++ 0x80 :: zeros ++ beBytes (8 * l.length) 16) shaStart).take 6).flatMap fun w => beBytes w.toNat 8

/-! ### P-384 -/

/-- The field prime, the order of the group, and the curve's b. -/
def p384 : Nat := 2 ^ 384 - 2 ^ 128 - 2 ^ 96 + 2 ^ 32 - 1
def n384 : Nat := 0xffffffffffffffffffffffffffffffffffffffffffffffffc7634d81f4372ddf581a0db248b0a77aecec196accc52973
def b384 : Nat := 0xb3312fa7e23ee7e4988e056be3f82d19181d9c6efe8141120314088f5013875ac656398d8a2ed19d2a85c8edd3ec2aef
/-- The base point. -/
def g384 : Nat × Nat :=
  (0xaa87ca22be8b05378eb1c71ef320ad746e1d3b628ba79b9859f741e082542a385502f25dbf55296c3a545e3872760ab7,
   0x3617de4a96262c6f5d9e98bf9292dc29f8f41dbd289a147ce9da3113b5f0b8c00a60b1ce1d7e819d7a431d7c90ea0e5f)

/-- A function at a number whose value is computed first: what the kernel evaluates stays small. -/
def atValue {α : Type} (n : Nat) (f : Nat → α) : α :=
  match n with
  | 0 => f 0
  | k + 1 => f (k + 1)

/-- The power of a number modulo `m`, by the bits of the exponent. -/
def powMod (m : Nat) : (bits : Nat) → (x e : Nat) → Nat
  | 0, _, _ => 1 % m
  | n + 1, x, e =>
    atValue (x * x % m) fun y => atValue (powMod m n y (e / 2)) fun r => if e % 2 = 1 then x * r % m else r

/-- The inverse modulo a prime of 384 bits. -/
def invMod (m x : Nat) : Nat := powMod m 384 (x % m) (m - 2)

/-- A point of the curve in Jacobian coordinates: (x, y, z) stands for (x / z², y / z³), and z = 0 for the point at infinity. -/
structure Point where
  x : Nat
  y : Nat
  z : Nat
  deriving DecidableEq, Repr

/-- Multiplication and subtraction modulo p. -/
def mulP (a b : Nat) : Nat := a * b % p384
def subP (a b : Nat) : Nat := (a + p384 - b % p384) % p384

/-- A point of coordinates that are computed first. -/
def pointAt (x y z : Nat) : Point := atValue x fun x => atValue y fun y => atValue z fun z => { x := x, y := y, z := z }

/-- Twice a point. -/
def Point.double (p : Point) : Point :=
  atValue (mulP p.y p.y) fun yy => atValue (mulP p.z p.z) fun zz =>
    atValue (mulP (4 * p.x) yy) fun s => atValue (mulP (3 * subP p.x zz) (p.x + zz)) fun m => atValue (subP (m * m) (2 * s)) fun x =>
      pointAt x (subP (m * subP s x) (8 * yy * yy)) (mulP (2 * p.y) p.z)

/-- The sum of two points. -/
def Point.add (p q : Point) : Point :=
  if p.z = 0 then q
  else if q.z = 0 then p
  else
    atValue (mulP p.z p.z) fun pz => atValue (mulP q.z q.z) fun qz =>
      atValue (mulP p.x qz) fun u => atValue (mulP (p.y * q.z) qz) fun v =>
        atValue (subP (mulP q.x pz) u) fun h => atValue (subP (mulP (q.y * p.z) pz) v) fun r =>
          if h = 0 then (if r = 0 then p.double else { x := 1, y := 1, z := 0 })
          else
            atValue (mulP h h) fun hh => atValue (mulP h hh) fun hhh => atValue (mulP u hh) fun w => atValue (subP (r * r) (hhh + 2 * w)) fun x =>
              pointAt x (subP (r * subP w x) (v * hhh)) (mulP (p.z * q.z) h)

/-- A point of the plane. -/
def Point.of (q : Nat × Nat) : Point := { x := q.1, y := q.2, z := 1 }
/-- The coordinates of a point, but of the point at infinity. -/
def Point.affine (p : Point) : Option (Nat × Nat) :=
  if p.z = 0 then none
  else atValue (invMod p384 p.z) fun i => some (mulP (p.x * i) i, mulP (mulP (p.y * i) i) i)

/-- A multiple of a point, by the bits of the scalar. -/
def mulPoint : (bits : Nat) → Nat → Point → Point
  | 0, _, _ => { x := 1, y := 1, z := 0 }
  | n + 1, k, p =>
    atValue (k / 2) fun h =>
      let r := mulPoint n h p.double
      if k % 2 = 1 then p.add r else r

/-- A pair of numbers is a point of the curve. -/
def onCurve (q : Nat × Nat) : Bool :=
  decide (q.1 < p384) && decide (q.2 < p384) && decide (q.2 * q.2 % p384 = (q.1 * q.1 * q.1 + (p384 - 3) * q.1 + b384) % p384)

/-- ECDSA verification of a digest with a public key and a signature of 96 bytes, r then s, big-endian. -/
def ecdsaOk (key : Nat × Nat) (digest sig : List Byte) : Bool :=
  let r := beNat (sig.take 48)
  let s := beNat ((sig.drop 48).take 48)
  if sig.length ≠ 96 ∨ r = 0 ∨ s = 0 ∨ n384 ≤ r ∨ n384 ≤ s ∨ onCurve key = false then false
  else
    let w := invMod n384 s
    let sum := atValue (beNat digest * w % n384) fun a => atValue (r * w % n384) fun b => (mulPoint 384 a (Point.of g384)).add (mulPoint 384 b (Point.of key))
    match sum.affine with
    | none => false
    | some (x, _) => decide (x % n384 = r)

/-- The abscissa of a multiple of the base point. -/
def baseX (k : Nat) : Nat := ((mulPoint 384 k (Point.of g384)).affine.map (·.1)).getD 0

/-- An ECDSA signature of a digest: with a private key and a secret number for this signature. -/
def ecdsaSign (key secret : Nat) (digest : List Byte) : List Byte :=
  let r := baseX secret % n384
  beBytes r 48 ++ beBytes (invMod n384 secret * (beNat digest + r * key) % n384) 48

/-- The public key of a private key. -/
def publicKey (key : Nat) : Nat × Nat := (mulPoint 384 key (Point.of g384)).affine.getD (0, 0)

/-- The SHA-384 digest of a public key as an uncompressed point. -/
def keyDigest (key : Nat × Nat) : List Byte := sha384 ([0x04] ++ beBytes key.1 48 ++ beBytes key.2 48)

end Sys2Proof.Machine
end

