-- ==== Sys2Proof/Machine/Identity.lean ====
section
/-! DEFINITION. The device identity key (R461): what it signs, and the check of its signatures. -/
namespace Sys2Proof.Machine

/-- The private identity key, from the fused secret and the digest of the firmware that runs. -/
def identityKey (d : Device) : Nat := (Config.deviceKey Config.fusedSecret (sha384 d.fw.image)).toNat % n384

/-- A signature of a message by the identity key: ECDSA on P-384 over its SHA-384 digest. -/
def identitySign (d : Device) (l : List Byte) : List Byte := ecdsaSign (identityKey d) ((Config.signSecret (sha384 l)).toNat % n384) (sha384 l)

/-- The signature of a message verifies against the identity key. -/
def identitySigned (d : Device) (l sig : List Byte) : Bool := ecdsaOk (publicKey (identityKey d)) (sha384 l) sig

end Sys2Proof.Machine
end

