-- ==== Sys2Proof/Machine/Object.lean ====
section
/-! DEFINITION. Code objects and Portable Form programs: their layout and the checks of the loader (R425 to R434, R437). -/
namespace Sys2Proof.Machine

/-! ### Sections (R425, R426) -/

/-- A section: its type, offset and size. -/
structure Section where
  type : Nat
  off : Nat
  size : Nat
  deriving DecidableEq, Repr

/-- Bytes of a list from `lo` on. -/
def sliceOf (l : List Byte) (lo n : Nat) : List Byte := (l.drop lo).take n

/-- Header of Table 15.1, but for the section count. -/
def headerOk (o : List Byte) (objlen : Nat) : Bool :=
  decide (bytesAt o 0 4 = 0x4F445243) && decide (bytesAt o 4 2 = 1) && decide (bytesAt o 10 2 = 0) && decide (bytesAt o 16 8 = objlen)
    && decide (128 ≤ o.length) && (sliceOf o 80 48).all (· == 0)

/-- The sections that a header's table names. -/
def sectionsOf (o : List Byte) : List Section :=
  (List.range (bytesAt o 12 4)).map fun i =>
    let a := bytesAt o 24 8 + 24 * i
    { type := bytesAt o a 4, off := bytesAt o (a + 8) 8, size := bytesAt o (a + 16) 8 }

/-- The section of a type. -/
def sectionOf (ss : List Section) (t : Nat) : Option Section := ss.find? fun s => s.type == t
/-- Its size, 0 when absent. -/
def sizeOf' (ss : List Section) (t : Nat) : Nat := ((sectionOf ss t).map (·.size)).getD 0
/-- Its bytes, none when absent. -/
def bytesOf (o : List Byte) (ss : List Section) (t : Nat) : List Byte :=
  match sectionOf ss t with
  | none => []
  | some s => sliceOf o s.off s.size

/-- Two sections overlap. -/
def Section.meets (a b : Section) : Bool := decide (0 < a.size) && decide (0 < b.size) && rangesMeet (a.off, a.size) (b.off, b.size)

/-- No element of a list stands in a relation with a later one. -/
def noPair {α : Type} (r : α → α → Bool) : List α → Bool
  | [] => true
  | x :: xs => xs.all (fun y => !r x y) && noPair r xs

/-- The structure check of R426: an empty code section is one of an object whose kernels are all portable-only. -/
def sectionsOk (o : List Byte) : Bool :=
  let n := bytesAt o 12 4
  let at_ := bytesAt o 24 8
  let ss := sectionsOf o
  decide (3 ≤ n) && decide (n ≤ 10) && decide (at_ % 8 = 0) && decide (128 ≤ at_) && decide (at_ + 24 * n ≤ o.length)
    && ((List.range n).all fun i => bytesAt o (at_ + 24 * i + 4) 4 == 0)
    && (ss.all fun s => decide (1 ≤ s.type) && decide (s.type ≤ 10) && decide (128 ≤ s.off) && decide (s.off % 8 = 0)
          && decide (s.off < o.length) && decide (s.off + s.size ≤ o.length))
    && noPair (fun a b => a.type == b.type || a.meets b) ({ type := 0, off := at_, size := 24 * n } :: ss)
    && (sectionOf ss 1).isSome && (sectionOf ss 2).isSome
    && (decide (0 < sizeOf' ss 2) || (List.range (sizeOf' ss 1 / 96)).all fun i => decide (bytesAt (bytesOf o ss 1) (96 * i + 88) 2 % 2 = 0))
    && (match sectionOf ss 10 with
      | none => false
      | some s => decide (s.size = 96) && decide (s.off + s.size = o.length) && ss.all fun t => t.type == 10 || decide (t.off + t.size ≤ s.off))

/-! ### Kernel descriptors (Table 15.3, R428) -/

/-- The 96 bytes of kernel `i`. -/
def descriptor (o : List Byte) (ss : List Section) (i : Nat) : List Byte := sliceOf (bytesOf o ss 1) (96 * i) 96
/-- The number of kernels. -/
def kernelCount (ss : List Section) : Nat := sizeOf' ss 1 / 96

/-- The declared queues. -/
def declaredQueues (d : List Byte) : List (Option (QDir × Nat)) :=
  (List.range 16).map fun i =>
    let n := bytesAt d (56 + 2 * i) 1
    let r := bytesAt d (57 + 2 * i) 1
    if n = 0 then none else some (if r = 1 then .fwd else if r = 2 then .ret else .sd, n)

/-- A queue's two bytes are legal. -/
def queueOk (n r : Nat) : Bool := if n = 0 then decide (r = 0) else decide (4 ≤ n) && decide (n ≤ 64) && decide (1 ≤ r) && decide (r ≤ 3)

def hasNative (d : List Byte) : Bool := decide (bytesAt d 88 2 % 2 = 1)
def hasPortable (d : List Byte) : Bool := decide (bytesAt d 88 2 / 2 % 2 = 1)

/-- A 64-bit slice of the code section: its offset and size. -/
def codeSlice (d : List Byte) (at_ : Nat) : Nat × Nat := (bytesAt d at_ 8, bytesAt d (at_ + 8) 8)

/-- The entry table of a kernel: start offsets of the two slices (R137). -/
def entriesOf (o : List Byte) (ss : List Section) (d : List Byte) : List (Nat × Nat) :=
  let t := bytesOf o ss 3
  (List.range (bytesAt d 14 2)).map fun i => (bytesAt t (bytesAt d 20 4 + 16 * i) 4, bytesAt t (bytesAt d 20 4 + 16 * i + 4) 4)

/-- A program index names a program: its header lies within the portable section, as entry `pidx` of an array of headers at the section's start (log 31). -/
def programNamed (ss : List Section) (pidx : Nat) : Bool := decide (32 * pidx + 32 ≤ sizeOf' ss 7)

/-- A descriptor passes R428. -/
def descriptorOk (ss : List Section) (d : List Byte) : Bool :=
  let f := fun lo n => bytesAt d lo n
  let size := sizeOf' ss 2
  [8, 16, 32, 64].contains (f 6 1) && decide (1 ≤ f 4 2) && decide (f 4 2 ≤ 255) && decide (f 7 1 ≤ 42)
    && decide (f 8 2 % 8 = 0) && decide (8 ≤ f 8 2) && decide (f 8 2 ≤ 256) && decide (1 ≤ f 10 2) && decide (f 10 2 ≤ 3072)
    && decide (f 12 2 % 2 = 0) && decide (f 12 2 ≤ 512) && decide (f 14 2 ≤ 4096) && decide (f 16 4 % 16 = 0) && decide (f 16 4 ≤ 4317184)
    && decide (f 20 4 % 16 = 0) && decide (f 32 8 % 8 = 0) && decide (f 48 8 % 8 = 0)
    && ((List.range 16).all fun i => queueOk (f (56 + 2 * i) 1) (f (57 + 2 * i) 1))
    && decide (f 88 2 ≠ 0) && decide (f 88 2 < 4) && decide (f 92 4 = 0)
    && (if hasNative d then decide (f 24 8 + f 32 8 ≤ size) && decide (f 40 8 + f 48 8 ≤ size)
        else decide (f 24 8 = 0) && decide (f 32 8 = 0) && decide (f 40 8 = 0) && decide (f 48 8 = 0))
    && (f 14 2 == 0 || decide (f 20 4 + 16 * f 14 2 ≤ sizeOf' ss 3))
    && (if hasPortable d then programNamed ss (f 90 2) else decide (f 90 2 = 0))

/-- The values of a native kernel's descriptor. -/
def kernelOf (d : List Byte) : Kernel :=
  { width := bytesAt d 6 1, ta := bytesAt d 7 1, nv := bytesAt d 8 2, threads := bytesAt d 10 2, ns := bytesAt d 12 2,
    nentry := bytesAt d 14 2, scratch := bytesAt d 16 4, queues := declaredQueues d, portable := false }

/-- The values of a translated kernel: T, ns, ta and the entries are the descriptor's, scratch what the translator adds to the descriptor's, the rest the translator's (R434). Its crews run the program itself (log 4). -/
def translatedKernel (d : List Byte) (p : Option Program) (t : Config.Translation) : Kernel :=
  { kernelOf d with width := t.width, nv := t.nv, scratch := (kernelOf d).scratch + roundUp t.scratch 16,
                    queues := t.queues, portable := true, prog := p }

/-- A kernel fits an empty core (R437). -/
def Kernel.fits (k : Kernel) : Bool :=
  (grants.any fun g => decide (pairsAt k.threads g ≤ 48) && decide (pairsAt k.threads g * queueBytes k g ≤ 786432))
    && decide (k.scratch + (if k.nentry = 0 then 0 else dequeBytes 4096) ≤ scratchBytes) && decide (k.ns ≤ 512) && decide (k.ta ≤ 42)

/-! ### Relocations (R429) -/

/-- An entry of Table 15.4. -/
structure Reloc where
  site : Nat
  target : Nat
  sec : Nat
  deriving DecidableEq, Repr

def relocsOf (o : List Byte) (ss : List Section) : List Reloc :=
  let r := bytesOf o ss 6
  (List.range (sizeOf' ss 6 / 24)).map fun i => { site := bytesAt r (24 * i) 8, target := bytesAt r (24 * i + 8) 8, sec := bytesAt r (24 * i + 16) 1 }

/-- An offset lies in a slice of the code section. -/
def inSlice' (x : Nat × Nat) (n : Nat) : Bool := decide (x.1 ≤ n) && decide (n < x.1 + x.2)

/-- The native slices of an object. -/
def nativeSlices (o : List Byte) (ss : List Section) : List (Nat × Nat) :=
  (List.range (kernelCount ss)).flatMap fun i =>
    let d := descriptor o ss i
    if hasNative d then [codeSlice d 24, codeSlice d 40] else []

/-- A relocation passes R429. -/
def relocOk (o : List Byte) (ss : List Section) (r : Reloc) : Bool :=
  let w : W64 := BitVec.ofNat 64 (bytesAt (bytesOf o ss 2) (r.site - 8) 8)
  decide (r.site % 8 = 0) && decide (8 ≤ r.site) && (nativeSlices o ss).any (fun x => inSlice' x r.site)
    && decide (w.extractLsb' 62 2 = 2) && (w.extractLsb' 52 10 == 0x050 || w.extractLsb' 52 10 == 0x209)
    && (r.sec == 4 || r.sec == 5) && decide (r.target < sizeOf' ss r.sec)

/-! ### Portable Form programs (R430, R432) -/

/-- The program of a header, when R430 holds of it: the regions tile the code. -/
def programOf (sec : List Byte) (pidx : Nat) : Option Program :=
  let h := sliceOf sec (32 * pidx) 32
  let nreg := bytesAt h 4 4
  let regoff := bytesAt h 8 8
  let codeoff := bytesAt h 16 8
  let size := bytesAt h 24 8
  let rs := (List.range nreg).map fun i => sliceOf sec (regoff + 16 * i) 16
  let regions := rs.map fun r => { first := bytesAt r 0 4, last := bytesAt r 4 4, par := decide (bytesAt r 8 1 = 1) : Region }
  let nvp := bytesAt h 0 2
  if nvp % 8 = 0 ∧ 8 ≤ nvp ∧ nvp ≤ 256 ∧ bytesAt h 2 2 = 0 ∧ 1 ≤ nreg ∧ nreg ≤ 65535 ∧ size % 8 = 0 ∧ regoff + 16 * nreg ≤ sec.length
      ∧ codeoff + size ≤ sec.length ∧ (rs.all fun r => decide (bytesAt r 8 1 ≤ 1) && decide (bytesAt r 9 7 = 0)) = true
      ∧ (regions.all fun r => decide (r.first < r.last)) = true
      ∧ regions.map (·.first) = 0 :: (regions.dropLast).map (·.last) ∧ (regions.getLast?).map (·.last) = some (size / 8) then
    some { nvp := nvp, regions := regions, code := (List.range (size / 8)).map fun i => BitVec.ofNat 64 (bytesAt sec (codeoff + 8 * i) 8) }
  else none

/-- The bytes a translation reads: header, region table and code. -/
def programBytes (sec : List Byte) (pidx : Nat) : List Byte :=
  let h := sliceOf sec (32 * pidx) 32
  h ++ sliceOf sec (bytesAt h 8 8) (16 * bytesAt h 4 4) ++ sliceOf sec (bytesAt h 16 8) (bytesAt h 24 8)

/-- The operand that a code of a portable instruction names. -/
def threadOpnd (c : BitVec 9) : Opnd :=
  if c.toNat < 256 then .v (c.setWidth 8) else if 0x140 ≤ c.toNat ∧ c.toNat < 0x180 then .s (c.setWidth 6) else .none

/-- A portable memory instruction with the v and s registers that its word names. -/
def threadInstr (f : Fields) : Instr → Instr
  | .la x => .la { x with d := threadOpnd f.dest, base := threadOpnd f.srca }
  | .lsa x => .lsa { x with d := threadOpnd f.dest, base := threadOpnd f.srca }
  | .sd x => .sd { x with base := threadOpnd f.srca, v := threadOpnd f.srcb }
  | .pf x => .pf { x with base := threadOpnd f.srca }
  | .lea x => .lea { x with d := threadOpnd f.dest, base := threadOpnd f.srca }
  | .leaLong x => .leaLong { x with d := threadOpnd f.dest, base := threadOpnd f.srca }
  | .atom x => .atom { x with d := threadOpnd f.dest, base := threadOpnd f.srca, v := threadOpnd f.srcb }
  | .acas x => .acas { x with d := threadOpnd f.dest, base := threadOpnd f.srca, cmp := threadOpnd f.srcb, new := threadOpnd (f.mod.extractLsb' 0 9) }
  | .upd x => .upd { x with base := threadOpnd f.srca, v := threadOpnd f.srcb }
  | .uflush x => .uflush { x with base := threadOpnd f.srca, len := threadOpnd f.srcb }
  | i => i

/-- An operand code of a portable memory instruction put as the access-slice code of the same kind: v registers as `a`, or `c` where only a uniform one is written, s registers as `c`. Code 0 stands for itself; every other code is refused. -/
def portableCode (nvp : Nat) (uni : Bool) (c : BitVec 9) : BitVec 9 :=
  let n := c.toNat
  let low := if n = 0 ∨ n = 0x140 then 0 else 1
  if n < 256 then (if nvp ≤ n then 0x1FF else BitVec.ofNat 9 ((if uni then 0x140 else 0) + low))
  else if 0x140 ≤ n ∧ n < 0x180 then BitVec.ofNat 9 (0x140 + low)
  else 0x1FF

/-- An operand code names an even register. -/
def evenCode (c : BitVec 9) : Bool := !c.getLsbD 0

/-- A destination that is an s register has no v register among the sources (R59). -/
def uniformFrom (d : BitVec 9) (srcs : List (BitVec 9)) : Bool := decide (d.toNat < 256) || srcs.all fun c => decide (0x140 ≤ c.toNat)

/-- Opcodes of groups 8 and 10 of the Portable Form. -/
def portableMem (op : Nat) : Bool := [0x201, 0x203, 0x205, 0x207, 0x209, 0x280, 0x281, 0x282, 0x283, 0x284].contains op

/-- A portable instruction of groups 8 and 10: its fields are those of the access slice with other registers; `la` and `lsa` write v registers. -/
def decodePortableMem (nvp : Nat) (w ext : W64) : Option Instr :=
  let f := Fields.ofWord w
  let op := f.op.toNat
  let long := w.extractLsb' 62 2 == 2
  let uni := op == 0x280 || op == 0x281
  let m := if op = 0x281 then (f.mod.extractLsb' 9 10) ++ portableCode nvp uni (f.mod.extractLsb' 0 9) else f.mod
  let g := { f with dest := portableCode nvp uni f.dest, srca := portableCode nvp uni f.srca, srcb := portableCode nvp uni f.srcb, mod := m }
  match decode .access 256 (Fields.word (if long then 2 else 0) g) ext with
  | .error _ => none
  | .ok i =>
    let wide := match i with
      | .la x | .lsa x => decide (f.dest.toNat < 256) && (x.sz != .b64 || evenCode f.dest)
      | .sd x => x.sz != .b64 || evenCode f.srcb
      | .lea _ | .leaLong _ => evenCode f.dest
      | .uflush _ => evenCode f.srcb
      | .atom x => uniformFrom f.dest [f.srca, f.srcb] && (AtomTy.bits x.ty != 64 || (evenCode f.dest && evenCode f.srcb))
      | .acas x => uniformFrom f.dest [f.srca, f.srcb, f.mod.extractLsb' 0 9] && (!x.wide || (evenCode f.dest && evenCode f.srcb && !f.mod.getLsbD 0))
      | _ => true
    if (op = 0x282 ∨ evenCode f.srca = true) ∧ wide = true then some (threadInstr f i) else none

/-- Opcodes of groups 0 to 6 and 14 of the Portable Form, pairs aside. -/
def portableAlu (op : Nat) : Bool :=
  decide (op ≤ 5) || op == 7 || op == 0xA || (decide (0x040 ≤ op) && decide (op < 0x1C0)) || op == 0x380 || op == 0x383 || op == 0x385

/-- Special registers a portable `rds` may read. -/
def portableSpecial (n : Nat) : Bool := [0x00, 0x04, 0x05, 0x06, 0x07, 0x08, 0x09, 0x18].contains n

/-- A portable instruction: decoded as for the execute slice, with v and s registers only. -/
def decodePortable (nvp : Nat) (w ext : W64) : Option Instr :=
  let op := (w.extractLsb' 52 10).toNat
  let form := (w.extractLsb' 62 2).toNat
  if form ≠ 1 ∧ (Fields.ofWord w).guard.live ∧ portableMem op then decodePortableMem nvp w ext
  else
    match decodeChecked .execute nvp (fun _ => none) w ext with
    | .error _ => none
    | .ok i =>
      let us := (i.uses .execute).1 ++ (i.uses .execute).2
      let special := match i with
        | .rds x => portableSpecial x.idx.toNat
        | _ => true
      if (form = 1 ∨ ¬ (Fields.ofWord w).guard.live ∨ portableAlu op) ∧ (us.all fun u => !u.1.isLatch && !u.1.isQueue) = true ∧ special = true
        then some i else none

/-- The destinations of a portable instruction. -/
def portableDests (i : Instr) : List Opnd :=
  match i with
  | .la _ | .lsa _ | .lea _ | .leaLong _ | .atom _ | .acas _ => (i.uses .access).1.map (·.1)
  | _ => (i.uses .execute).1.map (·.1)

/-- The word displacement of a branch with a fixed target, or of an `rcv`. -/
def fixedTarget : Instr → Option Int
  | .bra x => some x.disp.toInt
  | .call x => some x.disp.toInt
  | .loop x => some x.disp.toInt
  | .rcv x => some x.disp.toInt
  | _ => none

/-- The words of a region from `i` on are accepted (R432): `fuel` bounds their number. -/
def regionOk (p : Program) (r : Region) : (fuel i : Nat) → Bool
  | 0, i => decide (i = r.last)
  | n + 1, i =>
    if i = r.last then true
    else
      match p.code[i]? with
      | none => false
      | some w =>
        match decodePortable p.nvp w ((p.code[i + 1]?).getD 0) with
        | none => false
        | some x =>
          let next := i + x.length / 8
          decide (next ≤ r.last) && !(r.par && (portableDests x).any Opnd.isUniform)
            && (match fixedTarget x with
              | none => true
              | some d => decide ((r.first : Int) ≤ (i : Int) + d) && decide ((i : Int) + d ≤ (r.last : Int)))
            && regionOk p r n next

/-- A program is accepted (R430, R432). -/
def programOk (sec : List Byte) (pidx : Nat) : Bool :=
  match programOf sec pidx with
  | none => false
  | some p => p.regions.all fun r => regionOk p r (r.last - r.first) r.first

end Sys2Proof.Machine
end

