-- ==== Sys2Proof/Machine/Loader.lean ====
section
/-! DEFINITION. The loader behind the management mailbox: queries, loads, unloads, evictions, the translation cache (R340, R427, R435 to R441). -/
namespace Sys2Proof.Machine

/-! ### The mailbox (Table 15.5) -/

/-- The 64 bytes of the mailbox. -/
def mailboxBytes (s : State) : List Byte := (List.range 8).flatMap fun i => natToBytes (Cells.get s.dev.mailbox i).toNat 8
/-- A request is in progress. -/
def mailboxBusy (s : State) : Bool := decide (bytesAt (mailboxBytes s) 48 2 = 0xFFFF)
/-- Puts bytes into the mailbox. -/
def putMailbox (s : State) (lo : Nat) (d : List Byte) : State :=
  let l := patch (mailboxBytes s) lo d
  { s with dev := { s.dev with mailbox := Cells.setList [] 0 ((List.range 8).map fun i => BitVec.ofNat 64 (bytesAt l (8 * i) 8)) } }

/-- A request completes with a status (R435, R447). -/
def answer (s : State) (status : Nat) : State := signal (putMailbox s 48 (natToBytes status 2)) 1

/-- A write of one of the eight mailbox registers; the one that holds op starts a request, which a reserved op or a non-zero reserved field ends at once with status 0x11; outputs take no write (R435). -/
def writeMailbox (s : State) (i : Nat) (val : W64) : State :=
  if i = 0 ∧ mailboxBusy s = true then s
  else
    let old := Cells.get s.dev.mailbox i
    let val := if i = 7 then old else if i = 6 then setFld old 16 16 (fld val 16 16) else val
    let s := { s with dev := { s.dev with mailbox := Cells.set s.dev.mailbox i val } }
    if i ≠ 0 then s
    else
      let l := mailboxBytes s
      let s := putMailbox s 48 (natToBytes 0xFFFF 2)
      if bytesAt l 0 2 = 0 ∨ 4 < bytesAt l 0 2 ∨ bytesAt l 3 1 ≠ 0 ∨ bytesAt l 50 2 ≠ 0 then answer s 0x11 else s

/-- A request of the mailbox (Table 15.5). -/
structure Request where
  op : Nat
  ctx : Nat
  loadid : Nat
  obj : W64
  objlen : Nat
  cbase : W64
  kbase : W64
  dbase : W64
  deriving DecidableEq, Repr

/-- The request in the mailbox. -/
def requestOf (s : State) : Request :=
  let l := mailboxBytes s
  { op := bytesAt l 0 2, ctx := bytesAt l 2 1, loadid := bytesAt l 4 4, obj := BitVec.ofNat 64 (bytesAt l 8 8), objlen := bytesAt l 16 8,
    cbase := BitVec.ofNat 64 (bytesAt l 24 8), kbase := BitVec.ofNat 64 (bytesAt l 32 8), dbase := BitVec.ofNat 64 (bytesAt l 40 8) }

/-! ### Steps 1 to 5 of R436 -/

/-- An object that has passed steps 1 to 3: its bytes, sections and digest. -/
structure Obj15 where
  bytes : List Byte
  secs : List Section
  digest : List Byte
  deriving DecidableEq, Repr

/-- What reading an object gives: nothing yet, a status, or the object; an error met in its bytes is reported in either case (R5, R217). -/
inductive ObjRead
  | busy
  | fails (s : State) (status : Nat)
  | ok (s : State) (o : Obj15)
  deriving DecidableEq, Repr

/-- Steps 1 to 3: the context, the object's bytes, its structure, its signature (R425 to R427). -/
def readObject (s : State) (r : Request) : ObjRead :=
  if 64 ≤ r.ctx ∨ bitAt (s.ctx r.ctx).root 0 = false then .fails s 0x0F
  else if fld r.obj 0 3 ≠ 0 then .fails s 0x0B
  else
    match launchRead s r.ctx r.obj r.objlen with
    | .error _ => .fails s 0x0B
    | .ok none => .busy
    | .ok (some (s, o)) =>
      if !headerOk o r.objlen then .fails s 0x01
      else if !sectionsOk o then .fails s 0x02
      else
        let ss := sectionsOf o
        match s.dev.fw.signers.find? fun k => keyDigest k == sliceOf o 32 48 with
        | none => .fails s 0x04
        | some key =>
          let digest := sha384 (o.take (((sectionOf ss 10).map (·.off)).getD 0))
          if ecdsaOk key digest (bytesOf o ss 10) then .ok s { bytes := o, secs := ss, digest := digest } else .fails s 0x03

/-- Evicts the cached translations of an object (R440, R441). -/
def evictAll (s : State) (digest : List Byte) : State := { s with cache := s.cache.filter fun e => e.digest != digest }

/-- Security version of an object. -/
def Obj15.secver (o : Obj15) : Nat := bytesAt o.bytes 8 2
/-- Memory-model revision. -/
def Obj15.model (o : Obj15) : Nat := bytesAt o.bytes 6 2
/-- The descriptors. -/
def Obj15.descs (o : Obj15) : List (List Byte) := (List.range (kernelCount o.secs)).map fun i => descriptor o.bytes o.secs i
/-- A kernel without native slices runs its Portable Form (log 31). -/
def needsTranslation (d : List Byte) : Bool := !hasNative d

/-! ### The translation cache (R439) -/

/-- An entry's key names a program of an object, as the running translator translates it. -/
def CacheEntry.serves (e : CacheEntry) (s : State) (o : Obj15) (pidx : Nat) : Bool :=
  e.digest == o.digest && e.pidx == pidx && e.version == s.dev.fw.translator && e.secver == o.secver

/-- The bytes of a declared queue. -/
def queueBytes2 : Option (QDir × Nat) → List Byte
  | none => [0, 0]
  | some (d, n) => [BitVec.ofNat 8 n, match d with
    | .fwd => 1
    | .ret => 2
    | .sd => 3]

/-- The bytes of an entry before its signature: the key, the object's secver, the descriptor values after translation, the slices (log 4). -/
def entryBody (s : State) (o : Obj15) (pidx : Nat) (t : Config.Translation) : List Byte :=
  o.digest ++ natToBytes pidx 8 ++ natToBytes s.dev.fw.translator 8 ++ natToBytes o.secver 8 ++ natToBytes t.nv 8 ++ natToBytes t.scratch 8
    ++ natToBytes t.width 8 ++ natToBytes t.acode.length 8 ++ natToBytes t.xcode.length 8
    ++ (List.range 16).flatMap (fun i => queueBytes2 ((t.queues[i]?).getD none)) ++ t.acode ++ t.xcode

/-- A translation read back from an entry's bytes. -/
def entryOut (l : List Byte) : Config.Translation :=
  let n := bytesAt l 96 8
  { acode := sliceOf l 144 n, xcode := sliceOf l (144 + n) (bytesAt l 104 8), nv := bytesAt l 72 8, scratch := bytesAt l 80 8, width := bytesAt l 88 8,
    queues := (List.range 16).map fun i =>
      let d := bytesAt l (112 + 2 * i) 1
      let r := bytesAt l (113 + 2 * i) 1
      if d = 0 then none else some (if r = 1 then .fwd else if r = 2 then .ret else .sd, d) }

/-- The first place in the reserved region for `n` bytes beside entries. -/
def cacheRoom (es : List CacheEntry) (n : Nat) : Option Nat :=
  let base := 4096 * Config.cachePage.toNat
  (base :: es.map fun e => roundUp (e.at_ + e.len) 64).find? fun a =>
    decide (a + n ≤ min (base + Config.cacheBytes.toNat) (2 ^ 39)) && es.all fun e => !rangesMeet (a, n) (e.at_, e.len)

/-- The least recently used entries go until `n` bytes have room; with none left and no room, nothing is entered. -/
def cacheEvict (n : Nat) : List CacheEntry → List CacheEntry × Option Nat
  | [] => ([], cacheRoom [] n)
  | e :: es => match cacheRoom (e :: es) n with
    | some a => (e :: es, some a)
    | none => cacheEvict n es

/-- The bytes of an entry as they stand in device memory: those of units that cannot be read are zero, and the errors are logged. -/
def cacheRead (s : State) (e : CacheEntry) : State × List Byte :=
  let r := unitsRead s (blocksOf e.at_ e.len 64) 0xFF
  (r.1, (deviceLoad s e.at_ e.len).zipIdx.map fun x => if r.2.1.contains ((e.at_ + x.2) / 64) then 0 else x.1)

/-- CachedOrTranslate (R439): an entry whose signature by the identity key verifies, and whose secver is the object's, is used; else it is evicted and the program translated anew, signed and entered, past the L2: an entry stays where it is through a warm start. The most recently used entry stands last. -/
def cachedOrTranslate (s : State) (o : Obj15) (d : List Byte) : State × Config.Translation :=
  let pidx := bytesAt d 90 2
  let rest := s.cache.filter fun e => !e.serves s o pidx
  let anew := fun (s : State) =>
    let t := Config.translate s.dev.fw.translator (programBytes (bytesOf o.bytes o.secs 7) pidx) d
    let body := entryBody s o pidx t
    let l := body ++ identitySign s.dev body
    let r := cacheEvict l.length rest
    match r.2 with
    | none => ({ s with cache := r.1 }, t)
    | some a =>
      let e : CacheEntry := { digest := o.digest, pidx := pidx, version := s.dev.fw.translator, secver := o.secver, at_ := a, len := l.length }
      ({ (deviceStore s 0xFF true a l) with cache := r.1 ++ [e] }, t)
  match s.cache.find? fun e => e.serves s o pidx with
  | none => anew s
  | some e =>
    let r := cacheRead s e
    let body := r.2.take (e.len - 96)
    if identitySigned s.dev body (r.2.drop (e.len - 96)) && bytesAt body 64 8 == o.secver then ({ r.1 with cache := rest ++ [e] }, entryOut body)
    else anew r.1

/-- A kernel as it will be loaded: its values, its slices, its entry table. -/
structure Ready where
  kern : Kernel
  acode : List Byte
  xcode : List Byte
  entries : List (Nat × Nat)
  /-- offsets of its native slices in the code section, for relocations -/
  native : Option (Nat × Nat)
  deriving DecidableEq, Repr

/-- One kernel made ready. -/
def readyKernel (s : State) (o : Obj15) (d : List Byte) : State × Ready :=
  let es := entriesOf o.bytes o.secs d
  if needsTranslation d then
    let r := cachedOrTranslate s o d
    (r.1, { kern := translatedKernel d (programOf (bytesOf o.bytes o.secs 7) (bytesAt d 90 2)) r.2, acode := r.2.acode, xcode := r.2.xcode, entries := es, native := none })
  else
    let code := bytesOf o.bytes o.secs 2
    let a := codeSlice d 24
    let x := codeSlice d 40
    (s, { kern := kernelOf d, acode := sliceOf code a.1 a.2, xcode := sliceOf code x.1 x.2, entries := es, native := some (a.1, x.1) })

/-- The kernels made ready, in order. -/
def readyKernels (s : State) (o : Obj15) : List (List Byte) → State × List Ready
  | [] => (s, [])
  | d :: ds =>
    let r := readyKernel s o d
    let q := readyKernels r.1 o ds
    (q.1, r.2 :: q.2)

/-- Steps 4 and 5 (R436): a status that fails, or the kernels. -/
def checkObject (s : State) (o : Obj15) : State × (Nat ⊕ List Ready) :=
  if o.secver < s.dev.fuse.toNat then (evictAll s o.digest, .inl 0x05)
  else if o.model ≠ 2 ∧ o.model ≠ 3 then (s, .inl 0x06)
  else if sizeOf' o.secs 1 % 96 ≠ 0 ∨ (o.descs.all (descriptorOk o.secs)) = false then (s, .inl 0x07)
  else if sizeOf' o.secs 6 % 24 ≠ 0 ∨ ((relocsOf o.bytes o.secs).all (relocOk o.bytes o.secs)) = false then (s, .inl 0x09)
  else if (o.descs.all fun d => !hasPortable d || programOk (bytesOf o.bytes o.secs 7) (bytesAt d 90 2)) = false then (s, .inl 0x0A)
  else
    let r := readyKernels s o o.descs
    if r.2.all fun k => Kernel.fits k.kern then (r.1, .inr r.2) else (s, .inl 0x08)

/-! ### The code region and the sizes (R436) -/

/-- Offsets of the slices in the code region: each begins at a multiple of 128. -/
def placeSlices (at_ : Nat) : List Ready → List (Nat × Nat) × Nat
  | [] => ([], at_)
  | k :: ks =>
    let a := roundUp at_ 128
    let x := roundUp (a + k.acode.length) 128
    let q := placeSlices (x + k.xcode.length) ks
    ((a, x) :: q.1, q.2)

/-- The sizes of a load: code, constants, data. -/
def loadSizes (o : Obj15) (ks : List Ready) : Nat × Nat × Nat :=
  ((placeSlices 0 ks).2, roundUp (sizeOf' o.secs 5) 4096, roundUp (sizeOf' o.secs 4) 4096)

/-- The sizes are reported. -/
def putSizes (s : State) (z : Nat × Nat × Nat) : State := putMailbox s 52 (natToBytes z.1 4 ++ natToBytes z.2.1 4 ++ natToBytes z.2.2 4)

/-- MAILBOX_QUERY (R436): steps 1 to 5. -/
def execMailboxQuery (s : State) : Host.Outcome State Fault Refusal :=
  orSame s (
    let r := requestOf s
    if !mailboxBusy s || r.op != 1 then none
    else
      match readObject s r with
      | .busy => none
      | .fails s n => some (answer s n)
      | .ok s o =>
        match checkObject s o with
        | (s, .inl n) => some (answer s n)
        | (s, .inr ks) => some (answer (putSizes s (loadSizes o ks)) 0))

/-! ### Steps 6 to 10 -/

/-- Every page of a region is mapped with the permissions asked for: execute, write (R436 step 6); reads are asked of data and constants only. -/
def regionMapped (s : State) (ctx : Nat) (base : W64) (size : Nat) (r w x : Option Bool) : Bool :=
  decide (fld base 0 12 = 0) && (List.range ((size + 4095) / 4096)).all fun i =>
    let va := base + BitVec.ofNat 64 (4096 * i)
    canonical va && (match walk s ctx va with
      | .error _ => false
      | .ok t => !isHole (t.phys va) && (r.all fun b => permits t.pte .r == b) && (w.all fun b => permits t.pte .w == b)
          && (x.all fun b => permits t.pte .x == b))

/-- A walk for some page of a region waits for a line that a command owns (R353). -/
def regionWaits (s : State) (ctx : Nat) (base : W64) (size : Nat) : Bool :=
  (List.range ((size + 4095) / 4096)).any fun i => match walk s ctx (base + BitVec.ofNat 64 (4096 * i)) with
    | .error f => f.line?.isSome
    | .ok _ => false

/-- The regions of a load: code, constants and data, with their sizes; an object without constants or data has no such region. -/
def loadRegions (q : Request) (o : Obj15) (z : Nat × Nat × Nat) : List (W64 × Nat) :=
  (q.cbase, z.1) :: ((if (sectionOf o.secs 5).isNone then [] else [(q.kbase, z.2.1)]) ++ if (sectionOf o.secs 4).isNone then [] else [(q.dbase, z.2.2)])

/-- Step 6. -/
def regionsOk (s : State) (q : Request) (o : Obj15) (z : Nat × Nat × Nat) : Bool :=
  regionMapped s q.ctx q.cbase z.1 none (some false) (some true)
    && ((sectionOf o.secs 5).isNone || regionMapped s q.ctx q.kbase z.2.1 (some true) (some false) none)
    && ((sectionOf o.secs 4).isNone || regionMapped s q.ctx q.dbase z.2.2 (some true) (some true) none)

/-- Physical addresses of consecutive bytes of a mapped region, whatever its permissions. -/
def regionPlaces (s : State) (ctx : Nat) (base : W64) (n : Nat) : List Nat :=
  (List.range n).filterMap fun i =>
    match walk s ctx (base + BitVec.ofNat 64 i) with
    | .error _ => none
    | .ok t => some (t.phys (base + BitVec.ofNat 64 i))

/-- The bytes of the code region: slices at their places, zero between them. -/
def codeBytes (ks : List Ready) (places : List (Nat × Nat)) (size : Nat) : List Byte :=
  (ks.zip places).foldl (fun l k => patch (patch l k.2.1 k.1.acode) k.2.2 k.1.xcode) (List.replicate size 0)

/-- Where a site of the code section lies in the code region: once for each loaded slice that holds it. -/
def siteIn (ks : List Ready) (places : List (Nat × Nat)) (site : Nat) : List Nat :=
  (ks.zip places).flatMap fun k => match k.1.native with
    | none => []
    | some (a, x) =>
      (if a ≤ site ∧ site < a + k.1.acode.length then [k.2.1 + (site - a)] else [])
        ++ (if x ≤ site ∧ site < x + k.1.xcode.length then [k.2.2 + (site - x)] else [])

/-- The code region with its relocations applied (R429). -/
def relocated (q : Request) (o : Obj15) (ks : List Ready) (places : List (Nat × Nat)) (l : List Byte) : List Byte :=
  (relocsOf o.bytes o.secs).foldl (fun l r =>
    let v := (if r.sec = 5 then q.kbase else q.dbase) + BitVec.ofNat 64 r.target
    (siteIn ks places r.site).foldl (fun l a => patch l a (natToBytes v.toNat 8)) l) l

/-- What a load writes: physical addresses with their bytes. -/
def loadWrites (s : State) (q : Request) (o : Obj15) (ks : List Ready) (z : Nat × Nat × Nat) : List (Nat × Byte) :=
  let places := (placeSlices 0 ks).1
  let code := relocated q o ks places (codeBytes ks places z.1)
  let consts := (bytesOf o.bytes o.secs 5)
  let data := (bytesOf o.bytes o.secs 4)
  (regionPlaces s q.ctx q.cbase code.length).zip code ++ (regionPlaces s q.ctx q.kbase consts.length).zip consts
    ++ (regionPlaces s q.ctx q.dbase data.length).zip data
/-- The load identifier after another: 1 to 0xFFFF_FFFE (Table 15.5). -/
def nextLoadId (n : Nat) : Nat := if n < 0xFFFFFFFE then n + 1 else 1
/-- The first of `n` identifiers and what follows them that no load has. -/
def freshLoad (s : State) : (n : Nat) → Nat → Nat
  | 0, i => i
  | n + 1, i => if s.objects.any fun e => e.loadid == i then freshLoad s n (nextLoadId i) else i
/-- The identifier of a new load (R436 step 10). -/
def newLoadId (s : State) : Nat := freshLoad s s.objects.length s.nextLoad

/-- The load table's new entries (R438). -/
def newEntries (s : State) (q : Request) (o : Obj15) (ks : List Ready) : List LoadEntry :=
  (ks.zip (placeSlices 0 ks).1).map fun k =>
    { ctx := q.ctx, addr := q.cbase + BitVec.ofNat 64 k.2.1, xaddr := q.cbase + BitVec.ofNat 64 k.2.2, kern := k.1.kern,
      entries := k.1.entries, loadid := newLoadId s, model := o.model }

/-- Sets or clears the fence-strengthening mode of a context (R340). -/
def setFsm (s : State) (ctx : Nat) (on : Bool) : State :=
  let c := s.ctx ctx
  s.setCtx ctx { c with root := setFld c.root 1 1 (if on then 1 else 0) }

/-- Steps 6 to 10 (R436): none while an engine owns a line that the load writes or walks through. Partial writes of units are checked for the context (R356, R357). -/
def installObject (s : State) (q : Request) (o : Obj15) (ks : List Ready) : Option State :=
  let z := loadSizes o ks
  if (loadRegions q o z).any fun r => regionWaits s q.ctx r.1 r.2 then none
  else if !regionsOk s q o z then some (answer s 0x0B)
  else if 4096 < s.loads.length + ks.length then some (answer s 0x0D)
  else
    let ws := loadWrites s q o ks z
    if !freeBytes s (ws.map (·.1)) then none
    else
      let side := (loadRegions q o z).flatMap fun r => sidePages (walk s q.ctx) r.1 r.2
      let s := writeBytes (partialChecks (applyBytes s (ws.map (·.1))) q.ctx ws) .launch 0 0 .phys (sideLine s side) .domain ws
      let s := dropCode s fun ctx a => ctx == q.ctx && rangesMeet (fld a 0 64 / 128 * 128, 128) (q.cbase.toNat, z.1)
      let id := newLoadId s
      let s := { s with loads := s.loads ++ newEntries s q o ks, nextLoad := nextLoadId id,
                             objects := s.objects ++ [{ ctx := q.ctx, loadid := id, model := o.model }] }
      let s := if o.model = 2 then setFsm s q.ctx true else s
      some (answer (putMailbox (putSizes s z) 4 (natToBytes id 4)) 0)

/-- MAILBOX_LOAD (R436). -/
def execMailboxLoad (s : State) : Host.Outcome State Fault Refusal :=
  orSame s (
    let r := requestOf s
    if !mailboxBusy s || r.op != 2 then none
    else
      match readObject s r with
      | .busy => none
      | .fails s n => some (answer s n)
      | .ok s o =>
        match checkObject s o with
        | (s, .inl n) => some (answer s n)
        | (s, .inr ks) => installObject s r o ks)

/-- A load is in use (R441): a launch of one of its kernels has not completed, or a queue stands stopped at a record that names one. -/
def loadInUse (s : State) (id : Nat) : Bool :=
  (s.launches.any fun l => l.2.entry.loadid == id) || s.queues.any fun q => q.2.named == some id

/-- MAILBOX_UNLOAD (R441). -/
def execMailboxUnload (s : State) : Host.Outcome State Fault Refusal :=
  orSame s (
    let r := requestOf s
    if !mailboxBusy s || r.op != 3 then none
    else if (s.objects.all fun e => !(e.ctx == r.ctx && e.loadid == r.loadid)) = true then some (answer s 0x0E)
    else if loadInUse s r.loadid then some (answer s 0x0C)
    else
      let rest := s.objects.filter fun e => e.loadid != r.loadid
      let s := { s with loads := s.loads.filter fun e => e.loadid != r.loadid, objects := rest }
      let s := if rest.any fun e => e.ctx == r.ctx && e.model == 2 then s else setFsm s r.ctx false
      some (answer s 0))

/-- MAILBOX_EVICT (R441): steps 1 to 3, then the object's translations go. -/
def execMailboxEvict (s : State) : Host.Outcome State Fault Refusal :=
  orSame s (
    let r := requestOf s
    if !mailboxBusy s || r.op != 4 then none
    else
      match readObject s r with
      | .busy => none
      | .fails s n => some (answer s n)
      | .ok s o => some (answer (evictAll s o.digest) 0))

end Sys2Proof.Machine
end

