-- ==== Sys2Proof/Machine/Start.lean ====
section
/-! DEFINITION. Start-up, resets and power (R457 to R460, R465, R466), attestation (R461 to R463), the patrol and failed banks (R347, R367, R368). -/
namespace Sys2Proof.Machine

/-! ### Starts (Table 16.6) -/

/-- What memory holds when the dirty lines of L2 are lost (R459): stores performed at die scope past the L2 have reached it (R352). -/
def loseDirty (s : State) : Mem :=
  let done := s.wide.filter fun w => w.space == .phys && decide (4 ≤ w.scope.code)
  s.dirty.foldl (fun m d => Cells.setList m (128 * d.line) d.old) (done.foldl (fun m w => Cells.setList m w.addr w.data) s.mem)

/-- An error block that keeps its marks and bank counts, or nothing (R347, R459). -/
def keepMarks (e : ErrBlock) : ErrBlock := { ErrBlock.reset with failed := e.failed, perBank := e.perBank }

/-- The beginning of a start: every context, load, queue, binding and log is cleared, with every volatile array; memory, the translation cache and the marks are still there (R459). Fuses and the saved training are kept, wnext too, and a new nonce is drawn (R464). -/
def clearForStart (s : State) (warm : Bool) : State :=
  { State.reset with
    agenda := s.agenda, mem := loseDirty s, errs := s.errs.map fun e => (e.1, keepMarks e.2),
    faults := s.faults.filter fun f => f.2.1 == 0x20 || f.2.1 == 0x21, cache := s.cache, clock := s.clock, env := s.env,
    dev := { s.dev with ready := false, memActive := false, fail := 0, step := 1, warm := warm, trip := s.dev.tripped, tripped := false,
                        session := false, linkKeys := false, fabricKeys := false, nonces := s.dev.nonces + 1, mailbox := [],
                        iva := 0, ilen := 0, ictl := 0, istatus := 0 } }

/-- A start fails at a step (R457, R460, R447). -/
def failStart (s : State) (step code : Nat) : State :=
  signal { s with dev := { s.dev with step := BitVec.ofNat 8 step, fail := BitVec.ofNat 8 code, wnext := false } } 0

/-- The self-test fails (Table 16.6): an array other than scratchpad data does, a check bank among them, or more than one scratchpad data bank of the device. -/
def selfTestFails (e : StartEnv) : Bool := e.sramBad || e.badBanks.any (fun b => b.2 == 31) || decide (1 < (dedup e.badBanks).length)

/-- Step 3: the marks are those of the self-test (R347). -/
def selfTest (s : State) : State :=
  let s := { s with errs := [] }
  s.env.badBanks.foldl (fun s b => s.setErr b.1 { s.err b.1 with failed := (s.err b.1).failed ||| BitVec.ofNat 32 (2 ^ (b.2 % 31)) }) s

/-- What is signed of training parameters: their digest and the fuse counter. -/
def trainingMessage (n : Nat) (fuse : BitVec 8) : List Byte := Config.trainingDigest n ++ natToBytes fuse.toNat 8

/-- Step 4 of a cold start: new parameters are signed and saved (R457, R461). -/
def train (s : State) : State :=
  let d := s.dev
  { s with dev := { d with step := 4, trainings := d.trainings + 1,
                           training := some { n := d.trainings, fuse := d.fuse, sig := identitySign d (trainingMessage d.trainings d.fuse) } } }

/-- The saved parameters verify against the device key and match the fuse counter (R459). -/
def trainingGood (d : Device) : Bool :=
  match d.training with
  | none => false
  | some t => t.fuse == d.fuse && identitySigned d (trainingMessage t.n t.fuse) t.sig

/-- Step 2: the boot ROM's check of a firmware image with the vendor key whose digest is fused (R458). -/
def firmwareGood (d : Device) (e : StartEnv) : Bool := keyDigest e.fwKey == d.vendorFuse && ecdsaOk e.fwKey (sha384 e.fw.image) e.fwSig

/-- Step 5: device memory is zero, and the translation cache empty (R439). -/
def scrub (s : State) : State := { s with mem := Cells.keep s.mem (fun a => !isDevice a), faults := [], cache := [], dev := { s.dev with step := 5 } }

/-- Step 7: aperture registers at their reset values, Memory_Active, ready, vector 0. -/
def readyStep (s : State) : State :=
  let d := s.dev
  { s with dev := { Device.reset with
    warm := d.warm, wnext := d.wnext, fuse := d.fuse, trip := d.trip, nonces := d.nonces, ports := d.ports, sessions := d.sessions, tj := d.tj,
    training := d.training, trainings := d.trainings, vendorFuse := d.vendorFuse, fw := d.fw, vendorKey := d.vendorKey } }

/-- Steps 6 and 7. -/
def linkSteps (s : State) : State :=
  let s := { s with dev := { s.dev with step := 6 } }
  if s.env.cxlBad then failStart s 6 7 else readyStep { s with dev := { s.dev with ports := s.env.ports } }

/-- Steps 3 to 7 of a cold start. -/
def coldSteps (s : State) : State :=
  let s := { s with dev := { s.dev with step := 3, warm := false } }
  if selfTestFails s.env then failStart s 3 4
  else if s.env.trainBad then failStart (selfTest s) 4 5
  else if s.env.scrubBad then failStart (train (selfTest s)) 5 6
  else linkSteps (scrub (train (selfTest s)))

/-- A start (R457): the device serves the boot steps in order. -/
def runStart (s : State) (warm : Bool) : State :=
  let s := clearForStart s warm
  if s.env.fuseErr then failStart s 1 1
  else if !firmwareGood s.dev s.env then failStart s 2 2
  else if s.env.fw.version < s.dev.fuse.toNat then failStart s 2 3
  else
    let s := { s with dev := { s.dev with fw := s.env.fw, vendorKey := s.env.fwKey } }
    if warm && trainingGood s.dev then (if s.env.trainBad then failStart s 4 5 else linkSteps { s with dev := { s.dev with step := 4 } })
    else coldSteps s

/-- A start caused by go or a reset: warm when wnext is set and the previous start ended neither with a fail code nor with a trip (R460). -/
def resetStart (s : State) : State := runStart s (s.dev.wnext && decide (s.dev.fail = 0) && !s.dev.tripped)

/-- A write to the reset register (Table 16.3). -/
def writeReset (s : State) (val : W64) : State :=
  if fld val 2 62 ≠ 0 then refuseWrite s
  else
    let s := { s with dev := { s.dev with wnext := bitAt val 0 } }
    if bitAt val 1 then resetStart s else s

/-- GO (R460): a write to the reset register. -/
def execGoW (val : W64) (s : State) : Host.Outcome State Fault Refusal := .next (writeReset s val)
/-- CXL_RESET (R460). -/
def execCxlReset (s : State) : Host.Outcome State Fault Refusal := .next (resetStart s)
/-- CONVENTIONAL_RESET (R460): a start of the same kind. -/
def execConventionalReset (s : State) : Host.Outcome State Fault Refusal :=
  .next (runStart s (s.dev.wnext && !s.dev.tripped && decide (s.dev.fail = 0)))

/-- POWER_LOSS (R460): all that the device holds goes, but its fuses and the saved training; host memory stays. -/
def execPowerLoss (s : State) : Host.Outcome State Fault Refusal :=
  .next { State.reset with
    agenda := s.agenda, mem := Cells.keep (loseDirty s) (fun a => !isDevice a), clock := s.clock, env := s.env,
    dev := { Device.reset with fail := 0, step := 0, ready := false, memActive := false, fuse := s.dev.fuse, nonces := s.dev.nonces,
                               sessions := s.dev.sessions, training := s.dev.training, trainings := s.dev.trainings, ports := 0, msix := 0,
                               vendorFuse := s.dev.vendorFuse, fw := s.dev.fw, vendorKey := s.dev.vendorKey } }

/-- POWER_ON (R460): a start after power is applied is cold. -/
def execPowerOn (s : State) : Host.Outcome State Fault Refusal :=
  .next (runStart { s with dev := { s.dev with wnext := false } } false)

/-- The device stops with nothing saved and waits for a start (R466); the hottest junction in sixteenths of a degree. -/
def thermalTrip (s : State) (tj : Nat) : State :=
  signal { s with cur := none, dev := { s.dev with trip := true, tripped := true, ready := false, memActive := false, tj := BitVec.ofNat 16 tj } } 0

/-- THERMAL_TRIP (R466): a junction has reached 115 degrees. -/
def execThermalTrip (s : State) : Host.Outcome State Fault Refusal := .next (thermalTrip s 1840)

/-- THROTTLE (R465): with the power in watts and the hottest junction in sixteenths of a degree, the clocks go down one step when a limit is passed; from 115 degrees on the device stops (R466). -/
def execThrottle (power tj : Nat) (s : State) : Host.Outcome State Fault Refusal :=
  let d := { s.dev with tj := BitVec.ofNat 16 tj }
  .next (if 1840 ≤ tj then thermalTrip s tj
    else { s with dev :=
      if (d.plimit.toNat < power ∨ 1680 ≤ tj) ∧ 12 < d.clock then { d with clock := d.clock - 1, throt := true } else d })

/-! ### Attestation (R461 to R463, Table 16.7) -/

/-- A measurement of Table 16.7; numbers as 8 bytes (log 6). -/
def measurement (s : State) (i : Nat) : List Byte :=
  match i with
  | 1 => Config.romDigest
  | 2 => sha384 s.dev.fw.image
  | 3 => natToBytes s.dev.fw.version 8
  | 4 => natToBytes s.dev.fuse.toNat 8
  | 5 => natToBytes s.dev.fw.translator 8
  | 6 => [if s.dev.warm then 1 else 0] ++ (match s.dev.training with
    | none => []
    | some t => Config.trainingDigest t.n)
  | _ => []

/-- The certificate chain: from the root through the device certificate to the alias certificate of the identity key (R461). -/
def certChain (d : Device) : List Byte := Config.rootCert ++ Config.deviceCert ++ Config.aliasCert (publicKey (identityKey d))

/-- The versions 1.2 and 1.3, as version entries (R462; log 6). -/
def spdmVersions : List Byte := [0x00, 0x12, 0x00, 0x13]
/-- The algorithms that the device selects, ECDSA P-384 and SHA-384, as the bits of their selection words (R462; log 6). -/
def spdmAlgorithms : List Byte := natToBytes 0x80 4 ++ natToBytes 0x02 4

/-- The measurements that a request's index names: one, or all for 0xFF. -/
def measurementsOf (s : State) (i : Nat) : List Byte :=
  if i = 0xFF then [1, 2, 3, 4, 5, 6].flatMap (measurement s) else measurement s i

/-- The code of a request. -/
def SpdmCode.num : SpdmCode → BitVec 8
  | .getVersion => 0x84
  | .getCapabilities => 0xE1
  | .negotiateAlgorithms => 0xE3
  | .getDigests => 0x81
  | .getCertificate => 0x82
  | .challenge => 0x83
  | .getMeasurements => 0xE0
  | .keyExchange => 0xE4
  | .finish => 0xE5
  | .installKeys _ _ => 0xFE
  | .other c => c

/-- SPDM_REQUEST (R462, R463): answers stand in the device block, framed as Config gives; those that prove the device's identity end with the signature of its identity key (R461); keys are installed in a secured session only. -/
def execSpdmRequest (r : SpdmReq) (s : State) : Host.Outcome State Fault Refusal :=
  let d := s.dev
  let frame := fun (d : Device) (l : List Byte) => Config.spdmBody (SpdmCode.num r.code) r.param d.sessions ++ l
  let answer := fun (d : Device) (l : List Byte) => some { s with dev := { d with spdm := frame d l } }
  let signed := fun (d : Device) (l : List Byte) => answer d (l ++ identitySign d (frame d l))
  orSame s (
    if !d.ready || (r.secured && !d.session) then none
    else match r.code with
      | .getVersion => answer d spdmVersions
      | .getCapabilities => answer d []
      | .negotiateAlgorithms => answer d spdmAlgorithms
      | .challenge => signed d (sha384 (certChain d))
      | .getDigests => answer d (sha384 (certChain d))
      | .getCertificate => answer d (certChain d)
      | .getMeasurements => answer d (measurementsOf s r.param.toNat)
      | .keyExchange => signed { d with sessions := d.sessions + 1, session := false } []
      | .finish => if Config.finishOk d.sessions r.proof then answer { d with session := true } [] else none
      | .installKeys l t =>
        if r.secured then answer { d with linkKeys := d.linkKeys || l, fabricKeys := d.fabricKeys || t } [] else none
      | .other _ => none)

/-! ### The patrol and failed banks (R347, R367) -/

/-- PATROL_READ (R367): errors are corrected and logged with no context, and reported to none. -/
def execPatrolRead (p : PatrolUnit) (s : State) : Host.Outcome State Fault Refusal :=
  .next (match p with
    | .scratchRow core row =>
      if 96 ≤ core then s
      else
        let s := checkRead s core row 0xFF
        (List.range 31).foldl (fun s b => (scratchRead s core (31 * row + b) 0xFF).1) s
    | .hbmUnit a => if isDevice a then (injectRead s (108 + dieOf a) 0x20 (a / 64) 0xFF).1 else s)

/-- Marks a bank of a core's scratchpad as failed; marks are never cleared (R368). -/
def markBanks (s : State) (core : Nat) (mask : W32) : State := s.setErr core { s.err core with failed := (s.err core).failed ||| mask }

/-- BANK_FAIL_MARK (R347): after 256 corrected errors of the bank. -/
def execBankFailMark (core bank : Nat) (s : State) : Host.Outcome State Fault Refusal :=
  orSame s (
    if core < 96 ∧ bank < 32 ∧ bitAt (s.err core).failed bank = false ∧ 256 ≤ (Cells.get (s.err core).perBank bank).toNat then
      some (markBanks s core (BitVec.ofNat 32 (2 ^ bank)))
    else none)

/-- FAILED_BANK_MASK_WRITE (R368). -/
def execFailedBankMaskWrite (core : Nat) (mask : W32) (s : State) : Host.Outcome State Fault Refusal :=
  orSame s (if core < 96 then some (markBanks s core mask) else none)

end Sys2Proof.Machine
end

