-- ==== Sys2Proof/Machine/Aperture.lean ====
section
/-! DEFINITION. The control aperture (R448, Table 16.2): the register of every offset, what a write does and what a read returns; translation invalidation (R362, R451), context entries (R450), the fuse counter (R464), error blocks (R368, R369). -/
namespace Sys2Proof.Machine

/-! ### Translation invalidation (R362, R451) -/

/-- A write of the command's ctl. -/
def writeInvalidate (s : State) (ctl : W64) : State :=
  if s.dev.istatus = 1 then s
  else if fld ctl 12 52 ≠ 0 ∨ (fld ctl 6 4 = 0 ∧ bitAt ctl 10 = false) then { s with dev := { s.dev with istatus := 3 } }
  else if bitAt ctl 11 then { s with dev := { s.dev with ictl := ctl, istatus := 1 } }
  else { s with dev := { s.dev with ictl := ctl } }

/-- TRANSLATION_INVALIDATE (R451). -/
def execTranslationInvalidate (ctl : W64) (s : State) : Host.Outcome State Fault Refusal := .next (writeInvalidate s ctl)

/-- The page sizes a command names (R451), as log2. -/
def invalidSizes (ctl : W64) : List Nat := ([12, 16, 21, 30].zipIdx.filter fun x => bitAt ctl (6 + x.2)).map (·.1)

/-- A cached translation matches the command: its context, and the whole of it or a page of a named size that meets the range. -/
def TlbEntry.matches (t : TlbEntry) (d : Device) : Bool :=
  decide (t.ctx = fld d.ictl 0 6) && (bitAt d.ictl 10 ||
    ((invalidSizes d.ictl).contains t.lg && rangesMeet (t.va, 2 ^ t.lg) (fld d.iva 0 57, d.ilen.toNat)))

/-- An address may have been translated by a matching entry: its page of the largest named size meets the range. -/
def mayMatch (d : Device) (va : W64) : Bool :=
  let lg := (invalidSizes d.ictl).foldl Nat.max 0
  bitAt d.ictl 10 || rangesMeet (fld va 0 57 / 2 ^ lg * 2 ^ lg, 2 ^ lg) (fld d.iva 0 57, d.ilen.toNat)

/-- Accesses of a crew that may have used a matching translation and are not performed: loads and stores in their queues, loads of portable threads, copies into the scratchpad. -/
def usesMatching (d : Device) (c : Crew) : Bool :=
  decide (c.ctx = fld d.ictl 0 6) && c.saved.isNone && c.pairs.any fun p =>
    !p.2.xcps.isEmpty
      || p.2.exe.splits.any (fun x => x.2.flight.any fun f => f.space == Space.phys && mayMatch d f.va)
      || p.2.acc.loads.any (fun l => l.space == Space.phys && l.lanes.any fun x => mayMatch d x.va)
      || p.2.acc.stores.any fun e => (e.kind == .sd || e.kind == .sa || e.kind == .upd) && e.lanes.any fun x => mayMatch d x.va

/-- INVALIDATION_COMPLETE (R362): every access that used a matching translation is performed at die scope, and no TLB holds one. -/
def execInvalidationComplete (s : State) : Host.Outcome State Fault Refusal :=
  orSame s (
    if s.dev.istatus ≠ 1 ∨ (s.crews.any fun e => usesMatching s.dev e.2) = true then none
    else
      let d := s.dev
      let s := performAgent s (fun _ => true) .die
      some { s with
        cores := s.cores.map fun e => (e.1, { e.2 with tlb := e.2.tlb.filter fun t => !t.matches d }),
        tlb2 := s.tlb2.map fun e => (e.1, e.2.filter fun (t : TlbEntry) => !t.matches d),
        dev := { d with istatus := 2 } })

/-! ### Context blocks (R399, R419, R450) -/

/-- The fault register and fpc are cleared together (R399). -/
def clearFault (s : State) (ctx : Nat) : State := s.setCtx ctx { s.ctx ctx with fault := 0, fpc := 0 }
/-- The mcheck register and maddr are cleared together (R399). -/
def clearMcheck (s : State) (ctx : Nat) : State := s.setCtx ctx { s.ctx ctx with mcheck := 0, maddr := 0 }

/-- FAULT_CLEAR (R399): a write of zero. -/
def execFaultClear (ctx : Nat) (s : State) : Host.Outcome State Fault Refusal := .next (if 64 ≤ ctx then s else clearFault s ctx)
/-- MCHECK_CLEAR (R399): a write of zero. -/
def execMcheckClear (ctx : Nat) (s : State) : Host.Outcome State Fault Refusal := .next (if 64 ≤ ctx then s else clearMcheck s ctx)

/-- A context has placed or saved crews, completed loads, or enabled host queues (R450). -/
def ctxInUse (s : State) (ctx : Nat) : Bool :=
  (s.crews.any fun e => e.2.ctx == ctx) || (s.loads.any fun e => e.ctx == ctx) || s.queues.any fun e => e.2.en && e.2.ctx == ctx

/-- A context entry is one that a write may leave (R450, Table 16.4). -/
def entryOk (s : State) (ctx : Nat) (c : Ctx) : Bool :=
  let others := s.ctxs.filter fun e => e.1 != ctx
  decide (fld c.root 2 10 = 0) && decide (fld c.root 52 12 = 0) && decide (fld c.pool 0 12 = 0) && decide (fld c.psize 0 12 = 0) &&
  decide (c.pool.toNat + c.psize.toNat ≤ 2 ^ 39) &&
  (others.all fun e => !rangesMeet (c.pool.toNat, c.psize.toNat) (e.2.pool.toNat, e.2.psize.toNat)) &&
  decide (fld c.rtag 17 47 = 0) &&
  !(bitAt c.rtag 16 && others.any fun e => bitAt e.2.rtag 16 && fld e.2.rtag 0 16 == fld c.rtag 0 16) &&
  canonical c.bspool && decide (fld c.bspool 0 12 = 0) && decide (fld c.bssize 0 12 = 0)

/-- The entry with one of its fields written; fsm is read-only (Table 16.4). -/
def entryWith (c : Ctx) (off : Nat) (val : W64) : Option Ctx :=
  match off with
  | 0x00 => some { c with root := setFld val 1 1 (fld c.root 1 1) }
  | 0x08 => some { c with pool := val }
  | 0x10 => some { c with psize := val }
  | 0x18 => some { c with rtag := val }
  | 0x20 => some { c with bspool := val }
  | 0x28 => some { c with bssize := val }
  | _ => none

/-- A write to a context entry (R450). -/
def writeEntry (s : State) (ctx off : Nat) (val : W64) : State :=
  let c := s.ctx ctx
  match entryWith c off val with
  | none => s
  | some c' =>
    let moved := c'.root != c.root || c'.pool != c.pool || c'.psize != c.psize || c'.bspool != c.bspool || c'.bssize != c.bssize
    if !entryOk s ctx c' || (moved && ctxInUse s ctx) then refuseWrite s else s.setCtx ctx c'

/-- CONTEXT_ENTRY_WRITE (R450). -/
def execContextEntryWrite (ctx : Nat) (off : Nat) (val : W64) (s : State) : Host.Outcome State Fault Refusal :=
  .next (if 64 ≤ ctx then s else writeEntry s ctx off val)

/-- A write to a trap block (R399, Table 14.6). -/
def writeTrapBlock (s : State) (ctx off : Nat) (val : W64) : State :=
  let c := s.ctx ctx
  match off with
  | 0x00 => if fld val 0 3 = 0 then s.setCtx ctx { c with hacc := val } else s
  | 0x08 => if fld val 0 3 = 0 then s.setCtx ctx { c with hexe := val } else s
  | 0x10 => if val = 0 then clearFault s ctx else s
  | 0x20 => if val = 0 then clearMcheck s ctx else s
  | _ => s

/-- A write of dcmd (Table 14.14). -/
def runCommand (s : State) (ctx : Nat) (cmd : W64) : State :=
  match cmdOp cmd with
  | 1 => (haltCommand s ctx cmd).getD s
  | 2 => (resumeCommand s ctx cmd).getD s
  | 3 => (stepCommand s ctx cmd).getD s
  | 4 => (readCommand s ctx cmd).getD s
  | 5 => (writeCommand s ctx cmd).getD s
  | _ => reservedCommand s ctx cmd

/-- A write to a debug block (R419, Table 14.13). -/
def writeDebug (s : State) (ctx off : Nat) (val : W64) : State :=
  if off < 0x40 then s.onDebug ctx fun d => { d with bp := Cells.set d.bp (off / 8) val }
  else if off < 0x80 then
    if off % 16 = 0 then s.onDebug ctx fun d => { d with wpa := Cells.set d.wpa ((off - 0x40) / 16) val }
    else s.onDebug ctx fun d => { d with wpc := Cells.set d.wpc ((off - 0x40) / 16) val }
  else if off = 0x80 then
    if fld val 4 60 ≠ 0 ∨ fld val 2 2 = 3 then refuseWrite s else s.onDebug ctx fun d => { d with dctl := val }
  else if off = 0x88 then runCommand s ctx val
  else if off = 0x90 then if fld val 30 34 ≠ 0 then refuseWrite s else s.onDebug ctx fun d => { d with dsel := val }
  else if off = 0x98 then s.onDebug ctx fun d => { d with dmask := val }
  else if off = 0xA0 then s.onDebug ctx fun d => { d with ddata := val }
  else s

/-- A write to a context block: entry, trap block, debug block (Table 16.2). -/
def writeContext (s : State) (ctx off : Nat) (val : W64) : State :=
  if off < 0x40 then writeEntry s ctx off val
  else if off < 0x80 then writeTrapBlock s ctx (off - 0x40) val
  else writeDebug s ctx (off - 0x80) val

/-! ### Error blocks (R368, R369) -/

/-- A write to an injection register (R369). -/
def writeInjection (s : State) (i : Nat) (val : W64) : State :=
  if arrayIds.contains (fld val 0 8) then s.setErr i { s.err i with inj := val } else s

/-- INJECTION_REGISTER_WRITE (R369). -/
def execInjectionRegisterWrite (block : Nat) (val : W64) (s : State) : Host.Outcome State Fault Refusal :=
  .next (if block < 116 then writeInjection s block val else s)

/-- A write to an error block (R368): the mask of failed banks can only gain bits, and cores alone have one. -/
def writeError (s : State) (i off : Nat) (val : W64) : State :=
  let e := s.err i
  if off = 0 then s.setErr i { e with corrected := val.setWidth 32, uncorrected := (val >>> 32).setWidth 32 }
  else if off = 8 then
    let s := s.setErr i { e with next := val.setWidth 32 }
    if i < 96 then markBanks s i ((val >>> 32).setWidth 32) else s
  else if off < 0x110 then
    let n := (off - 0x10) / 16
    let old := Cells.get e.ring n
    s.setErr i { e with ring := Cells.set e.ring n (if off % 16 = 0 then setFld old 0 64 val.toNat else setFld old 64 64 val.toNat) }
  else if off = 0x110 then writeInjection s i val
  else s

/-! ### The device block (Table 16.3, R452, R464) -/

/-- A write of the device identifier (R452). -/
def writeDomain (s : State) (val : W64) : State :=
  let id := fld val 0 10
  if fld val 10 54 ≠ 0 ∨ (576 ≤ id ∧ id ≤ 1022) ∨ s.crews.isEmpty = false then refuseWrite s
  else { s with dev := { s.dev with domain := BitVec.ofNat 10 id } }

/-- DOMAIN_ID_WRITE (R452). -/
def execDomainIdWrite (val : W64) (s : State) : Host.Outcome State Fault Refusal := .next (writeDomain s val)

/-- Refused is cleared (Table 16.3). -/
def clearRefused (s : State) : State := { s with dev := { s.dev with refused := false } }

/-- ASTAT_CLEAR (R448): a write of 1. -/
def execAstatClear (s : State) : Host.Outcome State Fault Refusal := .next (clearRefused s)

/-- The 40 bytes that the signature of the raise block covers: value and nonce. -/
def raiseMessage (d : Device) : List Byte := natToBytes d.rvalue.toNat 8 ++ natToBytes (Config.nonce d.nonces).toNat 32
/-- The signature in the raise block, 96 bytes. -/
def raiseSig (d : Device) : List Byte := (List.range 12).flatMap fun i => natToBytes (Cells.get d.rsig i).toNat 8

/-- An attempt to raise the fuse counter (R464); a new nonce is drawn after it. -/
def raiseFuse (s : State) : State :=
  let d := s.dev
  let ok := decide (d.fuse.toNat < d.rvalue.toNat) && decide (d.rvalue.toNat ≤ 255) && ecdsaOk d.vendorKey (sha384 (raiseMessage d)) (raiseSig d)
  { s with dev := { d with fuse := if ok then d.rvalue.setWidth 8 else d.fuse, rstatus := if ok then 2 else 3, nonces := d.nonces + 1 } }

/-- FUSE_RAISE (R464). -/
def execFuseRaise (s : State) : Host.Outcome State Fault Refusal := .next (raiseFuse s)

/-- A write to the device block: one that sets a reserved bit is refused, of a read-only register too (R448). -/
def writeDevice (s : State) (off : Nat) (val : W64) : State :=
  match off with
  | 0x00 => if fld val 0 16 ≠ 0 then refuseWrite s else s
  | 0x08 => if fld val 32 32 ≠ 0 ∨ fld val 9 7 ≠ 0 ∨ fld val 1 7 ≠ 0 then refuseWrite s else s
  | 0x18 => if fld val 8 56 ≠ 0 then refuseWrite s else s
  | 0x38 => if fld val 18 46 ≠ 0 then refuseWrite s else s
  | 0x10 => writeReset s val
  | 0x20 => writeDomain s val
  | 0x28 => if fld val 32 32 ≠ 0 then refuseWrite s else { s with dev := { s.dev with rtimeout := val.setWidth 32 } }
  | 0x30 => if val.toNat < 400 ∨ 1600 < val.toNat then refuseWrite s else { s with dev := { s.dev with plimit := val.setWidth 16 } }
  | 0x40 => if fld val 1 63 ≠ 0 then refuseWrite s else if bitAt val 0 then clearRefused s else s
  | _ => if val = 0 then s else refuseWrite s

/-- A write to the raise block (R464). -/
def writeRaise (s : State) (off : Nat) (val : W64) : State :=
  if off = 0 then { s with dev := { s.dev with rvalue := val } }
  else if 0x28 ≤ off ∧ off < 0x88 then { s with dev := { s.dev with rsig := Cells.set s.dev.rsig ((off - 0x28) / 8) val } }
  else if off = 0xF8 ∧ bitAt val 0 = true then raiseFuse s
  else s

/-- A write to the registers of a host queue (Table 13.1). -/
def writeQueue (s : State) (n off : Nat) (val : W64) : State :=
  match off with
  | 0x00 => writeRing s n val
  | 0x08 => writeCfg s n val
  | 0x10 => writeTail s n val
  | 0x28 => writeControl s n val
  | _ => s

/-! ### The map (Table 16.2) -/

/-- A register of the aperture: its block, the number within the block's table, and the offset in it. -/
inductive Register
  | device (off : Nat)
  | mailbox (i : Nat)
  | raise (off : Nat)
  | queue (n off : Nat)
  | context (n off : Nat)
  | invalidation (off : Nat)
  | error (i off : Nat)
  | endpoint (id : Nat)
  deriving DecidableEq, Repr

/-- The register at an offset; none where Table 16.2 assigns nothing or the offset is not aligned (R448). -/
def registerAt (off : Nat) : Option Register :=
  if off % 8 ≠ 0 then none
  else if off < 0x80 then some (.device off)
  else if 0x1000 ≤ off ∧ off < 0x1040 then some (.mailbox ((off - 0x1000) / 8))
  else if 0x1100 ≤ off ∧ off < 0x1200 then some (.raise (off - 0x1100))
  else if 0x10000 ≤ off ∧ off < 0x20000 then some (.queue ((off - 0x10000) / 64) (off % 64))
  else if 0x20000 ≤ off ∧ off < 0x28000 then some (.context ((off - 0x20000) / 0x200) (off % 0x200))
  else if 0x30000 ≤ off ∧ off < 0x30020 then some (.invalidation (off - 0x30000))
  else if 0x40000 ≤ off ∧ off < 0x40000 + 116 * 512 then some (.error ((off - 0x40000) / 512) (off % 512))
  else if 0x60000 ≤ off ∧ off < 0x60000 + 576 * 8 then some (.endpoint ((off - 0x60000) / 8))
  else none

/-- A write to a register. -/
def writeRegister (s : State) (r : Register) (val : W64) : State :=
  match r with
  | .device off => writeDevice s off val
  | .mailbox i => writeMailbox s i val
  | .raise off => writeRaise s off val
  | .queue n off => writeQueue s n off val
  | .context n off => writeContext s n off val
  | .invalidation 0 => { s with dev := { s.dev with iva := val } }
  | .invalidation 8 => { s with dev := { s.dev with ilen := val } }
  | .invalidation 16 => writeInvalidate s val
  | .invalidation _ => s
  | .error i off => writeError s i off val
  | .endpoint id => if fld val 56 7 ≠ 0 then refuseWrite s else { s with dev := { s.dev with endpoints := Cells.set s.dev.endpoints id val } }

/-- REGISTER_WRITE (R448): an aligned write of 8 bytes to an offset of the aperture. -/
def execRegisterWrite (off : Nat) (val : W64) (s : State) : Host.Outcome State Fault Refusal :=
  orSame s ((registerAt off).map fun r => writeRegister s r val)

/-! ### Reads (R374, R448) -/

/-- A word of the device block. -/
def readDevice (d : Device) (off : Nat) : W64 :=
  let bit := fun (b : Bool) (n : Nat) => if b then 2 ^ n else 0
  BitVec.ofNat 64 (match off with
    | 0x00 => 0xD096 * 2 ^ 32 + Config.siliconRev.toNat * 2 ^ 16
    | 0x08 => d.fail.toNat * 2 ^ 24 + d.step.toNat * 2 ^ 16 + bit d.warm 8 + bit d.ready 0
    | 0x10 => bit d.wnext 0
    | 0x18 => d.fuse.toNat
    | 0x20 => d.domain.toNat
    | 0x28 => d.rtimeout.toNat
    | 0x30 => d.plimit.toNat
    | 0x38 => bit d.trip 17 + bit d.throt 16 + d.tj.toNat
    | 0x40 => bit d.refused 0
    | _ => 0)

/-- A word of a context block. -/
def readContext (c : Ctx) (off : Nat) : W64 :=
  match off with
  | 0x00 => c.root
  | 0x08 => c.pool
  | 0x10 => c.psize
  | 0x18 => c.rtag
  | 0x20 => c.bspool
  | 0x28 => c.bssize
  | 0x40 => c.hacc
  | 0x48 => c.hexe
  | 0x50 => c.fault
  | 0x58 => c.fpc
  | 0x60 => c.mcheck
  | 0x68 => c.maddr
  | 0x100 => c.dbg.dctl
  | 0x108 => c.dbg.dcmd
  | 0x110 => c.dbg.dsel
  | 0x118 => c.dbg.dmask
  | 0x120 => c.dbg.ddata
  | 0x128 => c.dbg.dstat
  | _ =>
    if 0x80 ≤ off ∧ off < 0xC0 then Cells.get c.dbg.bp ((off - 0x80) / 8)
    else if 0xC0 ≤ off ∧ off < 0x100 then Cells.get (if off % 16 = 0 then c.dbg.wpa else c.dbg.wpc) ((off - 0xC0) / 16)
    else 0

/-- A word of an error block. -/
def readError (e : ErrBlock) (off : Nat) : W64 :=
  if off = 0 then e.uncorrected ++ e.corrected
  else if off = 8 then e.failed ++ e.next
  else if off < 0x110 then
    let w := Cells.get e.ring ((off - 0x10) / 16)
    BitVec.ofNat 64 (fld w (if off % 16 = 0 then 0 else 64) 64)
  else if off = 0x110 then e.inj
  else 0

/-- The value that a read of a register returns (R374, R448). -/
def readRegister (s : State) : Register → W64
  | .device off => readDevice s.dev off
  | .mailbox i => Cells.get s.dev.mailbox i
  | .raise off =>
    if off = 0 then s.dev.rvalue
    else if 8 ≤ off ∧ off < 0x28 then BitVec.ofNat 64 (fld (Config.nonce s.dev.nonces) (8 * (off - 8)) 64)
    else if 0x28 ≤ off ∧ off < 0x88 then Cells.get s.dev.rsig ((off - 0x28) / 8)
    else if off = 0xF0 then s.dev.rstatus.setWidth 64
    else 0
  | .queue n off =>
    let q := s.hq n
    match off with
    | 0x00 => q.ring
    | 0x08 => q.cfg
    | 0x10 => q.tail
    | 0x18 => q.progress
    | 0x20 => q.status
    | _ => 0
  | .context n off => readContext (s.ctx n) off
  | .invalidation off =>
    match off with
    | 0x00 => s.dev.iva
    | 0x08 => s.dev.ilen
    | 0x10 => s.dev.ictl
    | 0x18 => s.dev.istatus.setWidth 64
    | _ => 0
  | .error i off => readError (s.err i) off
  | .endpoint id => Cells.get s.dev.endpoints id

/-- An access of the host to the aperture: only aligned ones of 8 bytes have an effect or read anything but zero (R448). -/
def apertureAccess (s : State) (write : Bool) (off size : Nat) (val : W64) : State :=
  let r := if size = 8 then registerAt off else none
  if write then (match r with
    | none => s
    | some r => writeRegister s r val)
  else { s with dev := { s.dev with hostData := some (natToBytes ((r.map (readRegister s)).getD 0).toNat size) } }

/-- What a read of an offset returns: zero for an offset that is not assigned or not aligned (R448). -/
def apertureRead (s : State) (off : Nat) : W64 :=
  match registerAt off with
  | none => 0
  | some r => readRegister s r

end Sys2Proof.Machine
end

