-- ==== Sys2Proof/Machine/Control.lean ====
section
/-! DEFINITION. Group 0: branches, calls, exits, reconvergence points, counted loops, width requests and yields (R155 to R167). -/
namespace Sys2Proof.Machine

/-- NOP (R167), and the never-execute words of R71. -/
def execNop (x : NopArgs) (s : State) : Host.Outcome State Fault Refusal :=
  runHere s fun h => .ok (h.advance (Instr.nop x).length)

/-- The split goes on at an address. -/
def Here.goto (h : Here) (a : W64) : Here := { h with split := { h.split with pc := a } }
/-- The split keeps some of its lanes and goes on at an address. -/
def Here.only (h : Here) (a mask : W64) : Here := { h with split := { h.split with pc := a, mask := mask } }

/-- A displacement in 8-byte words from an address (R64, R155). -/
def target {n : Nat} (pc : W64) (disp : BitVec n) : W64 := pc + (disp.signExtend 64 <<< 3)

/-- A conditional branch (R156, R26 rule 2): `dest` for the taken lanes, `fall` for the others. A divergence makes a split of the taken lanes, or, with four splits, defers the others. -/
def branch (s : State) (h : Here) (taken dest fall : W64) : Part (State × Here) :=
  let rest := h.mask &&& ~~~taken
  if taken = 0 then .ok (s, h.goto fall)
  else if rest = 0 then .ok (s, h.goto dest)
  else if h.warp.splitCount < 4 then
    match addSplit s h dest taken h.split.stack with
    | .error t => .error t
    | .ok (s, h) => .ok (switchUnit s (h.only fall rest))
  else
    match pushEntry s h (deferEntry fall rest) with
    | .error t => .error t
    | .ok (s, h) => .ok (switchUnit s (h.only dest taken))

/-- BRA (R156). -/
def execBra (x : BraArgs) (s : State) : Host.Outcome State Fault Refusal :=
  runOn s fun h =>
    match branch s h (h.active x.g) (target h.split.pc x.disp) (h.split.pc + 8) with
    | .error t => .error t
    | .ok (s, h) => .ok (s.put h)

/-! ### Indirect transfers (R157) -/

/-- Groups lanes by destination, ordered by their lowest lane: address and mask. -/
def groupBy (dest : Nat → W64) : List Nat → List (W64 × W64)
  | [] => []
  | l :: ls =>
    let r := groupBy dest ls
    let a := dest l
    match r.find? fun g => g.1 == a with
    | none => (a, laneBit l) :: r
    | some g => (a, laneBit l ||| g.2) :: r.filter fun g => g.1 != a

/-- New splits for the groups while the warp has fewer than four, then deferred paths, the first of them on top (R157). -/
def spread (s : State) (h : Here) (stack : List StackEntry) : List (W64 × W64) → Part (State × Here)
  | [] => .ok (s, h)
  | g :: gs =>
    if h.warp.splitCount < 4 then
      match addSplit s h g.1 g.2 stack with
      | .error t => .error t
      | .ok (s, h) => spread s h stack gs
    else
      match spread s h stack gs with
      | .error t => .error t
      | .ok (s, h) => pushEntry s h (deferEntry g.1 g.2)

/-- The transfer of `brx`, `calx` and `ret` (R157). -/
def indirect (s : State) (h : Here) (dest : Nat → W64) : Part (State × Here) :=
  match groupBy dest (lanesOf h.mask) with
  | [] => .ok (s, h)
  | [g] => .ok (s, h.goto g.1)
  | g :: gs =>
    match spread s (h.only g.1 g.2) h.split.stack gs with
    | .error t => .error t
    | .ok (s, h) => .ok (switchUnit s h)

/-- Every active lane's target is aligned (R73, R157). -/
def alignedTargets (h : Here) (act : W64) (t : Nat → W64) : Part Unit :=
  match (lanesOf act).find? fun l => decide (fld (t l) 0 3 ≠ 0) with
  | none => .ok ()
  | some l => raise { cause := cause0 8 h.u.slice, lane := some l }

/-- BRX and RET (R157, R158). -/
def jump (i : Instr) (g : Guard) (s : State) : Host.Outcome State Fault Refusal :=
  runFull s i g fun s h act srcs =>
    let t := fun l => h.src srcs 0 false l
    match alignedTargets h act t with
    | .error e => .error e
    | .ok () => indirect s (h.popAll srcs) fun l => if bitAt act l then t l else h.split.pc + 8
/-- BRX (R157). -/
def execBrx (x : BrxArgs) (s : State) : Host.Outcome State Fault Refusal := jump (.brx x) x.g s
/-- RET (R158): the effect of `brx`. -/
def execRet (x : BrxArgs) (s : State) : Host.Outcome State Fault Refusal := jump (.ret x) x.g s

/-- CALL (R159): the link is written before the transfer. -/
def execCall (x : CallArgs) (s : State) : Host.Outcome State Fault Refusal :=
  runFull s (.call x) x.g fun s h act _ =>
    let fall := h.split.pc + 8
    branch s (h.result x.link true x.nwb act fun _ => fall) act (target h.split.pc x.disp) fall

/-- CALX (R158, R159). -/
def execCalx (x : CalxArgs) (s : State) : Host.Outcome State Fault Refusal :=
  runFull s (.calx x) x.g fun s h act srcs =>
    let t := fun l => h.src srcs 0 false l
    let fall := h.split.pc + 8
    match alignedTargets h act t with
    | .error e => .error e
    | .ok () =>
      indirect s ((h.popAll srcs).result x.link true x.nwb act fun _ => fall) fun l => if bitAt act l then t l else fall

/-- EXIT (R160): the exit of an access warp's last live lanes waits for the data of its unpaired stores (R225, R236). -/
def execExit (x : BareArgs) (s : State) : Host.Outcome State Fault Refusal :=
  runOn s fun h => do
    let act := h.active x.g
    if h.u.slice = .access ∧ h.warp.endsWith act = true then h.awaitData h.warp.stores
    pure (endLanes (s.put (h.advance 8)) h.u act)

/-- RCV (R161): one entry with the split's mask, unless the guard is the never-execute guard, which changes nothing. -/
def execRcv (x : RcvArgs) (s : State) : Host.Outcome State Fault Refusal :=
  runOn s fun h =>
    if x.g.neg then .ok (s.put (h.advance 8))
    else
      match pushEntry s h (rpEntry (target h.split.pc x.disp) h.mask) with
      | .error t => .error t
      | .ok (s, h) => .ok (s.put (h.advance 8))

/-- LOOP (R162). -/
def execLoop (x : LoopArgs) (s : State) : Host.Outcome State Fault Refusal :=
  runFull s (.loop x) x.g fun s h act srcs =>
    let w := if h.u.slice = .access then 64 else 32
    let v := fun l => BitVec.ofNat 64 (((h.src srcs 0 false l).toNat + (2 ^ w - 1)) % 2 ^ w)
    let lanes := (lanesOf act).filter fun l => decide (v (if x.x.isUniform then (lowest act).getD l else l) ≠ 0)
    branch s (h.result x.x (decide (w = 64)) x.nwb act v) (maskOf lanes) (target h.split.pc x.disp) (h.split.pc + 8)

/-- SETW (R163, R165): the split parks at the collective. -/
def execSetw (x : SetwArgs) (s : State) : Host.Outcome State Fault Refusal :=
  runOn s fun h => do
    h.pending [(x.d, false)]
    pause (.collective (.setw x))

/-- PYLD (R163, R166). -/
def execPyld (x : DestArgs) (s : State) : Host.Outcome State Fault Refusal :=
  runOn s fun h => do
    h.pending [(x.d, false)]
    pause (.collective (.pyld x))

end Sys2Proof.Machine
end

