-- ==== Sys2Proof/Machine/Settle.lean ====
section
/-! DEFINITION. What follows at once from a step: waits that are over, reconvergence and merging (R26), crew-collectives (R163 to R166, R212, R213, R300), deadlocks (R164, R236), ended warp pairs and crews (R160). -/
namespace Sys2Proof.Machine

/-! ### Waits (Table 8.6, R221 to R223, R229, R286, R292, R293) -/

/-- A split is ready (R382): not parked, stalled, halted or held, in a crew that runs. -/
def Here.isReady (h : Here) : Bool := h.split.wait == .ready && !h.split.halted && !heldBy h.pair h.u && !h.crew.saving
/-- A unit named by a reference is ready. -/
def unitReady (s : State) (u : UnitRef) : Bool :=
  match s.here? u with
  | none => false
  | some h => h.isReady

/-- A wait is over: the instruction can issue again, or, for `xpost`, has completed. Waits at barriers, collectives and reconvergence points, on orderings, and those that `completeWait` ends, are tested elsewhere. -/
def waitOver (s : State) (u : UnitRef) (c : Crew) (p : Pair) (w : Wait) : Bool :=
  match w with
  | .qEmpty q n => p.queueHas q fun x => decide (n ≤ x.entries.length) || (p.warp (producer x.dir)).ended
  | .qFull q n => p.queueHas q fun x => decide (x.entries.length + n ≤ x.depth) || (match consumer x.dir with
      | some sl => (p.warp sl).ended
      | none => false)
  | .addrFull q => p.queueHas q fun x => decide (x.addrs.length < x.depth) || p.exe.ended
  | .tags n m => decide (tagCount p n ≤ m)
  | .incomplete q n => p.queueHas q fun x => (x.entries.take n).all (·.complete)
  | .register rs => !(p.acc.awaits rs)
  | .storeRoom => decide ((p.acc.stores.filter (·.kind != .fence)).length < 64)
  | .tagFull n => decide (tagCount p n < 255)
  | .posting => (s.core c.core).posts.all fun x => !(x.crew == u.crew && x.pair == u.pair && x.split == u.split)
  | _ => false

/-- What is left to do of an instruction whose wait is over, and the instruction is then complete: `qdrop.all` removes what was present when it issued (R232), each entry read as it leaves (R342), `uunbind` frees its slot (R248). -/
def completeWait (s : State) (h : Here) : Option State :=
  let finish := fun (s : State) => afterIssue s h.u h.split none
  let done := fun (s : State) (h : Here) => s.put { h with split := { h.split with wait := .ready } }
  match h.split.wait with
  | .dropping q n =>
    let es := (((h.queue? q).map (·.entries)).getD []).take n
    if !h.split.halted && es.all (·.complete) then
      let s := es.foldl (fun (s : State) e =>
        let r := entryRead s h.crew.core h.crew.ctx h.u q e
        if r.2.2 then splitCheck r.1 h.crew.ctx h.u 0x122 (BitVec.ofNat 64 (cellPair h.u q e.id 0)) else r.1) s
      (s.here? h.u).map fun h => finish (learnStores (done s ((h.drop q n).advance 8)) h.agent (es.flatMap (·.past)))
    else none
  | .unbinding slot =>
    if !h.split.halted && slotFree s h.crew.ctx slot then some (finish (done (freeSlot s h.crew.ctx slot) (h.bump.advance 8))) else none
  | _ => none

/-- A split that is left without lanes takes the next entries off its stack as soon as it can. -/
def retryUnwind (s : State) (u : UnitRef) : State :=
  let t := unwindEmpty s u
  if (t.here? u).map (·.split.wait) = some .unwinding then s else t

/-- The wake reason of a wait that is over (Table 1.7). -/
def wakeReason : Wait → Option Nat
  | .qEmpty _ _ | .incomplete _ _ | .dropping _ _ => some 1
  | .qFull _ _ | .addrFull _ => some 2
  | .barrier _ _ _ => some 3
  | .tags _ _ => some 4
  | _ => none

/-- A split whose wait is over becomes ready, and its core wakes if the split is neither held nor halted (R387). -/
def wakeFor (s : State) (u : UnitRef) (c : Crew) (w : Wait) : State :=
  let s := wakeUnit s u
  match wakeReason w with
  | none => s
  | some r => if unitReady s u then wakeCore s c.core r else s

/-- Wakes the splits of a crew whose waits are over. -/
def wakeCrew (s : State) (uid : Nat) : State :=
  match s.crew? uid with
  | none => s
  | some c =>
    if c.saving || c.saved.isSome then s
    else (crewUnits uid c).foldl (fun (s : State) (x : UnitRef × Split) =>
      match s.crew? uid, s.pair? uid x.1.pair with
      | some c, some p =>
        if x.2.wait = .unwinding then retryUnwind s x.1
        else
        match (s.here? x.1).bind (completeWait s) with
        | some s => wakeFor s x.1 c x.2.wait
        | none => if waitOver s x.1 c p x.2.wait then wakeFor s x.1 c x.2.wait else s
      | _, _ => s) s

/-- Releases the barrier waiters of a crew (R130, R297); one that becomes ready wakes a gated core (R387). -/
def releaseCrew (s : State) (uid : Nat) : State :=
  let s' := releaseWaiters s uid
  match s.crew? uid with
  | none => s'
  | some c =>
    if (crewUnits uid c).any fun (x : UnitRef × Split) => x.2.wait.atBarrier && unitReady s' x.1 then wakeCore s' c.core 3 else s'

/-! ### Reconvergence (R26 rules 2 and 3) -/

/-- A split at a reconvergence point: the entry, with the number of deferred entries above it. One whose step is to end arrives after that (R403, R423). -/
def arrivesAt (x : Split) : Option (Nat × StackEntry) :=
  if x.wait != .ready || x.halted || x.stepDue then none
  else
    let n := (x.stack.takeWhile fun e => decide (e.tag = 1)).length
    match x.stack[n]? with
    | none => none
    | some e => if e.tag = 0 ∧ e.addr = x.pc then some (n, e) else none

/-- A lane that runs in some split is deferred nowhere: copies of a deferred path are taken once (log 26). -/
def Warp.claims (w : Warp) : Warp :=
  let held := w.splits.foldl (fun m x => m ||| x.2.mask) 0
  { w with splits := w.splits.map fun x =>
      (x.1, { x.2 with stack := x.2.stack.map fun e => if e.tag = 1 then { e with mask := e.mask &&& ~~~held } else e }) }

/-- The parked splits of a warp that have arrived at an address above a stack: their numbers and the lanes they bring. -/
def arrivedGroup (w : Warp) (pc : BitVec 54) (stack : List StackEntry) : List (Nat × W64) :=
  w.splits.filterMap fun (x : Nat × Split) => match x.2.wait with
    | .arrived a _ arr => if a = pc ∧ sameStack x.2.stack stack ∧ x.2.halted = false then some (x.1, arr) else none
    | _ => none

/-- Holders of the bits of $tctl that have merged into another split (R403). -/
def Warp.mergeHolders (w : Warp) (gone : List Nat) (into : Nat) : Warp :=
  let f := fun (o : Option Nat) => match o with
    | some n => if gone.contains n then some into else some n
    | none => none
  { w with holdSplits := f w.holdSplits, holdPair := f w.holdPair }

/-- What a split has still to take at its next boundary goes with its lanes when another split absorbs it: machine checks (R408), a pre-emption trap (R409), a step (R403). -/
def Split.takesOver (x y : Split) : Split :=
  { x with mc := x.mc ++ y.mc, preqTrap := x.preqTrap || y.preqTrap, step := x.step || y.step, stepDue := x.stepDue || y.stepDue }

/-- Splits that have merged into another are gone; what they have still to take goes with their lanes. DESIGN CHOICE (log 90): the trap record that survives is that of the split whose number survives. -/
def Warp.absorb (w : Warp) (gone : List Nat) (into : Nat) (x : Split) : Warp :=
  let x := (w.splits.filter fun e => gone.contains e.1 && e.1 != into).foldl (fun (x : Split) e => x.takesOver e.2) x
  { w.mergeHolders gone into with splits := Tbl.set (w.splits.filter fun e => !gone.contains e.1) into x }

/-- One arrival of a warp's split (R26 rule 3): with deferred paths above the point it goes on at the topmost one; else it continues with all arrived lanes, or parks. DESIGN CHOICE (log 93): a debug step that begins at the point and parks there ends, and the split is halted. -/
def arriveAt (s : State) (h : Here) (n : Nat) (e : StackEntry) : State :=
  match popEntry s (if n = 0 then h else { h with split := { h.split with
      stack := h.split.stack.set n { e with arr := e.arr ||| h.split.mask } } }) with
  | .error st => stopWith s h.u st
  | .ok (s, h', none) => s.put h'
  | .ok (s, h', some d) =>
    if n ≠ 0 then
      if d.mask = 0 then s.put { h' with split := { h'.split with stack := h'.split.stack.set (n - 1) e } }
      else blockUnit (s.put { h' with split := { h'.split with pc := d.addr, mask := d.mask } }) h.u
    else
      let arr := e.arr ||| h.split.mask
      let group := arrivedGroup h.warp e.pc h'.split.stack
      let all := group.foldl (fun m g => m ||| g.2) arr
      if e.mask &&& ~~~h.warp.dead &&& ~~~all = 0 then
        s.onWarp h.u.crew h.u.pair h.u.slice fun _ => h'.warp.absorb (group.map (·.1)) h.u.split { h'.split with mask := all }
      else
        let x := h'.split
        parkUnit (s.put { h' with split := { x with halted := x.halted || x.dstep.isSome, dstep := none } }) h.u (.arrived e.pc e.mask arr)

/-- Splits parked at a reconvergence point whose last missing lanes have exited go on (R160). -/
def joinArrived (s : State) (h : Here) (pc : BitVec 54) (mask : W64) : Option State :=
  let group := arrivedGroup h.warp pc h.split.stack
  let all := group.foldl (fun m g => m ||| g.2) 0
  if mask &&& ~~~h.warp.dead &&& ~~~all = 0 then
    let gone := (group.map (·.1)).filter fun n => n != h.u.split
    some (wakeUnit (s.onWarp h.u.crew h.u.pair h.u.slice fun _ => h.warp.absorb gone h.u.split { h.split with mask := all }) h.u)
  else none

/-! ### Merging (R26 rule 4) -/

/-- The states of two splits agree for a merge. -/
def agree (x y : Split) : Bool :=
  x.pc == y.pc && sameStack x.stack y.stack && x.dstep.isNone && y.dstep.isNone &&
  (x.halted == y.halted && !x.halted || (x.halted && y.halted && (x.debug || y.debug))) &&
  (match x.wait, y.wait with
    | .ready, .ready => !x.stepDue && !y.stepDue && !x.preqTrap && !y.preqTrap && x.mc.isEmpty && y.mc.isEmpty
    | .qEmpty a n, .qEmpty b m => a == b && n == m
    | .qFull a n, .qFull b m => a == b && n == m
    | .addrFull a, .addrFull b => a == b
    | .collective i, .collective j => decide (i = j)
    | .barrier a p c, .barrier b q d => a == b && p == q && c == d
    | _, _ => false)

/-- The first pair of splits of a warp that can merge; waiters at a barrier object in an owned line do not (R329). -/
def mergePair (w : Warp) (held : Wait → Bool) : Option ((Nat × Split) × (Nat × Split)) :=
  w.splits.findSome? fun x => (w.splits.find? fun y => decide (x.1 < y.1) && agree x.2 y.2 && !held x.2.wait).map fun y => (x, y)

/-- Which of two merging splits keeps its number: the one its pipe runs, else one that is no debug split, else the lower (log 23). -/
def keepsFirst (s : State) (c : Crew) (u : UnitRef) (x y : Nat × Split) : Bool :=
  let runs := fun (n : Nat) => (s.core c.core).pipes.any fun p => p.running.contains { u with split := n }
  if runs x.1 != runs y.1 then runs x.1 else if x.2.debug != y.2.debug then !x.2.debug else true

/-- Two splits become one with the union of their lanes. -/
def mergeSplits (x y : Split) : Split :=
  let st := (x.stack.zip y.stack).map fun e => { e.1 with arr := e.1.arr ||| e.2.arr }
  { x with mask := x.mask ||| y.mask, stack := st, readyAt := min x.readyAt y.readyAt, skip := x.skip && y.skip }

/-! ### Settling a warp -/

/-- One change that reconvergence or merging makes in a warp, if any. -/
def warpChange (s : State) (uid pn : Nat) (sl : Slice) : Option State :=
  match s.crew? uid, s.pair? uid pn with
  | some c, some p =>
    let w := p.warp sl
    let u : UnitRef := { crew := uid, pair := pn, slice := sl, split := 0 }
    let w' := w.claims
    if w' ≠ w then some (s.onWarp uid pn sl fun _ => w')
    else
      match w.splits.findSome? fun x => (arrivesAt x.2).map fun a => (x.1, a) with
      | some (i, n, e) => (s.here? { u with split := i }).map fun h => arriveAt s h n e
      | none =>
        match w.splits.findSome? (fun x => match x.2.wait with
          | .arrived pc mask _ => if x.2.halted then none else (s.here? { u with split := x.1 }).bind fun h => joinArrived s h pc mask
          | _ => none) with
        | some s => some s
        | none =>
          match if c.kern.prog.isSome then none else mergePair w (barrierHeld s c) with
          | none => none
          | some (x, y) =>
            let (a, b) := if keepsFirst s c u x y then (x, y) else (y, x)
            -- of two waiters at one barrier one is left, whose release will subtract 1 (R26 rule 4, R297; log 45)
            let s := match b.2.wait with
              | .barrier off _ _ => leaveObj (blockUnit s { u with split := b.1 }) uid c off
              | _ => blockUnit s { u with split := b.1 }
            some (s.onWarp uid pn sl fun w => w.absorb [b.1] a.1 { mergeSplits a.2 b.2 with lat := if b.2.lat.isEmpty then a.2.lat else [] })
  | _, _ => none

/-- All changes that reconvergence and merging make in a warp. -/
def settleWarp (uid pn : Nat) (sl : Slice) : (fuel : Nat) → State → State
  | 0, s => s
  | n + 1, s =>
    match warpChange s uid pn sl with
    | none => s
    | some s => settleWarp uid pn sl n s

/-- Enough rounds for a warp: every change takes an entry, a split or a copied path away. -/
def Warp.rounds (w : Warp) : Nat := 2 * w.splits.foldl (fun n x => n + x.2.stack.length + 2) 2

/-- Reconvergence and merging in every warp of a crew. -/
def settleCrew (s : State) (uid : Nat) : State :=
  match s.crew? uid with
  | none => s
  | some c =>
    if c.saving || c.saved.isSome then s
    else c.pairs.foldl (fun s p =>
      settleWarp uid p.1 .execute p.2.exe.rounds (settleWarp uid p.1 .access p.2.acc.rounds s)) s

/-! ### Crew-collectives -/

/-- The opcode of a crew-collective (R72). -/
def collectiveOp : Instr → Nat
  | .setw _ => 1
  | .pyld _ => 2
  | .cbar _ => 3
  | .regroup _ => 4
  | _ => 0

/-- The collective a split is parked at. -/
def Wait.collectiveOf : Wait → Option Instr
  | .collective i => some i
  | _ => none

/-- The warps of a crew that have not ended, with their references. -/
def liveWarps (c : Crew) : List (Nat × Slice × Warp) :=
  (c.pairs.flatMap fun p => [(p.1, Slice.access, p.2.acc), (p.1, Slice.execute, p.2.exe)]).filter fun w => !w.2.2.ended

/-- The opcode at which a warp has reached a collective (R163). -/
def Warp.reached (w : Warp) : Option Nat :=
  match w.splits.map fun x => (x.2.wait.collectiveOf).map collectiveOp with
  | some n :: rest => if rest.all (· == some n) then some n else none
  | _ => none

/-- The opcode that every warp of the crew has reached. -/
def crewReached (c : Crew) : Option Nat :=
  match (liveWarps c).map fun w => w.2.2.reached with
  | some n :: rest => if rest.all (· == some n) then some n else none
  | _ => none

/-- A split parked at a collective goes on behind it, its latches empty (R38). -/
def Split.pass (now : Nat) (x : Split) : Split :=
  match x.wait with
  | .collective i => { x with pc := x.pc + BitVec.ofNat 64 i.length, lat := [], wait := .ready, readyAt := now }
  | _ => x
/-- Every split of a warp parked at a collective goes on. -/
def Warp.pass (now : Nat) (w : Warp) : Warp := { w with splits := w.splits.map fun x => (x.1, x.2.pass now) }

/-- Every split of a crew parked at a collective goes on. -/
def passCollective (s : State) (uid : Nat) : State :=
  s.onCrew uid fun c =>
    let now := (s.core c.core).cyc.toNat
    { c with pairs := c.pairs.map fun p => (p.1, { p.2 with acc := p.2.acc.pass now, exe := p.2.exe.pass now }) }

/-- What the end of a collective gives: a new state, or a stop of one unit at its instruction, of which nothing has then happened in any warp (R33). -/
abbrev Joint := Except (UnitRef × Stop) State

/-- A collective that stops at one unit: the unit takes the trap, or the whole waits and is tried again. -/
def stopped (s : State) : UnitRef × Stop → Option State
  | (u, .trap t) => some (takeTrap s u t)
  | (_, .wait _) => none

/-- Writes a collective's destination register in a split's lanes, in the backing store where it is spilled (R32, R33). -/
def writeDest (s : State) (u : UnitRef) (d : Opnd) (nwb : Bool) (v : W64) : Joint :=
  match s.here? u with
  | none => .ok s
  | some h =>
    let us := spilledRegs [(d, false)]
    let r : Part State := do
      let x ← fillRegs s h us
      let h := x.2.write d false nwb h.mask fun _ => v
      let s ← spillRegs x.1 h us
      .ok (s.put h)
    match r with
    | .ok s => .ok s
    | .error e => .error (u, e)

/-- Writes d of `setw` or `pyld` in every split, and the collective is complete (R165, R166). -/
def writeGrant (s : State) (uid : Nat) (v : W64) : Joint :=
  match s.crew? uid with
  | none => .ok s
  | some c =>
    let r : Joint := (crewUnits uid c).foldlM (fun (s : State) (x : UnitRef × Split) => match x.2.wait with
      | .collective (.setw a) => writeDest s x.1 a.d a.nwb v
      | .collective (.pyld a) => writeDest s x.1 a.d a.nwb v
      | _ => .ok s) s
    match r with
    | .ok s => .ok (passCollective s uid)
    | .error e => .error e

/-- The request of a completed `setw`: that of the lowest warp pair, its execute warp first (R165). DESIGN CHOICE (log 82): of splits of that warp which are parked at `setw`s with different codes, the lowest-numbered one's counts. -/
def setwRequest (c : Crew) : Option Nat :=
  (c.pairs.findSome? fun p => [p.2.exe, p.2.acc].findSome? fun w => w.splits.findSome? fun x => match x.2.wait with
    | .collective (.setw a) => some (2 ^ (a.req.toNat + 3))
    | _ => none)

/-- Every memory operation of an access warp has left its unit. -/
def Warp.emptied (w : Warp) : Bool := w.stores.isEmpty && w.loads.isEmpty && decide (w.maint = 0)
/-- Everything that a re-slice waits for has left the access warps (R21). -/
def Crew.emptied (c : Crew) : Bool := c.pairs.all fun p => p.2.acc.emptied
/-- Everything that a collective release waits for has left the access warps that take part in it, those that have not ended (R300). -/
def Crew.drained (c : Crew) : Bool := c.pairs.all fun p => p.2.acc.ended || p.2.acc.emptied

/-- What a re-slice point does with a request (R165): none while entries have still to leave. -/
def slicePoint (s : State) (uid : Nat) (c : Crew) (req : Option Nat) : Option Joint :=
  match req with
  | none => some (.ok s)
  | some g =>
    let pend := fun (s : State) (r : Option Nat) => s.onCrew uid fun c => { c with widthReq := r }
    if !quiescent c then some (.ok (pend s (some g)))
    else
      match chooseGrant s c.core (some uid) (c.wanted 0) (fun _ => true) g with
      | none => some (.ok (pend s (some g)))
      | some (g', p) =>
        if g' = c.grant then some (.ok (pend s none))
        else if !joinable c g' then some (.ok (pend s (some g)))
        else if !c.emptied || c.pairs.any (fun p => !p.2.xcps.isEmpty) then none
        else some ((reslice s uid c c.core g' p.run p.runLen).map fun s => pend s none)

/-- The grant of a crew. -/
def grantOf (s : State) (uid : Nat) : Nat := ((s.crew? uid).map (·.grant)).getD 0

/-- Completes a `setw` or a `pyld` without a save at its re-slice point: d gets `v` of the grant now in effect. A backing store that fails stops the unit whose threads are concerned, with the grant and every register as they were (R33). -/
def completeSlice (s : State) (uid : Nat) (c : Crew) (req : Option Nat) (v : Nat → Nat) : Option State :=
  (slicePoint s uid c req).bind fun r => match r with
    | .error e => stopped s e
    | .ok t =>
      match writeGrant t uid (BitVec.ofNat 64 (v (grantOf t uid))) with
      | .error e => stopped s (unitBefore c (grantOf t uid) e.1, e.2)
      | .ok s => some s

/-- Completes `setw` (R165). -/
def completeSetw (s : State) (uid : Nat) (c : Crew) : Option State := completeSlice s uid c (setwRequest c) fun g => g

/-- Completes `pyld` (R166): with a request the crew is saved, once the save pool has room (R416), and d is 1. -/
def completePyld (s : State) (uid : Nat) (c : Crew) : Option State :=
  if c.preq then
    if (saveRoom s uid c).isNone then none
    else
      match writeGrant s uid 1 with
      | .error e => stopped s e
      | .ok s => some (beginSave (s.onCrew uid fun x => { x with yielded := quiescent c }) uid)
  else completeSlice s uid c c.widthReq fun _ => 0

/-- A release and an acquire at crew scope by every agent of a crew: what happens before any of them happens before all of them. -/
def joinCrew (s : State) (uid : Nat) : State :=
  let s := performWhere s (·.pastCrew uid) .crew
  learnStores s (.members uid) ((s.wide.filter fun w => w.pastCrew uid && decide (w.scope.code < 4)).map (·.id))

/-- The threads of a crew that runs a Portable Form program. -/
def threadUnits (uid : Nat) (c : Crew) : List (UnitRef × Split) :=
  (crewUnits uid c).filter fun x => x.1.slice == .execute && (Tbl.get? c.pairs x.1.pair).any (!·.packed)

/-- A crew enters a region: the s registers are the crew's, as thread 0 has left them (R431). -/
def Crew.enter (c : Crew) (n : Nat) (r : Region) (now : Nat) : Crew :=
  let regs := ((Tbl.get? c.pairs 0).map (·.exe.s)).getD []
  { c with region := n, pairs := c.pairs.map fun p =>
      if p.2.packed then p
      else (p.1, { p.2 with exe := { p.2.exe with s := regs, splits := p.2.exe.splits.map fun x => (x.1, x.2.enter c.xbase r (p.1 * c.grant + x.1) now) } }) }

/-- The end of a region of a Portable Form program (R431), a crew barrier: every thread has completed it and each of its memory operations is performed at crew scope before any thread begins the next; the program ends with its last region. -/
def completeRegion (s : State) (uid : Nat) : State :=
  match s.crew? uid with
  | none => s
  | some c =>
    match c.kern.prog with
    | none => s
    | some p =>
      let us := threadUnits uid c
      if c.saving || c.saved.isSome || us.isEmpty || us.any (fun x => x.2.wait != .region) then s
      else
        let s := joinCrew s uid
        match p.regions[c.region + 1]? with
        | none => us.foldl (fun s x => endLanes s x.1 x.2.mask) s
        | some r => s.onCrew uid fun c => c.enter (c.region + 1) r (s.core c.core).cyc.toNat

/-- Completes `cbar` (R300): a release and an acquire at crew scope by every warp: what happens before any of them happens before all of them; a store whose data can never come traps (R225). -/
def completeCbar (s : State) (uid : Nat) (c : Crew) : Option State :=
  let orphan := (crewUnits uid c).findSome? fun x =>
    if x.1.slice = .execute then none
    else (s.here? x.1).bind fun h => (h.warp.stores.find? fun e => !e.paired && h.orphanOf e).map fun e => (x.1, e.q)
  match orphan with
  | some (u, q) => some (takeTrap s u (orphanTrap q))
  | none =>
    if !c.drained then none
    else some (passCollective (joinCrew s uid) uid)

/-! ### Regroup (R212, R213) -/

/-- The `regroup` a warp is parked at. -/
def regroupOf (w : Warp) : Option RegroupArgs :=
  w.splits.findSome? fun x => match x.2.wait with
    | .collective (.regroup a) => some a
    | _ => none

/-- The conditions of R213. -/
def regroupOk (c : Crew) : Bool :=
  quiescent c && c.pairs.all fun p => p.2.packed || (decide (p.2.acc.dead &&& p.2.live = 0) && decide (p.2.exe.dead &&& p.2.live = 0))

/-- The registers a warp's `regroup` moves (R212). -/
def regroupNames (h : Here) (a : RegroupArgs) : List Nat :=
  match h.u.slice with
  | .access =>
    let m := h.read a.live true 0 false 0
    (List.range 16).filter fun n => bitAt m n
  | .execute =>
    let m := h.read a.live true 0 false 0
    (List.range h.crew.kern.nv).filter fun n => bitAt m (n / 4)

/-- The keys of a crew's threads by old $tid (R212). -/
def regroupKeys (s : State) (uid : Nat) (c : Crew) : List (Nat × Nat) :=
  c.pairs.flatMap fun p => match p.2.exe.splits with
    | [] => []
    | x :: _ =>
      match s.here? { crew := uid, pair := p.1, slice := .execute, split := x.1 }, regroupOf p.2.exe with
      | some h, some a => (lanesOf p.2.live).map fun l => (p.1 * c.grant + l, fld (h.read a.key false 0 false l) 0 32)
      | _, _ => []

/-- Fills registers above the bound in every execute warp of the crew. -/
def regroupFill (s : State) (uid : Nat) (names : Here → List Nat) : List (Nat × Pair) → Joint
  | [] => .ok s
  | p :: ps =>
    match p.2.exe.splits with
    | [] => regroupFill s uid names ps
    | x :: _ =>
      let u : UnitRef := { crew := uid, pair := p.1, slice := .execute, split := x.1 }
      match s.here? u with
      | none => regroupFill s uid names ps
      | some h =>
        match fillRegs s h ((names h).filter fun n => decide (80 ≤ n)) with
        | .error e => .error (u, e)
        | .ok (s, h) => regroupFill (s.put h) uid names ps

/-- Spills them again; a backing store that fails traps at the `regroup` of its warp (R33). -/
def regroupSpill (s : State) (uid : Nat) (names : Here → List Nat) : List (Nat × Pair) → Joint
  | [] => .ok s
  | p :: ps =>
    match p.2.exe.splits with
    | [] => regroupSpill s uid names ps
    | x :: _ =>
      let u : UnitRef := { crew := uid, pair := p.1, slice := .execute, split := x.1 }
      match s.here? u with
      | none => regroupSpill s uid names ps
      | some h =>
        match spillRegs s h ((names h).filter fun n => decide (80 ≤ n)) with
        | .error e => .error (u, e)
        | .ok s => regroupSpill s uid names ps

/-- The registers of the execute slice that a warp's `regroup` touches. -/
def regroupTouched (h : Here) : List Nat :=
  match regroupOf h.warp with
  | none => []
  | some a => dedup (regroupNames h a ++ spilledRegs [(a.key, false), (a.d, false)])

/-- The execute registers that threads bring into warp pair `w`: those that the `regroup`s of the warps they come from name, as live or as d. `order` has the threads by new number. -/
def regroupBrought (s : State) (uid g : Nat) (order : List (Nat × Nat)) (w : Nat) : List Nat :=
  dedup (((order.drop (w * g)).take g).flatMap fun t => match s.pair? uid (t.1 / g) with
    | none => []
    | some p => match p.exe.splits with
      | [] => []
      | x :: _ => match s.here? { crew := uid, pair := t.1 / g, slice := .execute, split := x.1 } with
        | none => []
        | some h => match regroupOf h.warp with
          | none => []
          | some a => regroupNames h a ++ spilledRegs [(a.d, false)])

/-- Moves one thread's registers, predicates, flags and old number of a slice from `old` to its new place (R213). DESIGN CHOICE (log 94): the d that receives the old number, and whether it is written, is what the warp that the thread comes from names. -/
def moveThread (s : State) (uid g : Nat) (old : Crew) (sl : Slice) (tid r : Nat) : State :=
  match Tbl.get? old.pairs (tid / g), s.pair? uid (tid / g) with
  | some po, some _ =>
    match (po.warp sl).splits with
    | [] => s
    | x :: _ =>
      let u : UnitRef := { crew := uid, pair := tid / g, slice := sl, split := x.1 }
      let h : Here := { u := u, crew := old, pair := po, warp := po.warp sl, split := x.2 }
      match regroupOf h.warp with
      | none => s
      | some a =>
        let lo := tid % g
        let ln := r % g
        s.onWarp uid (r / g) sl fun w =>
          let w := (regroupNames h a).foldl (fun w n => match sl with
            | .access => w.setA n ln (h.warp.getA n lo)
            | .execute => w.setV n ln (h.warp.getV n lo)) w
          let w := (List.range 15).foldl (fun w i =>
            w.setPred (i + 1) (laneBit ln) (if bitAt (h.warp.pred (i + 1)) lo then laneBit ln else 0)) w
          let w := if sl = .execute then { w with fflags := Cells.set w.fflags ln (h.warp.getF lo) } else w
          match a.d with
          | .a n => if a.nwb then w else w.setA n.toNat ln (BitVec.ofNat 64 tid)
          | .v n => if a.nwb then w else w.setV n.toNat ln (BitVec.ofNat 32 tid)
          | _ => w
  | _, _ => s

/-- Completes `regroup` (R213). What a warp's own `regroup` names, and what the threads that come to it bring, is filled before the move and spilled after it; a backing-store fault traps at the warp's `regroup`, of which nothing has then happened (R33). -/
def completeRegroup (s : State) (uid : Nat) (c : Crew) : Option State :=
  if !regroupOk c then
    some ((crewUnits uid c).foldl (fun (s : State) (x : UnitRef × Split) => takeTrap s x.1 { cause := 0x0F1 }) s)
  else if c.pairs.any fun p => !p.2.acc.loads.isEmpty then none
  else
    let s₀ := s
    match regroupFill s uid regroupTouched c.pairs with
    | .error e => stopped s₀ e
    | .ok s =>
      match s.crew? uid with
      | none => none
      | some c =>
        let order := sortBy (fun (a b : Nat × Nat) => decide (a.2 < b.2) || (decide (a.2 = b.2) && decide (a.1 < b.1))) (regroupKeys s uid c)
        let brought := regroupBrought s uid c.grant order
        match regroupFill s uid (fun h => (brought h.u.pair).filter fun n => !(regroupTouched h).contains n) c.pairs with
        | .error e => stopped s₀ e
        | .ok s =>
          match s.crew? uid with
          | none => none
          | some c =>
            let s' := (List.range order.length).foldl (fun s' r => match order[r]? with
              | none => s'
              | some t => moveThread (moveThread s' uid c.grant c .access t.1 r) uid c.grant c .execute t.1 r) s
            match regroupSpill s' uid (fun h => dedup (regroupTouched h ++ brought h.u.pair)) c.pairs with
            | .error e => stopped s₀ e
            | .ok s => some (passCollective s uid)

/-- Completes the collective that every warp of a crew has reached, when nothing has still to leave (R163). -/
def completeCollective (s : State) (uid : Nat) : State :=
  match s.crew? uid with
  | none => s
  | some c =>
    if c.saving || c.saved.isSome then s
    else
      match crewReached c with
      | none => s
      | some op =>
        let r := if op = 1 then completeSetw s uid c else if op = 2 then completePyld s uid c
          else if op = 3 then completeCbar s uid c else completeRegroup s uid c
        r.getD s

/-! ### Deadlocks (R164, R236) -/

/-- The acceptance of a split's posts waits for the data of a store (R236, R287). -/
def postWaits (s : State) (u : UnitRef) (core : Nat) (p : Pair) : Bool :=
  ((s.core core).posts.any fun x => x.crew == u.crew && x.pair == u.pair && x.split == u.split) && p.acc.stores.any p.dataless

/-- A split is pair-blocked (R236); a halted one is not (R421). What the access warp alone can stall on is no such state of an execute split. -/
def pairBlocked (s : State) (core : Nat) (p : Pair) (u : UnitRef) (x : Split) : Bool :=
  let acc := u.slice == .access
  !x.halted && (match x.wait with
    | .qEmpty q _ => p.queueHas q fun y => y.entries.isEmpty
    | .qFull q _ => p.queueHas q fun y => match consumer y.dir with
      | some other => decide (other ≠ u.slice)
      | none => y.addrs.isEmpty
    | .addrFull _ => true
    | .storeDrain seqs => acc && p.acc.stores.any fun e => seqs.contains e.seq && p.dataless e
    | .storeRoom => acc && (match p.acc.stores with
      | e :: _ => p.dataless e
      | [] => false)
    | .posting => acc && postWaits s u core p
    | _ => false)

/-- The queue a split is parked on. -/
def Wait.queueOf : Wait → Option Nat
  | .qEmpty q _ | .qFull q _ | .addrFull q => some q
  | _ => none

/-- *queue deadlock* on the parked splits of the execute warp when both warps of a pair are pair-blocked, a warp without live splits too (R236; log 48). -/
def queueDeadlock (s : State) (uid pn : Nat) : State :=
  match s.pair? uid pn with
  | none => s
  | some p =>
    let core := ((s.crew? uid).map (·.core)).getD 0
    let blocked := fun (sl : Slice) (x : Nat × Split) => pairBlocked s core p { crew := uid, pair := pn, slice := sl, split := x.1 } x.2
    if !p.exe.splits.all (blocked .execute) || !p.acc.splits.all (blocked .access) then s
    else p.exe.splits.foldl (fun s x => match x.2.wait.queueOf with
      | none => s
      | some q => takeTrap s { crew := uid, pair := pn, slice := .execute, split := x.1 } { cause := 0x0E0 + q }) s

/-- The crew is in collective deadlock (R164). DESIGN CHOICE (log 82): a warp of several splits counts as parked when each of them is parked on a queue or at a collective, in any mix; a split that waits at a reconvergence point is neither, and its crew is not deadlocked. -/
def collectiveDeadlocked (c : Crew) : Bool :=
  let ws := (liveWarps c).map fun w => w.2.2
  let splits := ws.flatMap fun w => w.splits.map (·.2)
  let parked := fun (x : Split) => !x.halted && !x.inHandler && (x.wait.queueOf.isSome || x.wait.collectiveOf.isSome)
  splits.all parked && (splits.any fun x => x.wait.collectiveOf.isSome) &&
  ((splits.any fun x => x.wait.queueOf.isSome) || (match splits.filterMap (fun x => x.wait.collectiveOf.map collectiveOp) with
    | [] => false
    | n :: rest => rest.any (· != n)))

/-- Raises the deadlocks of a crew: both kinds in one step (R164). -/
def deadlocks (s : State) (uid : Nat) : State :=
  match s.crew? uid with
  | none => s
  | some c =>
    if c.saving || c.saved.isSome then s
    else
      let us := if collectiveDeadlocked c then (crewUnits uid c).filter fun x => x.2.wait.collectiveOf.isSome else []
      let s := c.pairs.foldl (fun s p => queueDeadlock s uid p.1) s
      us.foldl (fun s x => takeTrap s x.1 { cause := 0x0F0 }) s

/-! ### Boundaries: pre-emption traps, single steps (R403, R409, R423) -/

/-- A stepped split at its next boundary: single step for `rte`, a halt for the debug unit. -/
def endStep (s : State) (u : UnitRef) (x : Split) : State :=
  if x.dstep.isSome then s.onSplit u fun y => { y with stepDue := false, dstep := none, halted := true }
  else
    let s := s.onWarp u.crew u.pair u.slice fun w => { w with tctl := w.tctl &&& ~~~0x10 }
    takeTrap (s.onSplit u fun y => { y with stepDue := false }) u { cause := 0x142 }

/-- What a split takes at its boundary: the end of a step when it is ready, a machine check (R408) or a pre-emption trap (R409) also where it is parked or stalled. -/
def boundary (s : State) (u : UnitRef) : State :=
  match s.here? u with
  | none => s
  | some h =>
    let x := h.split
    if x.halted then s
    else if x.stepDue && x.wait == .ready then endStep s u x
    else if !x.mc.isEmpty && x.wait != .ready then (checkTaken s h).getD s
    else if x.preqTrap && x.wait.restarts && !barrierHeld s h.crew x.wait then takeTrap ((leaveBarrier s h).onSplit u fun y => { y with preqTrap := false }) u { cause := 0x160 }
    else s

/-- The boundaries of every split of a crew. -/
def boundaries (s : State) (uid : Nat) : State :=
  match s.crew? uid with
  | none => s
  | some c => if c.saving || c.saved.isSome then s else (crewUnits uid c).foldl (fun (s : State) (x : UnitRef × Split) => boundary s x.1) s

/-! ### The end of warp pairs and crews (R160, R139) -/

/-- A warp pair has ended and nothing of it is under way. -/
def pairOver (s : State) (uid : Nat) (c : Crew) (p : Nat × Pair) : Bool :=
  let k := s.core c.core
  p.2.acc.ended && p.2.exe.ended && p.2.acc.stores.isEmpty && p.2.acc.loads.isEmpty && p.2.xcps.isEmpty && decide (p.2.acc.acks = 0) &&
  (k.posts.all fun x => !(x.crew == uid && x.pair == p.1)) && k.cmds.all fun x => !(x.crew == uid && x.pair == p.1)

/-- Removes what has ended: packed warp pairs, and a crew when all its pairs have (log 27); a deque without a crew of its launch is freed. -/
def retire (s : State) (uid : Nat) : State :=
  match s.crew? uid with
  | none => s
  | some c =>
    if c.saved.isSome then s
    else
      let finished := c.pairs.filter (pairOver s uid c)
      if finished.isEmpty then s
      else if finished.length = c.pairs.length then
        let s := { s with crews := Tbl.erase s.crews uid }
        let k := s.core c.core
        freeDeque (s.setCore c.core { k with banks := k.banks.map fun b => b.filter (·.crew != uid) }) c.core c.launch
      else
        let gone := (finished.filter fun p => p.2.packed).map (·.1)
        if gone.isEmpty then s else s.setCrew uid { c with pairs := c.pairs.filter fun p => !gone.contains p.1 }

/-! ### After a step -/

/-- What follows at once for one crew. -/
def settleOneCrew (s : State) (uid : Nat) : State :=
  let s := releaseCrew (wakeCrew s uid) uid
  let s := completeRegion (completeCollective (settleCrew s uid) uid) uid
  let s := boundaries (deadlocks (settleCrew s uid) uid) uid
  retire s uid

/-- What follows at once from a step, crew by crew. -/
def settleCrews (s : State) : State := (Tbl.keys s.crews).foldl settleOneCrew s

end Sys2Proof.Machine
end

