-- ==== Sys2Proof/Machine/Power.lean ====
section
/-! DEFINITION. Which splits can issue, and what the clock does: idle cores, gating and waking, boosts, deadlines (R382, R383, R386 to R388). -/
namespace Sys2Proof.Machine

/-- A split is stalled: it waits and is not parked (R24). -/
def Split.stalled (x : Split) : Bool := x.wait != .ready && !x.wait.parks

/-- The splits of the crews placed on a core. -/
def coreUnits (s : State) (core : Nat) : List (UnitRef × Split) := (s.onCore core).flatMap fun e => crewUnits e.1 e.2

/-- The core is idle in this cycle (R386). -/
def coreIdle (s : State) (core : Nat) : Bool := (coreUnits s core).all fun x => !unitReady s x.1 && !x.2.stalled

/-- Gates a core (R386). -/
def gateCore (s : State) (core : Nat) : State := s.setCore core { s.core core with gated := true }
/-- A core is due to be gated: sixteen idle cycles have passed, and it is idle. -/
def gateDue (s : State) (core : Nat) : Bool := !(s.core core).gated && decide (16 ≤ (s.core core).idle) && coreIdle s core

/-- CLOCK_GATE (R386). -/
def execClockGate (core : Nat) (s : State) : Host.Outcome State Fault Refusal :=
  orSame s (if core < 96 ∧ gateDue s core = true then some (gateCore s core) else none)

/-- An event of Table 1.7 is there to wake a core: 1 to 4 have made a unit ready. A request, a debug command and a placement, 5 to 7, wake the core in the step that they are (R387). -/
def reasonHolds (s : State) (core reason : Nat) : Bool :=
  decide (1 ≤ reason) && decide (reason ≤ 4) && (coreUnits s core).any fun x => unitReady s x.1

/-- CORE_WAKE (R387). -/
def execCoreWake (core : Nat) (reason : BitVec 4) (s : State) : Host.Outcome State Fault Refusal :=
  orSame s (if core < 96 ∧ ((s.core core).gated && reasonHolds s core reason.toNat) = true then some (wakeCore s core reason.toNat) else none)

/-- A unit has been ready for 2048 consecutive cycles without issuing (R383). -/
def boostDue (s : State) (u : UnitRef) : Bool :=
  match s.here? u with
  | none => false
  | some h => h.isReady && h.split.boosted.isNone && decide (Nat.max h.split.readyAt h.split.issued + 2048 ≤ (s.core h.crew.core).cyc.toNat)
/-- Boosts a unit. -/
def boostUnit (s : State) (u : UnitRef) : State :=
  match s.here? u with
  | none => s
  | some h => s.onSplit u fun x => { x with boosted := some (s.core h.crew.core).cyc.toNat }

/-- UNIT_BOOST (R383). -/
def execUnitBoost (u : UnitRef) (s : State) : Host.Outcome State Fault Refusal :=
  orSame s (if boostDue s u then some (boostUnit s u) else none)

/-- One clock cycle of a core (R48, R386, R387). -/
def tickCore (s : State) (core : Nat) : Core :=
  let k := s.core core
  { k with cyc := k.cyc + 1, waking := k.waking - 1, idle := if k.gated then 0 else if coreIdle s core then k.idle + 1 else 0 }

/-- One cycle of a crew's deadline (R388): at zero the forced save begins. -/
def tickDeadline (s : State) (uid : Nat) : State :=
  match s.crew? uid with
  | none => s
  | some c =>
    if c.preq && c.saved.isNone && !c.saving then
      let s := s.setCrew uid { c with deadline := c.deadline - (if c.deadline = 0 then 0 else 1) }
      if c.deadline.toNat ≤ 1 then beginSave s uid else s
    else s

/-- A split that is not ready in this cycle becomes ready in the next one at the earliest (R382 key 4, R383). -/
def Warp.noteReady (w : Warp) (ready : Nat → Bool) (next : Nat) : Warp :=
  { w with splits := w.splits.map fun x => if ready x.1 then x else (x.1, { x.2 with readyAt := next }) }
/-- The splits of a crew on a core that are not ready. -/
def noteReady (s : State) (uid : Nat) : State :=
  s.onCrew uid fun c =>
    let next := (s.core c.core).cyc.toNat + 1
    let of_ := fun (pn : Nat) (sl : Slice) (n : Nat) => unitReady s { crew := uid, pair := pn, slice := sl, split := n }
    { c with pairs := c.pairs.map fun p =>
        (p.1, { p.2 with acc := p.2.acc.noteReady (of_ p.1 .access) next, exe := p.2.exe.noteReady (of_ p.1 .execute) next }) }

/-- The access warps of a core whose requests the L1 has not granted: aged ones first, in the order in which they became aged (R350). -/
def waitingWarps (s : State) (core : Nat) : List (Nat × Nat) :=
  let ws := (s.onCore core).flatMap fun e =>
    (e.2.pairs.filter fun p => p.2.acc.loads.any fun l => !l.todo.isEmpty).map fun p => (e.1, p.1, p.2.acc)
  (sortBy (fun (a b : Nat × Nat × Warp) =>
    (a.2.2.aged && !b.2.2.aged) || (a.2.2.aged && b.2.2.aged && decide (a.2.2.agedAt < b.2.2.agedAt))) ws).map fun x => (x.1, x.2.1)

/-- Miss-status entries of lines that no load in flight asks for are free (R349). -/
def pruneMisses (s : State) (core : Nat) : State :=
  let k := s.core core
  if k.misses.isEmpty then s
  else
    let asked := fun (line : Nat) => (s.onCore core).any fun e => e.2.pairs.any fun p => p.2.acc.loads.any fun l =>
      l.space == Space.phys && l.lanes.any fun x => x.pa / 128 == line
    s.setCore core { k with misses := k.misses.filter fun m => asked m.line }

/-- The requests that a core's L1 has rejected are presented again (R349, R350). -/
def presentAgain (s : State) (core : Nat) : State := (waitingWarps s core).foldl (fun s w => presentWarp s w.1 w.2) (pruneMisses s core)

/-- A cycle in which the launch engine reads the counters of waiting queues again: by no core's clock do 4096 cycles pass without one (R376). -/
def pollDue (s : State) (core : Nat) : Bool := decide ((s.core core).cyc.toNat % 4096 = 0)

/-- One clock cycle of some cores: counters, gating, boosts, deadlines, requests to L1, and the launch engine's counters. -/
def tickCores (s : State) (cs : List Nat) : State :=
  let mine := fun (s : State) => (s.crews.filter fun e => cs.contains e.2.core && e.2.saved.isNone).map (·.1)
  let t := (mine s).foldl noteReady s
  let t := { t with cores := cs.foldl (fun l n => Tbl.set l n (tickCore s n)) t.cores }
  let poll := cs.any (pollDue t)
  let t := (cs.filter (gateDue t)).foldl gateCore t
  let t := ((mine t).flatMap fun n => match t.crew? n with
    | none => []
    | some c => ((crewUnits n c).map (·.1)).filter (boostDue t)).foldl boostUnit t
  let t := cs.foldl presentAgain ((mine t).foldl tickDeadline t)
  if poll then pollAll t else t

/-- One clock cycle of every core. -/
def tick (s : State) : State := tickCores s coreNumbers

/-- One clock cycle of one core alone (R6, R48). -/
def tickOne (s : State) (core : Nat) : State := if core < 96 then tickCores s [core] else s

/-- A gated core with a ready unit wakes; a release that Table 1.7 does not list counts as reason 3 (log 28). -/
def wakeGated (s : State) : State :=
  (((s.cores.filter fun e => e.2.gated).map (·.1)).filter fun n => reasonHolds s n 3).foldl (fun s n => wakeCore s n 3) s

end Sys2Proof.Machine
end

