-- ==== Sys2Proof/Machine/Vector.lean ====
section
/-! DEFINITION. Groups 4 and 5: floating point and transcendentals (R188 to R196), and the pair word (R67 to R70). -/
namespace Sys2Proof.Machine

/-- A floating-point instruction: scalar or packed, one rounding (R188, R194). -/
def floatInstr (i : Instr) (x : AluArgs) (dflt : Dflt) (op : Rnd → Bool → Fmt → W64 → W64 → W64 → Res) (s : State) :
    Host.Outcome State Fault Refusal :=
  laneOp i x dflt Ty.wide (fun t => floatOp t (op x.rnd x.ftz)) s

/-- FADD (R189). -/
def execFadd (x : AluArgs) (s : State) : Host.Outcome State Fault Refusal := floatInstr (.fadd x) x .f32 faddOp s
/-- FSUB (R189). -/
def execFsub (x : AluArgs) (s : State) : Host.Outcome State Fault Refusal := floatInstr (.fsub x) x .f32 fsubOp s
/-- FMUL (R189). -/
def execFmul (x : AluArgs) (s : State) : Host.Outcome State Fault Refusal := floatInstr (.fmul x) x .f32 fmulOp s
/-- FMA (R189). -/
def execFma (x : AluArgs) (s : State) : Host.Outcome State Fault Refusal := floatInstr (.fma x) x .f32 fmaOp s
/-- FMIN (R190). -/
def execFmin (x : AluArgs) (s : State) : Host.Outcome State Fault Refusal := floatInstr (.fmin x) x .f32 fminOp s
/-- FMAX (R190). -/
def execFmax (x : AluArgs) (s : State) : Host.Outcome State Fault Refusal := floatInstr (.fmax x) x .f32 fmaxOp s
/-- FABS (R191). -/
def execFabs (x : AluArgs) (s : State) : Host.Outcome State Fault Refusal := floatInstr (.fabs x) x .f32 fabsOp s
/-- FNEG (R191). -/
def execFneg (x : AluArgs) (s : State) : Host.Outcome State Fault Refusal := floatInstr (.fneg x) x .f32 fnegOp s
/-- FCLAMP (R190). -/
def execFclamp (x : AluArgs) (s : State) : Host.Outcome State Fault Refusal := floatInstr (.fclamp x) x .f32 fclampOp s
/-- FRCP (R189). -/
def execFrcp (x : AluArgs) (s : State) : Host.Outcome State Fault Refusal := floatInstr (.frcp x) x .f32 frcpOp s
/-- FRSQ (R189). -/
def execFrsq (x : AluArgs) (s : State) : Host.Outcome State Fault Refusal := floatInstr (.frsq x) x .f32 frsqOp s
/-- FSQRT (R189). -/
def execFsqrt (x : AluArgs) (s : State) : Host.Outcome State Fault Refusal := floatInstr (.fsqrt x) x .f32 fsqrtOp s
/-- FDIV (R189). -/
def execFdiv (x : AluArgs) (s : State) : Host.Outcome State Fault Refusal := floatInstr (.fdiv x) x .f32 fdivOp s
/-- FDOT2 (R192). -/
def execFdot2 (x : AluArgs) (s : State) : Host.Outcome State Fault Refusal :=
  laneOp (.fdot2 x) x .f32 (fun _ => false) (fun _ => fdot2Op x.flag x.rnd x.ftz) s
/-- FRND (R193). -/
def execFrnd (x : AluArgs) (s : State) : Host.Outcome State Fault Refusal := floatInstr (.frnd x) x .f32 (frndOp x.flag) s
/-- DADD (R195). -/
def execDadd (x : AluArgs) (s : State) : Host.Outcome State Fault Refusal := floatInstr (.dadd x) x .f64 faddOp s
/-- DSUB (R195). -/
def execDsub (x : AluArgs) (s : State) : Host.Outcome State Fault Refusal := floatInstr (.dsub x) x .f64 fsubOp s
/-- DMUL (R195). -/
def execDmul (x : AluArgs) (s : State) : Host.Outcome State Fault Refusal := floatInstr (.dmul x) x .f64 fmulOp s
/-- DFMA (R195). -/
def execDfma (x : AluArgs) (s : State) : Host.Outcome State Fault Refusal := floatInstr (.dfma x) x .f64 fmaOp s
/-- DMIN (R195). -/
def execDmin (x : AluArgs) (s : State) : Host.Outcome State Fault Refusal := floatInstr (.dmin x) x .f64 fminOp s
/-- DMAX (R195). -/
def execDmax (x : AluArgs) (s : State) : Host.Outcome State Fault Refusal := floatInstr (.dmax x) x .f64 fmaxOp s
/-- DDIV (R195). -/
def execDdiv (x : AluArgs) (s : State) : Host.Outcome State Fault Refusal := floatInstr (.ddiv x) x .f64 fdivOp s
/-- DSQRT (R195). -/
def execDsqrt (x : AluArgs) (s : State) : Host.Outcome State Fault Refusal := floatInstr (.dsqrt x) x .f64 fsqrtOp s
/-- FEX2 (R196). -/
def execFex2 (x : AluArgs) (s : State) : Host.Outcome State Fault Refusal := floatInstr (.fex2 x) x .f32 fex2Op s
/-- FLG2 (R196). -/
def execFlg2 (x : AluArgs) (s : State) : Host.Outcome State Fault Refusal := floatInstr (.flg2 x) x .f32 flg2Op s
/-- FSIN (R196). -/
def execFsin (x : AluArgs) (s : State) : Host.Outcome State Fault Refusal := floatInstr (.fsin x) x .f32 fsinOp s
/-- FCOS (R196). -/
def execFcos (x : AluArgs) (s : State) : Host.Outcome State Fault Refusal := floatInstr (.fcos x) x .f32 fcosOp s
/-- FTANH (R196). -/
def execFtanh (x : AluArgs) (s : State) : Host.Outcome State Fault Refusal := floatInstr (.ftanh x) x .f32 ftanhOp s

/-! ### The pair word (R68, R70) -/

/-- The operation of a pair slot on d and b. -/
def slotOp (p : PairSlot) (d b : W64) : Res :=
  match p.op with
  | .mov => movOp .b32 false b 0 0
  | .iadd => iaddOp p.ty false d b 0
  | .isub => isubOp p.ty false d b 0
  | .imin => iminOp p.ty false d b 0
  | .imax => imaxOp p.ty false d b 0
  | .and => andOp p.ty false d b 0
  | .or => orOp p.ty false d b 0
  | .xor => xorOp p.ty false d b 0
  | .shl => shlOp p.ty false d b 0
  | .shr => shrOp p.ty false d b 0
  | .sra => sraOp p.ty false d b 0
  | .fadd => floatOp p.ty (faddOp .rn p.ftz) d b 0
  | .fsub => floatOp p.ty (fsubOp .rn p.ftz) d b 0
  | .fmul => floatOp p.ty (fmulOp .rn p.ftz) d b 0
  | .fmin => floatOp p.ty (fminOp .rn p.ftz) d b 0
  | .fmax => floatOp p.ty (fmaxOp .rn p.ftz) d b 0

/-- One slot on a view, with its sources read from `old`, the view before the word (R68, R37). -/
def runSlot (old h : Here) (p : PairSlot) : Here :=
  let act := old.active { neg := false, k := p.k }
  let r := fun l => slotOp p (old.read (.v p.d) false 0 false l) (old.read (.v p.b) false 0 false l)
  (h.result (.v p.d) false p.nwb act fun l => (r l).val).flags act fun l => (r l).flags

/-- The registers of a pair word as uses, for the backing store (R68). -/
def pairUses (x : PairArgs) : List Use × List Use :=
  ([(.v x.s0.d, false), (.v x.s1.d, false)], [(.v x.s0.b, false), (.v x.s1.b, false)])

/-- PAIR_WORD (R68): both slots read before either writes; slot 0's result enters the latches first. -/
def execPairWord (x : PairArgs) (s : State) : Host.Outcome State Fault Refusal :=
  runUses s { neg := false, k := 0 } (pairUses x).1 (pairUses x).2 fun h _ =>
    .ok ((runSlot h (runSlot h h x.s0) x.s1).advance 8)

end Sys2Proof.Machine
end

