-- ==== Sys2Proof/Machine/Dispatch.lean ====
section
/-! DEFINITION. The dispatch: one arm per operation or event, each a direct call of its meaning. -/
namespace Sys2Proof.Machine

/-- The meaning of an operation or event. -/
def exec (i : Instr) (s : State) : Host.Outcome State Fault Refusal :=
  match i with
  | .nop x => Sys2Proof.Machine.execNop x s
  | .bra x => Sys2Proof.Machine.execBra x s
  | .brx x => Sys2Proof.Machine.execBrx x s
  | .call x => Sys2Proof.Machine.execCall x s
  | .calx x => Sys2Proof.Machine.execCalx x s
  | .ret x => Sys2Proof.Machine.execRet x s
  | .exit x => Sys2Proof.Machine.execExit x s
  | .rcv x => Sys2Proof.Machine.execRcv x s
  | .setw x => Sys2Proof.Machine.execSetw x s
  | .pyld x => Sys2Proof.Machine.execPyld x s
  | .loop x => Sys2Proof.Machine.execLoop x s
  | .iadd x => Sys2Proof.Machine.execIadd x s
  | .isub x => Sys2Proof.Machine.execIsub x s
  | .iaddc x => Sys2Proof.Machine.execIaddc x s
  | .isubb x => Sys2Proof.Machine.execIsubb x s
  | .imul x => Sys2Proof.Machine.execImul x s
  | .imulh x => Sys2Proof.Machine.execImulh x s
  | .imad x => Sys2Proof.Machine.execImad x s
  | .idiv x => Sys2Proof.Machine.execIdiv x s
  | .irem x => Sys2Proof.Machine.execIrem x s
  | .iabs x => Sys2Proof.Machine.execIabs x s
  | .ineg x => Sys2Proof.Machine.execIneg x s
  | .imin x => Sys2Proof.Machine.execImin x s
  | .imax x => Sys2Proof.Machine.execImax x s
  | .isad x => Sys2Proof.Machine.execIsad x s
  | .iclamp x => Sys2Proof.Machine.execIclamp x s
  | .mov x => Sys2Proof.Machine.execMov x s
  | .movi x => Sys2Proof.Machine.execMovi x s
  | .iaddImm x => Sys2Proof.Machine.execIaddImm x s
  | .isubImm x => Sys2Proof.Machine.execIsubImm x s
  | .imulImm x => Sys2Proof.Machine.execImulImm x s
  | .iminImm x => Sys2Proof.Machine.execIminImm x s
  | .imaxImm x => Sys2Proof.Machine.execImaxImm x s
  | .movImm x => Sys2Proof.Machine.execMovImm x s
  | .andImm x => Sys2Proof.Machine.execAndImm x s
  | .orImm x => Sys2Proof.Machine.execOrImm x s
  | .xorImm x => Sys2Proof.Machine.execXorImm x s
  | .shlImm x => Sys2Proof.Machine.execShlImm x s
  | .shrImm x => Sys2Proof.Machine.execShrImm x s
  | .sraImm x => Sys2Proof.Machine.execSraImm x s
  | .rotlImm x => Sys2Proof.Machine.execRotlImm x s
  | .andB x => Sys2Proof.Machine.execAndB x s
  | .orB x => Sys2Proof.Machine.execOrB x s
  | .xorB x => Sys2Proof.Machine.execXorB x s
  | .notB x => Sys2Proof.Machine.execNotB x s
  | .bfn x => Sys2Proof.Machine.execBfn x s
  | .shl x => Sys2Proof.Machine.execShl x s
  | .shr x => Sys2Proof.Machine.execShr x s
  | .sra x => Sys2Proof.Machine.execSra x s
  | .rotl x => Sys2Proof.Machine.execRotl x s
  | .popc x => Sys2Proof.Machine.execPopc x s
  | .clz x => Sys2Proof.Machine.execClz x s
  | .ctz x => Sys2Proof.Machine.execCtz x s
  | .brev x => Sys2Proof.Machine.execBrev x s
  | .bext x => Sys2Proof.Machine.execBext x s
  | .bins x => Sys2Proof.Machine.execBins x s
  | .bsel x => Sys2Proof.Machine.execBsel x s
  | .icmp x => Sys2Proof.Machine.execIcmp x s
  | .fcmp x => Sys2Proof.Machine.execFcmp x s
  | .fclass x => Sys2Proof.Machine.execFclass x s
  | .sel x => Sys2Proof.Machine.execSel x s
  | .kop x => Sys2Proof.Machine.execKop x s
  | .kmov x => Sys2Proof.Machine.execKmov x s
  | .fadd x => Sys2Proof.Machine.execFadd x s
  | .fsub x => Sys2Proof.Machine.execFsub x s
  | .fmul x => Sys2Proof.Machine.execFmul x s
  | .fma x => Sys2Proof.Machine.execFma x s
  | .fmin x => Sys2Proof.Machine.execFmin x s
  | .fmax x => Sys2Proof.Machine.execFmax x s
  | .fabs x => Sys2Proof.Machine.execFabs x s
  | .fneg x => Sys2Proof.Machine.execFneg x s
  | .fclamp x => Sys2Proof.Machine.execFclamp x s
  | .frcp x => Sys2Proof.Machine.execFrcp x s
  | .frsq x => Sys2Proof.Machine.execFrsq x s
  | .fsqrt x => Sys2Proof.Machine.execFsqrt x s
  | .fdiv x => Sys2Proof.Machine.execFdiv x s
  | .fdot2 x => Sys2Proof.Machine.execFdot2 x s
  | .frnd x => Sys2Proof.Machine.execFrnd x s
  | .dadd x => Sys2Proof.Machine.execDadd x s
  | .dsub x => Sys2Proof.Machine.execDsub x s
  | .dmul x => Sys2Proof.Machine.execDmul x s
  | .dfma x => Sys2Proof.Machine.execDfma x s
  | .dmin x => Sys2Proof.Machine.execDmin x s
  | .dmax x => Sys2Proof.Machine.execDmax x s
  | .ddiv x => Sys2Proof.Machine.execDdiv x s
  | .dsqrt x => Sys2Proof.Machine.execDsqrt x s
  | .fex2 x => Sys2Proof.Machine.execFex2 x s
  | .flg2 x => Sys2Proof.Machine.execFlg2 x s
  | .fsin x => Sys2Proof.Machine.execFsin x s
  | .fcos x => Sys2Proof.Machine.execFcos x s
  | .ftanh x => Sys2Proof.Machine.execFtanh x s
  | .cvt x => Sys2Proof.Machine.execCvt x s
  | .fpk x => Sys2Proof.Machine.execFpk x s
  | .fupk x => Sys2Proof.Machine.execFupk x s
  | .bfq x => Sys2Proof.Machine.execBfq x s
  | .bfd x => Sys2Proof.Machine.execBfd x s
  | .escl x => Sys2Proof.Machine.execEscl x s
  | .shfl x => Sys2Proof.Machine.execShfl x s
  | .vote x => Sys2Proof.Machine.execVote x s
  | .ballot x => Sys2Proof.Machine.execBallot x s
  | .redx x => Sys2Proof.Machine.execRedx x s
  | .scan x => Sys2Proof.Machine.execScan x s
  | .matchL x => Sys2Proof.Machine.execMatchL x s
  | .bcast x => Sys2Proof.Machine.execBcast x s
  | .regroup x => Sys2Proof.Machine.execRegroup x s
  | .lq x => Sys2Proof.Machine.execLq x s
  | .la x => Sys2Proof.Machine.execLa x s
  | .sa x => Sys2Proof.Machine.execSa x s
  | .sd x => Sys2Proof.Machine.execSd x s
  | .lsq x => Sys2Proof.Machine.execLsq x s
  | .lsa x => Sys2Proof.Machine.execLsa x s
  | .ssa x => Sys2Proof.Machine.execSsa x s
  | .pf x => Sys2Proof.Machine.execPf x s
  | .rlq x => Sys2Proof.Machine.execRlq x s
  | .lea x => Sys2Proof.Machine.execLea x s
  | .leaLong x => Sys2Proof.Machine.execLeaLong x s
  | .qpush x => Sys2Proof.Machine.execQpush x s
  | .qpop x => Sys2Proof.Machine.execQpop x s
  | .qpeek x => Sys2Proof.Machine.execQpeek x s
  | .qend x => Sys2Proof.Machine.execQend x s
  | .qstat x => Sys2Proof.Machine.execQstat x s
  | .qdrop x => Sys2Proof.Machine.execQdrop x s
  | .atom x => Sys2Proof.Machine.execAtom x s
  | .acas x => Sys2Proof.Machine.execAcas x s
  | .fence x => Sys2Proof.Machine.execFence x s
  | .upd x => Sys2Proof.Machine.execUpd x s
  | .uflush x => Sys2Proof.Machine.execUflush x s
  | .ubind x => Sys2Proof.Machine.execUbind x s
  | .uunbind x => Sys2Proof.Machine.execUunbind x s
  | .cinv x => Sys2Proof.Machine.execCinv x s
  | .cwb x => Sys2Proof.Machine.execCwb x s
  | .stld x => Sys2Proof.Machine.execStld x s
  | .stsp x => Sys2Proof.Machine.execStsp x s
  | .stinv x => Sys2Proof.Machine.execStinv x s
  | .mma x => Sys2Proof.Machine.execMma x s
  | .mmac x => Sys2Proof.Machine.execMmac x s
  | .msca x => Sys2Proof.Machine.execMsca x s
  | .mzero x => Sys2Proof.Machine.execMzero x s
  | .mrd x => Sys2Proof.Machine.execMrd x s
  | .mrdx x => Sys2Proof.Machine.execMrdx x s
  | .mrmax x => Sys2Proof.Machine.execMrmax x s
  | .mrsum x => Sys2Proof.Machine.execMrsum x s
  | .mst x => Sys2Proof.Machine.execMst x s
  | .mflag x => Sys2Proof.Machine.execMflag x s
  | .smx x => Sys2Proof.Machine.execSmx x s
  | .kvmap x => Sys2Proof.Machine.execKvmap x s
  | .kvapp x => Sys2Proof.Machine.execKvapp x s
  | .kvacc x => Sys2Proof.Machine.execKvacc x s
  | .kvsel x => Sys2Proof.Machine.execKvsel x s
  | .kvpack x => Sys2Proof.Machine.execKvpack x s
  | .kvscl x => Sys2Proof.Machine.execKvscl x s
  | .xpost x => Sys2Proof.Machine.execXpost x s
  | .xgath x => Sys2Proof.Machine.execXgath x s
  | .xstat x => Sys2Proof.Machine.execXstat x s
  | .xcp x => Sys2Proof.Machine.execXcp x s
  | .xtwait x => Sys2Proof.Machine.execXtwait x s
  | .binit x => Sys2Proof.Machine.execBinit x s
  | .barr x => Sys2Proof.Machine.execBarr x s
  | .bwait x => Sys2Proof.Machine.execBwait x s
  | .byld x => Sys2Proof.Machine.execByld x s
  | .cbar x => Sys2Proof.Machine.execCbar x s
  | .emit x => Sys2Proof.Machine.execEmit x s
  | .wqpop x => Sys2Proof.Machine.execWqpop x s
  | .wqsteal x => Sys2Proof.Machine.execWqsteal x s
  | .trap x => Sys2Proof.Machine.execTrap x s
  | .tfence x => Sys2Proof.Machine.execTfence x s
  | .rte x => Sys2Proof.Machine.execRte x s
  | .rds x => Sys2Proof.Machine.execRds x s
  | .wrs x => Sys2Proof.Machine.execWrs x s
  | .brk x => Sys2Proof.Machine.execBrk x s
  | .icinv x => Sys2Proof.Machine.execIcinv x s
  | .isync x => Sys2Proof.Machine.execIsync x s
  | .pairWord x => Sys2Proof.Machine.execPairWord x s
  | .loadValueArrival crew pair load lane err => Sys2Proof.Machine.execLoadValueArrival crew pair load lane err s
  | .storePairing crew pair q => Sys2Proof.Machine.execStorePairing crew pair q s
  | .storeQueueDrain crew pair => Sys2Proof.Machine.execStoreQueueDrain crew pair s
  | .missRejectionAged crew pair => Sys2Proof.Machine.execMissRejectionAged crew pair s
  | .commandAcceptance core => Sys2Proof.Machine.execCommandAcceptance core s
  | .engineRowFinish core cmd row r data => Sys2Proof.Machine.execEngineRowFinish core cmd row r data s
  | .remoteWriteAck core cmd row r => Sys2Proof.Machine.execRemoteWriteAck core cmd row r s
  | .remoteReply crew pair load lane r data => Sys2Proof.Machine.execRemoteReply crew pair load lane r data s
  | .remoteTimeout r => Sys2Proof.Machine.execRemoteTimeout r s
  | .remoteRequest r => Sys2Proof.Machine.execRemoteRequest r s
  | .xcpComplete crew pair idx => Sys2Proof.Machine.execXcpComplete crew pair idx s
  | .updateAccept crew pair => Sys2Proof.Machine.execUpdateAccept crew pair s
  | .continuationPack core deque => Sys2Proof.Machine.execContinuationPack core deque s
  | .clockGate core => Sys2Proof.Machine.execClockGate core s
  | .coreWake core reason => Sys2Proof.Machine.execCoreWake core reason s
  | .unitBoost u => Sys2Proof.Machine.execUnitBoost u s
  | .preemptionRequest queue => Sys2Proof.Machine.execPreemptionRequest queue s
  | .deadlineExpiry crew => Sys2Proof.Machine.execDeadlineExpiry crew s
  | .crewSave crew => Sys2Proof.Machine.execCrewSave crew s
  | .crewResume crew => Sys2Proof.Machine.execCrewResume crew s
  | .crewPlacement queue => Sys2Proof.Machine.execCrewPlacement queue s
  | .machineCheckDelivery u => Sys2Proof.Machine.execMachineCheckDelivery u s
  | .patrolRead p => Sys2Proof.Machine.execPatrolRead p s
  | .bankFailMark core bank => Sys2Proof.Machine.execBankFailMark core bank s
  | .launch queue => Sys2Proof.Machine.execLaunch queue s
  | .eventWait queue => Sys2Proof.Machine.execEventWait queue s
  | .eventWaitPoll queue => Sys2Proof.Machine.execEventWaitPoll queue s
  | .eventWrite queue => Sys2Proof.Machine.execEventWrite queue s
  | .noOpRecord queue => Sys2Proof.Machine.execNoOpRecord queue s
  | .launchCompletion queue => Sys2Proof.Machine.execLaunchCompletion queue s
  | .queueSwitchIn queue => Sys2Proof.Machine.execQueueSwitchIn queue s
  | .queueSwitchOut queue => Sys2Proof.Machine.execQueueSwitchOut queue s
  | .tailW queue val => Sys2Proof.Machine.execTailW queue val s
  | .cfgW queue val => Sys2Proof.Machine.execCfgW queue val s
  | .holdW queue => Sys2Proof.Machine.execHoldW queue s
  | .relW queue => Sys2Proof.Machine.execRelW queue s
  | .clrW queue => Sys2Proof.Machine.execClrW queue s
  | .mailboxQuery => Sys2Proof.Machine.execMailboxQuery s
  | .mailboxLoad => Sys2Proof.Machine.execMailboxLoad s
  | .mailboxUnload => Sys2Proof.Machine.execMailboxUnload s
  | .mailboxEvict => Sys2Proof.Machine.execMailboxEvict s
  | .translationInvalidate ctl => Sys2Proof.Machine.execTranslationInvalidate ctl s
  | .invalidationComplete => Sys2Proof.Machine.execInvalidationComplete s
  | .debugHalt ctx cmd => Sys2Proof.Machine.execDebugHalt ctx cmd s
  | .debugResume ctx cmd => Sys2Proof.Machine.execDebugResume ctx cmd s
  | .debugStep ctx cmd => Sys2Proof.Machine.execDebugStep ctx cmd s
  | .debugRead ctx cmd => Sys2Proof.Machine.execDebugRead ctx cmd s
  | .debugWrite ctx cmd => Sys2Proof.Machine.execDebugWrite ctx cmd s
  | .faultClear ctx => Sys2Proof.Machine.execFaultClear ctx s
  | .mcheckClear ctx => Sys2Proof.Machine.execMcheckClear ctx s
  | .contextEntryWrite ctx off val => Sys2Proof.Machine.execContextEntryWrite ctx off val s
  | .injectionRegisterWrite block val => Sys2Proof.Machine.execInjectionRegisterWrite block val s
  | .failedBankMaskWrite core mask => Sys2Proof.Machine.execFailedBankMaskWrite core mask s
  | .domainIdWrite val => Sys2Proof.Machine.execDomainIdWrite val s
  | .astatClear => Sys2Proof.Machine.execAstatClear s
  | .fuseRaise => Sys2Proof.Machine.execFuseRaise s
  | .registerWrite off val => Sys2Proof.Machine.execRegisterWrite off val s
  | .goW val => Sys2Proof.Machine.execGoW val s
  | .powerOn => Sys2Proof.Machine.execPowerOn s
  | .cxlReset => Sys2Proof.Machine.execCxlReset s
  | .conventionalReset => Sys2Proof.Machine.execConventionalReset s
  | .thermalTrip => Sys2Proof.Machine.execThermalTrip s
  | .throttle power tj => Sys2Proof.Machine.execThrottle power tj s
  | .hostMemRead addr len => Sys2Proof.Machine.execHostMemRead addr len s
  | .hostMemWrite addr data => Sys2Proof.Machine.execHostMemWrite addr data s
  | .portDown port => Sys2Proof.Machine.execPortDown port s
  | .matrixPass core bank => Sys2Proof.Machine.execMatrixPass core bank s
  | .spdmRequest r => Sys2Proof.Machine.execSpdmRequest r s
  | .powerLoss => Sys2Proof.Machine.execPowerLoss s

end Sys2Proof.Machine
end

