-- ==== Sys2Proof/Machine/Protect.lean ====
section
/-! DEFINITION. Errors of the register files, the queue memory and the accumulator memory (R342, R367, Table 12.5): what an instruction reads of them, and what it writes under an armed injection (R369). -/
namespace Sys2Proof.Machine

/-- No entry of a core holds an error and no injection is armed. -/
def quiet (s : State) (core : Nat) : Bool := s.faults.isEmpty && !bitAt (s.err core).inj 8

/-! ### What an instruction reads and writes -/

/-- The registers of the execute or access register file that some operands name. -/
def fileRegs (us : List Use) : List Nat :=
  us.flatMap fun u => match u.1 with
    | .v n => if u.2 then [n.toNat, n.toNat + 1] else [n.toNat]
    | .a n => [n.toNat]
    | _ => []

/-- The A rows of a product (R259). -/
def rowUses (h : Here) (x : MmaArgs) : List Use :=
  match x.a, h.stamp x.j.toNat with
  | .v n, .ok st => (List.range (rowRegs x.fa st.sparse)).map fun k => (.v (n + BitVec.ofNat 8 k), false)
  | _, _ => []

/-- Registers an instruction reads. -/
def regsRead (h : Here) (i : Instr) : List Nat :=
  fileRegs (match i with
    | .mma x | .mmac x => (x.klen, false) :: rowUses h x
    | i => (i.uses h.u.slice).2)

/-- Registers an instruction writes. -/
def regsWritten (h : Here) (i : Instr) : List Nat :=
  match i.lastReg, i with
  | .v n, .mrd x | .v n, .mrdx x => match x.d with
    | .v m => (List.range (n.toNat + 1 - m.toNat)).map (· + m.toNat)
    | _ => []
  | _, i => fileRegs (i.uses h.u.slice).1

/-- Cells of the accumulator memory: m tiles or p tiles, a tile, and its columns. -/
structure AccSpan where
  m : Bool
  tile : Nat
  cols : List Nat
  deriving DecidableEq, Repr

/-- The accumulator cells an instruction reads (R265 to R270). -/
def accRead : Instr → List AccSpan
  | .msca x => [{ m := true, tile := x.u.toNat, cols := List.range 64 }, { m := false, tile := x.t.toNat, cols := List.range 64 }]
  | .mrd x => [{ m := true, tile := x.u.toNat, cols := (List.range 8).map (8 * x.col.toNat + ·) }]
  | .mst x => [{ m := true, tile := x.u.toNat, cols := (List.range 8).map (8 * x.col.toNat + ·) }]
  | .mrdx x => [{ m := true, tile := x.u.toNat, cols := (List.range 8).map (8 * x.col.toNat + ·) }]
  | .mrmax x | .mrsum x => [{ m := true, tile := x.u.toNat, cols := List.range 64 }]
  | _ => []

/-- The accumulator cells an instruction writes (R262, R263, R265 to R268), but for the second tile of a sparse product. -/
def accWritten : Instr → List AccSpan
  | .mma x => [{ m := false, tile := x.t.toNat, cols := List.range 64 }]
  | .mmac x => [{ m := false, tile := x.t.toNat, cols := List.range 64 }, { m := false, tile := x.t.toNat + 1, cols := List.range 64 }]
  | .msca x => [{ m := true, tile := x.u.toNat, cols := List.range 64 }]
  | .mzero x =>
    ((List.range 4).filter fun t => bitAt x.mm t).map (fun t => { m := true, tile := t, cols := List.range 64 }) ++
    ((List.range 4).filter fun t => bitAt x.pm t).map (fun t => { m := false, tile := t, cols := List.range 64 })
  | .mrdx x => if x.st then [{ m := true, tile := x.u.toNat, cols := (List.range 8).map (8 * x.col.toNat + ·) }] else []
  | .mrd x => if x.clr then [{ m := true, tile := x.u.toNat, cols := (List.range 8).map (8 * x.col.toNat + ·) }] else []
  | _ => []

/-- The cells of a span in the rows of active lanes. -/
def AccSpan.cells (h : Here) (act : W64) (a : AccSpan) : List Nat :=
  (lanesOf act).flatMap fun l => a.cols.map fun c => cellNo (h.octet l) a.tile (l % 8) c

/-- The cells of the second tile that a sparse product writes: those of the lanes whose K-length passes 32 (R262). -/
def accFar (s : State) (h : Here) (act : W64) : Instr → List Nat
  | .mma x =>
    match h.stamp x.j.toNat with
    | .ok st =>
      let k := match fillRegs s h (spilledRegs [(x.klen, false)]) with
        | .ok r => r.2
        | .error _ => h
      let far := if st.sparse then maskOf ((lanesOf act).filter fun l => decide (32 < (k.read x.klen false 0 false l).toNat)) else 0
      ({ m := false, tile := x.t.toNat + 1, cols := List.range 64 } : AccSpan).cells h far
    | .error _ => []
  | _ => []

/-- The guard of a full-form word (Table 2.2). -/
def guardOf (i : Instr) : Guard := { neg := bitAt (encode i).1 51, k := (encode i).1.extractLsb' 47 4 }

/-- The lanes an instruction acts in; both slots of a pair word count. -/
def lanesActing (h : Here) (i : Instr) : W64 :=
  match i with
  | .pairWord _ => h.mask
  | i => h.active (guardOf i)

/-- The entries of the queues of `u`'s pair in one state that another state no longer has, by queue. -/
def entriesGone (p q : Pair) : List (Nat × QEntry) :=
  p.queues.flatMap fun x =>
    let left := (Tbl.get? q.queues x.1).map (·.entries) |>.getD []
    (x.2.entries.filter fun e => !(left.any fun f => f.id == e.id)).map fun e => (x.1, e)

/-- An entry is written into the queue memory, a reserved one only as its lanes arrive. -/
def entryWritten (s : State) (core : Nat) (u : UnitRef) (q grant : Nat) (e : QEntry) : State :=
  if e.missing ≠ 0 then s else (List.range ((grant + 1) / 2)).foldl (fun s k => injectWrite s core 3 (cellPair u q e.id k)) s

/-- Puts an entry back into its queue. -/
def putEntry (s : State) (u : UnitRef) (q : Nat) (e : QEntry) : State :=
  s.onPair u.crew u.pair fun p => match Tbl.get? p.queues q with
    | none => p
    | some x => { p with queues := Tbl.set p.queues q { x with entries := x.entries.map fun f => if f.id == e.id then e else f } }

/-! ### Around an instruction -/

/-- The machine check of an array of a core that an instruction of a split met. -/
def arrayCheck (s : State) (h : Here) (bad : Bool) (array addr : Nat) : State :=
  if bad then splitCheck s h.crew.ctx h.u (0x120 + array) (BitVec.ofNat 64 addr) else s

/-- The registers an instruction reads, with lanes in error at zero. -/
def readRegs (s : State) (h : Here) (i : Instr) (act : W64) : State :=
  let arr := if h.u.slice = .execute then 1 else 2
  (regsRead h i).foldl (fun s n =>
    (lanesOf act).foldl (fun s l =>
      let r := injectRead s h.crew.core arr (regEntry h.u n l) h.crew.ctx
      let s := if r.2 then r.1.onWarp h.u.crew h.u.pair h.u.slice fun w => if arr = 1 then w.setV n l 0 else w.setA n l 0 else r.1
      arrayCheck s h r.2 (arr - 1) (regEntry h.u n l)) s) s

/-- The accumulator cells an instruction reads, with those in error at zero. -/
def readAccs (s : State) (h : Here) (i : Instr) (act : W64) : State :=
  (accRead i).foldl (fun s a =>
    (a.cells h act).foldl (fun s c =>
      let r := injectRead s h.crew.core 10 (accEntry h.u a.m c) h.crew.ctx
      let s := if r.2 then r.1.onCrew h.u.crew fun x => if a.m then { x with mt := Cells.set x.mt c 0 } else { x with pt := Cells.set x.pt c 0 } else r.1
      arrayCheck s h r.2 4 (accEntry h.u a.m c)) s) s

/-- The queue entries an instruction takes, or looks at, with the cells in error at zero. `p` is the pair after the instruction. -/
def readEntries (s : State) (h : Here) (i : Instr) (p : Pair) : State :=
  let peeked := match i with
    | .qpeek x => ((h.queue? x.n.toNat).map fun q => (q.entries.take 1).map fun e => (x.n.toNat, e)).getD []
    | _ => []
  (entriesGone h.pair p ++ peeked).foldl (fun s e =>
    let r := entryRead s h.crew.core h.crew.ctx h.u e.1 e.2
    arrayCheck (if r.2.2 then putEntry r.1 h.u e.1 r.2.1 else r.1) h r.2.2 2 (cellPair h.u e.1 e.2.id 0)) s

/-- What an instruction has written meets an armed injection, and is free of older errors; registers that wait for a load are written when it arrives. -/
def written (s : State) (h : Here) (i : Instr) (act : W64) : State :=
  let arr := if h.u.slice = .execute then 1 else 2
  let late := fun (n : Nat) => decide (arr = 2) && match s.here? h.u with
    | none => false
    | some k => k.warp.awaits [.areg n]
  let s := ((regsWritten h i).filter fun n => !late n).foldl (fun s n => (lanesOf act).foldl (fun s l => injectWrite s h.crew.core arr (regEntry h.u n l)) s) s
  let far := accFar s h act i
  let s := (accWritten i).foldl (fun s a => (a.cells h act).foldl (fun s c => injectWrite s h.crew.core 10 (accEntry h.u a.m c)) s) s
  let s := far.foldl (fun s c => injectWrite s h.crew.core 10 (accEntry h.u false c)) s
  match s.here? h.u with
  | none => s
  | some k => (entriesGone k.pair h.pair).foldl (fun s e => entryWritten s h.crew.core h.u e.1 h.crew.grant e.2) s

/-- An instruction has taken effect: its split has neither been parked nor entered a trap. -/
def tookEffect (h : Here) (t : State) : Bool :=
  match t.here? h.u with
  | none => true
  | some k =>
    (k.split.wait == .ready || k.split.wait.inEffect) && k.split.record == h.split.record &&
      decide (k.split.stack.length ≤ h.split.stack.length + 1)

/-- Runs an instruction with the errors of what it reads (R367): with none standing and no injection armed it just runs; else it runs on what its reads give, and its writes meet the injection register. -/
def protect (run : State → Host.Outcome State Fault Refusal) (u : UnitRef) (i : Instr) (s : State) : Host.Outcome State Fault Refusal :=
  match s.here? u with
  | none => run s
  | some h =>
    if quiet s h.crew.core then run s
    else
      match run s with
      | .next t =>
        if tookEffect h t then
          let act := lanesActing h i
          let p := ((t.here? u).map (·.pair)).getD h.pair
          match run (readEntries (readAccs (readRegs s h i act) h i act) h i p) with
          | .next t => .next (written t h i act)
          | o => o
        else .next t
      | o => o

end Sys2Proof.Machine
end

