-- ==== Sys2Proof/Machine/Portable.lean ====
section
/-! DEFINITION. Threads of Portable Form programs (R431 to R434): a crew of a translated kernel runs the program's regions, each thread a split of one lane of the execute warps and an agent of the memory model (log 4). -/
namespace Sys2Proof.Machine

/-! ### Threads -/

/-- The program that a split runs as one of its threads; its handlers are native code. -/
def Here.program? (h : Here) : Option Program :=
  if h.u.slice = .execute ∧ h.pair.packed = false ∧ h.split.inHandler = false then h.crew.kern.prog else none

/-- A thread as an observer (R433). -/
def Here.threadViewer (h : Here) : Viewer :=
  { agent := .thread h.u.crew (h.u.pair * h.crew.grant + h.u.split), core := h.crew.core, crew := h.u.crew }

/-- A load in flight reads some of the bytes. -/
def Flight.hits (f : Flight) (sp : Space) (a n : Nat) : Bool := overlap f.space f.pa (Size.bytes f.sz) sp a n
/-- The registers that it writes. -/
def Flight.regs (f : Flight) : List Nat := if f.sz = .b64 then [f.dest, f.dest + 1] else [f.dest]

/-- What a memory operation of a thread waits for: earlier acquires, earlier loads of its bytes, every earlier load with `all` (R322, R324), and commands that own its lines or accesses that wait there before it (R329, R353). -/
def Here.threadWaits (s : State) (h : Here) (all : Bool) (sp : Space) (a n : Nat) : Part Unit :=
  if (h.split.flight.any fun f => all || f.acq.isSome || f.hits sp a n) then pause .ordering else lineFree s sp a n

/-- A release by a thread, if there is one (R325). -/
def Here.threadRelease (s : State) (h : Here) : Option Scope → State × List Release
  | none => (s, [])
  | some sc => let q := releaseBy s h.threadViewer sc; (q.1, [q.2])

/-- An even register names its pair. -/
def evenOpnd : Opnd → Bool
  | .v n => !n.getLsbD 0
  | .s n => !n.getLsbD 0
  | _ => false

/-- The operands of a portable instruction: destinations and sources, with those of 64 bits. An even register as the value of `upd` stands for its pair (log 4). -/
def threadUses : Instr → List Use × List Use
  | .la x | .lsa x => ([(x.d, x.sz == .b64)], [(x.base, true)])
  | .sd x => ([], [(x.base, true), (x.v, x.sz == .b64)])
  | .pf x => ([], [(x.base, true)])
  | .lea x => ([(x.d, true)], [(x.base, true)])
  | .leaLong x => ([(x.d, true)], [(x.base, true)])
  | .atom x => ([(x.d, AtomTy.bits x.ty == 64)], [(x.base, true), (x.v, AtomTy.bits x.ty == 64)])
  | .acas x => ([(x.d, x.wide)], [(x.base, true), (x.cmp, x.wide), (x.new, x.wide)])
  | .fence _ => ([], [])
  | .upd x => ([], [(x.base, true), (x.v, evenOpnd x.v)])
  | .uflush x => ([], [(x.base, true), (x.len, true)])
  | i => i.uses .execute

/-! ### Memory instructions of a thread -/

/-- A memory instruction of a thread: registers above the bound are filled before it and spilled after it (R32), and the pc moves past it. -/
def runThread (i : Instr) (g : Guard) (s : State) (f : State → Here → W64 → Part (State × Here)) : Host.Outcome State Fault Refusal :=
  runOn s fun h => do
    let us := threadUses i
    let p ← prepare s h us.1 us.2 (h.active g)
    let q ← f p.1 p.2 (h.active g)
    let s ← spillRegs q.1 q.2 (dedup (spilledRegs us.1))
    pure (s.put (q.2.advance i.length))

/-- `la`, and `lsa` at an offset in the crew's allocation (R432): the load is in flight. -/
def threadLoad (i : Instr) (x : MemArgs) (scratch : Bool) (s : State) : Host.Outcome State Fault Refusal :=
  runThread i x.g s fun s h act => do
    let off : W64 := if scratch then BitVec.ofNat 64 h.crew.scratch else 0
    let ps ← checkAccess s h scratch 0 (Size.bytes x.sz) .r (laneVas h act x.base (memDisp x + off))
    if h.split.flight.any fun f => f.acq.isSome then pause .ordering
    let dest := match x.d with
      | .v n => n.toNat
      | _ => 0
    let new := ps.1.map fun p =>
      { dest := dest, sz := x.sz, space := h.space scratch, va := p.va, pa := p.pa, acq := withMode s h (Ord.acquires x.ord) x.scope, ro := x.ro : Flight }
    pure (touchAll s h.crew.core false ps.2, { h with split := { h.split with flight := h.split.flight ++ new } })

/-- `sd`, and `sd.sp` at an offset (R432): the store is performed for the thread itself (R319), at a free place in coherence order among those that the model allows it (R433; log 4). -/
def threadStore (x : MemArgs) (s : State) : Host.Outcome State Fault Refusal :=
  runThread (.sd x) x.g s fun s h act => do
    let off : W64 := if x.x then BitVec.ofNat 64 h.crew.scratch else 0
    let n := Size.bytes x.sz
    let ps ← checkAccess s h x.x 1 n .w (laneVas h act x.base (memDisp x + off))
    match ps.1 with
    | [] => pure (s, h)
    | p :: _ => do
      let sp := h.space x.x
      let r := withMode s h (Ord.releases x.ord) x.scope
      Here.threadWaits s h r.isSome sp p.pa n
      let q := Here.threadRelease (touchAll s h.crew.core true ps.2) h r
      let s := if sp = .phys then partialCheck (applyLines q.1 p.pa n) h.crew.ctx p.pa n else q.1
      let v := h.threadViewer
      let ms := decide (sp = .phys) && memorySide s h.crew p.va
      let d := natToBytes (h.read x.v (x.sz == .b64) 0 false p.lane).toNat n
      let w : Wide :=
        { agent := v.agent, core := v.core, crew := v.crew, space := sp, addr := p.pa, data := d, ms := ms,
          scope := if fenceMode s h.crew.ctx then .crew else .thread, rel := liveReleases s (q.2 ++ h.split.fences) }
      pure (storePlaced s v w, h)

/-- `pf`. -/
def threadPrefetch (x : MemArgs) (s : State) : Host.Outcome State Fault Refusal :=
  runThread (.pf x) x.g s fun s h act => pure ((laneVas h act x.base (memDisp x)).foldl (fun s a => prefetchLane s h x.x a.2) s, h)

/-- `lea` in either form. -/
def threadLea (i : Instr) (g : Guard) (d base : Opnd) (disp : W64) (s : State) : Host.Outcome State Fault Refusal :=
  runThread i g s fun s h act => pure (s, h.write d true false act fun l => h.read base true 0 false l + disp)

/-- `atom` and `acas`, once for each thread on its address (R432). -/
def threadAtomic (i : Instr) (g : Guard) (d base : Opnd) (wide signed : Bool) (disp : W64) (ord : Ord) (sc : Scope) (f : Here → Nat → Nat → Nat)
    (s : State) : Host.Outcome State Fault Refusal :=
  runThread i g s fun s h act => do
    let n := if wide then 8 else 4
    let vas := laneVas h act base disp
    let ts ← checkGlobal s h 2 n .w vas
    watch s h 2 n vas
    match ts with
    | [] => pure (s, h)
    | t :: _ => do
      let r := withMode s h (Ord.releases ord) sc
      Here.threadWaits s h r.isSome .phys (t.2.phys t.1.2) n
      let p := rmw s h h.threadViewer h.split.fences t n r (withMode s h (Ord.acquires ord) sc) (f h t.1.1)
      pure (p.1, h.write d wide false act fun _ => oldValue signed n p.2)

/-- `fence`: earlier loads have their values; an acquire learns what they read from, a release is carried by later stores (R241, R325). -/
def threadFence (x : FenceArgs) (s : State) : Host.Outcome State Fault Refusal :=
  runThread (.fence x) x.g s fun s h act =>
    if act = 0 then .ok (s, h)
    else if !h.split.flight.isEmpty then pause .ordering
    else
      let s := if Ord.acquires x.sem then learnHeard s h.threadViewer x.scope else s
      let q := Here.threadRelease s h (if Ord.releases x.sem then some x.scope else none)
      .ok (q.1, { h with split := { h.split with fences := liveReleases q.1 (h.split.fences ++ q.2) } })

/-- `upd`: the pair enters the update unit (R242, R363). -/
def threadUpdate (x : UpdArgs) (s : State) : Host.Outcome State Fault Refusal :=
  runThread (.upd x) x.g s fun s h act => do
    let ts ← checkUpdate s h (laneVas h act x.base (x.disp.signExtend 64))
    match updateLanes s h ts fun l => h.read x.v (evenOpnd x.v) 0 false l with
    | [] => pure (s, h)
    | e :: _ => do
      let r := withMode s h false .thread
      Here.threadWaits s h r.isSome .phys (e.pa / 128 * 128) 128
      if !roomFor s e.pa then pause .ordering
      pure (acceptLane (Here.threadRelease (touchAll s h.crew.core true ts) h r).1 h.crew e, h)

/-- `uflush`. -/
def threadFlush (x : RangeArgs) (s : State) : Host.Outcome State Fault Refusal :=
  runThread (.uflush x) x.g s fun s h act => do
    let t ← flushRecords s h (ranges h act x.base x.len true)
    pure (t, h)

/-- An instruction of a thread: the memory instructions as above, every other as in the execute slice (R432). -/
def threadExec (i : Instr) (s : State) : Host.Outcome State Fault Refusal :=
  match i with
  | .la x => threadLoad i x false s
  | .lsa x => threadLoad i x true s
  | .sd x => threadStore x s
  | .pf x => threadPrefetch x s
  | .lea x => threadLea i x.g x.d x.base (x.disp.signExtend 64) s
  | .leaLong x => threadLea i x.g x.d x.base x.disp s
  | .atom x =>
    let wide := AtomTy.bits x.ty == 64
    threadAtomic i x.g x.d x.base wide (x.ty == .s32 || x.ty == .s64) (x.disp.signExtend 64 * BitVec.ofNat 64 (AtomTy.bits x.ty / 8)) x.ord x.scope
      (fun h l old => atomOp x.op x.ty old ((h.read x.v wide 0 false l).toNat % 2 ^ AtomTy.bits x.ty)) s
  | .acas x =>
    threadAtomic i x.g x.d x.base x.wide false 0 x.ord x.scope
      (fun h l old => if old = (h.read x.cmp x.wide 0 false l).toNat then (h.read x.new x.wide 0 false l).toNat else old) s
  | .fence x => threadFence x s
  | .upd x => threadUpdate x s
  | .uflush x => threadFlush x s
  | _ => exec i s

/-! ### A thread's turn -/

/-- Word `n` of a program, and no word beyond its end. -/
def Program.word (p : Program) (n : Nat) : W64 := (p.code[n]?).getD 0
/-- The word at which a thread stands. -/
def Here.wordNo (h : Here) : Nat := (h.split.pc - h.crew.xbase).toNat / 8
/-- A thread stands in a region, or at its end. -/
def Here.inRegion (h : Here) (r : Region) : Bool := decide (r.first ≤ h.wordNo) && decide (h.wordNo ≤ r.last)

/-- What a transfer that leaves the region is (R432): *misaligned instruction address* at the transferring instruction, which has no other effect. -/
def keepInside (s : State) (u : UnitRef) (r : Region) (t : State) : State :=
  match t.here? u with
  | none => t
  | some h =>
    if h.split.inHandler || h.split.wait != .ready || h.inRegion r then t
    else takeTrap s u { cause := cause0 8 .execute, lane := some u.split }

/-- Runs the instruction at which a thread stands, unless it names a register that a load has yet to write: the instruction, and the state after it. -/
def runWord (s : State) (h : Here) (p : Program) (r : Region) : Option Instr × Host.Outcome State Fault Refusal :=
  match decodePortable p.nvp (p.word h.wordNo) (p.word (h.wordNo + 1)) with
  | none => (none, .next (takeTrap s h.u { cause := cause0 1 .execute }))
  | some i =>
    let us := threadUses i
    if h.split.flight.any fun f => f.regs.any (fileRegs (us.1 ++ us.2)).contains then (none, .next (parkUnit s h.u .ordering))
    else
      match protect (threadExec i) h.u i s with
      | .next t => (some i, .next (keepInside s h.u r t))
      | o => (some i, o)

/-- One turn of a thread: its next instruction, or at the end of its region the boundary, once its loads have their values (R431). -/
def threadTurn (s : State) (h : Here) (p : Program) : Option Instr × Host.Outcome State Fault Refusal :=
  match p.regions[h.crew.region]? with
  | none => (none, .next s)
  | some r =>
    if h.wordNo = r.last then (none, .next (parkUnit s h.u (if h.split.flight.isEmpty then .region else .ordering)))
    else runWord s h p r

/-- A load in flight gets its value (R217, R321, R322), unless an earlier one of its bytes is outstanding, a command owns its line, or the register's place in the backing store cannot be written now. -/
def arriveFlight (s : State) (u : UnitRef) (n : Nat) : State :=
  match s.here? u with
  | none => s
  | some h =>
    match h.split.flight[n]? with
    | none => s
    | some f =>
      let k := Size.bytes f.sz
      let regs := spilledRegs [(.v (BitVec.ofNat 8 f.dest), f.sz == .b64)]
      if ((h.split.flight.take n).any fun e => e.hits f.space f.pa k) || !(lineWaits s f.space f.pa k).isEmpty then s
      else
        let r := loadRead (if f.space = .phys then applyLines s f.pa k else s) h.crew.ctx f.space f.pa false
        let t := if f.space = .phys ∧ memorySide r.1 h.crew f.va = false then fillL1 r.1 h.crew.core h.crew.ctx f.va (f.pa / 128) f.ro else r.1
        let v := h.threadViewer
        let b := t.viewBytes v f.space f.pa k
        match fillRegs (observe t v f.acq (releasesRead t v f.space f.pa k)) h regs with
        | .error _ => s
        | .ok (t, h) =>
          let h := h.write (.v (BitVec.ofNat 8 f.dest)) (f.sz == .b64) false (laneBit u.split) fun _ => if r.2.isSome then 0 else Size.extend f.sz (bytesToNat b)
          match spillRegs t h regs with
          | .error _ => s
          | .ok t =>
            let t := t.put { h with split := { h.split with flight := h.split.flight.eraseIdx n } }
            match r.2 with
            | none => t
            | some code => splitCheck t h.crew.ctx u code (BitVec.ofNat 64 f.pa)

end Sys2Proof.Machine
end

