-- ==== Sys2Proof/Machine/Issue.lean ====
section
/-! DEFINITION. Selecting units, packed sets and the issue of one split's instruction (R22 to R24, R382 to R384, R403, R408). -/
namespace Sys2Proof.Machine

/-! ### Selection (R382) -/

/-- Rank of $role: matrix-issue 3, producer 2, row-normaliser 1 (R382 key 3). -/
def roleRank (role : W32) : Nat := if role = 2 then 3 else if role = 1 then 2 else if role = 3 then 1 else 0

/-- The keys of R382, each smaller for the unit it favours. -/
def unitKeys (s : State) (h : Here) : List Nat :=
  [if h.split.boosted.isSome then 0 else 1, h.split.boosted.getD 0, 7 - State.prio s h.crew.queue, 3 - roleRank h.warp.role,
   h.split.readyAt, h.u.crew, h.u.pair, h.split.born]

/-- The first key that differs decides. -/
def keysBefore : List Nat → List Nat → Bool
  | a :: as, b :: bs => decide (a < b) || (decide (a = b) && keysBefore as bs)
  | _, _ => false

/-- Ready units of a core that satisfy a condition, in no order. -/
def readyUnits (s : State) (core : Nat) (f : Here → Bool) : List Here :=
  ((coreUnits s core).filterMap fun x => s.here? x.1).filter fun h => h.isReady && f h

/-- The unit that R382 puts first. -/
def selectUnit (s : State) (hs : List Here) : Option Here := minBy (fun a b => keysBefore (unitKeys s a) (unitKeys s b)) hs

/-- The members of a packed set besides the selected unit (R23, R384): splits of other warps of the crew at the same address, in order. -/
def packWith (s : State) (h : Here) (hs : List Here) : List Here :=
  let fits := hs.filter fun x => x.u.crew == h.u.crew && x.u.pair != h.u.pair && x.split.pc == h.split.pc
  let sorted := sortBy (fun a b => keysBefore (unitKeys s a) (unitKeys s b)) fits
  let one := sorted.foldl (fun (l : List Here) x => if l.any (fun y => y.u.pair == x.u.pair) then l else l ++ [x]) []
  one.take (if h.crew.grant = 8 then 3 else if h.crew.grant = 16 then 1 else 0)

/-- Changes a pipe. -/
def State.onPipe (s : State) (core port : Nat) (f : Pipe → Pipe) : State :=
  let k := s.core core
  s.setCore core { k with pipes := k.pipes.modify port f }

/-- The pipe as it stands. -/
def State.pipe (s : State) (core port : Nat) : Pipe := ((s.core core).pipes[port]?).getD Pipe.reset

/-- An execute pipe with nothing to run selects (R382, R384). -/
def choosePipe (s : State) (core port : Nat) : State :=
  let hs := readyUnits s core fun h => decide (h.u.slice = .execute) && h.warp.pipe == port
  match selectUnit s hs with
  | none => s
  | some h =>
    let us := h.u :: (packWith s h hs).map (·.u)
    us.foldl (fun s u => s.onSplit u fun x => { x with boosted := none })
      (s.onPipe core port fun _ => { running := us, next := 0, breaking := false })

/-- A packed set ends: its members are separate units again, with no latch kept, each ready from this cycle if it can issue (R24, R38, R384). -/
def dissolve (s : State) (core port : Nat) : State :=
  let now := (s.core core).cyc.toNat
  (s.pipe core port).running.foldl (fun s u => s.onSplit u fun x =>
    { x with lat := [], readyAt := if x.wait = .ready then now else x.readyAt }) (s.onPipe core port fun _ => Pipe.reset)

/-- The members of a set stand at one address. -/
def samePc (s : State) (us : List UnitRef) : Bool :=
  match us.map fun u => (s.here? u).map fun h => h.split.pc with
  | a :: rest => rest.all (· == a)
  | [] => true

/-- Every member has issued the instruction: the next round begins, or the set ends (R24). -/
def endRound (s : State) (core port : Nat) : State :=
  let p := s.pipe core port
  if p.breaking || !samePc s p.running then dissolve s core port else s.onPipe core port fun p => { p with next := 0 }

/-- What a pipe does about a member whose turn it is. -/
inductive Member
  /-- it issues -/
  | issues
  /-- it has ended, is parked or halted: the set ends after this round -/
  | gone
  /-- it is stalled or held: the pipe waits -/
  | waits
  deriving DecidableEq, Repr

/-- The state of a member. -/
def memberState (s : State) (u : UnitRef) : Member :=
  match s.here? u with
  | none => .gone
  | some h => if h.split.halted || h.split.wait.parks then .gone else if h.isReady then .issues else .waits

/-- The member of a pipe's unit that issues next, passing over those that cannot. -/
def nextMember (s : State) (core port : Nat) : (fuel : Nat) → State × Option UnitRef
  | 0 => (s, none)
  | n + 1 =>
    let p := s.pipe core port
    match p.running[p.next]? with
    | none => (if p.running.isEmpty then s else endRound s core port, none)
    | some u =>
      match memberState s u with
      | .issues => (s, some u)
      | .waits => (s, none)
      | .gone => nextMember (s.onPipe core port fun p => if p.running.length ≤ 1 then Pipe.reset else { p with next := p.next + 1, breaking := true }) core port n

/-- The turn of the next member after one has issued; a stalled instruction is issued again. -/
def afterMember (s : State) (core port : Nat) (u : UnitRef) : State :=
  let p := s.pipe core port
  let stalled := match s.here? u with
    | none => false
    | some h => h.split.stalled
  if !p.running.contains u || stalled then s
  else
    let s := s.onPipe core port fun p => { p with next := p.next + 1 }
    if p.running.length ≤ p.next + 1 then endRound s core port else s

/-! ### Issue -/

/-- A split issues: the cycle is noted and a boost ends (R383). -/
def noteIssue (s : State) (h : Here) : State :=
  s.onSplit h.u fun x => { x with issued := (s.core h.crew.core).cyc.toNat, boosted := none }

/-- The queue edges of an instruction (R327): what happens before what the warp does next happens before the pops of the entries it has pushed, and what happened before the pushes of those it has taken happens before what it does next. `s` is the state in which it issued. -/
def queueEdges (s t : State) (u : UnitRef) : State :=
  if t.wide.isEmpty then t
  else
    match s.pair? u.crew u.pair, t.pair? u.crew u.pair with
    | some p, some q =>
      let ag : Agent := .warp u.crew u.pair u.slice
      let seen := (q.warp u.slice).seen
      let taken := (p.queues.filter fun x => consumer x.2.dir == some u.slice).flatMap fun x =>
        (x.2.entries.filter fun e => decide (e.id ≤ seen)).flatMap (·.past)
      let t := learnStores t ag taken
      let past := pastOf t ag
      let old := fun (n : Nat) => ((Tbl.get? p.queues n).map fun x => x.entries.map (·.id)).getD []
      let mark := fun (x : Nat × Queue) =>
        if producer x.2.dir = u.slice then
          (x.1, { x.2 with entries := x.2.entries.map fun e => if (old x.1).contains e.id then e else { e with past := past } })
        else x
      t.onPair u.crew u.pair fun q => { q with queues := q.queues.map mark }
    | _, _ => t

/-- Runs the fetched instruction of a split. -/
def runFetched (s : State) (u : UnitRef) (x : Split) (i : Instr) : Host.Outcome State Fault Refusal :=
  match protect (exec i) u i s with
  | .next t => .next (afterIssue (queueEdges s t u) u x (some i))
  | .fault r => .fault r
  | .refused r => .refused r

/-- An issue of a thread of a Portable Form program. -/
def issueThread (s : State) (h : Here) (p : Program) : Host.Outcome State Fault Refusal :=
  match threadTurn (noteIssue s h) h p with
  | (i, .next t) => .next (afterIssue t h.u h.split i)
  | (_, o) => o

/-- After an issue: an instruction that waits at owned lines has its place in the order of arrival there, any other has left its places (R353). -/
def issued (s : State) (u : UnitRef) : State :=
  let s := { s with cur := none }
  let w : Option Wait := (s.here? u).map (·.split.wait)
  match w with
  | some (.line ls) => waitAt { s with held := s.held.filter fun e => e.2 != .unit u || ls.contains e.1 } ls (.unit u)
  | _ => waitDone s (.unit u)

/-- What a ready split does at its turn: a machine check that waits is delivered at this boundary (R408), the first met of several; else the instruction at its program counter is fetched, decoded and run, or a thread of a Portable Form program goes on. -/
def issueOne (s : State) (u : UnitRef) : Host.Outcome State Fault Refusal :=
  match s.here? u with
  | none => .next s
  | some h =>
    match h.split.mc with
    | (cause, addr) :: rest => .next (takeTrap (s.onSplit u fun x => { x with mc := rest }) u { cause := cause.toNat, addr := addr })
    | [] =>
      match h.program? with
      | some p => issueThread s h p
      | none =>
        match fetchInstr s h with
        | (s, .error st) => .next (afterIssue (stopWith (noteIssue s h) u st) u h.split none)
        | (s, .ok i) => runFetched (noteIssue s h) u h.split i

/-- One issue of a ready split. -/
def issueUnit (s : State) (u : UnitRef) : Host.Outcome State Fault Refusal :=
  match issueOne { s with cur := some u } u with
  | .next t => .next (issued t u)
  | .fault r => .fault r
  | .refused r => .refused r

/-- An issue cycle of an execute pipe. -/
def issuePipe (s : State) (core port : Nat) : Host.Outcome State Fault Refusal :=
  let s := if (s.pipe core port).running.isEmpty then choosePipe s core port else s
  match nextMember s core port 5 with
  | (s, none) => .next s
  | (s, some u) =>
    match issueUnit s u with
    | .next s => .next (afterMember s core port u)
    | o => o

/-- An issue cycle of a core's access processor. -/
def issueAccess (s : State) (core : Nat) : Host.Outcome State Fault Refusal :=
  match selectUnit s (readyUnits s core fun h => decide (h.u.slice = .access)) with
  | none => .next s
  | some h => issueUnit s h.u

/-- An issue cycle of a pipe (ports 0 to 3) or of the access processor (port 4); a gated core, or one that is waking, issues nothing (R386, R387). -/
def issueTurn (s : State) (core port : Nat) : Host.Outcome State Fault Refusal :=
  if 96 ≤ core ∨ 5 ≤ port ∨ (s.core core).gated = true ∨ 0 < (s.core core).waking then .next s
  else if port = 4 then issueAccess s core
  else issuePipe s core port

/-! ### Stalls that end (R224, R241, R312) -/

/-- A stalled instruction would now do something else than wait as it does; that of a portable thread is tried again. -/
def stallOver (s : State) (u : UnitRef) : Bool :=
  let s := { s with cur := some u }
  match s.here? u with
  | none => false
  | some h =>
    if h.program?.isSome then true
    else match fetchInstr s h with
    | (_, .error st) => decide (st ≠ .wait h.split.wait)
    | (s', .ok i) =>
      match exec i s' with
      | .next t =>
        match t.here? u with
        | none => true
        | some h' => h'.split.wait != h.split.wait
      | _ => true

/-- A wait on an ordering, on store-queue entries or on lines. -/
def Wait.onOrder : Wait → Bool
  | .ordering | .storeDrain _ | .line _ => true
  | _ => false

/-- Splits stalled on an ordering that is met become ready. -/
def retryStalls (s : State) : State :=
  (s.crews.flatMap fun e => if e.2.saved.isSome || e.2.saving then [] else crewUnits e.1 e.2).foldl (fun (s : State) (x : UnitRef × Split) =>
    if x.2.wait.onOrder && stallOver s x.1 then wakeUnit s x.1 else s) s

/-- Everything that follows at once from a step. -/
def settleAll (s : State) : State := endCommands (wakeGated (retryStalls (settleCrews (deliverChecks s))))

end Sys2Proof.Machine
end

