-- ==== Sys2Proof/Machine/Turn.lean ====
section
/-! DEFINITION. The turns of the agents: what each entry of the agenda does, and whose turn it is when the agenda is empty (log 1). -/
namespace Sys2Proof.Machine

/-- An event of the table. An instruction is none: only an issue runs it. -/
def eventTurn (s : State) (i : Instr) : State :=
  match exec i { s with cur := none } with
  | .next t => t
  | _ => s

/-- The host masks or unmasks a vector (R447). -/
def maskVector (s : State) (n : Nat) (masked : Bool) : State :=
  let bit := BitVec.ofNat 66 (2 ^ n)
  { s with dev := { s.dev with msixMask := if masked then s.dev.msixMask ||| bit else s.dev.msixMask &&& ~~~bit } }
/-- The host takes a signalled vector; a masked one stays pending (R447). -/
def takeVector (s : State) (n : Nat) : State :=
  { s with dev := { s.dev with msix := s.dev.msix &&& ~~~(BitVec.ofNat 66 (2 ^ n) &&& ~~~s.dev.msixMask) } }

/-- A dirty L2 line is written back: memory holds its bytes (R352). -/
def writeBackLine (s : State) (line : Nat) : State := { s with dirty := s.dirty.filter fun d => d.line != line }

/-- A line of the instruction cache leaves (R351). -/
def dropILine (s : State) (core n : Nat) : State :=
  let k := s.core core
  s.setCore core { k with icache := k.icache.eraseIdx n }

/-- A translation leaves a core's TLB, or with a number from 96 on a cluster's (R361). -/
def dropTlbEntry (s : State) (core n : Nat) : State :=
  if core < 96 then
    let k := s.core core
    s.setCore core { k with tlb := k.tlb.eraseIdx n }
  else { s with tlb2 := Tbl.set s.tlb2 (core - 96) (((Tbl.get? s.tlb2 (core - 96)).getD []).eraseIdx n) }

/-- A split fetches the word at an address ahead of need; a failure has no effect (R74). -/
def fetchAheadWord (s : State) (u : UnitRef) (a : W64) : State :=
  match s.here? u with
  | none => s
  | some h =>
    if fld a 0 3 ≠ 0 ∨ (Tbl.get? h.split.ahead a.toNat).isSome = true then s
    else match fetchWord s h a with
      | .error _ => s
      | .ok (s, w) => s.onSplit u fun x => { x with ahead := Tbl.set x.ahead a.toNat w }

/-- One turn, before what follows from it. -/
def runTurn (s : State) : Turn → Host.Outcome State Fault Refusal
  | .issue core port => issueTurn s core port
  | .event i => .next (eventTurn s i)
  | .tick => .next (tick s)
  | .tickCore core => .next (tickOne s core)
  | .perform n sc => .next (performAt s n sc)
  | .arrive u n => .next (arriveFlight s u n)
  | .writeBack line => .next (writeBackLine s line)
  | .dropLine core n => .next (dropILine s core n)
  | .fetchAhead u a => .next (fetchAheadWord s u a)
  | .dropTlb core n => .next (dropTlbEntry s core n)
  | .spill key => .next (spillDrawer s key)
  | .aperture w off size val => .next (apertureAccess s w off size val)
  | .msixMask n b => .next (maskVector s n b)
  | .msixTake n => .next (takeVector s n)

/-- A turn that a device that is not ready can take: starts, resets, power, aperture writes, host accesses and attestation (R444, R457). -/
def beforeReady : Turn → Bool
  | .event i =>
    match i with
    | .goW _ | .powerOn | .cxlReset | .conventionalReset | .powerLoss | .thermalTrip | .registerWrite _ _ | .hostMemRead _ _
    | .hostMemWrite _ _ | .spdmRequest _ | .astatClear => true
    | _ => false
  | .aperture _ _ _ _ | .msixMask _ _ | .msixTake _ => true
  | _ => false

/-- A turn with what follows at once from it. -/
def takeTurn (s : State) (t : Turn) : Host.Outcome State Fault Refusal :=
  if !s.dev.ready && !beforeReady t then .next s
  else
    match runTurn s t with
    | .next s => .next (settleAll s)
    | o => o

/-! ### With no agenda (log 1) -/

/-- Issue cycles of a core that has a unit of that slice and pipe. -/
def issueTurns (s : State) : List Turn :=
  coreNumbers.flatMap fun c =>
    let us := (s.onCore c).flatMap fun e => e.2.pairs
    if us.isEmpty then []
    else (if us.any fun p => !p.2.acc.ended then [Turn.issue c 4] else [])
      ++ ((List.range 4).filter fun i => us.any fun p => !p.2.exe.ended && p.2.exe.pipe == i).map fun i => Turn.issue c i

/-- Events of a warp pair that may be due. -/
def pairEvents (uid pn : Nat) (p : Pair) : List Instr :=
  (p.acc.loads.flatMap fun l => (l.lanes.take 1).map fun x => .loadValueArrival uid pn l.id x.lane false)
    ++ (p.queues.filter fun q => !q.2.addrs.isEmpty).map (fun q => .storePairing uid pn q.1)
    ++ (match p.acc.stores with
      | [] => []
      | e :: _ => [if e.kind = .upd then .updateAccept uid pn else .storeQueueDrain uid pn])
    ++ (List.range p.xcps.length).map fun i => .xcpComplete uid pn i

/-- The rows of a command are answered by another device. -/
def Cmd.remoteRead (c : Cmd) : Bool :=
  match c.kind with
  | .record _ r => r.op == 6
  | _ => false

/-- Events of a core that may be due; what other devices answer comes from the agenda alone. -/
def coreEvents (n : Nat) (k : Core) : List Instr :=
  (if k.posts.isEmpty then [] else [.commandAcceptance n])
    ++ ((k.cmds.filter fun c => !c.remoteRead).flatMap fun c =>
      ((List.range c.rows).find? fun r => !c.done.contains r).toList.map fun r => .engineRowFinish n c.id r .ok [])
    ++ ((List.range 2).filter fun b => !((k.banks[b]?).getD []).isEmpty).map (fun b => .matrixPass n b)
    ++ (List.range k.deques.length).map fun d => .continuationPack n d

/-- Events of a host queue that may be due. -/
def queueEvents (n : Nat) : List Instr :=
  [.queueSwitchIn n, .queueSwitchOut n, .noOpRecord n, .launch n, .eventWait n, .eventWrite n, .eventWaitPoll n, .crewPlacement n,
   .preemptionRequest n, .launchCompletion n]

/-- Events that may be due. -/
def dueEvents (s : State) : List Instr :=
  (s.crews.flatMap fun (c : Nat × Crew) => (c.2.pairs.flatMap fun (p : Nat × Pair) => pairEvents c.1 p.1 p.2) ++ [.crewSave c.1, .crewResume c.1])
    ++ (s.cores.flatMap fun (k : Nat × Core) => coreEvents k.1 k.2)
    ++ (s.queues.flatMap fun (q : Nat × HostQueue) => queueEvents q.1)
    ++ (if mailboxBusy s then [.mailboxQuery, .mailboxLoad, .mailboxUnload, .mailboxEvict] else [])
    ++ (if s.dev.istatus = 1 then [.invalidationComplete] else [])

/-- Values that portable threads wait for. -/
def arrivals (s : State) : List Turn :=
  s.crews.flatMap fun c => (crewUnits c.1 c.2).filterMap fun x => if x.2.flight.isEmpty then none else some (.arrive x.1 0)

/-- Every turn that may be due. -/
def dueTurns (s : State) : List Turn :=
  issueTurns s ++ arrivals s ++ (dueEvents s).map Turn.event ++ (if s.wide.isEmpty then [] else [.perform 0 .domain]) ++ [.tick]

/-- The turn that comes when the agenda names none: those that may be due, one after another. -/
def defaultTurn (s : State) : Turn :=
  let ts := dueTurns s
  (ts[s.clock % ts.length]?).getD .tick

end Sys2Proof.Machine
end

