-- ==== Sys2Proof/Machine/Step.lean ====
section
/-! DEFINITION. One step: the turn of one agent, and the state in which a given word is the next instruction. -/
namespace Sys2Proof.Machine

/-- One step: the next turn of the agenda, or without one the next turn that may be due (log 1). -/
def step (s : State) : Host.Outcome State Fault Refusal :=
  match s.agenda with
  | t :: rest => takeTurn { s with agenda := rest } t
  | [] => takeTurn { s with clock := s.clock + 1 } (defaultTurn s)

/-- The state in which the next step issues the instruction with these bits (log 2). -/
def State.withFetchWord (s : State) (nbits w : Nat) : State := placeWord s nbits w

end Sys2Proof.Machine
end

