-- ==== Sys2Proof/Safety.lean ====
section
/-! DEFINITION. The terms in which statements speak of safe states and of steps that complete: the issuing split, operands that can be served, memory in canonical form, what an instruction leaves alone. -/
namespace Sys2Proof.Machine

/-! ### States -/

/-- Memory and every scratchpad are in canonical form. -/
def State.memoryCanonical (s : State) : Prop :=
  Memory.wf s.mem = true ∧ ∀ e ∈ s.cores, Memory.wf e.2.scratch = true

/-- A step is safe when it answers a next state. -/
def SafeStep (o : Host.Outcome State Fault Refusal) : Prop := ∃ t, o = .next t

/-- Byte `a` of physical memory as an observer reads it now (R8, R318). -/
def State.byteAt (s : State) (v : Viewer) (a : Nat) : Byte := s.view v .phys a

/-- Every byte of physical memory and of every scratchpad reads the same to every observer. -/
def SameMemory (s t : State) : Prop := ∀ v sp a, t.view v sp a = s.view v sp a

/-! ### Instructions -/

/-- Split `u` is issuing, and `h` is its view. -/
structure Issuing (s : State) (u : UnitRef) (h : Here) : Prop where
  cur : s.cur = some u
  here : s.here? u = some h

/-- The view an instruction starts from: whatever the split waited for is over. -/
def Here.awake (h : Here) : Here := { h with split := { h.split with wait := .ready } }

/-- The operands of an instruction can be served: registers above the bound are filled, every source queue has its entries and every destination queue room, no register waits for a load, no latch read is stale and no entry popped carries a marker (R32, R60, R221, R38, R42). `s'` and `h'` are the state and the view with the filled registers; they are `s` and `h.awake` where no register above the bound is named. -/
def Served (i : Instr) (g : Guard) (s : State) (h : Here) (s' : State) (h' : Here) : Prop :=
  prepare s h.awake (i.uses h.u.slice).1 (i.uses h.u.slice).2 (h.awake.active g) = .ok (s', h')

/-- The registers above the bound that an instruction writes go to the backing store, which can be written (R32, R33). -/
def Stored (i : Instr) (sl : Slice) (s : State) (h : Here) (s' : State) : Prop :=
  spillRegs s h (dedup (spilledRegs (i.uses sl).1)) = .ok s'

/-- With operands served and its results stored, the instruction completes, and `f` says what becomes of the view. -/
def CompletesAs (i : Instr) (g : Guard) (f : Here → Here) : Prop :=
  ∀ s u h s₁ h₁ s₂, Issuing s u h → Served i g s h s₁ h₁ → Stored i h.u.slice s₁ (f h₁) s₂ → exec i s = .next (s₂.put (f h₁))

end Sys2Proof.Machine
end

