-- ==== Sys2Proof/Certificates/Slice0/Obligations.lean ====
section
/-! DEFINITION. The statements for the provers, after the terms they use. -/

namespace Sys2Proof.Claims
open Sys2Proof.Machine

/-! ### Values as the spec writes them -/

/-- A source at the width of its type: sign-extended for a signed type, zero-extended else (R102). -/
def source (t : Ty) (a : W64) : Int :=
  if Ty.signed t then (a.setWidth (Ty.width t)).toInt else ((a.setWidth (Ty.width t)).toNat : Int)

/-- An exact result reduced modulo 2^w, sign-extended for a signed type, zero-extended else (R102). -/
def reduced (t : Ty) (e : Int) : W64 :=
  if Ty.signed t then (BitVec.ofInt (Ty.width t) e).signExtend 64 else (BitVec.ofInt (Ty.width t) e).setWidth 64

/-- The least and the greatest value of a type (Table 4.1). -/
def least (t : Ty) : Int := if Ty.signed t then -2 ^ (Ty.width t - 1) else 0
def greatest (t : Ty) : Int := if Ty.signed t then 2 ^ (Ty.width t - 1) - 1 else 2 ^ Ty.width t - 1

/-- The result of an integer operation with or without .sat (R169): the exact value reduced, or, with .sat, the nearer bound and the sat flag. -/
def exactly (t : Ty) (sat : Bool) (e : Int) : Res :=
  if sat = true ∧ e < least t then { val := reduced t (least t), flags := fSat }
  else if sat = true ∧ greatest t < e then { val := reduced t (greatest t), flags := fSat }
  else { val := reduced t e, flags := 0 }

/-- A bit pattern of the type's width as a result: zero-extended, no flag (R102, R174). -/
def pattern {w : Nat} (b : BitVec w) : Res := { val := b.setWidth 64, flags := 0 }

/-- The view after a lane-by-lane instruction: the sources are popped, `op` of up to three sources goes to the destination in every active lane, and the latches, the flags and the pc follow (R36, R60, R151). -/
def lanewise (i : Instr) (x : AluArgs) (t : Ty) (wide : Bool) (op : W64 → W64 → W64 → Res) (h : Here) : Here :=
  let srcs := (i.uses h.u.slice).2
  let v := fun k l => h.src srcs k (Ty.signed t) l
  finish h i srcs x.d wide x.nwb (h.active x.g) fun l => op (v 0 l) (v 1 l) (v 2 l)

/-- An instruction of group 1 with its exact value. -/
def Integer (i : Instr) (x : AluArgs) (sat : Bool) (e : Ty → Int → Int → Int → Int) : Prop :=
  CompletesAs i x.g fun h =>
    let t := x.ty.resolve h.u.slice .int
    lanewise i x t t.wide (fun a b c => exactly t sat (e t (source t a) (source t b) (source t c))) h

/-- An instruction of group 2 with its result at the width of its type. -/
def Bitwise (i : Instr) (x : AluArgs) (f : (w : Nat) → BitVec w → BitVec w → BitVec w → W64 → BitVec w) : Prop :=
  CompletesAs i x.g fun h =>
    let t := x.ty.resolve h.u.slice .bits
    let w := Ty.width t
    lanewise i x t t.wide (fun a b c => pattern (f w (a.setWidth w) (b.setWidth w) (c.setWidth w) b)) h

/-- A group 1 or 2 instruction with an immediate in place of srcb: the default type of the group, the immediate sign-extended to 64 bits (R63). -/
def Immediate (i : Instr) (x : ImmArgs) (dflt : Dflt) (op : Ty → W64 → W64 → Res) : Prop :=
  CompletesAs i x.g fun h =>
    let srcs := (i.uses h.u.slice).2
    let t := dflt.ty h.u.slice
    finish h i srcs x.d false x.nwb (h.active x.g) fun l => op t (h.src srcs 0 (Ty.signed t) l) (x.imm.signExtend 64)

/-- A floating-point instruction with its operation at the format of its type (R188, R194). -/
def Floating (i : Instr) (x : AluArgs) (dflt : Dflt) (op : Rnd → Bool → Fmt → W64 → W64 → W64 → Res) : Prop :=
  CompletesAs i x.g fun h =>
    let t := x.ty.resolve h.u.slice dflt
    lanewise i x t t.wide (floatOp t (op x.rnd x.ftz)) h

/-- The view after predicate `k` is written in the active lanes where `p` holds, false in the others (R177). -/
def setWhere (h : Here) (k : BitVec 4) (act : W64) (p : Nat → Bool) : Here :=
  { h with warp := h.warp.setPred k.toNat act (maskOf ((lanesOf act).filter p)) }

/-! ### Numbers (chapter 4) -/

/-- The number a pattern stands for (R103, Table 4.2); none for an infinity or a NaN. -/
def numberOf (f : Fmt) (x : Nat) : Option Rat :=
  let E := x / 2 ^ f.mb % 2 ^ f.eb
  let M := x % 2 ^ f.mb
  let m : Rat := (M : Rat) / 2 ^ f.mb
  let v : Rat := if E = 0 then m * 2 ^ (1 - (f.bias : Int)) else (1 + m) * 2 ^ ((E : Int) - f.bias)
  if E = 2 ^ f.eb - 1 ∧ (f.ieee = true ∨ f.e4m3 = true ∧ M = 7) then none
  else some (if x.testBit (f.eb + f.mb) then -v else v)

/-- The sign of a pattern in a register, and whether it is an infinity or a signalling NaN (R103, R104). -/
def negative (f : Fmt) (a : W64) : Bool := a.getLsbD (f.eb + f.mb)
def infinite (f : Fmt) (a : W64) : Bool := f.ieee && decide (a.toNat % 2 ^ (f.eb + f.mb) = (2 ^ f.eb - 1) * 2 ^ f.mb)
def signalling (f : Fmt) (a : W64) : Bool := f.ieee && !a.getLsbD (f.mb - 1)

/-- The smallest normal, the largest finite number and the step there (Table 4.2). -/
def smallestNormal (f : Fmt) : Rat := 2 ^ (1 - (f.bias : Int))
def topStep (f : Fmt) : Rat := 2 ^ ((2 ^ f.eb : Int) - (if f.ieee then 2 else 1) - f.bias - f.mb)
def largest (f : Fmt) : Rat := if f.e4m3 then 448 else (2 ^ (f.mb + 1) - 1) * topStep f

/-- An exact result, by how it compares with each rational number: a rational itself, a square root, a reciprocal of one. -/
def Exact := Rat → Ordering
def exact (v : Rat) : Exact := fun q => if v < q then .lt else if v = q then .eq else .gt
def root (x : Rat) : Exact := fun q => if q < 0 then .gt else exact x (q * q)
def inverseRoot (x : Rat) : Exact := fun q => if q ≤ 0 then .gt else exact 1 (x * (q * q))

/-- The exact result, rounded as if the exponent range had no upper limit, lies beyond the largest finite number (R106): a tie above it rounds to the even significand, which lies beyond it but in .e4m3. -/
def overflows (f : Fmt) (r : Rnd) (v : Exact) : Bool :=
  let L := largest f
  let u := topStep f
  match r with
  | .rn => if f.e4m3 then v (L + u / 2) == .gt || v (-(L + u / 2)) == .lt else v (L + u / 2) != .lt || v (-(L + u / 2)) != .gt
  | .rz => v (L + u) != .lt || v (-(L + u)) != .gt
  | .ru => v L == .gt || v (-(L + u)) != .gt
  | .rd => v (-L) == .lt || v (L + u) != .lt

/-- `y` is the exact result rounded by the mode to one of the numbers of the format, `even` telling whether its last place is zero (R106). -/
def Nearest (f : Fmt) (r : Rnd) (v : Exact) (y : Rat) (even : Bool) : Prop :=
  let all := fun (p : Rat → Prop) => ∀ n z, n < 2 ^ f.bits → numberOf f n = some z → p z
  let up := v y ≠ .gt ∧ all fun z => v z ≠ .gt → y ≤ z
  let down := v y ≠ .lt ∧ all fun z => v z ≠ .lt → z ≤ y
  match r with
  | .rn => all fun z =>
      let mid := (y + z) / 2
      (y < z → v mid = .lt ∨ v mid = .eq ∧ even = true) ∧ (z < y → v mid = .gt ∨ v mid = .eq ∧ even = true)
  | .rz => if v 0 = .lt then up else down
  | .ru => up
  | .rd => down

/-- R106 to R108: an exact result with the sign `neg` becomes a pattern of the format with its flags: zero stays zero; under .ftz a tiny number becomes zero; one beyond the range gives what R107 says; every other is rounded once, inexact and underflowing as R106 says. -/
def Rounded (f : Fmt) (r : Rnd) (ftz : Bool) (v : Exact) (neg : Bool) (res : Res) : Prop :=
  let sign := if neg then 2 ^ (f.eb + f.mb) else 0
  let tiny := v (smallestNormal f) = .lt ∧ v (-smallestNormal f) = .gt
  if v 0 = .eq then res.val.toNat = sign ∧ res.flags = 0
  else if ftz = true ∧ tiny then res.val.toNat = sign ∧ res.flags = fUf ||| fNx
  else
    res.val.toNat < 2 ^ f.bits ∧ negative f res.val = neg ∧
    if overflows f r v = true then
      res.flags = fOf ||| fNx ∧
      if f.ieee = true ∧ (r = .rn ∨ r = .ru ∧ neg = false ∨ r = .rd ∧ neg = true) then infinite f res.val = true
      else numberOf f res.val.toNat = some (if neg then -largest f else largest f)
    else ∃ y, numberOf f res.val.toNat = some y ∧ Nearest f r v y (!res.val.getLsbD 0) ∧
      res.flags = (if v y = .eq then 0 else if tiny then fNx ||| fUf else fNx)

/-- An input of an operation: its number, zero for one below the smallest normal under .ftz (R108). -/
def inputOf (f : Fmt) (ftz : Bool) (a : W64) : Option Rat :=
  (numberOf f (a.toNat % 2 ^ f.bits)).map fun v =>
    if ftz = true ∧ v < smallestNormal f ∧ -smallestNormal f < v then 0 else v

/-- The sign of a sum: its own, or of an exact zero the common sign of zeros of one sign, else + but in .rd (R189). -/
def sumSign (r : Rnd) (x y : Rat) (sx sy : Bool) : Bool :=
  if x + y ≠ 0 then decide (x + y < 0) else if x = 0 ∧ sx = sy then sx else decide (r = .rd)

/-- A number rounded to an integer by a mode. -/
def toInteger (r : Rnd) (x : Rat) : Int :=
  match r with
  | .rn => if x - x.floor < 1 / 2 ∨ (x - x.floor = 1 / 2 ∧ x.floor % 2 = 0) then x.floor else x.floor + 1
  | .rz => if x < 0 then x.ceil else x.floor
  | .ru => x.ceil
  | .rd => x.floor

/-- The canonical NaN of a type as Table 4.3 lists it; +0 where the format has none (Table 4.4). -/
def canonicalNan : Ty → W64
  | .f64 => 0x7FF8000000000000
  | .f32 => 0x7FC00000
  | .f16 => 0x7E00
  | .bf16 => 0x7FC0
  | .e5m2 => 0x7E
  | .e4m3 => 0x7F
  | _ => 0

/-- The types of conversions. -/
def floatTypes : List Ty := [.f64, .f32, .f16, .bf16, .e5m2, .e4m3, .e3m2, .e2m3, .e2m1]
def integerTypes : List Ty := [.s8, .s16, .s32, .s64, .z8, .z16, .z32, .z64]

/-- One value quantised at a block's exponent `e` for `N` bits: its mantissa and its flags (R115). -/
def quantised (N : Nat) (e : Int) (v : FVal) : Int × W32 :=
  let hi : Int := 2 ^ (N - 1) - 1
  let lo : Int := -2 ^ (N - 1)
  match v with
  | .nan _ => (0, 0)
  | .inf n => (if n then lo else hi, 0)
  | .num n m k =>
    let x : Rat := (if n then -1 else 1) * (m : Rat) * 2 ^ k
    let q := x / 2 ^ (e - 127 - (N - 1 : Int))
    let t := toInteger .rn q
    (max lo (min hi t),
     (if (t : Rat) ≠ q then fNx else 0) ||| (if x ≠ 0 ∧ t = 0 then fUf else 0) ||| (if hi < t ∨ t < lo then fSat else 0))

/-- No array of the device holds an error, no injection is armed (R369), and no bank of a scratchpad is marked failed (R347). -/
def NoErrors (s : State) : Prop := s.faults = [] ∧ (∀ i, (s.err i).inj.getLsbD 8 = false) ∧ ∀ i, (s.err i).failed = 0

end Sys2Proof.Claims

open Sys2Proof Sys2Proof.Machine Sys2Proof.Claims

/-! ### Group 1 and group 2 -/

/-- R169: the integer operations and the moves complete with the exact result, reduced and extended, or saturated. -/
def Obligations.IntegerOperationsWriteExactResults : Prop :=
  ∀ x : AluArgs,
    Integer (.iadd x) x x.flag (fun _ a b _ => a + b) ∧
    Integer (.isub x) x x.flag (fun _ a b _ => a - b) ∧
    Integer (.imul x) x false (fun _ a b _ => a * b) ∧
    Integer (.imulh x) x false (fun t a b _ => (a * b) / 2 ^ Ty.width t) ∧
    Integer (.imad x) x false (fun _ a b c => a * b + c) ∧
    Integer (.isad x) x false (fun _ a b c => (a - b).natAbs + c) ∧
    Integer (.imin x) x false (fun _ a b _ => min a b) ∧
    Integer (.imax x) x false (fun _ a b _ => max a b) ∧
    Integer (.iclamp x) x false (fun _ a b c => min (max a b) c) ∧
    Integer (.iabs x) x x.flag (fun _ a _ _ => a.natAbs) ∧
    Integer (.ineg x) x x.flag (fun _ a _ _ => -a) ∧
    CompletesAs (.mov x) x.g (fun h =>
      let t := x.ty.resolve h.u.slice .bits
      lanewise (.mov x) x t t.wide (fun a _ _ => exactly t false (source t a)) h) ∧
    ∀ y : MoviArgs, CompletesAs (.movi y) y.g fun h =>
      let t := y.ty.resolve h.u.slice .bits
      finish h (.movi y) ((Instr.movi y).uses h.u.slice).2 y.d t.wide y.nwb (h.active y.g) fun _ => exactly t false (source t y.imm)

/-- R171: division truncates toward zero and the remainder has the sign of the dividend; Table 6.4 gives the corners. -/
def Obligations.DivisionTruncatesTowardZero : Prop :=
  ∀ x : AluArgs,
    let corner := fun (t : Ty) (a b : Int) => Ty.signed t = true ∧ a = least t ∧ b = -1
    let run := fun (i : Instr) (f : Ty → Int → Int → Res) => CompletesAs i x.g fun h =>
      let t := x.ty.resolve h.u.slice .int
      lanewise i x t t.wide (fun a b _ => f t (source t a) (source t b)) h
    (∀ f : Ty → Int → Int → Res,
      (∀ t a, f t a 0 = { val := 0, flags := fDz }) →
      (∀ t a b, b ≠ 0 → corner t a b → f t a b = { val := reduced t (least t), flags := fOf }) →
      (∀ t a b, b ≠ 0 → ¬corner t a b → f t a b = { val := reduced t (a.tdiv b), flags := 0 }) → run (.idiv x) f) ∧
    (∀ f : Ty → Int → Int → Res,
      (∀ t a, f t a 0 = { val := reduced t a, flags := fDz }) →
      (∀ t a b, b ≠ 0 → corner t a b → f t a b = { val := 0, flags := 0 }) →
      (∀ t a b, b ≠ 0 → ¬corner t a b → f t a b = { val := reduced t (a - b * a.tdiv b), flags := 0 }) → run (.irem x) f)

/-- R170: a sum or difference with a carry in, and the carry out to a predicate. A uniform destination takes the lowest active lane's value whatever its carry in, which is the model's choice (log 88). -/
def Obligations.CarryChainsThroughPredicates : Prop :=
  ∀ (x : CarryArgs),
    let run := fun (i : Instr) (val : Int → Int → Int → Int) (out : Ty → Int → Bool) => CompletesAs i x.g fun h =>
      let srcs := (i.uses h.u.slice).2
      let t := x.ty.resolve h.u.slice .int
      let low := fun k l => ((h.src srcs k (Ty.signed t) l).setWidth (Ty.width t)).toNat
      let cin := fun l => if x.cin = true ∧ bitAt (h.warp.pred x.ki.toNat) l = true then (1 : Int) else 0
      let u := fun l => val (low 0 l) (low 1 l) (cin l)
      let h' := finish h i srcs x.d t.wide x.nwb (h.active x.g) fun l => { val := reduced t (u l), flags := 0 }
      { h' with warp := h'.warp.setPred x.ko.toNat (h.active x.g) (maskOf ((lanesOf (h.active x.g)).filter fun l => out t (u l))) }
    run (.iaddc x) (fun a b c => a + b + c) (fun t u => decide (2 ^ Ty.width t ≤ u)) ∧
    run (.isubb x) (fun a b c => a - b - c) (fun _ u => decide (u < 0))

/-- R174: the bit operations complete with the pattern the rule gives at the width of the type. R175 and R176: the three-input function reads its table bit by bit, and bit fields are cut off at the width. -/
def Obligations.BitOperationsFollowTheirPatterns : Prop :=
  (∀ x : AluArgs,
     Bitwise (.andB x) x (fun _ a b _ _ => a &&& b) ∧
     Bitwise (.orB x) x (fun _ a b _ _ => a ||| b) ∧
     Bitwise (.xorB x) x (fun _ a b _ _ => a ^^^ b) ∧
     Bitwise (.notB x) x (fun _ a _ _ _ => ~~~a) ∧
     Bitwise (.shl x) x (fun _ a _ _ n => a <<< (n.setWidth 32).toNat) ∧
     Bitwise (.shr x) x (fun _ a _ _ n => a >>> (n.setWidth 32).toNat) ∧
     Bitwise (.sra x) x (fun _ a _ _ n => a.sshiftRight (n.setWidth 32).toNat) ∧
     Bitwise (.rotl x) x (fun w a _ _ n => a.rotateLeft ((n.setWidth 32).toNat % w)) ∧
     Bitwise (.popc x) x (fun w a _ _ _ => BitVec.ofNat w ((List.range w).countP fun i => a.getLsbD i)) ∧
     Bitwise (.clz x) x (fun _ a _ _ _ => a.clz) ∧
     Bitwise (.ctz x) x (fun w a _ _ _ => BitVec.ofNat w (((List.range w).find? fun i => a.getLsbD i).getD w)) ∧
     Bitwise (.brev x) x (fun _ a _ _ _ => a.reverse) ∧
     Bitwise (.bsel x) x (fun _ a b c _ => (a &&& c) ||| (b &&& ~~~c))) ∧
  ((∀ (x : BfnArgs) (f : (w : Nat) → W64 → W64 → W64 → BitVec w),
     (∀ w a b d i, i < w →
       (f w a b d).getLsbD i = x.table.getLsbD ((a.getLsbD i).toNat * 4 + (b.getLsbD i).toNat * 2 + (d.getLsbD i).toNat)) →
     CompletesAs (.bfn x) x.g fun h =>
       let srcs := ((Instr.bfn x).uses h.u.slice).2
       let t := x.ty.resolve h.u.slice .bits
       finish h (.bfn x) srcs x.d t.wide x.nwb (h.active x.g) fun l =>
         pattern (f (Ty.width t) (h.src srcs 0 false l) (h.src srcs 1 false l) (h.read x.d t.wide 0 false l))) ∧
   (∀ x : AluArgs, CompletesAs (.bext x) x.g fun h =>
     let t := x.ty.resolve h.u.slice .bits
     let w := Ty.width t
     lanewise (.bext x) x t t.wide (fun a b _ =>
       let p := (b.setWidth 8).toNat
       let n := min ((b >>> 8).setWidth 8).toNat (w - p)
       let field := (a >>> p).setWidth n
       pattern (if x.flag = true then field.signExtend w else field.setWidth w)) h) ∧
   ∀ (x : AluArgs) (f : (w : Nat) → W64 → W64 → W64 → BitVec w),
     (∀ w a b c i, i < w →
       let p := (c.setWidth 8).toNat
       let n := ((c >>> 8).setWidth 8).toNat
       (f w a b c).getLsbD i = if p ≤ i ∧ i < p + n then a.getLsbD (i - p) else b.getLsbD i) →
     CompletesAs (.bins x) x.g fun h =>
       let t := x.ty.resolve h.u.slice .bits
       lanewise (.bins x) x t t.wide (fun a b c => pattern (f (Ty.width t) a b c)) h)

/-- R63: the immediate variants act as their full forms with the default type and the immediate for srcb. -/
def Obligations.ImmediateVariantsActAsFullForms : Prop :=
  ∀ x : ImmArgs,
    let int := fun i (f : Int → Int → Int) => Immediate i x .int fun t a b => exactly t false (f (source t a) (source t b))
    let bits := fun i (f : (w : Nat) → BitVec w → BitVec w → W64 → BitVec w) =>
      Immediate i x .bits fun t a b => pattern (f (Ty.width t) (a.setWidth _) (b.setWidth _) b)
    int (.iaddImm x) (fun a b => a + b) ∧
    int (.isubImm x) (fun a b => a - b) ∧
    int (.imulImm x) (fun a b => a * b) ∧
    int (.iminImm x) (fun a b => min a b) ∧
    int (.imaxImm x) (fun a b => max a b) ∧
    bits (.movImm x) (fun _ _ b _ => b) ∧
    bits (.andImm x) (fun _ a b _ => a &&& b) ∧
    bits (.orImm x) (fun _ a b _ => a ||| b) ∧
    bits (.xorImm x) (fun _ a b _ => a ^^^ b) ∧
    bits (.shlImm x) (fun _ a _ n => a <<< (n.setWidth 32).toNat) ∧
    bits (.shrImm x) (fun _ a _ n => a >>> (n.setWidth 32).toNat) ∧
    bits (.sraImm x) (fun _ a _ n => a.sshiftRight (n.setWidth 32).toNat) ∧
    bits (.rotlImm x) (fun w a _ n => a.rotateLeft ((n.setWidth 32).toNat % w))

/-! ### Group 3 -/

/-- R178, R179, R181 to R183: compares write their predicate, selections and predicate moves read theirs. -/
def Obligations.ComparesAndPredicatesComplete : Prop :=
  (∀ x : CmpArgs, CompletesAs (.icmp x) x.g fun h =>
    let srcs := ((Instr.icmp x).uses h.u.slice).2
    let t := x.ty.resolve h.u.slice .int
    let v := fun k l => source t (h.src srcs k (Ty.signed t) l)
    (setWhere (h.popAll srcs) x.kd (h.active x.g) fun l =>
      match x.cc with
      | .eq => decide (v 0 l = v 1 l)
      | .ne => decide (v 0 l ≠ v 1 l)
      | .lt => decide (v 0 l < v 1 l)
      | .le => decide (v 0 l ≤ v 1 l)
      | .gt => decide (v 0 l > v 1 l)
      | .ge => decide (v 0 l ≥ v 1 l)
      | .ord | .unord => false).advance 8) ∧
  (∀ x : CmpArgs, CompletesAs (.fcmp x) x.g fun h =>
    let srcs := ((Instr.fcmp x).uses h.u.slice).2
    let f := (Fmt.ofTy (x.ty.resolve h.u.slice .f32)).getD fmtF32
    let r := fun l => fcmpOp f x.ftz x.cc (h.src srcs 0 false l) (h.src srcs 1 false l)
    ((setWhere (h.popAll srcs) x.kd (h.active x.g) fun l => (r l).1).flags (h.active x.g) fun l => (r l).2).advance 8) ∧
  (∀ x : AluArgs, CompletesAs (.fclass x) x.g fun h =>
    let t := x.ty.resolve h.u.slice .f32
    lanewise (.fclass x) x t false (fun a _ _ => { val := fclassOp ((Fmt.ofTy t).getD fmtF32) a, flags := 0 }) h) ∧
  (∀ x : SelArgs, CompletesAs (.sel x) x.g fun h =>
    let srcs := ((Instr.sel x).uses h.u.slice).2
    let t := x.ty.resolve h.u.slice .bits
    finish h (.sel x) srcs x.d t.wide x.nwb (h.active x.g) fun l =>
      exactly t false (source t (h.src srcs (if bitAt (h.warp.pred x.kn.toNat) l then 0 else 1) (Ty.signed t) l))) ∧
  (∀ x : KopArgs, CompletesAs (.kop x) x.g fun h =>
    let a := if x.neg then ~~~(h.warp.pred x.ka.toNat) else h.warp.pred x.ka.toNat
    let d := h.warp.pred x.kd.toNat
    let r := match x.op with
      | .and => d &&& a
      | .or => d ||| a
      | .xor => d ^^^ a
      | .andn => d &&& ~~~a
    Here.advance { h with warp := h.warp.setPred x.kd.toNat (h.active x.g) r } 8) ∧
  ∀ (x : KmovArgs), CompletesAs (.kmov x) x.g fun h =>
    let srcs := ((Instr.kmov x).uses h.u.slice).2
    let t := x.ty.resolve h.u.slice .bits
    match x.form with
    | .toReg nwb d kn => finish h (.kmov x) srcs d t.wide nwb (h.active x.g) fun l =>
        { val := if bitAt (h.warp.pred kn.toNat) l then 1 else 0, flags := 0 }
    | .ofReg _ kn => (setWhere (h.popAll srcs) kn (h.active x.g) fun l =>
        decide ((h.src srcs 0 false l).setWidth (Ty.width t) ≠ 0)).advance 8
    | .copy kd kn neg =>
      let r := if neg then ~~~(h.warp.pred kn.toNat) else h.warp.pred kn.toNat
      Here.advance { h with warp := h.warp.setPred kd.toNat (h.active x.g) r } 8

/-! ### Groups 4 to 6 -/

/-- R188 to R196: the single-precision, packed, double-precision and transcendental instructions complete with their operation's result and flags. -/
def Obligations.FloatInstructionsComplete : Prop :=
  (∀ x : AluArgs,
     Floating (.fadd x) x .f32 faddOp ∧ Floating (.fsub x) x .f32 fsubOp ∧ Floating (.fmul x) x .f32 fmulOp ∧
     Floating (.fma x) x .f32 fmaOp ∧ Floating (.fmin x) x .f32 fminOp ∧ Floating (.fmax x) x .f32 fmaxOp ∧
     Floating (.fabs x) x .f32 fabsOp ∧ Floating (.fneg x) x .f32 fnegOp ∧ Floating (.fclamp x) x .f32 fclampOp ∧
     Floating (.frcp x) x .f32 frcpOp ∧ Floating (.frsq x) x .f32 frsqOp ∧ Floating (.fsqrt x) x .f32 fsqrtOp ∧
     Floating (.fdiv x) x .f32 fdivOp ∧ Floating (.frnd x) x .f32 (frndOp x.flag) ∧
     CompletesAs (.fdot2 x) x.g fun h =>
       lanewise (.fdot2 x) x (x.ty.resolve h.u.slice .f32) false (fdot2Op x.flag x.rnd x.ftz) h) ∧
  (∀ x : AluArgs,
     Floating (.dadd x) x .f64 faddOp ∧ Floating (.dsub x) x .f64 fsubOp ∧ Floating (.dmul x) x .f64 fmulOp ∧
     Floating (.dfma x) x .f64 fmaOp ∧ Floating (.dmin x) x .f64 fminOp ∧ Floating (.dmax x) x .f64 fmaxOp ∧
     Floating (.ddiv x) x .f64 fdivOp ∧ Floating (.dsqrt x) x .f64 fsqrtOp ∧
     Floating (.fex2 x) x .f32 fex2Op ∧ Floating (.flg2 x) x .f32 flg2Op ∧ Floating (.fsin x) x .f32 fsinOp ∧
     Floating (.fcos x) x .f32 fcosOp ∧ Floating (.ftanh x) x .f32 ftanhOp)

/-- Chapter 4 and R188 to R193, independently of the operations' own definitions. R106 to R108, R189: with inputs that are numbers, sums, differences, products, fused products, quotients, reciprocals and square roots are the exact result rounded once, with its flags; R189: a zero divisor, a negative square root and their like give the infinity or the NaN with dz or nv. R190, R105: minimum and maximum give the lesser and the greater number, −0 below +0. R193: rounding to an integral value. R178, R179: the comparisons of numbers. R104, R105: an operation on a quiet NaN gives the canonical NaN and no flag, and one on a signalling NaN sets nv as well. -/
def Obligations.FloatResultsAreRoundedOnce : Prop :=
  (∀ (r : Rnd) (z : Bool) (t : Ty) (f : Fmt) (a b c : W64) (x : Rat), t ∈ [Ty.f32, .f16, .bf16, .f64] → Fmt.ofTy t = some f → inputOf f z a = some x →
    let sa := negative f a
    let sb := negative f b
    let invalid : Res := { val := canonicalNan t, flags := fNv }
    let divZero := fun (s : Bool) (q : Res) => infinite f q.val = true ∧ negative f q.val = s ∧ q.val.toNat < 2 ^ f.bits ∧ q.flags = fDz
    (x ≠ 0 → Rounded f r z (exact (1 / x)) sa (frcpOp r z f a b c)) ∧
    (x = 0 → divZero sa (frcpOp r z f a b c)) ∧
    (0 < x → Rounded f r z (root x) false (fsqrtOp r z f a b c) ∧ Rounded f r z (inverseRoot x) false (frsqOp r z f a b c)) ∧
    (x = 0 → (fsqrtOp r z f a b c).val.toNat = (if sa then 2 ^ (f.eb + f.mb) else 0) ∧ (fsqrtOp r z f a b c).flags = 0 ∧ divZero sa (frsqOp r z f a b c)) ∧
    (x < 0 → fsqrtOp r z f a b c = invalid ∧ frsqOp r z f a b c = invalid) ∧
    (∀ inexact, let q := frndOp inexact r z f a b c
      q.val.toNat < 2 ^ f.bits ∧ numberOf f q.val.toNat = some (toInteger r x : Rat) ∧ negative f q.val = sa ∧
        q.flags = if inexact = true ∧ (toInteger r x : Rat) ≠ x then fNx else 0) ∧
    ∀ y, inputOf f z b = some y →
      Rounded f r z (exact (x + y)) (sumSign r x y sa sb) (faddOp r z f a b c) ∧
      Rounded f r z (exact (x - y)) (sumSign r x (-y) sa (!sb)) (fsubOp r z f a b c) ∧
      Rounded f r z (exact (x * y)) (sa != sb) (fmulOp r z f a b c) ∧
      (∀ w, inputOf f z c = some w → Rounded f r z (exact (x * y + w)) (sumSign r (x * y) w (sa != sb) (negative f c)) (fmaOp r z f a b c)) ∧
      (y ≠ 0 → Rounded f r z (exact (x / y)) (sa != sb) (fdivOp r z f a b c)) ∧
      (y = 0 → x ≠ 0 → divZero (sa != sb) (fdivOp r z f a b c)) ∧
      (y = 0 → x = 0 → fdivOp r z f a b c = invalid) ∧
      (let m := fminOp r z f a b c
       let n := fmaxOp r z f a b c
       m.flags = 0 ∧ n.flags = 0 ∧ m.val.toNat < 2 ^ f.bits ∧ n.val.toNat < 2 ^ f.bits ∧
       numberOf f m.val.toNat = some (if y < x then y else x) ∧ numberOf f n.val.toNat = some (if x < y then y else x) ∧
       (x = y → negative f m.val = (sa || sb) ∧ negative f n.val = (sa && sb))) ∧
      ∀ cc, fcmpOp f z cc a b = (match cc with
        | .eq => decide (x = y)
        | .ne => decide (x ≠ y)
        | .lt => decide (x < y)
        | .le => decide (x ≤ y)
        | .gt => decide (y < x)
        | .ge => decide (y ≤ x)
        | .ord => true
        | .unord => false, 0)) ∧
  ∀ (r : Rnd) (z : Bool) (t : Ty) (f : Fmt) (a b : W64), t ∈ [Ty.f32, .f16, .bf16, .f64] → Fmt.ofTy t = some f →
    let nan := fun (x : W64) => (numberOf f (x.toNat % 2 ^ f.bits)).isNone && !infinite f x
    (nan a = true ∨ nan b = true) →
    let nv := if (nan a = true ∧ signalling f a = true) ∨ (nan b = true ∧ signalling f b = true) then fNv else 0
    ∀ op ∈ [faddOp, fsubOp, fmulOp, fdivOp], op r z f a b 0 = { val := canonicalNan t, flags := nv }

/-- R198 to R204: conversions, packings, block quantisation and scales complete. Their values, independently of the operations' own definitions: a conversion to a float format is the exact number rounded once, and the special values are those of Table 4.4 (R104, R106 to R108, R110); one to an integer is rounded in the mode and clamped with nv, and an integer conversion wraps or saturates (R111); a block's exponent and mantissas are those of Quantise (R115), each of its elements decodes to j × 2^(e−127) × 2^−(N−1) (R113, R114); `escl.apply` rounds a × 2^(e−127) once (R112, R204). -/
def Obligations.ConversionsComplete : Prop :=
  (∀ x : CvtArgs, CompletesAs (.cvt x) x.g fun h =>
    let srcs := ((Instr.cvt x).uses h.u.slice).2
    finish h (.cvt x) srcs x.d x.ty.wide x.nwb (h.active x.g) fun l => convert x.ty x.st x.rnd x.ftz x.sat (h.src srcs 0 false l)) ∧
  (∀ x : FpkArgs, CompletesAs (.fpk x) x.g fun h =>
    let srcs := ((Instr.fpk x).uses h.u.slice).2
    finish h (.fpk x) srcs x.d false x.nwb (h.active x.g) fun l =>
      let a := convert x.ty .f32 x.rnd x.ftz false (h.src srcs 0 false l)
      let b := convert x.ty .f32 x.rnd x.ftz false (h.src srcs 1 false l)
      let w := elemStep x.ty
      let old := match x.d with
        | .q _ => 0
        | d => h.read d false 0 false l
      { val := setFld (setFld old (2 * x.j.toNat * w) w a.val.toNat) ((2 * x.j.toNat + 1) * w) w b.val.toNat,
        flags := a.flags ||| b.flags }) ∧
  (∀ x : FupkArgs, CompletesAs (.fupk x) x.g fun h =>
    let srcs := ((Instr.fupk x).uses h.u.slice).2
    let w := elemStep x.ty
    finish h (.fupk x) srcs x.d false x.nwb (h.active x.g) fun l =>
      convert .f32 x.ty .rn x.ftz false (((h.src srcs 0 false l >>> (x.j.toNat * w)).setWidth w).setWidth 64)) ∧
  (∀ x : AluArgs, CompletesAs (.bfq x) x.g fun h =>
    let srcs := ((Instr.bfq x).uses h.u.slice).2
    let block := fun b => quantise (blockVals (h.active x.g) x.ftz b fun l => h.src srcs 0 false l) (Ty.mant x.ty) none
    finish h (.bfq x) srcs x.d false x.nwb (h.active x.g) fun l =>
      let r := block (if l < 32 then 0 else 1)
      { val := blockWord r.1 (r.2.1[l % 32]?.getD 0), flags := r.2.2 }) ∧
  (∀ x : AluArgs, CompletesAs (.bfd x) x.g fun h =>
    let srcs := ((Instr.bfd x).uses h.u.slice).2
    finish h (.bfd x) srcs x.d false x.nwb (h.active x.g) fun l => blockElem (Ty.mant x.ty) (h.src srcs 0 false l)) ∧
  (∀ x : EsclArgs, CompletesAs (.escl x) x.g fun h =>
    let srcs := ((Instr.escl x).uses h.u.slice).2
    finish h (.escl x) srcs x.d false x.nwb (h.active x.g) fun l =>
      let a := h.src srcs 0 false l
      let b := h.src srcs 1 false l
      match x.op with
      | .get => esclGet x.ftz a
      | .apply => esclApply x.rnd x.ftz a b
      | .mul => esclMul a b) ∧
  (∀ (dt st : Ty) (r : Rnd) (z sat : Bool) (a : W64),
    (∀ f g, dt ∈ floatTypes → st ∈ floatTypes → Fmt.ofTy dt = some f → Fmt.ofTy st = some g →
      let res := convert dt st r z sat a
      (∀ x, inputOf g z a = some x → Rounded f r z (exact x) (negative g a) res) ∧
      (infinite g a = true → res.val.toNat < 2 ^ f.bits ∧ negative f res.val = negative g a ∧
        if f.ieee = true then infinite f res.val = true ∧ res.flags = 0
        else numberOf f res.val.toNat = some (if negative g a then -largest f else largest f) ∧ res.flags = fOf) ∧
      (infinite g a = false → numberOf g (a.toNat % 2 ^ g.bits) = none →
        res = { val := canonicalNan dt, flags := if signalling g a = true ∨ dt ∈ [Ty.e3m2, .e2m3, .e2m1] then fNv else 0 })) ∧
    (∀ f, dt ∈ floatTypes → st ∈ integerTypes → Fmt.ofTy dt = some f →
      Rounded f r z (exact (source st a : Rat)) (decide (source st a < 0)) (convert dt st r z sat a)) ∧
    (∀ g, dt ∈ integerTypes → st ∈ floatTypes → Fmt.ofTy st = some g →
      (∀ x, inputOf g z a = some x →
        let n := toInteger r x
        convert dt st r z sat a =
          if n < least dt then { val := reduced dt (least dt), flags := fNv }
          else if greatest dt < n then { val := reduced dt (greatest dt), flags := fNv }
          else { val := reduced dt n, flags := if (n : Rat) = x then 0 else fNx }) ∧
      (infinite g a = true → convert dt st r z sat a = { val := reduced dt (if negative g a then least dt else greatest dt), flags := fNv }) ∧
      (infinite g a = false → numberOf g (a.toNat % 2 ^ g.bits) = none → convert dt st r z sat a = { val := 0, flags := fNv })) ∧
    (dt ∈ integerTypes → st ∈ integerTypes → convert dt st r z sat a = exactly dt sat (source st a))) ∧
  (∀ (N : Nat) (xs : List FVal), 2 ≤ N → N ≤ 8 →
    let flags := fun (e : Int) (f : W32) => xs.foldl (fun f v => f ||| (quantised N e v).2) f
    ((∃ s, FVal.nan s ∈ xs) → quantise xs N none = (0xFF, xs.map fun _ => 0, fNv)) ∧
    ((∀ s, FVal.nan s ∉ xs) → (∃ n, FVal.inf n ∈ xs) → quantise xs N none = (254, xs.map fun v => (quantised N 254 v).1, flags 254 fOf)) ∧
    ((∀ v ∈ xs, ∃ n k, v = .num n 0 k) → quantise xs N none = (0, xs.map fun _ => 0, 0)) ∧
    ∀ (n₀ : Bool) (m₀ : Nat) (k₀ lg : Int), FVal.num n₀ m₀ k₀ ∈ xs → (2 : Rat) ^ lg ≤ m₀ * 2 ^ k₀ → (m₀ : Rat) * 2 ^ k₀ < 2 ^ (lg + 1) →
      (∀ v ∈ xs, ∃ n m k, v = FVal.num n m k ∧ (m : Rat) * 2 ^ k ≤ m₀ * 2 ^ k₀) →
      let e := max 0 (min 254 (lg + 128))
      quantise xs N none = (e.toNat, xs.map fun v => (quantised N e v).1, flags e 0)) ∧
  (∀ (N : Nat) (a : W64), 2 ≤ N → N ≤ 8 →
    let e := (a.extractLsb' 8 8).toNat
    (e = 0xFF → blockElem N a = { val := 0x7FC00000, flags := 0 }) ∧
    (e ≠ 0xFF → (blockElem N a).val.toNat < 2 ^ 32 ∧ (blockElem N a).flags = 0 ∧
      numberOf fmtF32 (blockElem N a).val.toNat = some (((a.setWidth N).toInt : Rat) * 2 ^ ((e : Int) - 127) / 2 ^ (N - 1)))) ∧
  ∀ (r : Rnd) (z : Bool) (a b : W64) (x : Rat), inputOf fmtF32 z a = some x → b.extractLsb' 0 8 ≠ 0xFF →
    Rounded fmtF32 r z (exact (x * 2 ^ (((b.extractLsb' 0 8).toNat : Int) - 127))) (negative fmtF32 a) (esclApply r z a b)

/-! ### What every such instruction leaves behind -/

/-- R36, R39, R60, R151, R186: what `finish` makes of a view: the destination holds the results of the active lanes, the flags gather, the latches shift and the pc moves on. -/
def Obligations.ResultsReachTheirDestination : Prop :=
  ∀ (h : Here) (i : Instr) (srcs : List Use) (d : Opnd) (wide nwb : Bool) (act : W64) (r : Nat → Res),
    let h' := finish h i srcs d wide nwb act r
    h'.split.pc = h.split.pc + BitVec.ofNat 64 i.length ∧
    (nwb = false →
      (∀ n, d = .v n → ∀ l, l < 64 → bitAt act l = true →
        h'.warp.getV n.toNat l = (r l).val.setWidth 32 ∧
          (wide = true → h'.warp.getV (n.toNat + 1) l = (r l).val.extractLsb' 32 32)) ∧
      (∀ n, d = .a n → ∀ l, l < 64 → bitAt act l = true → h'.warp.getA n.toNat l = (r l).val) ∧
      (∀ n l, d = .s n → lowest act = some l →
        h'.warp.getS n.toNat = (r l).val.setWidth 32 ∧ (wide = true → h'.warp.getS (n.toNat + 1) = (r l).val.extractLsb' 32 32)) ∧
      (∀ n l, d = .c n → lowest act = some l → h'.warp.getC n.toNat = (r l).val) ∧
      (∀ n q, d = .q n → h.queue? n.toNat = some q → namings n.toNat srcs = 0 →
        ∃ e, h'.queue? n.toNat = some { q with entries := q.entries ++ [e] } ∧ e.missing = 0 ∧ e.tags = 0 ∧
          ∀ l, Cells.get e.vals l = if l < 64 ∧ bitAt act l = true then (r l).val.setWidth 32 else 0)) ∧
    (h.u.slice = .execute → ∀ l, l < 64 → h'.warp.getF l = h.warp.getF l ||| (if bitAt act l then (r l).flags else 0)) ∧
    (h.u.slice = .execute → d ≠ .none → ∃ v, h'.split.lat = (v :: h.split.lat).take 4 ∧
      ∀ l, Cells.get v l = if l < 64 ∧ bitAt act l = true then (if wide then (r l).val else ((r l).val.setWidth 32).setWidth 64) else 0) ∧
    ((h.u.slice = .access ∨ d = .none) → h'.split.lat = h.split.lat)

/-- R39, R56, R151: what `finish` leaves alone: registers other than the destination, inactive lanes, everything under nwb, the predicates, the special registers, queues that are not named, and the rest of the crew. -/
def Obligations.ResultsLeaveTheRestAlone : Prop :=
  ∀ (h : Here) (i : Instr) (srcs : List Use) (d : Opnd) (wide nwb : Bool) (act : W64) (r : Nat → Res),
    let h' := finish h i srcs d wide nwb act r
    (∀ m l, l < 64 →
      ¬(nwb = false ∧ bitAt act l = true ∧ ∃ n, d = .v n ∧ (m = n.toNat ∨ (wide = true ∧ m = n.toNat + 1))) →
      h'.warp.getV m l = h.warp.getV m l) ∧
    (∀ m l, l < 64 → ¬(nwb = false ∧ bitAt act l = true ∧ ∃ n, d = .a n ∧ m = n.toNat) → h'.warp.getA m l = h.warp.getA m l) ∧
    (∀ m, ¬(nwb = false ∧ act ≠ 0 ∧ ∃ n, d = .s n ∧ (m = n.toNat ∨ (wide = true ∧ m = n.toNat + 1))) → h'.warp.getS m = h.warp.getS m) ∧
    (∀ m, ¬(nwb = false ∧ act ≠ 0 ∧ ∃ n, d = .c n ∧ m = n.toNat) → h'.warp.getC m = h.warp.getC m) ∧
    (∀ l, l < 64 → (bitAt act l = false ∨ h.u.slice = .access) → h'.warp.getF l = h.warp.getF l) ∧
    (∀ n, h'.warp.pred n = h.warp.pred n) ∧
    (∀ m, namings m srcs = 0 → (nwb = true ∨ queueNo d ≠ some m) → h'.queue? m = h.queue? m) ∧
    h'.warp.role = h.warp.role ∧ h'.warp.tctl = h.warp.tctl ∧ h'.warp.stores = h.warp.stores ∧ h'.warp.loads = h.warp.loads ∧
    h'.split.mask = h.split.mask ∧ h'.split.stack = h.split.stack ∧ h'.split.record = h.split.record ∧ h'.crew = h.crew ∧ h'.u = h.u

/-- The register instructions of groups 1 to 6 whose operands are those of the common layout. -/
def Claims.commonForms : List (AluArgs → Instr) :=
  [.iadd, .isub, .imul, .imulh, .imad, .idiv, .irem, .iabs, .ineg, .imin, .imax, .isad, .iclamp, .mov,
   .andB, .orB, .xorB, .notB, .shl, .shr, .sra, .rotl, .popc, .clz, .ctz, .brev, .bext, .bins, .bsel, .fclass,
   .fadd, .fsub, .fmul, .fma, .fmin, .fmax, .fabs, .fneg, .fclamp, .frcp, .frsq, .fsqrt, .fdiv, .fdot2, .frnd,
   .dadd, .dsub, .dmul, .dfma, .dmin, .dmax, .ddiv, .dsqrt, .fex2, .flg2, .fsin, .fcos, .ftanh, .bfq, .bfd, .bcast, .matchL]

/-- R12, R31, R151: the frame of the register instructions in a state. With no register above the bound named and the operands served, the step of such an instruction leaves memory, the contexts, the host queues, the device and every other crew alone, and of its own crew everything but the issuing warp pair; of that warp's registers it changes only the destination's. With registers above the bound named (R32, R442), the bytes of memory that change are those of the places of the destination's registers among them, 32 at a time, each at the physical address of its translation: said where the core's TLB holds those translations with a and d set, so that no walk is made, no line is owned or waited for, no update record lies about and no error stands. -/
def Obligations.RegisterInstructionsTouchNothingElse : Prop :=
  ∀ (x : AluArgs) (i : Instr), (∃ mk ∈ Claims.commonForms, i = mk x) →
    ∀ (s : State) (u : UnitRef) (h : Here) (t : State), Issuing s u h →
      (spilledRegs ((i.uses u.slice).1 ++ (i.uses u.slice).2) = [] → Served i x.g s h s h.awake → exec i s = .next t →
      SameMemory s t ∧ t.cores = s.cores ∧ t.ctxs = s.ctxs ∧ t.queues = s.queues ∧ t.dev = s.dev ∧ t.launches = s.launches ∧
      (∀ c, c ≠ u.crew → t.crew? c = s.crew? c) ∧
      ∃ k, t.here? u = some k ∧ k.split.pc = h.split.pc + BitVec.ofNat 64 i.length ∧ k.split.mask = h.split.mask ∧
        k.split.stack = h.split.stack ∧ (∀ n, k.warp.pred n = h.warp.pred n) ∧ k.warp.tctl = h.warp.tctl ∧ k.warp.role = h.warp.role ∧
        k.crew.mt = h.crew.mt ∧ k.crew.pt = h.crew.pt ∧ k.crew.acst = h.crew.acst ∧ k.crew.stamps = h.crew.stamps ∧
        (∀ p, p ≠ u.pair → Tbl.get? k.crew.pairs p = Tbl.get? h.crew.pairs p) ∧
        (∀ m, namings m ((i.uses u.slice).1 ++ (i.uses u.slice).2) = 0 → k.queue? m = h.queue? m) ∧
        (∀ l, l < 64 → k.warp.getF l &&& h.warp.getF l = h.warp.getF l) ∧
        (∀ m l, l < 64 →
          ¬(bitAt (h.awake.active x.g) l = true ∧ ∃ n, x.d = .v n ∧ (m = n.toNat ∨ m = n.toNat + 1)) →
          k.warp.getV m l = h.warp.getV m l) ∧
        (∀ m l, l < 64 → ¬(bitAt (h.awake.active x.g) l = true ∧ x.d = .a m) → k.warp.getA m.toNat l = h.warp.getA m.toNat l) ∧
        (∀ m, ¬(∃ n, x.d = .s n ∧ (m = n.toNat ∨ m = n.toNat + 1)) → k.warp.getS m = h.warp.getS m) ∧
        (∀ m, x.d ≠ .c m → k.warp.getC m.toNat = h.warp.getC m.toNat)) ∧
      ((∃ s₁ h₁, Served i x.g s h s₁ h₁) → exec i s = .next t →
      Claims.NoErrors s → s.drawers = [] → s.pend = [] → s.held = [] → (∀ l, owned s none l = false) →
      let core := h.crew.core
      let tlb := (s.core core).tlb
      let place := fun n k => regPlace h n + BitVec.ofNat 64 (32 * k)
      tlb.length ≤ 128 → (∀ e ∈ tlb, ∀ f ∈ tlb, ∀ va, e.covers h.crew.ctx va = true → f.covers h.crew.ctx va = true → e = f) →
      ∀ T : Nat → Nat → TlbEntry,
      (∀ n ∈ spilledRegs ((i.uses u.slice).1 ++ (i.uses u.slice).2), ∀ k, k < h.crew.grant / 8 →
        T n k ∈ tlb ∧ (T n k).covers h.crew.ctx (place n k) = true ∧ (T n k).pte.getLsbD 7 = true ∧ (T n k).pte.getLsbD 8 = true ∧
          check s core h.crew.ctx (place n k) .r = .ok (T n k) ∧ check s core h.crew.ctx (place n k) .w = .ok (T n k)) →
      t.ctxs = s.ctxs ∧ t.queues = s.queues ∧ t.dev = s.dev ∧ t.launches = s.launches ∧ (∀ c, c ≠ u.crew → t.crew? c = s.crew? c) ∧
      ∀ sp a, (∀ n ∈ spilledRegs (i.uses u.slice).1, ∀ k, k < h.crew.grant / 8 → ∀ b, b < 32 → ¬(sp = .phys ∧ a = (T n k).phys (place n k) + b)) →
        t.latest sp a = s.latest sp a)

/-! ### Group 7 and the pair word -/

/-- R206 to R211: the lane instructions complete: shuffles and broadcasts move values of active lanes, votes and ballots read a predicate over the active lanes, matches compare, reductions and scans fold. -/
def Obligations.LaneInstructionsComplete : Prop :=
  (∀ x : ShflArgs, CompletesAs (.shfl x) x.g fun h =>
    let srcs := ((Instr.shfl x).uses h.u.slice).2
    let t := x.ty.resolve h.u.slice .bits
    let g := h.crew.grant
    let act := h.active x.g
    finish h (.shfl x) srcs x.d t.wide x.nwb act fun l =>
      let n := ((h.src srcs 1 false l).setWidth 32).toNat
      let from_ := match x.mode with
        | .idx => some (n % g)
        | .up => if n ≤ l then some (l - n) else none
        | .down => if l + n < g then some (l + n) else none
        | .xor => some (l ^^^ (n % g))
      let j := match from_ with
        | some j => if bitAt act j then j else l
        | none => l
      exactly t false (source t (h.src srcs 0 false j))) ∧
  (∀ x : AluArgs, CompletesAs (.bcast x) x.g fun h =>
    let srcs := ((Instr.bcast x).uses h.u.slice).2
    let t := x.ty.resolve h.u.slice .bits
    let act := h.active x.g
    finish h (.bcast x) srcs x.d t.wide x.nwb act fun l =>
      let j := if x.flag then (lowest act).getD l else ((h.src srcs 1 false l).setWidth 32).toNat % h.crew.grant
      exactly t false (source t (h.src srcs 0 false (if bitAt act j then j else l)))) ∧
  (∀ x : VoteArgs, CompletesAs (.vote x) x.g fun h =>
    let k := if x.neg then ~~~(h.warp.pred x.ka.toNat) else h.warp.pred x.ka.toNat
    let act := h.active x.g
    let all := decide (k &&& act = act)
    let any := decide (k &&& act ≠ 0)
    (setWhere h x.kd act fun _ => match x.mode with
      | .all => all
      | .any => any
      | .uni => all || !any).advance 8) ∧
  (∀ x : BallotArgs, CompletesAs (.ballot x) x.g fun h =>
    let k := if x.neg then ~~~(h.warp.pred x.ka.toNat) else h.warp.pred x.ka.toNat
    finish h (.ballot x) ((Instr.ballot x).uses h.u.slice).2 x.d true x.nwb (h.active x.g) fun _ => { val := k &&& h.active x.g, flags := 0 }) ∧
  (∀ x : AluArgs, CompletesAs (.matchL x) x.g fun h =>
    let srcs := ((Instr.matchL x).uses h.u.slice).2
    let w := Ty.width (x.ty.resolve h.u.slice .bits)
    let act := h.active x.g
    let v := fun l => (h.src srcs 0 false l).setWidth w
    finish h (.matchL x) srcs x.d true x.nwb act fun l => { val := maskOf ((lanesOf act).filter fun j => v j == v l), flags := 0 }) ∧
  (∀ x : RedArgs, CompletesAs (.redx x) x.g fun h =>
    let srcs := ((Instr.redx x).uses h.u.slice).2
    let t := redTy x.op x.ty
    let act := h.active x.g
    let inputs := (List.range h.crew.grant).map fun l => if bitAt act l then some (redInput t x.ftz (h.src srcs 0 (Ty.signed t) l)) else none
    let seen := inputs.foldl (fun f v => f ||| (v.map (·.flags)).getD 0) 0
    let sum := redTree x.op t x.ftz 6 (inputs.map (·.map (·.val))) seen
    finish h (.redx x) srcs x.d t.wide x.nwb act fun _ => { val := redOut t (sum.1.getD 0), flags := sum.2 }) ∧
  ∀ x : RedArgs, CompletesAs (.scan x) x.g fun h =>
    let srcs := ((Instr.scan x).uses h.u.slice).2
    let t := redTy x.op x.ty
    let act := h.active x.g
    let sums := scanFold x.op t x.ftz x.excl (fun l => h.src srcs 0 (Ty.signed t) l) (lanesOf act) none 0
    finish h (.scan x) srcs x.d t.wide x.nwb act fun l => ((sums.find? fun p => p.1 == l).map (·.2)).getD { val := 0, flags := 0 }

/-- R37, R68: both slots of a pair word read the registers and latches as they stood before it, slot 0 writes first, and the word completes. -/
def Obligations.PairWordSlotsReadBeforeTheyWrite : Prop :=
  ∀ (x : PairArgs) (s : State) (u : UnitRef) (h : Here) (s₁ : State) (h₁ : Here) (s₂ : State),
    Issuing s u h →
    prepare s h.awake (pairUses x).1 (pairUses x).2 h.awake.mask = .ok (s₁, h₁) →
    let slot := fun (k : Here) (p : PairSlot) =>
      let act := h₁.active { neg := false, k := p.k }
      let r := fun l => slotOp p ((h₁.warp.getV p.d.toNat l).setWidth 64) ((h₁.warp.getV p.b.toNat l).setWidth 64)
      (k.result (.v p.d) false p.nwb act fun l => (r l).val).flags act fun l => (r l).flags
    let h₂ := (slot (slot h₁ x.s0) x.s1).advance 8
    spillRegs s₁ h₂ (dedup (spilledRegs (pairUses x).1)) = .ok s₂ → exec (.pairWord x) s = .next (s₂.put h₂)

/-! ### Group 0 -/

/-- R156 and R26 rule 2: what a conditional transfer makes of the split. All lanes one way: the split goes there. Both ways with fewer than four splits: the taken lanes become a new split with a copy of the stack, the others go on behind the instruction. With four splits the others become a deferred path. -/
def Obligations.BranchesSplitTheWarp : Prop :=
  ∀ (s : State) (h : Here) (taken dest fall : W64),
    let rest := h.split.mask &&& ~~~taken
    let at_ := fun (pc mask : W64) => { h.split with pc := pc, mask := mask }
    (taken = 0 → branch s h taken dest fall = .ok (s, { h with split := at_ fall h.split.mask })) ∧
    (taken ≠ 0 → rest = 0 → branch s h taken dest fall = .ok (s, { h with split := at_ dest h.split.mask })) ∧
    (taken ≠ 0 → rest ≠ 0 → h.split.stack.length ≤ 16 → h.warp.splitCount < 4 →
      ∃ s' h' n x, branch s h taken dest fall = .ok (s', h') ∧ n < 4 ∧ Tbl.get? h.warp.splits n = none ∧
        h'.warp = { h.warp with splits := Tbl.set h.warp.splits n x, nextSplit := h.warp.nextSplit + 1 } ∧
        x.pc = dest ∧ x.mask = taken ∧ x.wait = .ready ∧ x.lat = [] ∧ sameStack x.stack h.split.stack = true ∧
        h'.split.pc = fall ∧ h'.split.mask = rest ∧ h'.split.stack = h.split.stack ∧ h'.split.lat = (if h.u.slice = .access then h.split.lat else []) ∧
        h'.pair = h.pair ∧ h'.crew = h.crew ∧ h'.u = h.u ∧ SameMemory s s' ∧ s'.crews = s.crews ∧ s'.ctxs = s.ctxs) ∧
    (taken ≠ 0 → rest ≠ 0 → h.split.stack.length < 16 → 4 ≤ h.warp.splitCount →
      ∃ s' h' e, branch s h taken dest fall = .ok (s', h') ∧
        e.tag = 1 ∧ e.mask = rest ∧ e.pc = fall.extractLsb' 3 54 ∧
        h'.split.pc = dest ∧ h'.split.mask = taken ∧ h'.split.stack = e :: h.split.stack ∧ h'.split.lat = (if h.u.slice = .access then h.split.lat else []) ∧
        h'.warp = h.warp ∧ h'.pair = h.pair ∧ h'.crew = h.crew ∧ h'.u = h.u ∧ SameMemory s s' ∧ s'.crews = s.crews ∧ s'.ctxs = s.ctxs)

/-- R157: an indirect transfer sends every lane of the split to its destination: the split itself, new splits and deferred paths together hold each lane at the address it goes to. -/
def Obligations.IndirectTransfersGoLaneByLane : Prop :=
  ∀ (s : State) (h : Here) (dest : Nat → W64) (ds : List W64) (l0 : Nat),
    lowest h.split.mask = some l0 →
    (∀ l, l < 64 → bitAt h.split.mask l = true → dest l ∈ ds) → ds.length + h.split.stack.length ≤ 16 →
    ∃ s' h', indirect s h dest = .ok (s', h') ∧ h'.split.pc = dest l0 ∧ SameMemory s s' ∧
      (∀ l, l < 64 → (bitAt h'.split.mask l = true ↔ bitAt h.split.mask l = true ∧ dest l = dest l0)) ∧
      (∀ l, l < 64 → bitAt h.split.mask l = true → dest l ≠ dest l0 →
        (∃ n x, Tbl.get? h.warp.splits n = none ∧ Tbl.get? h'.warp.splits n = some x ∧ x.pc = dest l ∧ bitAt x.mask l = true ∧
          sameStack x.stack h.split.stack = true) ∨
        (∃ e ∈ h'.split.stack, e.tag = 1 ∧ e.pc = (dest l).extractLsb' 3 54 ∧ bitAt e.mask l = true)) ∧
      (∀ n x, Tbl.get? h.warp.splits n = some x → Tbl.get? h'.warp.splits n = some x) ∧
      (∃ new, h'.split.stack = new ++ h.split.stack)

/-- R155 to R159, R162: branches, calls, counted loops, indirect branches, indirect calls and returns complete: the link and the counter are written before the transfer, a target is relative to the instruction, and lanes that do not transfer go on behind it. R73, R157: one misaligned target of an active lane stops an indirect transfer, or an indirect call, before anything of it has happened, with *misaligned instruction address* in the lowest such lane. -/
def Obligations.ControlTransfersComplete : Prop :=
  ((∀ (x : BraArgs) s u h s' h', Issuing s u h →
     branch s h.awake (h.awake.active x.g) (h.split.pc + (x.disp.signExtend 64 <<< 3)) (h.split.pc + 8) = .ok (s', h') →
     exec (.bra x) s = .next (s'.put h')) ∧
   (∀ (x : CallArgs) s u h s₁ h₁ s₂ h₂ s₃, Issuing s u h → Served (.call x) x.g s h s₁ h₁ →
     branch s₁ (h₁.result x.link true x.nwb (h₁.active x.g) fun _ => h.split.pc + 8) (h₁.active x.g)
       (h.split.pc + (x.disp.signExtend 64 <<< 3)) (h.split.pc + 8) = .ok (s₂, h₂) →
     Stored (.call x) h.u.slice s₂ h₂ s₃ → exec (.call x) s = .next (s₃.put h₂)) ∧
   (∀ (x : LoopArgs) s u h s₁ h₁ s₂ h₂ s₃, Issuing s u h → Served (.loop x) x.g s h s₁ h₁ →
     let act := h₁.active x.g
     let w := if h.u.slice = .access then 64 else 32
     let count := fun l => (h₁.read x.x false 0 false l).setWidth w - (1 : BitVec w)
     let first := (lowest act).getD 0
     let taken := maskOf ((lanesOf act).filter fun l => decide (count (if x.x.isUniform then first else l) ≠ 0))
     branch s₁ (h₁.result x.x (decide (w = 64)) x.nwb act fun l => (count l).setWidth 64) taken
       (h.split.pc + (x.disp.signExtend 64 <<< 3)) (h.split.pc + 8) = .ok (s₂, h₂) →
     Stored (.loop x) h.u.slice s₂ h₂ s₃ → exec (.loop x) s = .next (s₃.put h₂)) ∧
   (∀ i (x : BrxArgs), i = Instr.brx x ∨ i = Instr.ret x → ∀ s u h s₁ h₁ s₂ h₂, Issuing s u h → Served i x.g s h s₁ h₁ →
     let act := h₁.active x.g
     let t := fun l => h₁.src (i.uses h.u.slice).2 0 false l
     (∀ l, l < 64 → bitAt act l = true → (t l).extractLsb' 0 3 = 0) →
     indirect s₁ (h₁.popAll (i.uses h.u.slice).2) (fun l => if bitAt act l then t l else h.split.pc + 8) = .ok (s₂, h₂) →
     exec i s = .next (s₂.put h₂)) ∧
   ∀ (x : CalxArgs) s u h s₁ h₁ s₂ h₂ s₃, Issuing s u h → Served (.calx x) x.g s h s₁ h₁ →
     let act := h₁.active x.g
     let srcs := ((Instr.calx x).uses h.u.slice).2
     let t := fun l => h₁.src srcs 0 false l
     (∀ l, l < 64 → bitAt act l = true → (t l).extractLsb' 0 3 = 0) →
     indirect s₁ ((h₁.popAll srcs).result x.link true x.nwb act fun _ => h.split.pc + 8)
       (fun l => if bitAt act l then t l else h.split.pc + 8) = .ok (s₂, h₂) →
     Stored (.calx x) h.u.slice s₂ h₂ s₃ → exec (.calx x) s = .next (s₃.put h₂)) ∧
  (∀ i g, (∃ x : BrxArgs, (i = Instr.brx x ∨ i = Instr.ret x) ∧ g = x.g) ∨ (∃ x : CalxArgs, i = Instr.calx x ∧ g = x.g) →
     ∀ s u h s₁ h₁ l, Issuing s u h → Served i g s h s₁ h₁ →
     let bad := fun l => decide ((h₁.src (i.uses h.u.slice).2 0 false l).extractLsb' 0 3 ≠ (0 : BitVec 3))
     l < 64 → bitAt (h₁.active g) l = true → bad l = true → (∀ m, m < l → bitAt (h₁.active g) m = true → bad m = false) →
     exec i s = .next (takeTrap s u { cause := if h.u.slice = .access then 0x11 else 0x10, lane := some l }))

/-- R160, R161, R167, R71: `nop` only moves on; `rcv` pushes a reconvergence point with the split's mask as `pushEntry` says, spilling or trapping (R28); `exit` takes the active lanes out of the split, which goes on with those that are left. A split left without lanes and with an empty stack ends, the other splits, stacks and waits of the warp losing the lanes that ended, and with the last split its warp. A split left without lanes goes on at the deferred path on top of its stack, or waits with its arrived lanes at the reconvergence point there: which of its entries it goes on at is the model's reading of R160 (log 13). -/
def Obligations.NopRcvAndExitComplete : Prop :=
  (∀ (x : NopArgs) s u h, Issuing s u h →
    exec (.nop x) s = .next (s.put (h.awake.advance (if x.long then 16 else 8)))) ∧
  (∀ (x : RcvArgs) s u h, Issuing s u h → x.g.neg = true → exec (.rcv x) s = .next (s.put (h.awake.advance 8))) ∧
  (∀ (x : RcvArgs) s u h, Issuing s u h → x.g.neg = false → h.split.stack.length < 16 →
    ∃ e : StackEntry, e.tag = 0 ∧ e.pc = (h.split.pc + (x.disp.signExtend 64 <<< 3)).extractLsb' 3 54 ∧ e.mask = h.split.mask ∧
      exec (.rcv x) s = .next (s.put ({ h.awake with split := { h.awake.split with stack := e :: h.split.stack } }.advance 8))) ∧
  (∀ (x : RcvArgs) s u h, Issuing s u h → x.g.neg = false →
    let e : StackEntry := { tag := 0, pc := (h.split.pc + (x.disp.signExtend 64 <<< 3)).extractLsb' 3 54, low := 0, mask := h.split.mask, arr := 0 }
    (∀ s' h', pushEntry s h.awake e = .ok (s', h') → exec (.rcv x) s = .next (s'.put (h'.advance 8))) ∧
    ∀ r, pushEntry s h.awake e = .error r → exec (.rcv x) s = .next (stopWith s u r)) ∧
  (∀ (x : BareArgs) s u h, Issuing s u h → h.split.mask &&& ~~~(h.awake.active x.g) ≠ 0 →
    ∃ t k, exec (.exit x) s = .next t ∧ t.here? u = some k ∧ k.split.mask = h.split.mask &&& ~~~(h.awake.active x.g) ∧
      k.split.pc = h.split.pc + 8 ∧ k.warp.dead = h.warp.dead ||| h.awake.active x.g ∧ k.warp.ended = h.warp.ended ∧
      k.warp.v = h.warp.v ∧ k.warp.s = h.warp.s ∧ k.warp.a = h.warp.a ∧ k.warp.c = h.warp.c ∧ k.warp.k = h.warp.k ∧ k.warp.stores = h.warp.stores ∧
      t.mem = s.mem ∧ t.wide = s.wide) ∧
  (∀ (x : BareArgs) s u h, Issuing s u h → h.split.mask &&& ~~~(h.awake.active x.g) = 0 →
    let act := h.awake.active x.g
    let left := fun (y z : Split) => z.mask = y.mask &&& ~~~act ∧ z.pc = y.pc ∧
      z.stack.map (fun e => (e.tag, e.pc, e.mask)) = y.stack.map fun e => (e.tag, e.pc, e.mask &&& ~~~act)
    (h.split.stack = [] → (∃ m y, m ≠ u.split ∧ (m, y) ∈ h.warp.splits ∧ y.mask &&& ~~~act ≠ 0) →
      ∃ t p, exec (.exit x) s = .next t ∧ t.here? u = none ∧ t.pair? u.crew u.pair = some p ∧ (p.warp u.slice).ended = false ∧
        (p.warp u.slice).dead = h.warp.dead ||| act ∧ t.mem = s.mem ∧ t.wide = s.wide ∧
        ∀ n y, n ≠ u.split → Tbl.get? h.warp.splits n = some y → ∃ z, Tbl.get? (p.warp u.slice).splits n = some z ∧ left y z ∧
          (∀ pc mask arr, y.wait = .arrived pc mask arr → z.wait = .arrived pc (mask &&& ~~~act) (arr &&& ~~~act))) ∧
    ∀ e rest, h.split.stack = e :: rest → rest.length ≤ 15 → e.corrupt h.crew.grant = false →
      (e.tag = 1 → e.mask &&& ~~~act ≠ 0 → ∃ t k, exec (.exit x) s = .next t ∧ t.here? u = some k ∧ k.split.wait = .ready ∧
        left { h.split with pc := e.pc.signExtend 61 ++ e.low, mask := e.mask, stack := rest } k.split ∧ k.warp.dead = h.warp.dead ||| act) ∧
      (e.tag = 0 → e.arr &&& ~~~act ≠ 0 → ∃ t k, exec (.exit x) s = .next t ∧ t.here? u = some k ∧
        k.split.wait = .arrived e.pc (e.mask &&& ~~~act) (e.arr &&& ~~~act) ∧
        left { h.split with pc := e.pc.signExtend 61 ++ e.low, mask := e.arr, stack := rest } k.split ∧ k.warp.dead = h.warp.dead ||| act)) ∧
  ∀ (x : BareArgs) s u h, Issuing s u h → h.split.mask ≠ 0 → h.split.mask &&& ~~~(h.awake.active x.g) = 0 →
    h.warp.splits = [(u.split, h.split)] → h.split.stack = [] → (u.slice = .access → ∀ e ∈ h.warp.stores, e.paired = true) →
    ∃ t p, exec (.exit x) s = .next t ∧ t.here? u = none ∧ t.pair? u.crew u.pair = some p ∧ (p.warp u.slice).ended = true ∧
      (p.warp u.slice).dead = h.warp.dead ||| h.awake.active x.g ∧
      (∀ o, o ≠ u.slice → p.warp o = h.pair.warp o ∨ (h.pair.warp o).ended = true) ∧ t.mem = s.mem ∧ t.wide = s.wide

/-- R28, R29, R442: sixteen entries of a stack stay in the hardware; a push onto sixteen writes the oldest of them to its place in the pair's area of the backing store, and a push to depth 257 traps. A pop that leaves more than fifteen entries reads the newest spilled one back from its place, tag [127:118], address [117:64] and mask [63:0]; an entry with a reserved tag or a lane above the grant in its mask, popped or read back, traps. A read-back entry keeps what the device knows of it: the low three bits of its address, the lanes that have arrived, and, but for a deferred path, only live lanes (log 12, log 70). R442 gives an area one place for each split number: a split whose place the same-numbered split of the other slice uses, and a debug split, keep what they spill with the device, which is the model's choice (log 25). -/
def Obligations.StacksSpillBeyondSixteen : Prop :=
  ∀ (s : State) (h : Here) (e : StackEntry),
    let st := h.split.stack
    let h' := { h with split := { h.split with stack := e :: st } }
    let inside := if st.length = 16 then placeTaken h else h.split.inside
    (st.length < 16 → pushEntry s h e = .ok (s, h')) ∧
    (256 ≤ st.length → pushEntry s h e = .error (.trap { cause := if h.u.slice = .access then 0x35 else 0x34 })) ∧
    (∀ o, 16 ≤ st.length → st.length < 256 → st[15]? = some o →
      let k := { h' with split := { h'.split with inside := inside } }
      let place := h.pair.area + BitVec.ofNat 64 (roundUp (bsBytes h.crew.grant h.crew.kern.nv) 64 + 3840 * h.u.split + 16 * (st.length - 16))
      (inside = false → (∀ t, bsStore s h place o.bytes = .ok t → pushEntry s h e = .ok (t, k)) ∧
        ∀ r, bsStore s h place o.bytes = .error r → pushEntry s h e = .error r) ∧
      (inside = true → pushEntry s h e = .ok (s, k))) ∧
    (h.u.split < 4 → (∀ x, Tbl.get? (h.pair.warp h.u.slice.other).splits h.u.split = some x → x.stack.length ≤ 16) → placeTaken h = false) ∧
    (st = [] → popEntry s h = .ok (s, h, none)) ∧
    let corrupt := fun (x : StackEntry) => ¬(x.tag.toNat ≤ 1 ∨ 0x200 ≤ x.tag.toNat ∧ x.tag.toNat ≤ 0x37F) ∨ ∃ l, h.crew.grant ≤ l ∧ l < 64 ∧ bitAt x.mask l = true
    let refused := fun reads => Stop.trap { cause := if h.u.slice = .access then 0x37 else 0x36, reads := reads }
    (corrupt e → popEntry s h' = .error (refused [])) ∧
    (¬corrupt e → st.length ≤ 15 → popEntry s h' = .ok (s, h, some e)) ∧
    ∀ o, ¬corrupt e → 16 ≤ st.length → st[15]? = some o →
      let place := h.pair.area + BitVec.ofNat 64 (roundUp (bsBytes h.crew.grant h.crew.kern.nv) 64 + 3840 * h.u.split + 16 * (st.length - 16))
      let back := fun (f : StackEntry) => { h with split := { h.split with
        stack := st.set 15 { f with mask := f.mask &&& if f.tag = 1 then o.mask else ~~~h.warp.dead } } }
      (h.split.inside = true → (corrupt o → popEntry s h' = .error (refused [])) ∧ (¬corrupt o → popEntry s h' = .ok (s, back o, some e))) ∧
      (h.split.inside = false →
        (∀ r, bsLoad s h place 16 = .error r → popEntry s h' = .error r) ∧
        ∀ t bytes, bsLoad s h place 16 = .ok (t, bytes) →
          let n := BitVec.ofNat 128 (bytesToNat bytes)
          let f : StackEntry := { tag := n.extractLsb' 118 10, pc := n.extractLsb' 64 54, low := o.low, mask := n.extractLsb' 0 64, arr := o.arr }
          (corrupt f → ∃ reads, popEntry s h' = .error (refused reads)) ∧ (¬corrupt f → popEntry s h' = .ok (t, back f, some e)))

/-! ### Traps and group 14 -/

/-- R30, R400, Table 14.7: with a handler and room on the stack, a trap pushes an entry with its cause, the resume address and the mask, writes the trap record, empties the latches and goes to the entry point of the cause's class; nothing else of the warp and no memory changes, but for the skip bit of $tctl, which a breakpoint or watchpoint sets. With no error in an array what it has read, and a walk, has nothing to report; a walk whose page faults has applied the records that stand in the lines it reads (R365), so of such a trap only a state without records is spoken of. -/
def Obligations.TrapsEnterTheHandler : Prop :=
  ∀ (s : State) (u : UnitRef) (h : Here) (t : Trap), s.here? u = some h →
    let H := match u.slice with
      | .access => (s.ctx h.crew.ctx).hacc
      | .execute => (s.ctx h.crew.ctx).hexe
    H ≠ 0 → t.halt = false → t.cause < 0x180 → h.split.stack.length < 16 → Claims.NoErrors s →
    (0x4C ≤ t.cause → t.cause < 0x60 → s.drawers = [] ∧ s.pend = []) →
    ∃ k e, (takeTrap s u t).here? u = some k ∧
      k.split.stack = e :: h.split.stack ∧ e.tag.toNat = 0x200 + t.cause ∧ e.pc = (t.resume.getD h.split.pc).extractLsb' 3 54 ∧
      e.mask = t.mask.getD h.split.mask ∧
      k.split.pc = H + 64 * BitVec.ofNat 64 (t.cause / 64) ∧ k.split.mask = h.split.mask ∧ k.split.lat = [] ∧ k.split.wait = .ready ∧
      k.split.record.tcause.extractLsb' 0 9 = BitVec.ofNat 9 t.cause ∧ k.split.record.tcause.getLsbD 15 = t.lane.isSome ∧
      (∀ l, t.lane = some l → l < 64 → k.split.record.tcause.extractLsb' 9 6 = BitVec.ofNat 6 l) ∧
      k.split.record.tcause.extractLsb' 16 16 = (0 : BitVec 16) ∧
      k.split.record.taddr = t.addr ∧ k.split.record.taddr2 = t.addr2 ∧ k.split.record.targ = t.arg ∧
      k.warp.v = h.warp.v ∧ k.warp.s = h.warp.s ∧ k.warp.a = h.warp.a ∧ k.warp.c = h.warp.c ∧ k.warp.k = h.warp.k ∧ k.warp.fflags = h.warp.fflags ∧
      k.warp.tctl = (if 0x144 ≤ t.cause ∧ t.cause < 0x160 then h.warp.tctl ||| 1 else h.warp.tctl) ∧
      (∀ n, n ≠ u.split → Tbl.get? k.warp.splits n = Tbl.get? h.warp.splits n) ∧
      SameMemory s (takeTrap s u t) ∧ (takeTrap s u t).ctxs = s.ctxs ∧ ∀ c, c ≠ u.crew → (takeTrap s u t).crew? c = s.crew? c

/-- R400 Terminate, R160, Table 14.6: without a handler, or at depth 256, the split's threads end, and the context's fault register counts the trap and keeps the first cause with its resume address; what then becomes of the split is what `unwindEmpty` finds on its stack, which is the model's reading of R160 (log 13), and with no spilled entry to read back and no corrupt one (R29) nothing more is counted. -/
def Obligations.UnhandledTrapsEndTheSplit : Prop :=
  ∀ (s : State) (u : UnitRef) (h : Here) (t : Trap), s.here? u = some h →
    let c := s.ctx h.crew.ctx
    let H := match u.slice with
      | .access => c.hacc
      | .execute => c.hexe
    (H = 0 ∧ (c.dbg.dctl.getLsbD 0 && c.dbg.dctl.getLsbD 1) = false) ∨ (H ≠ 0 ∧ 256 ≤ h.split.stack.length) → t.halt = false →
    let counted := fun (s' : State) =>
      let c' := s'.ctx h.crew.ctx
      c'.fault.getLsbD 9 = true ∧
      (c'.fault.extractLsb' 32 32).toNat = min ((c.fault.extractLsb' 32 32).toNat + 1) (2 ^ 32 - 1) ∧
      (c.fault.getLsbD 9 = false → c'.fault.extractLsb' 0 9 = BitVec.ofNat 9 t.cause ∧ c'.fpc = t.resume.getD h.split.pc) ∧
      (c.fault.getLsbD 9 = true → c'.fault.extractLsb' 0 9 = c.fault.extractLsb' 0 9 ∧ c'.fpc = c.fpc) ∧
      ∃ p, s'.pair? u.crew u.pair = some p ∧ (p.warp u.slice).dead = h.warp.dead ||| h.split.mask
    (∃ s₁, takeTrap s u t = unwindEmpty s₁ u ∧ counted s₁ ∧ ∃ k, s₁.here? u = some k ∧ k.split.mask = 0) ∧
    (h.split.stack.length ≤ 16 → (∀ e ∈ h.split.stack, e.corrupt h.crew.grant = false) → counted (takeTrap s u t) ∧
      ∀ k, (takeTrap s u t).here? u = some k → k.split.mask &&& h.split.mask = 0)

/-- R307, Table 10.7: `trap n` and `brk n` with an active lane take *software trap* and *breakpoint instruction* with parameter n, the first resuming behind itself; `brk` halts for an attached debugger; without an active lane they only move on. R308, R394: `tfence` completes when no active lane has a flag set and enabled, and always in the access slice; else it takes the arithmetic trap of the lowest such flag in the lowest lane that has it, resuming behind itself. -/
def Obligations.SoftwareTrapsComplete : Prop :=
  (∀ (x : TrapArgs) (s : State) (u : UnitRef) (h : Here), Issuing s u h →
     (h.awake.active x.g = 0 → exec (.trap x) s = .next (s.put (h.awake.advance 8)) ∧ exec (.brk x) s = .next (s.put (h.awake.advance 8))) ∧
     (h.awake.active x.g ≠ 0 →
       exec (.trap x) s = .next (takeTrap s u { cause := 0x140, arg := x.n.setWidth 32, resume := some (h.split.pc + 8) }) ∧
       exec (.brk x) s = .next (takeTrap s u { cause := 0x141, arg := x.n.setWidth 32, halt := (s.ctx h.crew.ctx).dbg.dctl.getLsbD 0 }))) ∧
  (∀ (x : BareArgs) (s : State) (u : UnitRef) (h : Here), Issuing s u h →
     let act := h.awake.active x.g
     let raised := fun l f => decide (l < 64) && bitAt act l && (h.warp.getF l).getLsbD f && (h.warp.getF l).getLsbD (f + 8)
     ((u.slice = .access ∨ ∀ l f, f < 6 → raised l f = false) → exec (.tfence x) s = .next (s.put (h.awake.advance 8))) ∧
     ∀ l f, u.slice = .execute → f < 6 → raised l f = true → (∀ m g, g < f → raised m g = false) → (∀ m, m < l → raised m f = false) →
       exec (.tfence x) s = .next (takeTrap s u { cause := 0x80 + 8 * f + l / 8, lane := some l, resume := some (h.split.pc + 8) }))

/-- R305, R309, R403: `rte` pops a trap entry, continues at its address with its live lanes and empty latches, and ends the holds of this split; under the never-execute guard it only moves on; without a trap entry on top it traps, as it does on a misaligned address or on an entry with a lane above the grant (R29), and the stack stays. Three points are the model's choice or reading: the address of an entry is its bits [56:3] sign-extended (log 12), the bits 0 and 4 of $tctl arm the first instruction after it (log 35), and lanes that have ended are left out of the mask (log 70). -/
def Obligations.ReturnsFromTraps : Prop :=
  ∀ (x : BareArgs) (s : State) (u : UnitRef) (h : Here), Issuing s u h →
    (x.g.neg = true → exec (.rte x) s = .next (s.put (h.awake.advance 8))) ∧
    (x.g.neg = false → h.split.stack = [] → exec (.rte x) s = .next (takeTrap s u { cause := if u.slice = .access then 0x2B else 0x2A })) ∧
    ∀ e rest, x.g.neg = false → h.split.stack = e :: rest →
      ((e.tag.toNat < 0x200 ∨ 0x37F < e.tag.toNat) → exec (.rte x) s = .next (takeTrap s u { cause := if u.slice = .access then 0x2B else 0x2A })) ∧
      (0x200 ≤ e.tag.toNat → e.tag.toNat ≤ 0x37F → e.low ≠ 0 →
        exec (.rte x) s = .next (takeTrap s u { cause := if u.slice = .access then 0x11 else 0x10 })) ∧
      (0x200 ≤ e.tag.toNat → e.tag.toNat ≤ 0x37F → e.low = 0 → (∃ l, h.crew.grant ≤ l ∧ l < 64 ∧ bitAt e.mask l = true) →
        exec (.rte x) s = .next (takeTrap s u { cause := if u.slice = .access then 0x37 else 0x36 })) ∧
      (0x200 ≤ e.tag.toNat → e.tag.toNat ≤ 0x37F → e.low = 0 → rest.length ≤ 15 → (∀ l, h.crew.grant ≤ l → l < 64 → bitAt e.mask l = false) →
        e.mask &&& ~~~h.warp.dead ≠ 0 →
        ∃ t k, exec (.rte x) s = .next t ∧ t.here? u = some k ∧ k.split.pc = e.pc.signExtend 61 ++ (0 : BitVec 3) ∧
          k.split.mask = e.mask &&& ~~~h.warp.dead ∧ k.split.stack = rest ∧ k.split.lat = [] ∧ k.split.record = h.split.record ∧
          (h.warp.holdSplits = some u.split → k.warp.tctl.getLsbD 1 = false ∧ k.warp.holdSplits = none) ∧
          (h.warp.holdPair = some u.split → k.warp.tctl.getLsbD 2 = false ∧ k.warp.holdPair = none) ∧
          (h.warp.holdSplits ≠ some u.split → k.warp.tctl.getLsbD 1 = h.warp.tctl.getLsbD 1 ∧ k.warp.holdSplits = h.warp.holdSplits) ∧
          (h.warp.holdPair ≠ some u.split → k.warp.tctl.getLsbD 2 = h.warp.tctl.getLsbD 2 ∧ k.warp.holdPair = h.warp.holdPair) ∧
          k.warp.tctl &&& ~~~6 = h.warp.tctl &&& ~~~6 ∧
          k.split.skip = h.warp.tctl.getLsbD 0 ∧ k.split.step = h.warp.tctl.getLsbD 4 ∧
          k.warp.v = h.warp.v ∧ k.warp.s = h.warp.s ∧ k.warp.a = h.warp.a ∧ k.warp.c = h.warp.c ∧ k.warp.k = h.warp.k ∧ SameMemory s t)

/-- The value of a special register in a lane (Table 1.4), but for $qcfg, $tpc and $tmask. -/
def Claims.specialValue (s : State) (h : Here) (n lane : Nat) : Option W64 :=
  let k := s.core h.crew.core
  match n with
  | 0x00 => some (BitVec.ofNat 64 (h.u.pair * h.crew.grant + lane))
  | 0x01 => some (BitVec.ofNat 64 lane)
  | 0x02 => some (BitVec.ofNat 64 h.crew.grant)
  | 0x03 => some (BitVec.ofNat 64 h.u.pair)
  | 0x04 => some (h.crew.num.setWidth 64)
  | 0x05 => some (BitVec.ofNat 64 h.crew.core)
  | 0x06 => some (BitVec.ofNat 64 (h.crew.core / 8))
  | 0x07 => some 0
  | 0x08 => some (s.dev.domain.setWidth 64)
  | 0x09 => some (BitVec.ofNat 64 h.crew.ctx)
  | 0x10 => if h.u.slice = .execute then some ((h.warp.getF lane).setWidth 64) else none
  | 0x11 => if h.u.slice = .execute then some ((Cells.get h.crew.acst ((h.u.pair * h.crew.grant + lane) / 8)).setWidth 64) else none
  | 0x12 => some (h.crew.deadline ++ (if h.crew.preq then (1 : W32) else 0))
  | 0x13 => some (k.wake.setWidth 64)
  | 0x14 => some (h.warp.role.setWidth 64)
  | 0x18 => some k.cyc
  | 0x1D => if h.u.slice = .access then some h.pair.tagcnt else none
  | 0x20 => some (h.split.record.tcause.setWidth 64)
  | 0x23 => some h.split.record.taddr
  | 0x24 => some h.split.record.taddr2
  | 0x25 => some (h.split.record.targ.setWidth 64)
  | 0x26 => some (h.warp.tctl.setWidth 64)
  | _ => none

/-- Bits of $qcfg (Table 1.4): the declared queues, those that run from the execute slice, those for store data. That a store-data queue counts as running from execute is the model's reading (log 15). -/
def Claims.QcfgWord (p : Pair) (w : W64) : Prop :=
  ∀ n, n < 16 →
    (w.getLsbD n = (Tbl.get? p.queues n).isSome) ∧
    (w.getLsbD (16 + n) = ((Tbl.get? p.queues n).map fun q => decide (q.dir ≠ .fwd)).getD false) ∧
    (w.getLsbD (32 + n) = ((Tbl.get? p.queues n).map fun q => decide (q.dir = .sd)).getD false) ∧
    w.getLsbD (48 + n) = false

/-- R44, R310, R401: `rds` reads a special register into its destination, 64 bits wide where Table 1.4 says so; $tpc and $tmask are those of the topmost trap entry, zero without one; an index that is not in the table traps. In the access slice every value is written as 64 bits, and the word that names a queue destination is refused as an illegal operand. The address of an entry is its bits [56:3] sign-extended with the low bits that `wrs` gave it (log 12), and $qcfg counts store-data queues as running from execute (log 15), which are the model's readings. -/
def Obligations.SpecialRegistersAreRead : Prop :=
  ∀ (x : RdsArgs) (s : State) (u : UnitRef) (h : Here) (s₁ : State) (h₁ : Here) (s₂ : State), Issuing s u h →
    let n := x.idx.toNat
    let wide := decide (n ∈ [0x12, 0x18, 0x1C, 0x1D, 0x21, 0x22, 0x23, 0x24])
    let reads := fun (val : Nat → W64) =>
      let h₂ := (h₁.result x.d wide x.nwb (h₁.active x.g) val).advance 8
      spillRegs s₁ h₂ (dedup (spilledRegs [(x.d, wide && decide (u.slice = .execute))])) = .ok s₂ → exec (.rds x) s = .next (s₂.put h₂)
    (Claims.specialValue s h n 0 = none → n ∉ [0x10, 0x11, 0x1C, 0x1D, 0x21, 0x22] →
      exec (.rds x) s = .next (takeTrap s u { cause := if u.slice = .access then 0x2D else 0x2C })) ∧
    (u.slice = .execute → prepare s h.awake [(x.d, wide)] [] (h.awake.active x.g) = .ok (s₁, h₁) →
      (x.d.isUniform = true → n ∉ [0x00, 0x01, 0x10, 0x11]) → (x.d.isQueue = true → wide = false) → (wide = true → pairAligned (x.d, true) = true) →
      ((∀ l, (Claims.specialValue s₁ h₁ n l).isSome = true) → reads fun l => (Claims.specialValue s₁ h₁ n l).getD 0) ∧
      (h.split.stack.length ≤ 16 → ∀ e, e ∈ h.split.stack.find? (fun e => e.isTrap) →
        (n = 0x21 → reads fun _ => e.pc.signExtend 61 ++ e.low) ∧ (n = 0x22 → reads fun _ => e.mask)) ∧
      (h.split.stack.length ≤ 16 → h.split.stack.find? (fun e => e.isTrap) = none → (n = 0x21 ∨ n = 0x22) → reads fun _ => 0) ∧
      (n = 0x1C → (h₁.pair.queues.map (·.1)).Nodup → (∀ e ∈ h₁.pair.queues, e.1 < 16) → ∀ w, Claims.QcfgWord h₁.pair w → reads fun _ => w)) ∧
    (u.slice = .access → prepare s h.awake [(x.d, false)] [] (h.awake.active x.g) = .ok (s₁, h₁) → x.d.isQueue = false →
      (x.d.isUniform = true → n ∉ [0x00, 0x01]) →
      let reads := fun (val : Nat → W64) =>
        let h₂ := (h₁.result x.d true x.nwb (h₁.active x.g) val).advance 8
        spillRegs s₁ h₂ (dedup (spilledRegs [(x.d, false)])) = .ok s₂ → exec (.rds x) s = .next (s₂.put h₂)
      ((∀ l, (Claims.specialValue s₁ h₁ n l).isSome = true) → reads fun l => (Claims.specialValue s₁ h₁ n l).getD 0) ∧
      (h.split.stack.length ≤ 16 → ∀ e, e ∈ h.split.stack.find? (fun e => e.isTrap) →
        (n = 0x21 → reads fun _ => e.pc.signExtend 61 ++ e.low) ∧ (n = 0x22 → reads fun _ => e.mask)) ∧
      (h.split.stack.length ≤ 16 → h.split.stack.find? (fun e => e.isTrap) = none → (n = 0x21 ∨ n = 0x22) → reads fun _ => 0) ∧
      (n = 0x1C → (h₁.pair.queues.map (·.1)).Nodup → (∀ e ∈ h₁.pair.queues, e.1 < 16) → ∀ w, Claims.QcfgWord h₁.pair w → reads fun _ => w)) ∧
    (x.d.isQueue = true → x.g.live = true →
      n ∈ [0x00, 0x01, 0x02, 0x03, 0x04, 0x05, 0x06, 0x07, 0x08, 0x09, 0x12, 0x13, 0x14, 0x18, 0x1C, 0x1D, 0x20, 0x21, 0x22, 0x23, 0x24, 0x25, 0x26] →
      decode .access 256 (encode (.rds x)).1 (encode (.rds x)).2 = .error .illegalOperand)

/-- R311, R402, R403: `wrs` writes $fflags lane by lane, $role and $tctl from the lowest active lane, and the address or the mask of the topmost trap entry, without which it raises *return without trap entry*; bits shown as zero trap and leave the register, of $fflags in the lowest lane that sets one, and so do read-only registers. -/
def Obligations.SpecialRegistersAreWritten : Prop :=
  ∀ (x : WrsArgs) (s : State) (u : UnitRef) (h : Here) (s₁ : State) (h₁ : Here) (l₀ : Nat), Issuing s u h →
    let n := x.idx.toNat
    let wide := decide (n = 0x21 ∨ n = 0x22) && decide (u.slice = .execute)
    let val := fun l => h₁.read x.a wide 0 false l
    let act := h₁.active x.g
    prepare s h.awake [] [(x.a, wide)] (h.awake.active x.g) = .ok (s₁, h₁) → lowest act = some l₀ →
    let reserved := exec (.wrs x) s = .next (takeTrap s u { cause := if u.slice = .access then 0x31 else 0x30, lane := some l₀ })
    (n = 0x10 → u.slice = .execute → (∀ l, l < 64 → bitAt act l = true → (val l).setWidth 32 &&& 0xFFFFC0C0 = (0 : W32)) →
      ∃ h₂, exec (.wrs x) s = .next (s₁.put h₂) ∧ h₂.split = { h₁.split with pc := h.split.pc + 8 } ∧
        h₂.warp = { h₁.warp with fflags := h₂.warp.fflags } ∧ h₂.pair = h₁.pair ∧ h₂.crew = h₁.crew ∧ h₂.u = h₁.u ∧
        ∀ l, l < 64 → h₂.warp.getF l = if bitAt act l then (val l).setWidth 32 else h₁.warp.getF l) ∧
    (∀ l, n = 0x10 → u.slice = .execute → l < 64 → bitAt act l = true → (val l).setWidth 32 &&& 0xFFFFC0C0 ≠ (0 : W32) →
      (∀ m, m < l → bitAt act m = true → (val m).setWidth 32 &&& 0xFFFFC0C0 = (0 : W32)) →
      exec (.wrs x) s = .next (takeTrap s u { cause := 0x30, lane := some l })) ∧
    ((n = 0x21 ∨ n = 0x22) → x.a.isUniform = true → (wide = true → pairAligned (x.a, true) = true) → h.split.stack.length ≤ 16 →
      (∀ e ∈ h.split.stack, e.isTrap = false) →
      exec (.wrs x) s = .next (takeTrap s u { cause := if u.slice = .access then 0x2B else 0x2A, lane := some l₀ })) ∧
    (n = 0x14 → (((val l₀).setWidth 32 : W32).toNat < 4 →
        exec (.wrs x) s = .next (s₁.put ({ h₁ with warp := { h₁.warp with role := (val l₀).setWidth 32 } }.advance 8))) ∧
      (4 ≤ ((val l₀).setWidth 32 : W32).toNat → reserved)) ∧
    (n = 0x26 → (((val l₀).setWidth 32 : W32).toNat < 32 →
        exec (.wrs x) s = .next (s₁.put ({ h₁ with warp := { h₁.warp with
          tctl := (val l₀).setWidth 32,
          holdSplits := if (val l₀).getLsbD 1 then some u.split else none,
          holdPair := if (val l₀).getLsbD 2 then some u.split else none } }.advance 8))) ∧
      (32 ≤ ((val l₀).setWidth 32 : W32).toNat → reserved)) ∧
    (∀ (i : Nat) (e : StackEntry), (n = 0x21 ∨ n = 0x22) → x.a.isUniform = true → (wide = true → pairAligned (x.a, true) = true) → h.split.stack.length ≤ 16 →
      h.split.stack[i]? = some e → e.isTrap = true → (∀ (j : Nat) (f : StackEntry), j < i → h.split.stack[j]? = some f → f.isTrap = false) →
      (n = 0x21 → exec (.wrs x) s = .next (s₁.put ({ h₁ with split := { h₁.split with
        stack := h₁.split.stack.set i { e with pc := (val l₀).extractLsb' 3 54, low := (val l₀).extractLsb' 0 3 } } }.advance 8))) ∧
      (n = 0x22 → val l₀ &&& ~~~e.mask = 0 → exec (.wrs x) s = .next (s₁.put ({ h₁ with split := { h₁.split with
        stack := h₁.split.stack.set i { e with mask := val l₀ } } }.advance 8))) ∧
      (n = 0x22 → val l₀ &&& ~~~e.mask ≠ 0 → reserved)) ∧
    (n ∈ [0x00, 0x01, 0x02, 0x03, 0x04, 0x05, 0x06, 0x07, 0x08, 0x09, 0x12, 0x13, 0x18, 0x1C, 0x20, 0x23, 0x24, 0x25] →
      exec (.wrs x) s = .next (takeTrap s u { cause := if u.slice = .access then 0x2F else 0x2E }))

/-! ### Encodings -/

/-- The words of the spec's worked examples, and two written from Tables 2.2 and 2.10, decode to the instructions they stand for. -/
def Obligations.HandWordsDecode : Prop :=
  decode .execute 256 0x1031_8020_201B_4004 0 =
    .ok (.fma { g := ⟨false, 3⟩, nwb := false, d := .v 1, a := .v 2, b := .v 3, c := .v 4, ty := .f32, rnd := .rn, ftz := false, flag := false }) ∧
  decode .execute 256 0x0600_00E0_3FFF_FFFB 0 =
    .ok (.iaddImm { g := ⟨false, 0⟩, nwb := false, d := .v 7, a := .v 3, imm := -5 }) ∧
  decode .execute 256 0x4100_2048_1C00_A140 0 =
    .ok (.pairWord { s0 := { op := .iadd, ty := .s32, ftz := false, k := 0, nwb := false, d := 4, b := 9 },
                     s1 := { op := .xor, ty := .b32, ftz := false, k := 0, nwb := false, d := 5, b := 10 } }) ∧
  decode .execute 256 0x8500_0040_0002_8000 0x0000_0012_3456_789A =
    .ok (.movi { g := ⟨false, 0⟩, nwb := false, d := .v 2, ty := .b64, imm := 0x0000_0012_3456_789A }) ∧
  decode .execute 256 0x0500_0040_0002_8000 0 = .error .illegalOpcode ∧
  decode .execute 256 0x1000_2231_0A23_4000 0 =
    .ok (.fadd { g := ⟨false, 0⟩, nwb := false, d := .q 1, a := .q 0, b := .s 4, c := .none, ty := .f32, rnd := .rn, ftz := false, flag := false }) ∧
  decode .execute 256 0x0C00_0000_4028_C021 0 =
    .ok (.icmp { g := ⟨false, 0⟩, cc := .lt, kd := 1, a := .v 4, b := .v 5, ty := .s32, ftz := false }) ∧
  decode .access 256 0x3830_0060_0000_0023 0 = .ok (.rds { g := ⟨false, 0⟩, nwb := false, d := .a 3, idx := 0x23 }) ∧
  decode .execute 256 0xC000_0000_0000_0000 0 = .error .reservedForm ∧
  decode .access 256 0x4100_2048_1C00_A140 0 = .error .wrongSlice ∧
  decode .execute 256 0x03C8_0000_0000_0000 0 = .ok (.nop { g := ⟨true, 0⟩, long := false })

/-- R54 to R81: every well-formed instruction of a slice is read back from its words, with every operand at every value that an encoding admits. -/
def Obligations.DecodeInvertsEncode : Prop :=
  ∀ (sl : Slice) (i : Instr), i.wf sl = true → decode sl 256 (encode i).1 (encode i).2 = .ok i

/-- R54 to R81, the other direction: what the decoder reads is well formed, and but for never-execute words, whose other fields do not matter (R71), it encodes back to the word it was read from. -/
def Obligations.DecodedWordsEncodeBack : Prop :=
  ∀ (sl : Slice) (w x : W64) (i : Instr), decode sl 256 w x = .ok i →
    i.wf sl = true ∧ ((∀ n : NopArgs, i ≠ .nop n) → (encode i).1 = w ∧ (needsExt w = true → (encode i).2 = x) ∧ i.ext.isSome = needsExt w)

/-! ### The step -/

/-- What a split fetches and decodes at its program counter (R74, R75, R77): its first word, its extension word where the form and the opcode want one, and the instruction after every decode check; the program counter is aligned (R150) and no code breakpoint matches (R420). -/
def Claims.Fetches (s : State) (h : Here) (s' : State) (i : Instr) : Prop :=
  h.split.pc.extractLsb' 0 3 = 0 ∧ ∃ s₁ w x, fetchWord s h h.split.pc = .ok (s₁, w) ∧ breakTrap s₁ h = none ∧
    ((needsExt w = false ∧ s' = s₁ ∧ x = 0) ∨ (needsExt w = true ∧ fetchWord s₁ h (h.split.pc + 8) = .ok (s', x))) ∧
    decodeChecked h.u.slice h.crew.kern.nv h.dirs w x = .ok i

/-- R382, R74, R77: a step that is the issue cycle of a core that runs, with a unit selected (port 4) or at its turn in a pipe (ports 0 to 3), runs the instruction that stands decoded at the unit's program counter; around it the cycle of issue is noted, the queue edges of the memory model (`queueEdges`, R327), what follows for the split (`afterIssue`), its place among those that wait for owned lines (`issued`, R353), what follows for its pipe (`afterMember`) and for the device (`settleAll`) come behind it. No error stands in the core's arrays (`quiet`). R431, R432: a thread of a Portable Form program runs the instruction that stands at its word of the program, unless it names a register that a load has yet to write; one that leaves the region traps (`keepInside`). That a thread is a split which runs the program's words themselves is the model's choice (log 4). -/
def Obligations.StepRunsTheDecodedInstruction : Prop :=
  ∀ (s : State) (core port : Nat) (rest : List Turn) (h : Here) (s₁ : State) (i : Instr) (t : State),
    s.agenda = .issue core port :: rest → s.dev.ready = true → core < 96 → port < 5 → (s.core core).gated = false → (s.core core).waking = 0 →
    let s₀ := { s with agenda := rest }
    s₀.here? h.u = some h → h.split.mc = [] →
    let selected := selectUnit s₀ (readyUnits s₀ core fun x => decide (x.u.slice = .access)) = some h
    let atTurn := h.split.halted = false ∧ h.isReady = true ∧ (s₀.pipe core port).running[(s₀.pipe core port).next]? = some h.u
    let s₀ := { s₀ with cur := some h.u }
    (h.program? = none → Claims.Fetches s₀ h s₁ i → quiet s₁ h.crew.core = true → s₁.here? h.u = some h →
      exec i (noteIssue s₁ h) = .next t →
      let t₁ := issued (afterIssue (queueEdges (noteIssue s₁ h) t h.u) h.u h.split (some i)) h.u
      (port = 4 → selected → step s = .next (settleAll t₁)) ∧
      (port < 4 → atTurn → step s = .next (settleAll (afterMember t₁ core port h.u)))) ∧
    ∀ p r, h.program? = some p → p.regions[h.crew.region]? = some r → h.wordNo ≠ r.last →
      decodePortable p.nvp (p.word h.wordNo) (p.word (h.wordNo + 1)) = some i →
      (∀ f ∈ h.split.flight, ∀ n ∈ f.regs, n ∉ fileRegs ((threadUses i).1 ++ (threadUses i).2)) →
      quiet s₀ h.crew.core = true → threadExec i (noteIssue s₀ h) = .next t → port < 4 → atTurn →
      let t₁ := issued (afterIssue (keepInside (noteIssue s₀ h) h.u r t) h.u h.split (some i)) h.u
      step s = .next (settleAll (afterMember t₁ core port h.u))

/-- R74, R8, R361: a word that was not fetched ahead and lies in no line of the core's instruction cache is read from memory as performed at die scope, little-endian, at the physical address of a translation that permits execution; a word of a cached line is that line's, and one fetched ahead is that word. That a line is found by its context and virtual address, and that a hit too is translated and checked for permission, is the model's reading (log 14). A line that is not cached and that a command owns, or that others wait for, is waited for (R353). -/
def Obligations.FetchedWordsComeFromMemory : Prop :=
  ∀ (s : State) (h : Here) (a : W64),
    let core := h.crew.core
    (∀ w, Tbl.get? h.split.ahead a.toNat = some w → fetchWord s h a = .ok (s, w)) ∧
    (Tbl.get? h.split.ahead a.toNat = none → ∀ s' pa ms, use s core h.crew.ctx a .x = .ok (s', pa, ms) → quiet s' core = true →
      (∀ l, cachedLine (s'.core core) h.crew.ctx (a.toNat / 128) = some l →
        fetchWord s h a = .ok (s', (l.words[a.toNat % 128 / 8]?).getD 0)) ∧
      (cachedLine (s'.core core) h.crew.ctx (a.toNat / 128) = none → ∀ l ls, lineWaits s' .phys (pa / 128 * 128) 128 = l :: ls →
        fetchWord s h a = .error (.waits l)) ∧
      (cachedLine (s'.core core) h.crew.ctx (a.toNat / 128) = none → lineWaits s' .phys (pa / 128 * 128) 128 = [] → s'.drawers = [] → s'.pend = [] →
        pa % 128 = a.toNat % 128 → a.toNat % 8 = 0 →
        ∃ t w, fetchWord s h a = .ok (t, w) ∧ SameMemory s' t ∧ ∀ k, k < 8 → w.extractLsb' (8 * k) 8 = s'.byteAt dieViewer (pa + k))) ∧
    (Tbl.get? h.split.ahead a.toNat = none → ∀ f, use s core h.crew.ctx a .x = .error f → fetchWord s h a = .error f)

/-! ### Reset and what every step keeps -/

/-- R35, R47, R48, R139, R457, R459, Tables 16.3 and 16.6: right after a cold start $wake is zero in every core, nothing is placed, loaded or enabled, memory is scrubbed, and the registers whose reset value the spec states have it. The memory of the reset state and its scratchpads are in canonical form. -/
def Obligations.ResetState : Prop :=
  (let s := State.reset
   (∀ c, (s.core c).wake = 0 ∧ (s.core c).pipes.all (fun p => p.running.isEmpty) = true ∧ (s.core c).gated = false) ∧
   (∀ u, s.here? u = none) ∧ s.crews = [] ∧ s.loads = [] ∧ s.launches = [] ∧ s.cache = [] ∧
   (∀ c, (s.ctx c).root = 0 ∧ (s.ctx c).bindings = []) ∧ (∀ q, (s.hq q).cfg.getLsbD 14 = false ∧ (s.hq q).cfg >>> 32 = 200000) ∧
   (∀ v a, a < 2 ^ 39 → s.byteAt v a = 0) ∧
   s.dev.fail = 0 ∧ s.dev.step = 7 ∧ s.dev.warm = false ∧ s.dev.ready = true ∧ s.dev.memActive = true ∧
   s.dev.rtimeout = 33000000 ∧ s.dev.plimit = 1600 ∧ s.dev.msix.getLsbD 0 = true) ∧
  (State.reset.memoryCanonical)

/-- The invariant: physical memory and every scratchpad keep the canonical form of the model's cells, strictly rising addresses and no listed byte equal to what an unlisted one reads, over every step from every state that has it. -/
def Obligations.StepKeepsMemoryCanonical : Prop :=
  ∀ s t : State, s.memoryCanonical → step s = .next t → t.memoryCanonical

/-- No step ends the run: whatever the state, one step answers a next state. Every meaning takes an effect, a wait or a trap while its split issues, and every event of the device answers. -/
def Obligations.EveryStepAnswers : Prop := ∀ s : State, SafeStep (step s)

/-- R464, R457, R460: no step of the device lowers the fuse counter: not a start, a reset, a loss of power or a refused raise. -/
def Obligations.TheFuseCounterNeverGoesBack : Prop :=
  ∀ s t : State, step s = .next t → s.dev.fuse.toNat ≤ t.dev.fuse.toNat

/-! ### Group 8 and updates -/

/-- R215, R216, R393: the checks of an access to global addresses come in their order, each over all the lanes before the next, and each failure reports the first lane of the list that fails: *non-canonical*, *misaligned*, the failed translation, *protection fault*; a walk that meets a line a command owns waits (R353). Scratchpad accesses check alignment, then the bounds of the crew's allocation. With every check passed the access has its translations. -/
def Obligations.AccessesAreChecked : Prop :=
  ∀ (s : State) (h : Here) (a size : Nat) (n : Need) (l : List LaneVa),
    let fails := fun (bad : LaneVa → Bool) (x : LaneVa) => ∃ pre post, l = pre ++ x :: post ∧ bad x = true ∧ ∀ y ∈ pre, bad y = false
    let stop := fun (cause : Nat) (x : LaneVa) => Stop.trap { cause := cause, lane := some x.1, addr := x.2 }
    let nonCanonical := fun (x : LaneVa) => x.2.extractLsb' 57 7 != if x.2.getLsbD 56 then 0x7F else (0 : BitVec 7)
    let misaligned := fun (x : LaneVa) => x.2.toNat % size != 0
    let translated := fun (x : LaneVa) => check4 s h.crew.core h.crew.ctx x.2 n
    let untranslated := fun x => match translated x with
      | .ok _ => false
      | .error _ => true
    let forbidden := fun x => match translated x with
      | .ok t => !permits t.pte n
      | .error _ => false
    let none_ := fun (bad : LaneVa → Bool) => ∀ x ∈ l, bad x = false
    (∀ x, fails nonCanonical x → checkGlobal s h a size n l = .error (stop (0x40 + a) x)) ∧
    (none_ nonCanonical → ∀ x, fails misaligned x → checkGlobal s h a size n l = .error (stop (0x44 + a) x)) ∧
    (none_ nonCanonical → none_ misaligned → ∀ x f, fails untranslated x → translated x = .error f →
      checkGlobal s h a size n l = .error (match f.line? with
        | some line => .wait (.line [line])
        | none => stop (0x40 + 4 * f.kind + a) x)) ∧
    (none_ nonCanonical → none_ misaligned → none_ untranslated → ∀ x, fails forbidden x →
      checkGlobal s h a size n l = .error (stop (0x50 + a) x)) ∧
    (none_ nonCanonical → none_ misaligned → none_ untranslated → none_ forbidden →
      ∃ ts, checkGlobal s h a size n l = .ok ts ∧ ts.map (·.1) = l ∧ ∀ t ∈ ts, translated t.1 = .ok t.2) ∧
    let outside := fun (x : LaneVa) => decide (x.2.toNat < h.crew.scratch) || decide (h.crew.scratch + h.crew.kern.scratch < x.2.toNat + size)
    (∀ x, fails misaligned x → checkScratch h a size l = .error (stop (0x44 + a) x)) ∧
    (none_ misaligned → ∀ x, fails outside x → checkScratch h a size l = .error (stop (0x48 + a) x)) ∧
    (none_ misaligned → none_ outside → checkScratch h a size l = .ok ())

/-- A view after a memory instruction: the split moves on by `n` bytes and the warp's program order by one. -/
def Claims.issued (h : Here) (n : Nat) : Here := h.awake.bump.advance n

/-- R215, R219 to R221: a load whose checks pass and that nothing holds back is in flight in every lane it reads, at base plus scaled displacement; one into a queue has reserved the next entry, with the lanes of `lq.nf` that fail left out and NF set; one into a register waits for nothing. The load has the core's next ticket, and its line requests are presented to the L1 (R344, R349; `presentWarp`). The only bytes of memory that may change are page-table entries (R360) and those of update records that a walk applies on its way (R365). R432: a load of a thread of a Portable Form program that no earlier acquire holds back is in flight for its register, one with .sp at an offset in the crew's allocation; that a thread is such a split is the model's choice (log 4). -/
def Obligations.LoadsAreSent : Prop :=
  (∀ (x : MemArgs) (s : State) (u : UnitRef) (h : Here) (ps : List Placed) (ts : List (LaneVa × TlbEntry)) (scratch : Bool) (i : Instr),
    Issuing s u h →
    let act := h.awake.active x.g
    let size := Size.bytes x.sz
    let all := (lanesOf act).map fun l => (l, h.awake.read x.base true 0 false l + x.disp.signExtend 64 * BitVec.ofNat 64 size)
    let sp := if scratch then Space.scratch h.crew.core else .phys
    let s' := touchAll s h.crew.core false ts
    let core := s'.core h.crew.core
    let places := fun (lanes : List Placed) => lanes.map fun p => { lane := p.lane, va := p.va, pa := p.pa : LoadLane }
    let sent := fun (dest : LoadDest) (lanes : List Placed) => if lanes.isEmpty then h.warp.loads else h.warp.loads ++
      [{ id := h.warp.seq, seq := h.warp.seq, split := u.split, dest := dest, sz := x.sz, space := sp, acq := withMode s' h (Ord.acquires x.ord) x.scope,
         remote := none, sent := core.cyc.toNat, ro := x.ro, lanes := places lanes, ticket := core.ticket,
         todo := lineRequests s' scratch ts (places lanes) }]
    let ticketed := fun (lanes : List Placed) => if lanes.isEmpty then s' else s'.setCore h.crew.core { core with ticket := core.ticket + 1 }
    let k := Claims.issued h 8
    (∀ n q, (scratch = false ∧ i = .lq x ∨ scratch = true ∧ i = .lsq x) → x.d = .q n → h.awake.pending [(x.base, false)] = .ok () →
      let nf := x.x && !scratch
      let lanes := if nf then all.filter fun a => !nfFails s h.awake a else all
      (nf = true → ∀ a ∈ all, canonical a.2 = true → a.2.toNat % size = 0) →
      checkAccess s h.awake scratch 0 size .r lanes = .ok (ps, ts) → h.awake.loadReady sp size ps = .ok () → h.awake.pushReady n.toNat 1 = .ok q →
      exec i s = .next (presentWarp ((ticketed ps).put { k with
        warp := { k.warp with loads := sent (.entry n.toNat h.warp.seq) ps },
        pair := { k.pair with queues := Tbl.set h.pair.queues n.toNat { q with
          entries := q.entries ++ [{ id := h.warp.seq, vals := [], tags := 0, missing := maskOf (ps.map (·.lane)) }],
          nf := q.nf || decide (lanes.length < all.length) } } }) u.crew u.pair)) ∧
    (∀ dest, (scratch = false ∧ i = .la x ∨ scratch = true ∧ i = .lsa x) →
      (∃ n, x.d = .a n ∧ dest = LoadDest.areg n.toNat) ∨ (∃ n, x.d = .c n ∧ dest = LoadDest.creg n.toNat) →
      h.awake.pending [(x.base, false), (x.d, false)] = .ok () →
      checkAccess s h.awake scratch 0 size .r all = .ok (ps, ts) → h.awake.loadReady sp size ps = .ok () →
      let lanes := if x.d.isUniform then ps.take 1 else ps
      exec i s = .next (presentWarp ((ticketed lanes).put { k with warp := { k.warp with loads := sent dest lanes } }) u.crew u.pair))) ∧
  ∀ (x : MemArgs) (s : State) (u : UnitRef) (h : Here) (s₁ s₂ : State) (h₁ : Here) (ps : List Placed) (ts : List (LaneVa × TlbEntry)) (scratch : Bool)
      (i : Instr) (n : BitVec 8),
    Issuing s u h → (scratch = false ∧ i = .la x ∨ scratch = true ∧ i = .lsa x) → x.d = .v n →
    prepare s h.awake (threadUses i).1 (threadUses i).2 (h.awake.active x.g) = .ok (s₁, h₁) →
    let size := Size.bytes x.sz
    let off := if scratch then BitVec.ofNat 64 h.crew.scratch else 0
    checkAccess s₁ h₁ scratch 0 size .r ((lanesOf (h₁.active x.g)).map fun l =>
      (l, h₁.read x.base true 0 false l + (x.disp.signExtend 64 * BitVec.ofNat 64 size + off))) = .ok (ps, ts) →
    (∀ f ∈ h₁.split.flight, f.acq = none) →
    let k := { h₁ with split := { h₁.split with flight := h₁.split.flight ++ ps.map fun p =>
      { dest := n.toNat, sz := x.sz, space := if scratch then .scratch h.crew.core else .phys, va := p.va, pa := p.pa,
        acq := withMode s₁ h (Ord.acquires x.ord) x.scope, ro := x.ro } } }
    spillRegs (touchAll s₁ h.crew.core false ts) k (dedup (spilledRegs (threadUses i).1)) = .ok s₂ →
    threadExec i s = .next (s₂.put (k.advance 8))

/-- R222 to R224, R242: a store or an update whose checks pass and that nothing holds back stands at the end of the store queue with its lanes' addresses: `sd` and `upd` with their data, `sa` and `ssa` waiting for the execute warp's, their number at the end of the queue's address FIFO. The only bytes of memory that may change are page-table entries (R360) and those of update records that a walk applies on its way (R365); the store itself is performed when its entry leaves. R319, R432, R433: a store of a thread of a Portable Form program that waits for nothing is performed for the thread itself, which sees its bytes and every other as before, wherever it stands in coherence order; that it is performed when it issues is the model's choice (log 4). No update record and no error lies about there. -/
def Obligations.StoresEnterTheQueue : Prop :=
  (∀ (x : MemArgs) (s : State) (u : UnitRef) (h : Here) (ps : List Placed) (ts : List (LaneVa × TlbEntry)), Issuing s u h →
    let act := h.awake.active x.g
    let size := Size.bytes x.sz
    let all := (lanesOf act).map fun l => (l, h.awake.read x.base true 0 false l + x.disp.signExtend 64 * BitVec.ofNat 64 size)
    let s' := touchAll s h.crew.core true ts
    let k := Claims.issued h 8
    h.awake.acquired = .ok () → h.awake.storeRoom = .ok () →
    (let r := if act = 0 then none else withMode s h (Ord.releases x.ord) x.scope
     h.awake.pending [(x.base, false), (x.v, false)] = .ok () → checkAccess s h.awake x.x 1 size .w all = .ok (ps, ts) → h.awake.releaseData r = .ok () →
      exec (.sd x) s = .next (s'.put { k with warp := { k.warp with stores := if ps.isEmpty then h.warp.stores else h.warp.stores ++
        [{ seq := h.warp.seq, kind := if x.x then .sdsp else .sd, size := size, rel := r, q := 0, paired := true, sz := x.sz,
           lanes := ps.map fun p => { lane := p.lane, va := p.va, pa := p.pa, val := h.awake.read x.v true 0 false p.lane, off := false, slot := 0 } }] } })) ∧
    ∀ i scratch n q, (scratch = false ∧ i = Instr.sa x ∨ scratch = true ∧ i = Instr.ssa x) → x.v = .q n → h.queue? n.toNat = some q → q.addrs.length < q.depth →
      (∀ e ∈ h.warp.stores, e.paired = false → e.q = n.toNat → h.awake.orphanOf e = false) →
      let r := withMode s h (Ord.releases x.ord) x.scope
      h.awake.pending [(x.base, false)] = .ok () → checkAccess s h.awake scratch 1 size .w all = .ok (ps, ts) → h.awake.releaseData r = .ok () →
      exec i s = .next (s'.put { k with
        warp := { k.warp with stores := h.warp.stores ++
          [{ seq := h.warp.seq, kind := if scratch then .ssa else .sa, size := size, rel := r, q := n.toNat, paired := false, sz := x.sz,
             lanes := ps.map fun p => { lane := p.lane, va := p.va, pa := p.pa, val := 0, off := false, slot := 0 } }] },
        pair := { k.pair with queues := Tbl.set h.pair.queues n.toNat { q with addrs := q.addrs ++ [h.warp.seq] } } })) ∧
  (∀ (x : UpdArgs) (s : State) (u : UnitRef) (h : Here) (s₁ : State) (h₁ : Here) (ts : List (LaneVa × TlbEntry)), Issuing s u h →
    Served (.upd x) x.g s h s₁ h₁ →
    let act := h₁.active x.g
    let r := if act = 0 then none else withMode s₁ h₁ false .thread
    checkUpdate s₁ h₁ ((lanesOf act).map fun l => (l, h₁.read x.base true 0 false l + x.disp.signExtend 64)) = .ok ts →
    h₁.acquired = .ok () → h₁.releaseData r = .ok () → h₁.storeRoom = .ok () →
    let s' := touchAll s₁ h.crew.core true ts
    let k := (h₁.popAll [(x.base, false), (x.v, false)]).bump.advance 8
    exec (.upd x) s = .next (s'.put { k with warp := { k.warp with stores := if ts.isEmpty then h₁.warp.stores else h₁.warp.stores ++
      [{ seq := h₁.warp.seq, kind := .upd, size := 0, rel := r, q := 0, paired := true,
         lanes := ts.map fun t => { lane := t.1.1, va := t.1.2, pa := t.2.phys t.1.2, val := h₁.read x.v true 0 false t.1.1, off := false,
                                    slot := ((bindingAt s' h.crew.ctx t.1.2).map (·.1)).getD 0 } }] } })) ∧
  ∀ (x : MemArgs) (s : State) (u : UnitRef) (h : Here) (s₁ : State) (h₁ : Here) (ps : List Placed) (ts : List (LaneVa × TlbEntry)), Issuing s u h →
    prepare s h.awake (threadUses (.sd x)).1 (threadUses (.sd x)).2 (h.awake.active x.g) = .ok (s₁, h₁) →
    let size := Size.bytes x.sz
    let sp := if x.x then Space.scratch h.crew.core else .phys
    let off := if x.x then BitVec.ofNat 64 h.crew.scratch else 0
    let r := withMode s₁ h (Ord.releases x.ord) x.scope
    checkAccess s₁ h₁ x.x 1 size .w ((lanesOf (h₁.active x.g)).map fun l =>
      (l, h₁.read x.base true 0 false l + (x.disp.signExtend 64 * BitVec.ofNat 64 size + off))) = .ok (ps, ts) →
    (ps = [] → threadExec (.sd x) s = .next (s₁.put (h₁.advance 8))) ∧
    ∀ p rest, ps = p :: rest → Here.threadWaits s₁ h₁ r.isSome sp p.pa size = .ok () →
      s₁.drawers = [] → s₁.pend = [] → Claims.NoErrors s₁ → (x.x = true → s₁.wide = []) →
      let s' := (Here.threadRelease (touchAll s₁ h.crew.core true ts) h₁ r).1
      let val := h₁.read x.v (decide (x.sz = .b64)) 0 false p.lane
      ∃ t' : State, threadExec (.sd x) s = .next (t'.put (h₁.advance 8)) ∧ t'.crews = s₁.crews ∧
        ∀ a, t'.view h₁.threadViewer sp a = if p.pa ≤ a ∧ a < p.pa + size then val.extractLsb' (8 * (a - p.pa)) 8
          else s'.view h₁.threadViewer sp a

/-- R226 to R228: `pf` and `lea` complete without a trap, `lea` with base plus displacement; `rlq` sends one load to each device named, for the lanes that name it, with the context's tag, once the data of the newest stores of the bytes that this device serves is there (R222). -/
def Obligations.PrefetchAddressesAndRemoteLoads : Prop :=
  (∀ (x : MemArgs) s u h, Issuing s u h → h.awake.pending [(x.base, false)] = .ok () →
    ∃ t : State, exec (.pf x) s = .next (t.put (h.awake.advance 8)) ∧ t.crews = s.crews ∧ (Claims.NoErrors s → t.ctxs = s.ctxs) ∧
      (h.awake.active x.g = 0 → SameMemory s t)) ∧
  (∀ x : LeaArgs, CompletesAs (.lea x) x.g fun h =>
    finish h (.lea x) ((Instr.lea x).uses h.u.slice).2 x.d true false (h.active x.g) fun l =>
      { val := h.read x.base true 0 false l + x.disp.signExtend 64, flags := 0 }) ∧
  (∀ x : LeaLongArgs, CompletesAs (.leaLong x) x.g fun h =>
    finish h (.leaLong x) ((Instr.leaLong x).uses h.u.slice).2 x.d true false (h.active x.g) fun l =>
      { val := h.read x.base true 0 false l + x.disp, flags := 0 }) ∧
  ∀ (x : MemArgs) (s : State) (u : UnitRef) (h : Here) (n : BitVec 4) (q : Queue), Issuing s u h → x.d = .q n →
    let act := h.awake.active x.g
    let all := (lanesOf act).map fun l => (l, h.awake.read x.base true 0 false l + x.disp.signExtend 64 * BitVec.ofNat 64 (Size.bytes x.sz))
    let dev := fun (l : Nat) => ((h.awake.read x.v true 0 false l).setWidth 10 : BitVec 10).toNat
    h.awake.pending [(x.base, false), (x.v, false)] = .ok () →
    (∀ a ∈ all, s.dev.domain ≠ 0x3FF ∧ dev a.1 ≤ 575 ∧ canonical a.2 = true ∧ a.2.toNat % Size.bytes x.sz = 0) →
    let place := fun (a : LaneVa) => remotePlace s ((s.ctx h.crew.ctx).rtag.extractLsb' 0 16).toNat (dev a.1) a.2
    watch s h.awake 0 (Size.bytes x.sz) all = .ok () → h.awake.acquired = .ok () →
    h.awake.awaitBytes .phys (Size.bytes x.sz) (all.map fun a => { lane := a.1, va := a.2, pa := place a }) = .ok () → h.awake.pushReady n.toNat 1 = .ok q →
    ∃ (t : State) (k : Here), exec (.rlq x) s = .next (t.put k) ∧ t = { s with cores := t.cores } ∧
      (∀ c, { t.core c with ticket := 0 } = { s.core c with ticket := 0 }) ∧ k.split = (Claims.issued h 8).split ∧ k.crew = h.crew ∧ k.u = h.u ∧
      k.pair = { h.pair with queues := Tbl.set h.pair.queues n.toNat { q with
        entries := q.entries ++ [{ id := h.warp.seq, vals := [], tags := 0, missing := maskOf (all.map (·.1)) }] } } ∧
      k.warp = { (Claims.issued h 8).warp with loads := k.warp.loads } ∧
      ∃ sent, k.warp.loads = h.warp.loads ++ sent ∧ (∀ l ∈ sent, l.dest = .entry n.toNat h.warp.seq ∧ l.sz = x.sz ∧ l.split = u.split ∧
          l.tag = ((s.ctx h.crew.ctx).rtag.extractLsb' 0 16).toNat) ∧
        (∀ a ∈ all, ∃ l ∈ sent, l.remote = some (dev a.1) ∧ { lane := a.1, va := a.2, pa := place a } ∈ l.lanes) ∧
        ∀ l ∈ sent, ∀ y ∈ l.lanes, (y.lane, y.va) ∈ all ∧ l.remote = some (dev y.lane)

/-- The byte that a list of store lanes of `size` bytes leaves at an address that held `b`: the last lane that covers it, unless a marker suppressed it (R223, R317). -/
def Claims.stored (size : Nat) (lanes : List StoreLane) (a : Nat) (b : Byte) : Byte :=
  lanes.foldl (fun b x => if x.off = false ∧ x.pa ≤ a ∧ a < x.pa + size then x.val.extractLsb' (8 * (a - x.pa)) 8 else b) b

/-- R222, R223, R319: the head of an access warp's store queue that is paired, releases nothing and meets neither an older load or copy of its bytes nor a line that a command owns leaves the queue, and exactly the bytes of its lanes change, each to the value of the highest lane that stores there; a paired store takes the oldest complete data entry, lane by lane, without the lanes that a marker suppresses. With no update record and no error about, every other byte of memory is last written as before. -/
def Obligations.StoresPairAndDrain : Prop :=
  (∀ (s : State) (crew pair : Nat) (c : Crew) (p : Pair) (e : StoreEntry) (es : List StoreEntry),
    placedPair s crew pair = some (c, p) → p.acc.stores = e :: es → e.paired = true → e.kind ≠ .upd → e.rel = none →
    s.drawers = [] → s.pend = [] → s.held = [] → Claims.NoErrors s →
    let sp := e.space c.core
    (∀ x ∈ e.lanes, x.off = false → unowned s sp x.pa e.size = true ∧ (sp = .phys → copyReads p e.seq x.pa e.size = false) ∧
      ∀ l ∈ p.acc.loads, l.seq < e.seq → l.hits x.pa e.size sp = false) →
    ∃ t, exec (.storeQueueDrain crew pair) s = .next t ∧ t.pair? crew pair = some { p with acc := { p.acc with stores := es } } ∧
      ∀ sp' a, t.latest sp' a = if sp' = sp then Claims.stored e.size e.lanes a (s.latest sp' a) else s.latest sp' a) ∧
  ∀ (s : State) (crew pair n : Nat) (c : Crew) (p : Pair) (q : Queue) (sq : Nat) (sqs : List Nat) (e : QEntry) (es : List QEntry),
    placedPair s crew pair = some (c, p) → Tbl.get? p.queues n = some q → q.addrs = sq :: sqs → q.entries = e :: es → e.missing = 0 → s.faults = [] →
    ∃ t p', exec (.storePairing crew pair n) s = .next t ∧ t.pair? crew pair = some p' ∧ SameMemory s t ∧
      p'.queues = Tbl.set p.queues n { q with addrs := sqs, entries := es } ∧ p'.exe = p.exe ∧ p'.acc = { p.acc with stores := p'.acc.stores } ∧
      p'.acc.stores = p.acc.stores.map (fun st => if st.seq = sq ∧ st.paired = false then
        { st with paired := true, lanes := st.lanes.map fun m =>
          { m with val := (Cells.get e.vals m.lane).setWidth 64, off := e.tags.getLsbD m.lane } } else st)

/-- R217, R219, R221, R228: a lane's value arrives: with no error and no update record about, it is the bytes that the warp's own older stores hold, over those it sees in memory, extended as the size says, and it reaches the register or the entry's lane, of scratchpad in every lane that reads the word (R344); the last lane ends the load. A remote reply in time gives its value, or zero with RE set; from a device that cannot be reached none comes, and the lane is zero with RE, as it is for the device's own identifier once the time is over (R456). A line request that the L1 rejects is presented again, in order of age, and the sixteenth rejection makes the warp aged (R349, R350). An update enters the unit. -/
def Obligations.LoadedValuesArrive : Prop :=
  (∀ (s : State) (crew pair id lane : Nat) (c : Crew) (p : Pair) (l : Load) (x : LoadLane),
    placedPair s crew pair = some (c, p) → findLane p id lane = some (l, x) → l.remote = none → Claims.NoErrors s → s.drawers = [] → s.pend = [] →
    s.held = [] → (∀ m ∈ (s.core c.core).l1, m.bits = []) → (l.space = .phys → copyReads p l.seq x.pa (Size.bytes l.sz) = false) → x.pa / 128 ∉ l.todo → (l.space ≠ .phys → bankFirst s c.core l x = true) →
    let size := Size.bytes l.sz
    unowned s l.space x.pa size = true → (∀ m ∈ p.acc.loads, m.seq < l.seq → m.hits x.pa size l.space = false) → updateBefore p l.seq x.pa = false →
    let bytes := fun (y : LoadLane) => overlay c.core p.acc.stores l.seq l.space y.pa size ((List.range size).map fun k => s.view (accessViewer crew pair c) l.space (y.pa + k))
    let lanes := match l.space with
      | .phys => [x]
      | .scratch _ => l.lanes.filter fun y => decide (y.pa / 8 = x.pa / 8)
    ∃ t, exec (.loadValueArrival crew pair id lane false) s = .next t ∧ SameMemory s t ∧
      t.pair? crew pair = some (lanes.foldl (fun p y => deliverLane p l y.lane (Size.extend l.sz (bytesToNat (bytes y))) false) p)) ∧
  (∀ (p : Pair) (l : Load) (lane : Nat) (v : W64) (re : Bool),
    let p' := deliverLane p l lane v re
    (∀ n, l.dest = .areg n → lane < 64 → p'.acc.getA n lane = v ∧ p'.queues = p.queues ∧
      ∀ m j, j < 64 → ¬(m = n ∧ j = lane) → p'.acc.getA m j = p.acc.getA m j) ∧
    (∀ n, l.dest = .creg n → p'.acc.getC n = v ∧ p'.queues = p.queues ∧ (∀ m, m ≠ n → p'.acc.getC m = p.acc.getC m) ∧ p'.acc.a = p.acc.a) ∧
    (∀ n id q, l.dest = .entry n id → Tbl.get? p.queues n = some q → p'.acc.a = p.acc.a ∧ p'.acc.c = p.acc.c ∧
      ∃ q', Tbl.get? p'.queues n = some q' ∧ q'.re = (q.re || re) ∧ q'.nf = q.nf ∧ q'.addrs = q.addrs ∧
        q'.entries = q.entries.map fun e => if e.id = id ∧ e.missing.getLsbD lane = true then
          { e with vals := Cells.set e.vals lane (v.setWidth 32), missing := e.missing &&& ~~~((1 : W64) <<< lane) } else e) ∧
    p'.exe = p.exe ∧ p'.acc.stores = p.acc.stores ∧ p'.acc.k = p.acc.k ∧ (∀ m ∈ p.acc.loads, m.id ≠ l.id → m ∈ p'.acc.loads) ∧
    ∀ m ∈ p.acc.loads, m.id = l.id → m.dest = l.dest → ∀ rest, rest = m.lanes.filter (fun y => decide (y.lane ≠ lane)) →
      (rest ≠ [] → { m with lanes := rest } ∈ p'.acc.loads) ∧ ∀ y ∈ p'.acc.loads, y.id = l.id → y.dest = l.dest → ∀ z ∈ y.lanes, z.lane ≠ lane) ∧
  (∀ (s : State) (crew pair id lane : Nat) (r : RemoteResult) (data : W64) (c : Crew) (p : Pair) (l : Load) (x : LoadLane) (dev : Nat),
    placedPair s crew pair = some (c, p) → findLane p id lane = some (l, x) → l.remote = some dev → dev ≠ s.dev.domain.toNat →
    (reachable s dev = false → exec (.remoteReply crew pair id lane r data) s = .next (s.onPair crew pair fun p => deliverLane p l lane 0 true)) ∧
    (reachable s dev = true → (r = .lost ↔ overdue s c.core l.sent = true) →
    let v := if r = .ok then Size.extend l.sz (data.toNat % 2 ^ (8 * Size.bytes l.sz)) else 0
    exec (.remoteReply crew pair id lane r data) s = .next (s.onPair crew pair fun p => deliverLane p l lane v (decide (r ≠ .ok))))) ∧
  (∀ (s : State) (crew pair id lane : Nat) (r : RemoteResult) (data : W64) (c : Crew) (p : Pair) (l : Load) (x : LoadLane),
    placedPair s crew pair = some (c, p) → findLane p id lane = some (l, x) → l.remote = some s.dev.domain.toNat → overdue s c.core l.sent = true →
    exec (.remoteReply crew pair id lane r data) s = .next (s.onPair crew pair fun p => deliverLane p l lane 0 true)) ∧
  (∀ (s : State) (crew pair : Nat) (c : Crew) (p : Pair) (l : Load), placedPair s crew pair = some (c, p) →
    p.acc.loads.find? (fun l => !l.todo.isEmpty) = some l → agedTurn s c.core p.acc = true →
    let r := presentLines (s.core c.core) p.acc.aged l.todo
    ∃ t w, exec (.missRejectionAged crew pair) s = .next t ∧ SameMemory s t ∧ t.pair? crew pair = some { p with acc := w } ∧
      w.rejects = (if r.2 = [] then 0 else p.acc.rejects + 1) ∧ w.aged = (decide (r.2 ≠ []) && (p.acc.aged || decide (16 ≤ p.acc.rejects + 1))) ∧
      w.stores = p.acc.stores ∧ w.loads.map (fun m => { m with todo := [] }) = p.acc.loads.map fun m => { m with todo := [] }) ∧
  ∀ (s : State) (crew pair : Nat) (c : Crew) (p : Pair) (e : StoreEntry) (es : List StoreEntry), placedPair s crew pair = some (c, p) →
    p.acc.stores = e :: es → e.kind = .upd → e.rel = none →
    (∀ x ∈ e.lanes, roomFor s x.pa = true ∧ copyReads p e.seq (x.pa / 128 * 128) 128 = false ∧
      ∀ l ∈ p.acc.loads, l.seq < e.seq → l.hits (x.pa / 128 * 128) 128 .phys = false) →
    let accept := fun (s : State) x => match drawerFor s c x with
      | none => s
      | some d => acceptPair s d (x.val.toNat % 2 ^ (8 * etypeBytes d.etype))
    exec (.updateAccept crew pair) s = .next (popStore (e.lanes.foldl accept s) crew pair [])

/-! ### Groups 9 and 10 -/

/-- R229 to R235, Table 8.5, Table 8.6: pushes append one entry with its tags and shift the latches, pops and peeks give the front entry's values and tags, the status word has its fields, drops remove their entries, and a queue that cannot serve parks, waits or is orphaned. That a count above the depth traps when the drop issues is the model's choice (log 89). -/
def Obligations.QueueInstructionsComplete : Prop :=
  let pushed := fun (h : Here) (n : Nat) (nwb : Bool) (act tags : W64) (val : Nat → W32) =>
    ((if nwb then h else h.push n (cellsOf act val) (tags &&& act)).latch (cellsOf act fun l => (val l).setWidth 64)).advance 8
  let front := fun (h : Here) (i : Instr) (e : QEntry) (d : Opnd) (nwb : Bool) (kt : BitVec 4) (act : W64) =>
    let k := finish h i [] d false nwb act fun l => { val := (Cells.get e.vals l).setWidth 64, flags := 0 }
    { k with warp := k.warp.setPred kt.toNat act e.tags }
  (∀ (x : QpushArgs) n, x.qd = .q n → CompletesAs (.qpush x) x.g fun h =>
    let k := if x.neg then ~~~(h.warp.pred x.kt.toNat) else h.warp.pred x.kt.toNat
    pushed h n.toNat x.nwb (h.active x.g) (if x.en then k else 0) fun l => (h.src ((Instr.qpush x).uses h.u.slice).2 0 false l).setWidth 32) ∧
  (∀ (x : QendArgs) n, x.qd = .q n → CompletesAs (.qend x) x.g fun h =>
    pushed h n.toNat x.nwb (h.active x.g) (BitVec.allOnes 64) fun l => (h.src ((Instr.qend x).uses h.u.slice).2 0 false l).setWidth 32) ∧
  (∀ (x : QpopArgs) s u h s₁ h₁ s₂ n q e es, Issuing s u h → x.q = .q n →
    prepare s h.awake [(x.d, false)] [] (h.awake.active x.g) = .ok (s₁, h₁) → h₁.popReady n.toNat 1 = .ok q → q.entries = e :: es →
    let k := (front h₁ (.qpop x) e x.d x.nwb x.kt (h₁.active x.g)).drop n.toNat 1
    spillRegs s₁ k (spilledRegs [(x.d, false)]) = .ok s₂ → exec (.qpop x) s = .next (s₂.put k)) ∧
  (∀ (x : QpeekArgs) s u h s₁ h₁ s₂ q e es, Issuing s u h →
    prepare s h.awake [(x.d, false)] [] (h.awake.active x.g) = .ok (s₁, h₁) → h₁.popReady x.n.toNat 1 = .ok q → q.entries = e :: es →
    let k := (front h₁ (.qpeek x) e x.d x.nwb x.kt (h₁.active x.g)).sees [e]
    spillRegs s₁ k (spilledRegs [(x.d, false)]) = .ok s₂ → exec (.qpeek x) s = .next (s₂.put k)) ∧
  (∀ (x : QstatArgs) s u h s₁ h₁ s₂ q, Issuing s u h → Served (.qstat x) x.g s h s₁ h₁ → h₁.queue? x.n.toNat = some q →
    let k := finish h₁ (.qstat x) ((Instr.qstat x).uses h.u.slice).2 x.d false x.nwb (h₁.active x.g) fun _ => { val := (h₁.queueStatus q).setWidth 64, flags := 0 }
    let k' := if x.clr then k.setQueue x.n.toNat { q with nf := false, re := false } else k
    Stored (.qstat x) h.u.slice s₁ k' s₂ → exec (.qstat x) s = .next (s₂.put k')) ∧
  (∀ (h : Here) (q : Queue), q.depth < 128 → q.entries.length ≤ q.depth → q.addrs.length < 128 →
    let w := h.queueStatus q
    let done := fun (p : QEntry → Bool) => (q.entries.head?.map fun e => decide (e.missing = 0) && p e).getD false
    (w.extractLsb' 0 7).toNat = q.entries.length ∧ (w.extractLsb' 7 7).toNat = q.depth - q.entries.length ∧ w.getLsbD 14 = q.nf ∧
    w.getLsbD 15 = q.re ∧ w.getLsbD 18 = done (fun _ => true) ∧ w.getLsbD 19 = done (fun e => decide (e.tags ≠ 0)) ∧
    (w.extractLsb' 20 7).toNat = q.addrs.length ∧ w.extractLsb' 27 5 = (0 : BitVec 5) ∧
    (w.extractLsb' 16 2).toNat = if (h.pair.warp (producer q.dir)).ended then 2
      else if ((if producer q.dir = h.u.slice then h.warp else h.pair.warp (producer q.dir)).splits.any fun e => e.2.faulted) then 1 else 0) ∧
  (∀ (x : QdropArgs) s u h q, Issuing s u h → h.queue? x.n.toNat = some q →
    let n := x.n.toNat
    let m := x.cnt.toNat + 1
    let trap := fun (cause : Nat) => exec (.qdrop x) s = .next (takeTrap s u { cause := cause })
    (x.all = true → (∀ e ∈ q.entries, e.missing = 0) → exec (.qdrop x) s = .next (s.put ((h.awake.drop n q.entries.length).advance 8))) ∧
    (x.all = true → (∃ e ∈ q.entries, e.missing ≠ 0) → exec (.qdrop x) s = .next (parkUnit s u (.dropping n q.entries.length))) ∧
    (x.all = false → q.depth < m → trap (if u.slice = .access then 0x0B else 0x0A)) ∧
    (x.all = false → m ≤ q.depth → m ≤ q.entries.length → (∀ e ∈ q.entries.take m, e.missing = 0) →
      exec (.qdrop x) s = .next (s.put ((h.awake.drop n m).advance 8))) ∧
    (x.all = false → m ≤ q.depth → q.entries.length < m → (h.pair.warp (producer q.dir)).ended = true → trap (0xC0 + n))) ∧
  ∀ (h : Here) (qn n : Nat) (q : Queue), h.queue? qn = some q →
    ((h.drop qn n).queue? qn = some { q with entries := q.entries.drop n }) ∧
    (∀ v t, (h.push qn v t).queue? qn = some { q with entries := q.entries ++ [{ id := h.warp.seq, vals := v, tags := t, missing := 0 }] }) ∧
    (q.entries.length < n → h.popReady qn n = .error (if (h.pair.warp (producer q.dir)).ended then .trap { cause := 0xC0 + qn } else .wait (.qEmpty qn n))) ∧
    (n ≤ q.entries.length → (∀ e ∈ q.entries.take n, e.missing = 0) → h.popReady qn n = .ok q) ∧
    (n ≤ q.entries.length → (∃ e ∈ q.entries.take n, e.missing ≠ 0) → h.popReady qn n = .error (.wait (.incomplete qn n))) ∧
    (q.entries.length + n ≤ q.depth → h.pushReady qn n = .ok q) ∧
    (q.depth < q.entries.length + n → h.pushReady qn n = .error (if (match consumer q.dir with
      | some sl => (h.pair.warp sl).ended
      | none => false) = true then .trap { cause := 0xC0 + qn } else .wait (.qFull qn n)))

/-- R240: with its checks passed and its waits over, an atomic reads the bytes last written at its one address and writes the new value there and nowhere else, gives the old one, extended, to its destination, and moves on; a release performs the warp's past at its scope first (R224, R326); without an active lane it only moves on. No update record and no error lies about. R432: an atomic of a thread of a Portable Form program does the same on the thread's address; that a thread is a split of its own is the model's choice (log 4). -/
def Obligations.AtomicsReadAndWriteOneWord : Prop :=
  let runs := fun (i : Instr) (g : Guard) (d base : Opnd) (uses : List Use) (disp : W64) (n : Nat) (ord : Ord) (sc : Scope) (sgn : Bool)
      (new : Here → BitVec (8 * n) → BitVec (8 * n)) =>
    ∀ (s : State) (u : UnitRef) (h : Here), Issuing s u h →
    (h.awake.active g = 0 → exec i s = .next (s.put (h.awake.advance 8))) ∧
    ∀ (lane : Nat) (t : TlbEntry), lowest (h.awake.active g) = some lane → h.awake.pending uses = .ok () →
      let va := h.awake.read base true 0 false 0 + disp
      checkGlobal s h.awake 2 n .w [(lane, va)] = .ok [((lane, va), t)] → watch s h.awake 2 n [(lane, va)] = .ok () →
      Here.atomReady s h.awake (t.phys va) n (withMode s h (Ord.releases ord) sc) = .ok () → s.drawers = [] → s.pend = [] → Claims.NoErrors s →
      let s' := touch (match withMode s h (Ord.releases ord) sc with
        | none => s
        | some sc => (releaseBy s h.viewer sc).1) h.crew.core t true
      let old := BitVec.ofNat (8 * n) (bytesToNat (s'.latestBytes .phys (t.phys va) n))
      let val := if sgn then old.signExtend 64 else old.setWidth 64
      ∃ t' : State, exec i s = .next (t'.put (Claims.issued (h.awake.write d true false (h.awake.active g) fun _ => val) 8)) ∧ t'.crews = s.crews ∧
        ∀ sp a, t'.latest sp a = if sp = .phys ∧ t.phys va ≤ a ∧ a < t.phys va + n then (new h.awake old).extractLsb' (8 * (a - t.phys va)) 8
          else s'.latest sp a
  (∀ x : AtomArgs, x.op ≠ .min ∧ x.op ≠ .max ∨ (x.ty ≠ .b32 ∧ x.ty ≠ .b64) →
    let n := if x.ty = .b32 ∨ x.ty = .s32 ∨ x.ty = .z32 then 4 else 8
    let sgn := decide (x.ty = .s32 ∨ x.ty = .s64)
    runs (.atom x) x.g x.d x.base [(x.base, false), (x.v, false), (x.d, false)] (x.disp.signExtend 64 * BitVec.ofNat 64 n) n x.ord x.scope sgn
      fun h old =>
        let v : BitVec (8 * n) := (h.read x.v true 0 false 0).setWidth (8 * n)
        let le := if sgn then decide (old.toInt ≤ v.toInt) else decide (old.toNat ≤ v.toNat)
        match x.op with
        | .add => old + v
        | .min => if le then old else v
        | .max => if le then v else old
        | .and => old &&& v
        | .or => old ||| v
        | .xor => old ^^^ v
        | .exch => v) ∧
  (∀ x : AcasArgs,
    let n := if x.wide then 8 else 4
    runs (.acas x) x.g x.d x.base [(x.base, false), (x.cmp, false), (x.new, false), (x.d, false)] 0 n x.ord x.scope false
      fun h old => if old = (h.read x.cmp true 0 false 0).setWidth (8 * n) then (h.read x.new true 0 false 0).setWidth (8 * n) else old) ∧
  let thread := fun (i : Instr) (g : Guard) (d base : Opnd) (disp : W64) (n : Nat) (ord : Ord) (sc : Scope) (sgn : Bool)
      (new : Here → Nat → BitVec (8 * n) → BitVec (8 * n)) =>
    ∀ (s : State) (u : UnitRef) (h : Here) (s₁ : State) (h₁ : Here) (lane : Nat) (t : TlbEntry), Issuing s u h →
      prepare s h.awake (threadUses i).1 (threadUses i).2 (h.awake.active g) = .ok (s₁, h₁) → lanesOf (h₁.active g) = [lane] →
      let va := h₁.read base true 0 false lane + disp
      let r := withMode s₁ h (Ord.releases ord) sc
      checkGlobal s₁ h₁ 2 n .w [(lane, va)] = .ok [((lane, va), t)] → watch s₁ h₁ 2 n [(lane, va)] = .ok () →
      Here.threadWaits s₁ h₁ r.isSome .phys (t.phys va) n = .ok () → s₁.drawers = [] → s₁.pend = [] → Claims.NoErrors s₁ →
      let s' := touch (Here.threadRelease s₁ h₁ r).1 h.crew.core t true
      let old := BitVec.ofNat (8 * n) (bytesToNat (s'.latestBytes .phys (t.phys va) n))
      let k := h₁.write d (decide (n = 8)) false (h₁.active g) fun _ => if sgn then old.signExtend 64 else old.setWidth 64
      ∃ t' : State, t'.crews = s₁.crews ∧
        (∀ sp a, t'.latest sp a = if sp = .phys ∧ t.phys va ≤ a ∧ a < t.phys va + n then (new h₁ lane old).extractLsb' (8 * (a - t.phys va)) 8
          else s'.latest sp a) ∧
        ∀ s₂, spillRegs t' k (dedup (spilledRegs (threadUses i).1)) = .ok s₂ → threadExec i s = .next (s₂.put (k.advance 8))
  (∀ x : AtomArgs, x.op ≠ .min ∧ x.op ≠ .max ∨ (x.ty ≠ .b32 ∧ x.ty ≠ .b64) →
    let n := if x.ty = .b32 ∨ x.ty = .s32 ∨ x.ty = .z32 then 4 else 8
    let sgn := decide (x.ty = .s32 ∨ x.ty = .s64)
    thread (.atom x) x.g x.d x.base (x.disp.signExtend 64 * BitVec.ofNat 64 n) n x.ord x.scope sgn fun h lane old =>
      let v : BitVec (8 * n) := (h.read x.v (decide (n = 8)) 0 false lane).setWidth (8 * n)
      let le := if sgn then decide (old.toInt ≤ v.toInt) else decide (old.toNat ≤ v.toNat)
      match x.op with
      | .add => old + v
      | .min => if le then old else v
      | .max => if le then v else old
      | .and => old &&& v
      | .or => old ||| v
      | .xor => old ^^^ v
      | .exch => v) ∧
  ∀ x : AcasArgs,
    let n := if x.wide then 8 else 4
    thread (.acas x) x.g x.d x.base 0 n x.ord x.scope false fun h lane old =>
      if old = (h.read x.cmp x.wide 0 false lane).setWidth (8 * n) then (h.read x.new x.wide 0 false lane).setWidth (8 * n) else old

/-- R241: a fence completes in the execute slice and without an active lane at once, an acquire in the execute slice learning what the warp's reads have read from; in the access slice an acquire waits until no load of the warp is in flight, and learns what the warp's reads have read from (`learnHeard`, R325); a release, once the data of earlier paired stores is there, takes its place in the store queue behind every earlier store, to be performed at its scope. R312, R313: `isync` without stores in the queue performs the warp's stores at die scope and drops the words fetched ahead; `icinv` takes the lines of its ranges out of every instruction cache of the die and out of every split's words, and with .all every line. -/
def Obligations.FencesAndCodeSynchronisation : Prop :=
  (∀ (x : FenceArgs) (s : State) (u : UnitRef) (h : Here), Issuing s u h →
     (h.awake.active x.g = 0 → exec (.fence x) s = .next (s.put (h.awake.advance 8))) ∧
     (u.slice = .execute → h.awake.active x.g ≠ 0 →
       exec (.fence x) s = .next ((if Ord.acquires x.sem then learnHeard s h.viewer x.scope else s).put (h.awake.advance 8))) ∧
     (u.slice = .access → h.awake.active x.g ≠ 0 →
       (Ord.acquires x.sem = true → h.warp.loads ≠ [] → exec (.fence x) s = .next (parkUnit s u .ordering)) ∧
       let s' := if Ord.acquires x.sem then learnHeard s h.viewer x.scope else s
       ((Ord.acquires x.sem = true → h.warp.loads = []) → Ord.releases x.sem = false → exec (.fence x) s = .next (s'.put (Claims.issued h 8))) ∧
       ((Ord.acquires x.sem = true → h.warp.loads = []) → Ord.releases x.sem = true → h.awake.awaitData h.warp.stores = .ok () →
         let k := Claims.issued h 8
         exec (.fence x) s = .next (s'.put { k with warp := { k.warp with stores := h.warp.stores ++
           [{ seq := h.warp.seq, kind := .fence, size := 0, rel := some x.scope, q := 0, lanes := [], paired := true }] } })))) ∧
  ((∀ (x : BareArgs) s u h, Issuing s u h → h.awake.active x.g = 0 → exec (.isync x) s = .next (s.put (h.awake.advance 8))) ∧
   (∀ (x : BareArgs) s u h, Issuing s u h → h.awake.active x.g ≠ 0 → h.warp.stores = [] →
     exec (.isync x) s = .next ((performAgent s (· == h.agent) .die).put ({ h.awake with split := { h.awake.split with ahead := [] } }.advance 8))) ∧
   ∀ (x : RangeArgs) s u h s₁ h₁, Issuing s u h → Served (.icinv x) x.g s h s₁ h₁ →
     (h₁.active x.g = 0 → exec (.icinv x) s = .next (s₁.put (h₁.advance 8))) ∧
     (h₁.active x.g ≠ 0 →
       let gone := fun (ctx : Nat) (a : Nat) => x.flag = true ∨ (ctx = h.crew.ctx ∧ ∃ l, l < 64 ∧ bitAt (h₁.active x.g) l = true ∧
         let b := (h₁.read x.base true 0 false l).toNat
         let n := (h₁.read x.len true 0 false l).toNat
         0 < n ∧ b < a / 128 * 128 + 128 ∧ a / 128 * 128 < b + n)
       ∃ t k, exec (.icinv x) s = .next t ∧ t.here? u = some k ∧ k.split.pc = h.split.pc + 8 ∧ k.split.mask = h.split.mask ∧ SameMemory s₁ t ∧
         (∀ c l, l ∈ (t.core c).icache → l ∈ (s₁.core c).icache ∧ (l.line < 2 ^ 57 → ¬gone l.ctx (128 * l.line))) ∧
         (∀ c l, l ∈ (s₁.core c).icache → l.line < 2 ^ 57 → ¬gone l.ctx (128 * l.line) → l ∈ (t.core c).icache) ∧
         ∀ a w, (a, w) ∈ k.split.ahead → (a, w) ∈ h₁.split.ahead ∧ (a < 2 ^ 64 → ¬gone h.crew.ctx a)))

/-- R246 to R249: range maintenance acts on the lines that the core uses some address of the active lanes' ranges for (`lineNamed`). `uflush`, when no command owns a line that the records of these lines go to, applies exactly their records; `cinv` takes exactly these lines from the issuing core's L1; `cwb` cleans exactly these lines, with .inv takes them from every L2 slice, and leaves every byte as every observer reads it. `ubind` enters the binding its descriptor describes when nothing is wrong with it and the slot is free; a bound slot traps. `uunbind` of a bound slot whose updates are all accepted and can be applied leaves no record of it and frees the slot, and waits, the slot leaving use, while they are not; of an empty slot it traps. The model's own: which lines a range names when a line is reached by several addresses (`lineNamed`, log entry 54), that ubind waits until its warp is quiet and the update units hold nothing and that uunbind waits as said (log entry 55), and that a uunbind of a slot whose removal is in progress traps as of an empty one (log entry 86). -/
def Obligations.RegionsAndCachesAreMaintained : Prop :=
  (∀ (x : RangeArgs) (s : State) (u : UnitRef) (h : Here), Issuing s u h → h.awake.pending [(x.base, false), (x.len, false)] = .ok () →
    let rs := (lanesOf (h.awake.active x.g)).map fun l =>
      let b := (h.awake.read x.base true 0 false l).toNat
      (b, min (b + (h.awake.read x.len true 0 false l).toNat) (2 ^ 64))
    let named := fun (line : Nat) => lineNamed s h.crew.core h.crew.ctx rs line = true
    (Claims.NoErrors s → (∀ d ∈ s.drawers, named (d.key / 128) → applyReady s d.key = true) → (∀ d ∈ s.pend, named (d.key / 128) → applyReady s d.key = true) →
      ∃ t : State, exec (.uflush x) s = .next (t.put (h.awake.advance 8)) ∧ t.crews = s.crews ∧
        (∀ d, d ∈ t.drawers ↔ d ∈ s.drawers ∧ ¬named (d.key / 128)) ∧ ∀ d, d ∈ t.pend ↔ d ∈ s.pend ∧ ¬named (d.key / 128)) ∧
    ((∃ d ∈ s.drawers, named (d.key / 128) ∧ applyReady s d.key = false) → exec (.uflush x) s = .next (parkUnit s u .ordering)) ∧
    (∃ t : State, exec (.cinv x) s = .next (t.put (h.awake.advance 8)) ∧ SameMemory s t ∧ t.crews = s.crews ∧
      (∀ l, l ∈ (t.core h.crew.core).l1 ↔ l ∈ (s.core h.crew.core).l1 ∧ ¬named l.line) ∧ ∀ c, c ≠ h.crew.core → t.core c = s.core c) ∧
    (s.faults = [] → ∃ t : State, exec (.cwb x) s = .next (t.put (h.awake.advance 8)) ∧ SameMemory s t ∧ t.crews = s.crews ∧
      (∀ d, d ∈ t.dirty ↔ d ∈ s.dirty ∧ ¬named d.line) ∧ ∀ n l, l ∈ t.slice n ↔ l ∈ s.slice n ∧ ¬(x.flag = true ∧ named l))) ∧
  (∀ (x : BindArgs) (s : State) (u : UnitRef) (h : Here), Issuing s u h →
    (h.awake.active x.g = 0 → exec (.ubind x) s = .next (s.put (h.awake.advance 8)) ∧ exec (.uunbind x) s = .next (s.put (h.awake.advance 8))) ∧
    ∀ lane, lowest (h.awake.active x.g) = some lane →
    let n := x.n.toNat
    let c := s.ctx h.crew.ctx
    let va := h.awake.read x.base true 0 false 0
    (∀ (t : TlbEntry) (s' : State), h.awake.pending [(x.base, false)] = .ok () → checkGlobal s h.awake 0 32 .r [(lane, va)] = .ok [((lane, va), t)] →
      watch s h.awake 0 32 [(lane, va)] = .ok () → h.warp.stores = [] → h.warp.loads = [] → h.warp.maint = 0 → h.u.slice = .access →
      s.drawers = [] → s.pend = [] → Claims.NoErrors s → s' = touch s h.crew.core t false → lineWaits s' .phys (t.phys va) 32 = [] →
      (Tbl.get? c.bindings n ≠ none → exec (.ubind x) s = .next (takeTrap s u { cause := 0x6A, lane := some lane, addr := va })) ∧
      (Tbl.get? c.bindings n = none → bindingOf (s'.ctx h.crew.ctx) (s'.viewBytes h.viewer .phys (t.phys va) 32) = none →
        exec (.ubind x) s = .next (takeTrap s u { cause := 0x6A, lane := some lane, addr := va })) ∧
      ∀ b p, Tbl.get? c.bindings n = none → bindingOf (s'.ctx h.crew.ctx) (s'.viewBytes h.viewer .phys (t.phys va) 32) = some b →
        shadowPages s' h.awake lane b.sbase ((shadowBytes b.oper b.etype b.rlen.toNat + 4095) / 4096) = .ok p →
        ∃ t' : State, exec (.ubind x) s = .next (t'.put (Claims.issued h 8)) ∧ t'.crews = s.crews ∧
          (t'.ctx h.crew.ctx).bindings = Tbl.set c.bindings n b ∧ ∀ k, k ≠ h.crew.ctx → t'.ctx k = s.ctx k) ∧
    (Tbl.get? c.bindings n = none → exec (.uunbind x) s = .next (takeTrap s u { cause := 0x6A, lane := some lane })) ∧
    (∀ b, Tbl.get? c.bindings n = some b → b.leaving = true → exec (.uunbind x) s = .next (takeTrap s u { cause := 0x6A, lane := some lane })) ∧
    (∀ b, Tbl.get? c.bindings n = some b → b.leaving = false → slotFree s h.crew.ctx n = false →
      exec (.uunbind x) s = .next ((s.setCtx h.crew.ctx { c with bindings := Tbl.set c.bindings n { b with leaving := true } }).put
        { h with split := { h.split with wait := .unbinding n } })) ∧
    (∀ b, Tbl.get? c.bindings n = some b → b.leaving = false → slotFree s h.crew.ctx n = true → Claims.NoErrors s →
      ∃ t' : State, exec (.uunbind x) s = .next (t'.put (Claims.issued h 8)) ∧ t'.crews = s.crews ∧
        (t'.ctx h.crew.ctx).bindings = Tbl.erase c.bindings n ∧
        (∀ d ∈ t'.drawers, ¬(d.ctx = h.crew.ctx ∧ d.slot = n)) ∧ ∀ d ∈ t'.pend, ¬(d.ctx = h.crew.ctx ∧ d.slot = n)))

/-! ### Group 11 -/

/-- Where the cells of an octet's tile stand. -/
def Claims.mAt (h : Here) (octet t row col : Nat) : W32 := Cells.get h.crew.mt (cellNo octet t row col)
def Claims.pAt (h : Here) (octet t row col : Nat) : W64 := Cells.get h.crew.pt (cellNo octet t row col)
/-- Row `row` of octet `o` belongs to an active lane (R250). -/
def Claims.rowActs (h : Here) (act : W64) (o row : Nat) : Prop := ∃ l, l < 64 ∧ act.getLsbD l = true ∧ h.octet l = o ∧ l % 8 = row

/-- R255, R256, R258: a stamp load whose checks pass puts the image read from the scratchpad into its slot, with its kind and its source offset, and changes nothing else but what a later acquire learns from (`hear`; what it sees is the reading of log entry 57); `stinv` empties its slot; the checks fail in their order with their traps; without an active lane the split only moves on. -/
def Obligations.StampSlotsAreLoadedAndEmptied : Prop :=
  (∀ (x : StampArgs) (s : State) (u : UnitRef) (h : Here) (sparse : Bool) (i : Instr), sparse = false ∧ i = .stld x ∨ sparse = true ∧ i = .stsp x →
    Issuing s u h → u.slice = .execute →
    (h.awake.active x.g = 0 → exec i s = .next (s.put (h.awake.advance 8))) ∧
    ∀ lane, lowest (h.awake.active x.g) = some lane →
    let off := ((h.awake.read x.off false 0 false 0).setWidth 32 : W32).toNat
    let n := if sparse then 2688 else 2112
    let trap := fun (cause : Nat) => exec i s = .next (takeTrap s u { cause := cause })
    (h.crew.kern.ns ≤ x.j.toNat → trap 0x1A) ∧
    (x.j.toNat < h.crew.kern.ns →
      (off % 64 ≠ 0 ∨ h.crew.kern.scratch < off + n → trap 0x20) ∧
      (off % 64 = 0 → off + n ≤ h.crew.kern.scratch → stampWaits h.awake off n = false → Claims.NoErrors s → lineWaits s (.scratch h.crew.core) (h.crew.scratch + off) n = [] →
        let img := Cells.setList [] 0 (stampBytes s h.awake off n)
        let bad := ∃ b, b < 512 ∧ ∃ k, k < 2 ∧
          let e := ((Cells.get img (2048 + b) >>> (4 * k)).setWidth 4 : BitVec 4)
          (e.extractLsb' 2 2).toNat ≤ (e.extractLsb' 0 2).toNat
        (sparse = true → bad → trap 0x22) ∧
        ((sparse = true → ¬bad) → watch s h.awake 3 n [(lane, BitVec.ofNat 64 (h.crew.scratch + off))] = .ok () →
          exec i s = .next ((hear s h.viewer (releasesRead s (stampViewer h) (.scratch h.crew.core) (h.crew.scratch + off) n)).put ({ h.awake with crew := { h.crew with
            stamps := Tbl.set h.crew.stamps x.j.toNat { sparse := sparse, src := off, img := img, lost := [], soft := [] } } }.advance 8)))))) ∧
  (∀ (s : State) (h : Here) (off n : Nat), h.pair.acc.stores = [] → Claims.NoErrors s → stampBytes s h off n =
    (List.range n).map fun k => s.view { agent := .warp h.u.crew h.u.pair .access, core := h.crew.core, crew := h.u.crew } (.scratch h.crew.core) (h.crew.scratch + off + k)) ∧
  ∀ (x : StampArgs) (s : State) (u : UnitRef) (h : Here), Issuing s u h → u.slice = .execute →
    (h.awake.active x.g = 0 → exec (.stinv x) s = .next (s.put (h.awake.advance 8))) ∧
    (h.awake.active x.g ≠ 0 → h.crew.kern.ns ≤ x.j.toNat → exec (.stinv x) s = .next (takeTrap s u { cause := 0x1A })) ∧
    (h.awake.active x.g ≠ 0 → x.j.toNat < h.crew.kern.ns →
      exec (.stinv x) s = .next (s.put ({ h.awake with crew := { h.crew with stamps := Tbl.erase h.crew.stamps x.j.toNat } }.advance 8)))

/-- R250, R259 to R263: a product of a loaded slot without lost words completes, when its form is none that the slot forbids, its A row lies below the bound and the register count or stands complete and unmarked in the queue, its K-length is in range and the same in every octet, and every acting octet has tiles. -/
def Claims.Multiplies (i : Instr) (cplx : Bool) (x : MmaArgs) : Prop :=
  ∀ (s : State) (u : UnitRef) (h : Here) (st : Stamp), Issuing s u h → u.slice = .execute →
    let act := h.awake.active x.g
    let lanes := fun (l : Nat) => l < 64 ∧ act.getLsbD l = true
    let nA := (if x.fa = .e2m1 then 4 else 8) * (if st.sparse then 2 else 1)
    let κ := fun l => (h.awake.read x.klen false 0 false l).toNat
    let fits := fun l => (if cplx then 2 else 1) ≤ κ l ∧ κ l ≤ (if st.sparse then 64 else 32) ∧ (cplx = true → κ l % 2 = 0)
    x.j.toNat < h.crew.kern.ns → Tbl.get? h.crew.stamps x.j.toNat = some st → (∀ w ∈ st.lost, ¬(w < 256 ∨ (st.sparse = true ∧ w < 320))) →
    ¬((x.fa = .e5m2 ∧ x.fb = .e5m2) ∨ (cplx = true ∧ st.sparse = true) ∨ ((cplx = true ∨ st.sparse = true) ∧ x.t.toNat % 2 = 1)) →
    (∀ l, lanes l → h.octet l < h.crew.kern.ta) →
    ((∃ m, x.klen = .s m ∧ fits 0) ∨
      (∃ m, x.klen = .v m ∧ m.toNat < 80 ∧ ∀ l, lanes l → fits l ∧ ∀ n, lanes n → h.octet n = h.octet l → κ n = κ l)) →
    ((∃ n, x.a = .v n ∧ n.toNat + nA ≤ h.crew.kern.nv ∧ n.toNat + nA ≤ 80) ∨
      (∃ n q, x.a = .q n ∧ h.queue? n.toNat = some q ∧ nA ≤ q.entries.length ∧ ∀ e ∈ q.entries.take nA, e.missing = 0 ∧ e.tags &&& act = 0)) →
    ∃ t k, exec i s = .next t ∧ t.here? u = some k ∧ k.split.pc = h.split.pc + 8 ∧ k.split.mask = h.split.mask ∧ k.warp.v = h.warp.v ∧ SameMemory s t

/-- R118, R250, R259 to R263, R495: `mma` and `mmac` complete (`Multiplies`). The checks of a product fail in their order, each with its trap, an uncorrectable error of an element or of metadata read last; with every check passed, `mma` writes into each active row of the octets' p tiles one cell per column, the sum of the row's products with the slot's elements up to the row's K-length (with a sparse slot block 0, and block 1 into the next tile when the K-length passes 32), `mmac` the real sum and, in the next tile, the imaginary one; no other cell, no register, latch or flag and no memory changes, and the queue gives up its entries. A cell without special products is their exact sum. That the checks of the slot, the form and the tiles come before the wait for queue entries, and the check of the K-length after it, is the model's reading of R495 (log entry 47). -/
def Obligations.ProductsWriteExactSums : Prop :=
  (∀ x : MmaArgs, Claims.Multiplies (.mma x) false x) ∧ (∀ x : MmaArgs, Claims.Multiplies (.mmac x) true x) ∧
  (∀ (x : MmaArgs) (s : State) (u : UnitRef) (h : Here) (cplx : Bool) (i : Instr), cplx = false ∧ i = .mma x ∨ cplx = true ∧ i = .mmac x →
    Issuing s u h → u.slice = .execute → (∃ n, x.a = .v n) ∨ (∃ n, x.a = .q n) →
    let act := h.awake.active x.g
    let j := x.j.toNat
    let trap := fun (cause : Nat) => exec i s = .next (takeTrap s u { cause := cause })
    (h.crew.kern.ns ≤ j → trap 0x1A) ∧
    (j < h.crew.kern.ns → Tbl.get? h.crew.stamps j = none → trap 0x1C) ∧
    ∀ st, j < h.crew.kern.ns → Tbl.get? h.crew.stamps j = some st →
    let reserved := (x.fa = .e5m2 ∧ x.fb = .e5m2) ∨ (cplx = true ∧ st.sparse = true) ∨ ((cplx = true ∨ st.sparse = true) ∧ x.t.toNat % 2 = 1)
    let nA := (if x.fa = .e2m1 then 4 else 8) * (if st.sparse then 2 else 1)
    let beyond := ∃ n, x.a = .v n ∧ h.crew.kern.nv < n.toNat + nA
    let untiled := ∃ l, l < 64 ∧ act.getLsbD l = true ∧ h.crew.kern.ta ≤ h.octet l
    (reserved → trap 0x26) ∧ (¬reserved → beyond → trap 0x12) ∧ (¬reserved → ¬beyond → untiled → trap 0x1E) ∧
    (¬reserved → ¬beyond → ¬untiled →
      let regs : List Use := match x.a with
        | .v n => (List.range nA).map fun k => (.v (n + BitVec.ofNat 8 k), false)
        | a => List.replicate nA (a, false)
      ∀ s₁ h₁, fillRegs s h.awake (dedup (spilledRegs ((x.klen, false) :: regs))) = .ok (s₁, h₁) → h₁.serve [] regs = .ok () →
      let κ := fun l => (h₁.read x.klen false 0 false l).toNat
      let fits := fun l => (if cplx then 2 else 1) ≤ κ l ∧ κ l ≤ (if st.sparse then 64 else 32) ∧ (cplx = true → κ l % 2 = 0)
      let lanes := fun (l : Nat) => l < 64 ∧ act.getLsbD l = true
      let agreed := if x.klen.isUniform then fits 0 else ∀ l, lanes l → fits l ∧ ∀ m, lanes m → h.octet m = h.octet l → κ m = κ l
      let reads := fun (w : Nat) => decide (w < 256) || (st.sparse && decide (w < 320))
      (¬agreed → trap 0x24) ∧
      (agreed → ∀ w ws, st.lost.filter reads = w :: ws →
        ∃ t : State, exec i s = .next (takeTrap t u { cause := 0x128 + 2 * (j % 2) + if w < 256 then 0 else 1 }) ∧ t.crews = s₁.crews ∧ SameMemory s₁ t) ∧
      (agreed → st.lost.filter reads = [] → h₁.markers regs act = .ok () →
        ∃ (t : State) (pt : Cells 64),
          let stamps := Tbl.set h.crew.stamps j { st with soft := st.soft.filter fun w => !reads w }
          exec i s = .next (t.put ({ h₁.popAll regs with crew := { h.crew with pt := pt, stamps := stamps } }.advance 8)) ∧ t.crews = s₁.crews ∧ SameMemory s₁ t ∧
          let cell := fun o tile row col => Cells.get pt (cellNo o tile row col)
          let row := fun l e => rowElem x.fa (fun k => h₁.src regs k false l) e
          let T := x.t.toNat
          (∀ l n, lanes l → n < 64 →
            (cplx = true → cell (h.octet l) T (l % 8) n = complexCell x st.img (row l) (κ l) n false ∧
              cell (h.octet l) (T + 1) (l % 8) n = complexCell x st.img (row l) (κ l) n true) ∧
            (cplx = false → st.sparse = false → cell (h.octet l) T (l % 8) n = denseCell x st.img (row l) (κ l) n) ∧
            (cplx = false → st.sparse = true → cell (h.octet l) T (l % 8) n = sparseCell x st.img (row l) (κ l) 0 n ∧
              (32 < κ l → cell (h.octet l) (T + 1) (l % 8) n = sparseCell x st.img (row l) (κ l) 1 n))) ∧
          ∀ o tile r n, tile < 4 → r < 8 → n < 64 →
            ¬(∃ l, lanes l ∧ h.octet l = o ∧ l % 8 = r ∧ (tile = T ∨ tile = T + 1 ∧ (cplx = true ∨ (st.sparse = true ∧ 32 < κ l)))) →
            cell o tile r n = Claims.pAt h o tile r n))) ∧
  (∀ ts : List Term, (∀ t ∈ ts, t.isNan = false ∧ t.isInf true = false ∧ t.isInf false = false) →
    cellOf ts = BitVec.ofInt 64 (ts.map fun t => (if t.neg then -1 else 1) * (imageInt t.a * imageInt t.b)).sum) ∧
  (∀ ts : List Term, (∃ t ∈ ts, t.isNan = true) → cellOf ts = 0x8000000000000000) ∧
  ∀ (f : MFmt) (z : Bool) (n : Nat), f ∈ [.m2, .m3, .m4, .m5, .m6, .m7, .m8] → imageInt (image f z n) = (BitVec.ofNat (mBits f) n).toInt

/-- R122, R250, R265, R495: `msca` folds each active row's p cells into the m tile, column by column, by ScaleAccumulate with the row's and the column's scale, and gathers its flags in the octets' $acst; its checks fail in their order. R250, R266 to R271: with a tile in every acting octet, `mzero` clears the named tiles in the rows of active lanes; `mrd` and `mrdx` read eight columns of each lane's row into consecutive registers, converted or through the exponential, `mst` into eight entries, `mrmax` and `mrsum` reduce the row, `mflag` reads and clears $acst. No tile: each of them traps. -/
def Obligations.TilesAreScaledClearedAndRead : Prop :=
  (∀ (x : MscaArgs) (s : State) (u : UnitRef) (h : Here), Issuing s u h → u.slice = .execute →
     let act := h.awake.active x.g
     let j := x.j.toNat
     let trap := fun (cause : Nat) => exec (.msca x) s = .next (takeTrap s u { cause := cause })
     let lanes := fun (l : Nat) => l < 64 ∧ act.getLsbD l = true
     (h.crew.kern.ns ≤ j → trap 0x1A) ∧
     (j < h.crew.kern.ns → Tbl.get? h.crew.stamps j = none → trap 0x1C) ∧
     ∀ st, j < h.crew.kern.ns → Tbl.get? h.crew.stamps j = some st →
     ((∃ l, lanes l ∧ h.crew.kern.ta ≤ h.octet l) → trap 0x1E) ∧
     ((∀ l, lanes l → h.octet l < h.crew.kern.ta) → ∀ s₁ h₁, prepare s h.awake [] [(x.e, false)] act = .ok (s₁, h₁) →
       let reads := fun (w : Nat) => decide ((if st.sparse then 320 else 256) ≤ w)
       (∀ w ws, st.lost.filter reads = w :: ws →
         ∃ t : State, exec (.msca x) s = .next (takeTrap t u { cause := 0x129 + 2 * (j % 2) }) ∧ t.crews = s₁.crews ∧ SameMemory s₁ t) ∧
       (st.lost.filter reads = [] → ∃ (t : State) (mt : Cells 32) (acst : Cells 32),
         let stamps := Tbl.set h.crew.stamps j { st with soft := st.soft.filter fun w => !reads w }
         exec (.msca x) s = .next (t.put ({ h₁.popAll [(x.e, false)] with crew := { h.crew with mt := mt, acst := acst, stamps := stamps } }.advance 8)) ∧ t.crews = s₁.crews ∧ SameMemory s₁ t ∧
         let ea := fun l => ((h₁.src [(x.e, false)] 0 false l).setWidth 8 : Byte).toNat
         let eb := fun n => (Cells.get st.img (if st.sparse then 2560 + 64 * (x.t.toNat % 2) + n else 2048 + n)).toNat
         let new := fun l n => scaleAccumulate (Claims.mAt h (h.octet l) x.u.toNat (l % 8) n) (Claims.pAt h (h.octet l) x.t.toNat (l % 8) n)
           (ea l) (eb n) x.shift.toNat x.ftz
         (∀ l n, lanes l → n < 64 → Cells.get mt (cellNo (h.octet l) x.u.toNat (l % 8) n) = (new l n).1) ∧
         (∀ o t r n, t < 4 → r < 8 → n < 64 → ¬(t = x.u.toNat ∧ Claims.rowActs h act o r) →
           Cells.get mt (cellNo o t r n) = Claims.mAt h o t r n) ∧
         ∀ o b, (Cells.get acst o).getLsbD b = true ↔ (Cells.get h.crew.acst o).getLsbD b = true ∨
           ∃ l n, lanes l ∧ n < 64 ∧ h.octet l = o ∧ (new l n).2.getLsbD b = true))) ∧
  (∀ (s : State) (u : UnitRef) (h : Here), Issuing s u h → u.slice = .execute →
     let lanes := fun (g : Guard) (l : Nat) => l < 64 ∧ (h.awake.active g).getLsbD l = true
     let owned := fun g => ∀ l, lanes g l → h.octet l < h.crew.kern.ta
     (∀ (g : Guard) (i : Instr), (∃ x : MzeroArgs, x.g = g ∧ i = .mzero x) ∨ (∃ x : MrdArgs, x.g = g ∧ i = .mrd x) ∨ (∃ x : MrdxArgs, x.g = g ∧ i = .mrdx x) ∨
         (∃ x : MredArgs, x.g = g ∧ (i = .mrmax x ∨ i = .mrsum x)) ∨ (∃ x : MrdArgs, x.g = g ∧ x.d.isQueue = true ∧ i = .mst x) ∨ (∃ x : MflagArgs, x.g = g ∧ i = .mflag x) →
       ¬owned g → exec i s = .next (takeTrap s u { cause := 0x1E })) ∧
     (∀ x : MzeroArgs, owned x.g → ∃ (mt : Cells 32) (pt : Cells 64),
       exec (.mzero x) s = .next (s.put ({ h.awake with crew := { h.crew with mt := mt, pt := pt } }.advance 8)) ∧
       ∀ o t r n, t < 4 → r < 8 → n < 64 →
         Cells.get mt (cellNo o t r n) = (if x.mm.getLsbD t = true ∧ (∃ l ∈ List.range 64, (h.awake.active x.g).getLsbD l = true ∧ h.octet l = o ∧ l % 8 = r) then 0 else Claims.mAt h o t r n) ∧
         Cells.get pt (cellNo o t r n) = (if x.pm.getLsbD t = true ∧ (∃ l ∈ List.range 64, (h.awake.active x.g).getLsbD l = true ∧ h.octet l = o ∧ l % 8 = r) then 0 else Claims.pAt h o t r n)) ∧
     (∀ (x : MrdArgs) (d : BitVec 8), owned x.g → x.d = .v d → Ty.readRegs x.ty ≠ 0 → d.toNat % Ty.readRegs x.ty = 0 →
       ∀ s₁ h₁, fillRegs s h.awake (dedup (spilledRegs (destUses x.d (Ty.readRegs x.ty)))) = .ok (s₁, h₁) →
       ∃ k : Here, (∀ s₂, spillRegs s₁ k (dedup (spilledRegs (destUses x.d (Ty.readRegs x.ty)))) = .ok s₂ → exec (.mrd x) s = .next (s₂.put (k.advance 8))) ∧
         k.crew.pt = h.crew.pt ∧ k.split.pc = h.split.pc ∧ k.pair = h₁.pair ∧
         let bits := 4 * Ty.readRegs x.ty
         let cell := fun l c => Claims.mAt h (h.octet l) x.u.toNat (l % 8) (8 * x.col.toNat + c)
         (∀ l c, lanes x.g l → c < 8 → ((k.warp.getV (d.toNat + c * bits / 32) l) >>> (c * bits % 32)).setWidth bits = BitVec.ofNat bits
           (match Ty.readRegs x.ty with
             | 8 => if (fmtF32.value (cell l c).toNat).isNan then 0x7FC00000 else (cell l c).toNat
             | _ => (readOut ((Fmt.ofTy x.ty).getD fmtF32) (cell l c)).1)) ∧
         (∀ m l, l < 64 → ¬(lanes x.g l ∧ d.toNat ≤ m ∧ m < d.toNat + Ty.readRegs x.ty) → k.warp.getV m l = h₁.warp.getV m l) ∧
         (∀ o t r n, t < 4 → r < 8 → n < 64 → ¬(x.clr = true ∧ t = x.u.toNat ∧ n / 8 = x.col.toNat ∧ Claims.rowActs h (h.awake.active x.g) o r) →
           Cells.get k.crew.mt (cellNo o t r n) = Claims.mAt h o t r n) ∧
         (∀ l c, x.clr = true → lanes x.g l → c < 8 → Cells.get k.crew.mt (cellNo (h.octet l) x.u.toNat (l % 8) (8 * x.col.toNat + c)) = 0)) ∧
     (∀ (x : MrdxArgs) (d : BitVec 8), owned x.g → x.d = .v d → d.toNat % 8 = 0 →
       ∀ s₁ h₁, prepare s h.awake (destUses x.d 8) [(x.c, false), (x.r, false)] (h.awake.active x.g) = .ok (s₁, h₁) →
       ∃ k : Here, (∀ s₂, spillRegs s₁ k (dedup (spilledRegs (destUses x.d 8))) = .ok s₂ → exec (.mrdx x) s = .next (s₂.put (k.advance 8))) ∧
         k.crew.pt = h.crew.pt ∧ k.split.pc = h.split.pc ∧ k.pair = (h₁.popAll [(x.c, false), (x.r, false)]).pair ∧
         let f := fmtF32.input x.ftz
         let one := fun l c => exp2Read (f ((Claims.mAt h (h.octet l) x.u.toNat (l % 8) (8 * x.col.toNat + c)).setWidth 64))
           (f (h₁.src [(x.c, false), (x.r, false)] 0 false l)) (f (h₁.src [(x.c, false), (x.r, false)] 1 false l)) x.ftz
         (∀ l c, lanes x.g l → c < 8 → k.warp.getV (d.toNat + c) l = (one l c).val.setWidth 32) ∧
         (∀ m l, l < 64 → ¬(lanes x.g l ∧ d.toNat ≤ m ∧ m < d.toNat + 8) → k.warp.getV m l = h₁.warp.getV m l) ∧
         (∀ l c, lanes x.g l → c < 8 → x.st = true →
           Cells.get k.crew.mt (cellNo (h.octet l) x.u.toNat (l % 8) (8 * x.col.toNat + c)) = (one l c).val.setWidth 32) ∧
         (x.st = false → k.crew.mt = h.crew.mt)) ∧
     (∀ (x : MredArgs) (i : Instr) (op : List W32 → W64), i = .mrmax x ∧ op = rowMax ∨ i = .mrsum x ∧ op = rowSum → owned x.g →
       ∀ s₁ h₁ s₂, prepare s h.awake [(x.d, false)] [] (h.awake.active x.g) = .ok (s₁, h₁) →
       let k := finish h₁ i [] x.d false x.nwb (h.awake.active x.g) fun l =>
         { val := op ((List.range 64).map fun c => Claims.mAt h (h.octet l) x.u.toNat (l % 8) c), flags := 0 }
       spillRegs s₁ k (spilledRegs [(x.d, false)]) = .ok s₂ → exec i s = .next (s₂.put k)) ∧
     (∀ (x : MrdArgs) (n : BitVec 4) (q : Queue), owned x.g → x.d = .q n → h.queue? n.toNat = some q → q.entries.length + 8 ≤ q.depth →
       let cell := fun c l => Claims.mAt h (h.octet l) x.u.toNat (l % 8) (8 * x.col.toNat + c)
       let act := h.awake.active x.g
       ∃ k : Here, exec (.mst x) s = .next (s.put k) ∧ k.crew = h.crew ∧ k.warp = h.warp ∧ k.u = h.u ∧
         k.split = { h.awake.split with pc := h.split.pc + 8, lat := (cellsOf act fun l => (cell 0 l).setWidth 64) :: h.split.lat.take 3 } ∧
         k.queue? n.toNat = some { q with entries := q.entries ++ (List.range 8).map fun c =>
           { id := h.warp.seq, vals := cellsOf act (cell c), tags := 0, missing := 0 } } ∧ ∀ m, m ≠ n.toNat → k.queue? m = h.queue? m) ∧
     ∀ (x : MflagArgs), owned x.g → ∀ s₁ h₁ s₂, prepare s h.awake [(x.d, false)] [] (h.awake.active x.g) = .ok (s₁, h₁) →
       let k := finish h₁ (.mflag x) [] x.d false x.nwb (h.awake.active x.g) fun l => { val := (Cells.get h.crew.acst (h.octet l)).setWidth 64, flags := 0 }
       spillRegs s₁ k (spilledRegs [(x.d, false)]) = .ok s₂ →
       ∃ acst, exec (.mflag x) s = .next (s₂.put { k with crew := { k.crew with acst := acst } }) ∧
         ∀ o, Cells.get acst o = if (∃ l ∈ List.range 64, (h.awake.active x.g).getLsbD l = true ∧ h.octet l = o) then
           Cells.get h.crew.acst o &&& ~~~(x.mask.setWidth 32) else Cells.get h.crew.acst o)

/-! ### Group 12 -/

/-- R272, R274: `smx` completes with the new maximum in its first register and alpha in its second, one latch value and its flags; `kvscl` completes with the mantissas and the exponent of each block of 32 lanes, quantised at the page scale unless their own exponent is as large. -/
def Obligations.SoftmaxAndScalesComplete : Prop :=
  (∀ (x : SmxArgs) (f : W64 → W64 → W64 → W32 × W32 × W32),
    (∀ r m c : W64,
      let v := fun (a : W64) => fmtF32.input x.ftz a
      let t := fmtF32.mul .rn false (v m) (v c)
      let tv := v t.val
      let fl := t.flags ||| (if x.ftz = true ∧ fmtF32.subnormal (fmtF32.value t.val.toNat) = true then fUf ||| fNx else 0)
      let bad := (v r).isNan || (v m).isNan || (v c).isNan || tv.isNan
      let a := exp2Read (v r) (.num false 1 0) ((v r).maxNum tv) x.ftz
      (bad = true → f r m c = (0x7FC00000, 0x7FC00000, fl ||| fNv)) ∧
      (bad = false → f r m c = ((fmtF32.ofVal ((v r).maxNum tv) 0).val.setWidth 32, a.val.setWidth 32, fl ||| (a.flags &&& (fUf ||| fNv))))) →
    CompletesAs (.smx x) x.g fun h =>
      let srcs := ((Instr.smx x).uses h.u.slice).2
      let act := h.active x.g
      let r := fun l => f (h.src srcs 0 false l) (h.src srcs 1 false l) (h.src srcs 2 false l)
      let k := (h.popAll srcs).write x.d true x.nwb act fun l => (r l).2.1 ++ (r l).1
      ((k.latch (cellsOf act fun l => (r l).1.setWidth 64)).flags act fun l => (r l).2.2).advance 8) ∧
  ∀ x : KvsclArgs, CompletesAs (.kvscl x) x.g fun h =>
    let srcs := ((Instr.kvscl x).uses h.u.slice).2
    let act := h.active x.g
    let block := fun (b : Nat) =>
      let ef := ((h.src srcs 1 false (((lanesOf act).find? fun l => l / 32 == b).getD 0)).setWidth 8 : Byte).toNat
      let xs := blockVals act x.ftz b fun l => h.src srcs 0 false l
      let own := quantise xs 8 none
      if ef = 0xFF then (0xFF, xs.map fun _ => 0, fNv) else if own.1 = 0xFF ∨ ef ≤ own.1 then own else quantise xs 8 (some ef)
    finish h (.kvscl x) srcs x.d false x.nwb act fun l =>
      let r := block (l / 32)
      { val := blockWord r.1 (r.2.1[l % 32]?.getD 0), flags := r.2.2 }

/-- The checks that an address operand of a key-value instruction passes: its one translation, and no watchpoint met. -/
def Claims.place (s : State) (h : Here) (a size : Nat) (n : Need) (lane : Nat) (va : W64) (t : TlbEntry) : Prop :=
  checkGlobal s h a size n [(lane, va)] = .ok [((lane, va), t)] ∧ watch s h a size [(lane, va)] = .ok ()

/-- R275, R277 to R280, with every address checked, no watchpoint met, nothing to wait for and a block that is neither corrupt nor unpacked where that matters: `kvmap` gives each lane the address of its token's key row, 0 without one; `kvapp` appends the staged token: header, page and weight change as R277 says and no other byte; `kvacc` puts the weights of the lanes whose token is there into the store queue as updates; `kvsel` evicts the least weights down to the budget and changes the survivors and the unpacked bit alone; `kvpack` posts its command, and the split waits for its acceptance. A corrupt header traps in the first lane that has one. No update record and no error lies about where memory is read. The model's own: the mask of placed tokens kept for an unpacked block (`kvOld`, `kvPlaced`, log entry 34), and the order of the checks, the waits before the steps and their die scope (`stepReady`, log entry 58). -/
def Obligations.KeyValueBlocksComplete : Prop :=
  ∀ (x : KvArgs) (s : State) (u : UnitRef) (h : Here), Issuing s u h →
    let act := h.awake.active x.g
    let all := (lanesOf act).map fun l => (l, h.awake.read x.h true 0 false l)
    let index := fun (k : Here) (b : List Byte) (l : Nat) => (k.read x.b true 0 false l).toInt - (kvBase b).toInt
    let there := fun (k : Here) (b : List Byte) (l : Nat) =>
      decide (0 ≤ index k b l) && decide (index k b l < 64) && (kvSurv b).getLsbD (index k b l).toNat
    let count := fun (b : List Byte) (n : Nat) => (List.range n).countP fun i => (kvSurv b).getLsbD i
    let hv := h.awake.uniform x.h
    let header := fun (s : State) (t : LaneVa × TlbEntry) => s.latestBytes .phys (t.2.phys t.1.2) 128
    let corrupt := fun (s : State) (t : LaneVa × TlbEntry) => kvCorrupt (kvPlaced s (t.2.phys t.1.2) (header s t)) (header s t)
    -- kvmap
    (∀ ts, s.drawers = [] → s.pend = [] → Claims.NoErrors s → h.awake.pending [(x.d, false), (x.h, false), (x.b, false)] = .ok () → checkGlobal s h.awake 0 128 .r all = .ok ts →
      watch s h.awake 0 128 all = .ok () → Here.stepReady s h.awake (placesOf ts 128) = .ok () →
      (∀ val : Nat → W64, (∀ y ∈ ts, corrupt s y = false ∧ kvUnpacked (header s y) = false ∧
          let b := header s y
          let n := count b (index h.awake b y.1.1).toNat
          val y.1.1 = (if there h.awake b y.1.1 then kvPage b (n / 16) + BitVec.ofNat 64 (128 * (n % 16)) else 0) ∧
          (there h.awake b y.1.1 = true → kvPage b (n / 16) ≠ 0)) →
        exec (.kvmap x) s = .next ((touchAll s h.crew.core false ts).put (Claims.issued (h.awake.write x.d true false act val) 8))) ∧
      ∀ pre y post, ts = pre ++ y :: post → (∀ z ∈ pre, corrupt s z = false) → corrupt s y = true →
        exec (.kvmap x) s = .next (takeTrap s u { cause := 0x6E, lane := some y.1.1, addr := y.1.2 })) ∧
    -- kvapp, kvsel, kvpack
    (act = 0 → ∀ i ∈ [Instr.kvapp x, .kvsel x, .kvpack x], exec i s = .next (s.put (h.awake.advance 8))) ∧
    (∀ (lane : Nat) (ht : TlbEntry), lowest act = some lane → s.drawers = [] → s.pend = [] → Claims.NoErrors s →
      checkGlobal s h.awake 2 128 .w [(lane, hv)] = .ok [((lane, hv), ht)] →
      let ha := ht.phys hv
      let b := s.latestBytes .phys ha 128
      let sv := h.awake.uniform x.b
      let n := count b 64
      corrupt s ((lane, hv), ht) = false →
      (∀ st pt wt, h.awake.pending [(x.h, false), (x.b, false)] = .ok () → watch s h.awake 2 128 [(lane, hv)] = .ok () →
        checkGlobal s h.awake 0 64 .r ((List.range 5).map fun i => (lane, sv + BitVec.ofNat 64 (64 * i))) = .ok st →
        watch s h.awake 0 320 [(lane, sv)] = .ok () → Here.stepReady s h.awake ((ha, 128) :: placesOf st 64) = .ok () →
        kvUnpacked b = false → kvFill b < 64 → n < 64 →
        let page := kvPage b (n / 16)
        let wva := kvWgt b + BitVec.ofNat 64 (4 * kvFill b)
        let tok := st.flatMap fun t => s.viewBytes h.viewer .phys (t.2.phys t.1.2) 64
        tokenBad tok = false → page ≠ 0 → checkGlobal s h.awake 1 4096 .w [(lane, page)] = .ok [((lane, page), pt)] →
        watch s h.awake 1 32 ((appendPieces b tok [] (n / 16) (n % 16)).map fun q => (lane, page + BitVec.ofNat 64 q.1)) = .ok () →
        Claims.place s h.awake 1 4 .w lane wva wt →
        Here.stepReady s h.awake [(pt.phys page, 4096), (wt.phys wva, 4)] = .ok () →
        let s' := touchAll (touchAll s h.crew.core true [((lane, hv), ht), ((lane, page), pt), ((lane, wva), wt)]) h.crew.core false st
        let token := fun (o : Nat) =>
          let at_ := 4 * (o / 2048) + o % 128 / 32
          let es := bytesAt tok (256 + at_) 1
          let ep := bytesAt b (40 + 8 * (n / 16) + at_) 1
          let en := if n % 16 = 0 then es else max ep es
          let v := o % 2048 / 128
          let old := s'.latest .phys (pt.phys page + o)
          if v = n % 16 then shiftMant ((tok[128 * (o / 2048) + o % 128]?).getD 0) (en - es)
          else if v < n % 16 ∧ ep < en then shiftMant old (en - ep) else old
        ∃ t : State, exec (.kvapp x) s = .next (t.put (Claims.issued h 8)) ∧ t.crews = s.crews ∧
          (∀ c a, t.latest (.scratch c) a = s.latest (.scratch c) a) ∧
          ∀ a, t.latest .phys a =
            if wt.phys wva ≤ a ∧ a < wt.phys wva + 4 then 0
            else if ha ≤ a ∧ a < ha + 128 then ((appendHeader b tok (n / 16) (n % 16))[a - ha]?).getD 0
            else if pt.phys page ≤ a ∧ a < pt.phys page + 4096 then token (a - pt.phys page)
            else s'.latest .phys a) ∧
      (∀ wt, h.awake.pending [(x.d, false), (x.h, false)] = .ok () → watch s h.awake 2 128 [(lane, hv)] = .ok () → Here.stepReady s h.awake [(ha, 128)] = .ok () → kvUnpacked b = false →
        checkGlobal s h.awake 0 4 .r ((List.range 64).map fun i => (lane, kvWgt b + BitVec.ofNat 64 (4 * i))) = .ok wt →
        watch s h.awake 0 256 [(lane, kvWgt b)] = .ok () → Here.stepReady s h.awake (placesOf wt 4) = .ok () →
        let s' := touchAll (touchAll s h.crew.core true [((lane, hv), ht)]) h.crew.core false wt
        let w := fun (i : Nat) => ((wt[i]?).map fun t => fmtF32.value (bytesToNat (s'.viewBytes h.viewer .phys (t.2.phys t.1.2) 4))).getD (.num false 0 0)
        let less := fun (i j : Nat) => (!(w i).isNan && (w j).isNan) || (w i).lt (w j)
        let e := n - kvBudget b
        ∃ (t : State) (surv : W64), exec (.kvsel x) s = .next (t.put (Claims.issued (h.awake.write x.d true false act fun _ => BitVec.ofNat 64 e) 8)) ∧
          t.crews = s.crews ∧ surv &&& ~~~(kvSurv b) = 0 ∧ ((List.range 64).countP fun i => surv.getLsbD i) = n - e ∧
          (∀ i j, i < 64 → j < 64 → (kvSurv b).getLsbD i = true → surv.getLsbD i = false → surv.getLsbD j = true →
            less i j = true ∨ (less j i = false ∧ i < j)) ∧
          t.kvOld = (if e = 0 then s.kvOld else Tbl.set s.kvOld ha (kvSurv b)) ∧ (∀ c a, t.latest (.scratch c) a = s.latest (.scratch c) a) ∧
          ∀ a, t.latest .phys a =
            if e = 0 ∨ a < ha ∨ ha + 128 ≤ a then s'.latest .phys a
            else if a < ha + 8 then surv.extractLsb' (8 * (a - ha)) 8
            else if a = ha + 75 then BitVec.ofNat 8 (kvFlags b % 2 + 2) else (b[a - ha]?).getD 0) ∧
      (u.slice = .access → h.awake.pending [(x.h, false), (x.b, false)] = .ok () → Here.stepReady s h.awake [(ha, 128)] = .ok () → h.warp.maint = 0 →
        h.warp.loads = [] →
        let p := (releaseBy (touch s h.crew.core ht true) h.viewer .die).1
        let c := p.core h.crew.core
        exec (.kvpack x) s = .next (parkUnit ((p.setCore h.crew.core { c with posts := c.posts ++
          [{ crew := u.crew, pair := u.pair, split := u.split, kind := .pack hv, bar := some ((h.awake.uniform x.b).setWidth 32 : W32).toNat,
             cont := false, resume := false }] }).put (Claims.issued h 8)) u .posting))) ∧
    -- kvacc
    ∀ (s₁ : State) (h₁ : Here) ts emits us, s₁.drawers = [] → s₁.pend = [] → Claims.NoErrors s₁ → prepare s h.awake [] [(x.h, false), (x.b, false), (x.w, false)] act = .ok (s₁, h₁) →
      checkGlobal s₁ h₁ 0 128 .r ((lanesOf act).map fun l => (l, h₁.read x.h true 0 false l)) = .ok ts →
      watch s₁ h₁ 0 128 ((lanesOf act).map fun l => (l, h₁.read x.h true 0 false l)) = .ok () → Here.stepReady s₁ h₁ (placesOf ts 128) = .ok () →
      (∀ y ∈ ts, corrupt s₁ y = false) →
      emits = (ts.filter fun y => there h₁ (header s₁ y) y.1.1).map (fun y =>
        (y.1.1, kvWgt (header s₁ y) + BitVec.ofNat 64 (4 * (index h₁ (header s₁ y) y.1.1).toNat))) →
      (∀ e ∈ emits, canonical e.2 = true ∧ weightBinding s₁ h.crew.ctx e.2 = true ∧ e.2.toNat % 4 = 0) →
      translateAll s₁ h₁ 2 .w emits = .ok us → permitAll 2 .w us = .ok () → watch s₁ h₁ 2 4 emits = .ok () →
      let r := if emits.isEmpty then none else withMode s₁ h₁ false .thread
      h₁.releaseData r = .ok () → h₁.storeRoom = .ok () →
      let s' := touchAll (touchAll s₁ h.crew.core false ts) h.crew.core true us
      let weight := fun l => h₁.src [(x.h, false), (x.b, false), (x.w, false)] 2 false l
      let k := Claims.issued (h₁.popAll [(x.h, false), (x.b, false), (x.w, false)]) 8
      exec (.kvacc x) s = .next (s'.put { k with warp := { k.warp with stores := if us.isEmpty then h₁.warp.stores else h₁.warp.stores ++
        [{ seq := h₁.warp.seq, kind := .upd, size := 0, rel := r, q := 0, paired := true,
           lanes := us.map fun t => { lane := t.1.1, va := t.1.2, pa := t.2.phys t.1.2, off := false, val := weight t.1.1,
                                      slot := ((bindingAt s' h.crew.ctx t.1.2).map (·.1)).getD 0 } }] } })

/-! ### Group 13: commands and copies -/

/-- The state after the issuing warp has released at die scope and handed commands to its core's request engine (R286, R287, R328). -/
def Claims.posted (s : State) (h : Here) (ps : List Post) : State :=
  let p := (releaseBy s h.viewer .die).1
  let c := p.core h.crew.core
  p.setCore h.crew.core { c with posts := c.posts ++ ps }

/-- R286, R289: `xpost` and `xgath` with their checks passed and nothing of their warp outstanding hand their commands to the request engine in lane order, and the split waits for their acceptance; a failed check traps and hands over nothing. R288: `xstat` reads the status word, and with .clr empties its error fields. R291, R292: `xcp` enters a copy of its active lanes and counts it in its tag; its completion writes every lane's bytes, then zeros, counts the tag down, and changes no other byte. R293: `xtwait` waits while the counter exceeds m. The model's own: that the release at die scope is made when the commands are handed over, and the posts and copies in their order (log entry 59); and the access kind and the $taddr of an `xgath` whose destination lies out of bounds (log entry 60). -/
def Obligations.CommandsAndCopiesAreIssued : Prop :=
  (∀ (x : XpostArgs) (s : State) (u : UnitRef) (h : Here), Issuing s u h → h.awake.pending [(x.base, false)] = .ok () →
    let lanes := if x.base.isUniform then (lanesOf (h.awake.active x.g)).take 1 else lanesOf (h.awake.active x.g)
    let off := fun (l : Nat) => ((h.awake.read x.base true 0 false l).setWidth 32 : W32).toNat
    let n := x.n.toNat + 1
    h.crew.scratch < 2 ^ 32 →
    (lanes = [] → exec (.xpost x) s = .next (s.put (h.awake.advance 8))) ∧
    (lanes ≠ [] → (∀ l ∈ lanes, off l % 64 = 0 ∧ off l + 64 * n ≤ h.crew.kern.scratch) → u.slice = .access → h.warp.stores = [] → h.warp.loads = [] → h.warp.maint = 0 →
      ∃ ps, exec (.xpost x) s = .next (parkUnit ((Claims.posted s h ps).put (Claims.issued h 8)) u .posting) ∧
        ps.map (fun p => match p.kind with
          | .record o _ => some o
          | _ => none) = lanes.flatMap (fun l => (List.range n).map fun i => some (off l + 64 * i)) ∧
        ∀ p ∈ ps, p.crew = u.crew ∧ p.pair = u.pair ∧ p.split = u.split ∧ p.resume = false) ∧
    (∀ pre l post, lanes = pre ++ l :: post → (∀ m ∈ pre, off m % 64 = 0) → off l % 64 ≠ 0 →
      exec (.xpost x) s = .next (takeTrap s u { cause := 0x44, lane := some l, addr := BitVec.ofNat 64 (h.crew.scratch + off l) })) ∧
    (∀ pre l post, lanes = pre ++ l :: post → (∀ m ∈ lanes, off m % 64 = 0) → (∀ m ∈ pre, off m + 64 * n ≤ h.crew.kern.scratch) →
      h.crew.kern.scratch < off l + 64 * n →
      exec (.xpost x) s = .next (takeTrap s u { cause := 0x48, lane := some l, addr := BitVec.ofNat 64 (h.crew.scratch + off l) }))) ∧
  (∀ (x : XgathArgs) (s : State) (u : UnitRef) (h : Here), Issuing s u h →
    let act := h.awake.active x.g
    let e := x.esize.toNat + 1
    let inside := x.dst.toNat + e * h.crew.grant ≤ h.crew.kern.scratch
    let fits := x.bar.toNat ≠ 2 ^ 19 - 1 → 16 * x.bar.toNat + 16 ≤ h.crew.kern.scratch
    (act = 0 → exec (.xgath x) s = .next (s.put (h.awake.advance 16))) ∧
    ∀ lane, lowest act = some lane → h.awake.pending [(x.a, false)] = .ok () →
      (¬inside → exec (.xgath x) s = .next (takeTrap s u { cause := 0x49, lane := some lane, addr := BitVec.ofNat 64 (h.crew.scratch + x.dst.toNat) })) ∧
      (inside → ¬fits → exec (.xgath x) s = .next (takeTrap s u { cause := 0x0F4, lane := some lane })) ∧
      (inside → fits → u.slice = .access → h.warp.stores = [] → h.warp.loads = [] → h.warp.maint = 0 →
        exec (.xgath x) s = .next (parkUnit ((Claims.posted s h
          [{ crew := u.crew, pair := u.pair, split := u.split,
             kind := .gather ((lanesOf act).map fun l => (l, h.awake.read x.a true 0 false l)) x.dst.toNat e,
             bar := if x.bar.toNat = 2 ^ 19 - 1 then none else some (16 * x.bar.toNat), cont := x.cont, resume := false }]).put (Claims.issued h 16)) u .posting))) ∧
  (∀ x : XstatArgs, CompletesAs (.xstat x) x.g fun h =>
    let k := h.write x.d true false (h.active x.g) fun _ => h.pair.status
    Here.advance { k with pair := { k.pair with
      status := if x.clr = true ∧ h.active x.g ≠ 0 then (h.pair.status.extractLsb' 0 9).setWidth 64 else h.pair.status } } 8) ∧
  (∀ (x : XcpArgs) (s : State) (u : UnitRef) (h : Here), Issuing s u h → h.awake.pending [(x.d, false), (x.s, false), (x.n, false)] = .ok () →
    let all := lanesOf (h.awake.active x.g)
    let size := 4 * 2 ^ x.sz.toNat
    let len := fun l => (h.awake.read x.n true 0 false l).toNat
    let off := fun (l : Nat) => ((h.awake.read x.d true 0 false l).setWidth 32 : W32).toNat
    let src := fun l => h.awake.read x.s true 0 false l
    let tag := x.tag.toNat
    let count := ((h.pair.tagcnt >>> (8 * tag)).setWidth 8 : Byte).toNat
    (∀ pre l post, all = pre ++ l :: post → (∀ m ∈ pre, len m ≤ size) → size < len l →
      exec (.xcp x) s = .next (takeTrap s u { cause := if u.slice = .access then 0x29 else 0x28, lane := some l })) ∧
    ((∀ l ∈ all, len l ≤ size ∧ off l % size = 0 ∧ off l + size ≤ h.crew.kern.scratch) → h.crew.scratch < 2 ^ 32 →
      ∀ ts, (∀ l ∈ all, ∀ a ∈ pageHeads (src l) (len l), canonical a = true) →
      translateAll s h.awake 0 .r (all.flatMap fun l => (pageHeads (src l) (len l)).map fun a => (l, a)) = .ok ts → permitAll 0 .r ts = .ok () →
      h.awake.acquired = .ok () → h.warp.stores = [] →
      (count = 255 → exec (.xcp x) s = .next (parkUnit s u (.tagFull tag))) ∧
      (count < 255 →
        exec (.xcp x) s = .next ((touchAll s h.crew.core false ts).put (Claims.issued { h with pair := { h.pair with
          tagcnt := setFld h.pair.tagcnt (8 * tag) 8 (count + 1),
          xcps := h.pair.xcps ++ [{ id := h.warp.seq, tag := tag, size := size, split := u.split,
                                    lanes := all.map fun l => { dst := h.crew.scratch + off l, src := bytePlaces (ts.filter fun t => t.1.1 == l) (src l) (len l) } }] } } 8))))) ∧
  (∀ (s : State) (crew pair : Nat) (c : Crew) (p : Pair) (x : Xcp) (rest : List Xcp), placedPair s crew pair = some (c, p) → p.xcps = x :: rest →
    s.drawers = [] → s.pend = [] → s.held = [] → Claims.NoErrors s → (∀ l ∈ x.lanes, l.src.length ≤ x.size ∧ unowned s (.scratch c.core) l.dst x.size = true ∧
      (l.src.any (updateBefore p x.id)) = false) → unownedBytes s none (x.lanes.flatMap (·.src)) = true →
    let byte := fun (a : Nat) => (overlay c.core p.acc.stores x.id .phys a 1 [s.view (accessViewer crew pair c) .phys a]).headD 0
    ∃ t, exec (.xcpComplete crew pair 0) s = .next t ∧ (∀ a, t.latest .phys a = s.latest .phys a) ∧
      (∀ k a, t.latest (.scratch k) a = if k = c.core then x.lanes.foldl (fun b l =>
        if l.dst ≤ a ∧ a < l.dst + x.size then ((l.src[a - l.dst]?).map byte).getD 0 else b) (s.latest (.scratch k) a) else s.latest (.scratch k) a) ∧
      t.pair? crew pair = some { p with xcps := rest, tagcnt := setFld p.tagcnt (8 * x.tag) 8 (fld p.tagcnt (8 * x.tag) 8 - 1) }) ∧
  ∀ (x : XtwaitArgs) (s : State) (u : UnitRef) (h : Here), Issuing s u h →
    let count := ((h.pair.tagcnt >>> (8 * x.tag.toNat)).setWidth 8 : Byte).toNat
    ((h.awake.active x.g = 0 ∨ count ≤ x.m.toNat) → exec (.xtwait x) s = .next (s.put (h.awake.advance 8))) ∧
    (h.awake.active x.g ≠ 0 → x.m.toNat < count → exec (.xtwait x) s = .next (parkUnit s u (.tags x.tag.toNat x.m.toNat)))

/-! ### The engines -/

/-- The parameter of a remote failure (Table 14.4). -/
def Claims.failure : RemoteResult → Nat
  | .unreachable => 0
  | .fault => 1
  | .lost => 2
  | .ok | .check => 3

/-- The counts of a record in a barrier's mode (R135). -/
def Claims.total (r : CmdRec) (mode : Nat) : Nat :=
  if mode = 0 then r.bpr * (r.rows - 1) + (if r.vlast = 0 then r.bpr else r.vlast) else if mode = 1 then r.rows else 1

/-- R134, R286 to R288, Table 5.3: with fewer than 256 commands unfinished and its lines owned by none, the oldest posted record is read and checked: a well-formed one is entered as an unfinished command with no row finished, counted in the status word and added to its barrier's pending count; a malformed one is not run, and is reported by its barrier object or, without one, by the status word. -/
def Obligations.RecordsAreAccepted : Prop :=
  ∀ (s : State) (core : Nat) (p : Post) (rest : List Post) (c : Crew) (q : Pair) (off : Nat) (r₀ : CmdRec),
    (s.core core).posts = p :: rest → (s.core core).cmds.length < 256 → placedPair s p.crew p.pair = some (c, q) → p.kind = .record off r₀ →
    (∀ e l, owned s e l = false) → p.resume = false → p.bytes = [] → Claims.NoErrors s →
    let s' := s.setCore core { s.core core with posts := rest }
    let r := CmdRec.ofBytes (crewBytes s p.crew c off 64)
    let size := c.kern.scratch
    let read := if r.op = 2 ∨ (r.op = 1 ∧ r.srcScratch = true) then List.range r.rows else []
    let fail := fun (w : W64) (cause : Nat) => if w.getLsbD 9 then w else setFld (setFld (setFld w 9 1 1) 10 9 cause) 19 23 (off / 64)
    (r.bar ≠ 0xFFFFFFFF → r.bar.toNat % 16 ≠ 0 ∨ size < r.bar.toNat + 16 →
      exec (.commandAcceptance core) s = .next (s'.onPair p.crew p.pair fun q => { q with status := fail q.status 0x0F4 })) ∧
    (∀ n, r.bar = 0xFFFFFFFF → r.malformed size [] = some n →
      exec (.commandAcceptance core) s = .next (s'.onPair p.crew p.pair fun q => { q with status := fail q.status (0x110 + n) })) ∧
    (∀ n, r.bar.toNat % 16 = 0 → r.bar.toNat + 16 ≤ size → r.malformed size [] = some n →
      let o := readObj s c r.bar.toNat
      objMode o < 3 → fld o 42 6 = 0 → objError o = false →
      ∃ t, exec (.commandAcceptance core) s = .next t ∧ (t.core core).cmds = (s.core core).cmds ∧ (t.core core).posts = rest ∧
        readObj t c r.bar.toNat = setFld (setFld (setFld o 41 1 1) 96 9 (0x110 + n)) 105 23 (off / 64)) ∧
    (∀ s'' index, r.malformed size [] = none → readIndices s' core p.crew c r read = some (s'', index) → r.malformed size index = none →
      (∀ e l, owned s'' e l = false) → waitsBehind s'' ((takenLines s'' c (.record off r) index).map (·.1)) none = false → Claims.NoErrors s'' → s''.pair? p.crew p.pair = some q →
      let entered := fun (t : State) (bar : Option Nat) => (t.core core).posts = (s''.core core).posts ∧
        ∃ k : Cmd, (t.core core).cmds = (s''.core core).cmds ++ [k] ∧ k.crew = p.crew ∧ k.pair = p.pair ∧ k.kind = .record off r ∧ k.bar = bar ∧
          k.rows = r.rows ∧ k.done = [] ∧ k.index = index ∧ k.sent = [] ∧
          t.pair? p.crew p.pair = some { q with
            status := setFld q.status 0 9 (fld q.status 0 9 + 1),
            acc := if r.op = 7 then { q.acc with acks := q.acc.acks + r.rows } else q.acc }
      (r.bar = 0xFFFFFFFF → ∃ t, exec (.commandAcceptance core) s = .next t ∧ entered t none) ∧
      (r.bar ≠ 0xFFFFFFFF → r.bar.toNat % 16 = 0 → r.bar.toNat + 16 ≤ size →
        let b := r.bar.toNat
        let o := readObj s'' c b
        let n := Claims.total r (objMode o)
        objMode o < 3 → fld o 42 6 = 0 → objPending o + n < 2 ^ 36 →
        let o' := setFld o 0 36 (objPending o + n)
        ∃ t, exec (.commandAcceptance core) s = .next t ∧ entered t (some b) ∧
          readObj t c b = if r.flags.getLsbD 9 then setFld (setFld (setFld o' 41 1 0) 96 9 0) 105 23 0 else o'))

/-- R133, R135, R299, R331, R456, Table 5.3: a row that `performRow` finishes, sends or finds decided is finished, noted as sent, or ends the command; one of a copy or a fill writes its bytes at its destination and no other byte of memory, and the command notes it, or with its last row is no more; finished rows leave the pending count of a barrier in modes 0 and 1, whose phase flips as the count reaches zero without an error. An acknowledgement in time finishes a remote write's row; a failure, a row unanswered for the timeout, or a device that no port reaches (R454) ends the command with *remote write failure*; a row of a command that has failed before only leaves the outstanding acknowledgements. A matrix bank takes its oldest octet instruction with those equal to it, up to four, wherever they wait, and those of an `mmac` once more (R264). -/
def Obligations.EngineRowsFinish : Prop :=
  (∀ (s : State) (core id i : Nat) (a : RemoteResult) (data : List Byte) (k : Cmd) (c : Crew) (q : Pair), (s.core core).cmd? id = some k →
    placedPair s k.crew k.pair = some (c, q) → i < k.rows → i ∉ k.done → (∀ e ∈ k.sent, e.1 ≠ i) → barFree s core id c k.bar = true →
    (∀ t crc diff, performRow s core c k i (some (a, data)) = .done t crc diff →
      exec (.engineRowFinish core id i a data) s = .next (finishRows t core c k [i] crc diff)) ∧
    (∀ t, performRow s core c k i (some (a, data)) = .sent t →
      exec (.engineRowFinish core id i a data) s = .next (t.onCmd core id fun k => { k with sent := k.sent ++ [(i, (t.core core).cyc.toNat)] })) ∧
    ∀ t, performRow s core c k i (some (a, data)) = .all t →
      exec (.engineRowFinish core id i a data) s = .next (finishRows t core c k ((List.range k.rows).filter fun j => decide (j ∉ k.done)) 0 0)) ∧
  (∀ (s : State) (core id i off : Nat) (k : Cmd) (c : Crew) (q : Pair) (r : CmdRec), (s.core core).cmd? id = some k → placedPair s k.crew k.pair = some (c, q) →
    k.kind = .record off r → k.rows = r.rows → i < r.rows → i ∉ k.done → k.sent = [] → k.bar = none → k.done.length < r.rows →
    Claims.NoErrors s → s.drawers = [] → s.pend = [] →
    let n := r.rowLen i
    let finished := fun (t s₂ : State) (sp : Space) (as : List Nat) (data : Nat → Byte) =>
      (∀ j, j < n → ∃ a, as[j]? = some a ∧ t.latest sp a = data j) ∧ (∀ sp' a, ¬(sp' = sp ∧ a ∈ as) → t.latest sp' a = s₂.latest sp' a) ∧
      (k.done.length + 1 = r.rows → (t.core core).cmd? id = none ∧ ∃ q', t.pair? k.crew k.pair = some q' ∧ q'.status = setFld q.status 0 9 (fld q.status 0 9 - 1)) ∧
      (k.done.length + 1 < r.rows → ∃ k', (t.core core).cmd? id = some k' ∧ k'.done = k.done ++ [i] ∧ k'.kind = k.kind)
    (∀ s₁ sp₁ as₁ s₂ sp₂ as₂, r.op = 0 → sideBytes s c r.srcScratch (r.src + BitVec.ofNat 64 (i * r.sstride)) n .r = .ok (s₁, sp₁, as₁) →
      freeOf s₁ core id (byteLines sp₁ as₁) = true → sideBytes s₁ c r.dstScratch (r.dst + BitVec.ofNat 64 (i * r.dstride)) n .w = .ok (s₂, sp₂, as₂) →
      freeOf s₂ core id (byteLines sp₂ as₂) = true → as₂.Nodup →
      ∃ t, exec (.engineRowFinish core id i .ok []) s = .next t ∧
        finished t s₂ sp₂ as₂ fun j => s₁.view { agent := .engine k.crew, core := c.core, crew := k.crew } sp₁ (as₁.getD j 0)) ∧
    ∀ s₂ sp₂ as₂, r.op = 3 → sideBytes s c r.dstScratch (r.dst + BitVec.ofNat 64 (i * r.dstride)) n .w = .ok (s₂, sp₂, as₂) →
      freeOf s₂ core id (byteLines sp₂ as₂) = true → as₂.Nodup →
      ∃ t, exec (.engineRowFinish core id i .ok []) s = .next t ∧
        finished t s₂ sp₂ as₂ fun j => r.src.extractLsb' (8 * (j % 2 ^ fld r.flags 6 2)) 8) ∧
  (∀ (s : State) (core : Nat) (c : Crew) (k : Cmd) (i off b : Nat) (r : CmdRec) (crc diff : W64), k.bar = some b → k.kind = .record off r →
    k.done.length + 1 < k.rows → Claims.NoErrors s →
    let o := readObj s c b
    let n := if objMode o = 0 then r.rowLen i else 1
    let left := setFld o 0 36 (objPending o - n)
    objMode o < 2 → fld o 42 6 = 0 → n ≤ objPending o →
    readObj (finishRows s core c k [i] crc diff) c b = if objPending o = n ∧ objError o = false then left ^^^ (1 <<< 40) else left) ∧
  (∀ (s : State) (core id i at_ off : Nat) (k : Cmd) (c : Crew) (q : Pair) (rec_ : CmdRec), (s.core core).cmd? id = some k →
    placedPair s k.crew k.pair = some (c, q) → k.kind = .record off rec_ → (k.sent.find? fun e => e.1 == i) = some (i, at_) →
    (∀ l ∈ (s.core core).late, ¬(l.cmd = id ∧ l.row = i)) → barFree s core id c k.bar = true →
    let expired := at_ + s.dev.rtimeout.toNat ≤ (s.core core).cyc.toNat
    let ends := fun (x : Instr) (cause : Nat) => exec x s = .next (engineFault s core c k i cause false)
    (reachable s rec_.rdev.toNat = true → ¬expired → exec (.remoteWriteAck core id i .ok) s = .next (finishRows s core c k [i] 0 0)) ∧
    (reachable s rec_.rdev.toNat = true → ∀ r, r ≠ .ok → (r = .lost ↔ expired) → ends (.remoteWriteAck core id i r) (0x118 + Claims.failure r)) ∧
    (reachable s rec_.rdev.toNat = true → expired → ends (.remoteTimeout (.row core id i)) 0x11A) ∧
    (reachable s rec_.rdev.toNat = false → (∀ r, ends (.remoteWriteAck core id i r) 0x118) ∧ ends (.remoteTimeout (.row core id i)) 0x118)) ∧
  (∀ (s : State) (core id i : Nat) (l : LateRow) (r : RemoteResult), ((s.core core).late.find? fun x => x.cmd == id && x.row == i) = some l →
    (reachable s l.dev = false ∨ (r = .lost ↔ l.sent + s.dev.rtimeout.toNat ≤ (s.core core).cyc.toNat)) →
    exec (.remoteWriteAck core id i r) s = .next ((s.setCore core { s.core core with late := (s.core core).late.filter (· != l) }).onWarp l.crew l.pair .access
      fun w => { w with acks := w.acks - 1 })) ∧
  (∀ (s : State) (core cause i : Nat) (c : Crew) (k : Cmd) (q : Pair), k.bar = none → k.kind.remoteWrite = false → s.pair? k.crew k.pair = some q →
    let t := engineFault s core c k i cause false
    (t.core core).cmds = (s.core core).cmds.filter (fun x => x.id != k.id) ∧
      ∃ q', t.pair? k.crew k.pair = some q' ∧ fld q'.status 0 9 = fld q.status 0 9 - 1 ∧ q'.status.getLsbD 9 = true ∧
        (q.status.getLsbD 9 = false → fld q'.status 10 9 = cause % 512 ∧ fld q'.status 19 23 = k.kind.recoff % 2 ^ 23) ∧
        (q.status.getLsbD 9 = true → fld q'.status 10 32 = fld q.status 10 32)) ∧
  (∀ (s : State) (crew pair load lane : Nat) (c : Crew) (p : Pair) (l : Load) (x : LoadLane), placedPair s crew pair = some (c, p) →
    findLane p load lane = some (l, x) → l.remote.isSome = true → l.sent + s.dev.rtimeout.toNat ≤ (s.core c.core).cyc.toNat →
    exec (.remoteTimeout (.lane crew pair load lane)) s = .next (s.onPair crew pair fun p => deliverLane p l lane 0 true)) ∧
  ∀ (s : State) (core bank : Nat) (o : BankOp) (os : List BankOp), (s.core core).banks[bank]? = some (o :: os) →
    let more := min 3 (os.countP (· == o))
    let again := if o.opcode = 0x2C4 ∧ o.second = false then List.replicate (1 + more) { o with second := true } else []
    ∃ rest : List BankOp, rest.Sublist os ∧ rest.filter (· != o) = os.filter (· != o) ∧ rest.countP (· == o) = os.countP (· == o) - more ∧
      exec (.matrixPass core bank) s = .next (s.setCore core { s.core core with banks := (s.core core).banks.set bank (again ++ rest) })

/-- R332, R338, R444, R445, R453 to R455: a request of 4 to 4096 bytes from another device acts in the context whose entry holds its tag, with access enabled, at addresses that its tables map with the permission: the sender is answered a read with the bytes as another device sees them, a write becomes the latest value of exactly its bytes; with no such context or translation it is answered *fault* and no byte changes. The host reads and writes its own memory, and device memory while Memory_Active is set; of a line of device memory that it has read it holds a copy (R352). -/
def Obligations.OtherDevicesAndTheHostAccessMemory : Prop :=
  (∀ (s : State) (r : RemoteReq), s.dev.domain ≠ 0x3FF → s.dev.ready = true → 4 ≤ r.len → r.len ≤ 4096 → (r.write = true → r.data.length = r.len) →
    let answered := fun (t : State) (x : RemoteResult) (d : List Byte) => t.dev.reply = some (r.sender, r.tag, x, d)
    ((∀ e ∈ s.ctxs, e.2.rtag.getLsbD 16 = false ∨ fld e.2.rtag 0 16 ≠ r.tag.toNat) →
      ∃ t, exec (.remoteRequest r) s = .next t ∧ answered t .fault [] ∧ SameMemory s t) ∧
    ∀ ctx, tagged s r.tag.toNat = some ctx →
      (∀ l, visitBytes s ctx r.addr (if r.write then .w else .r) r.len = .error (.waits l) → exec (.remoteRequest r) s = .next s) ∧
      (∀ f, f.line? = none → visitBytes s ctx r.addr (if r.write then .w else .r) r.len = .error f →
        ∃ t, exec (.remoteRequest r) s = .next t ∧ answered t .fault [] ∧ (s.drawers = [] → s.pend = [] → SameMemory s t)) ∧
      ∀ s₁ as, visitBytes s ctx r.addr (if r.write then .w else .r) r.len = .ok (s₁, as) → unownedBytes s₁ none as = true → s.drawers = [] → s.pend = [] → s.held = [] →
        Claims.NoErrors s → as.Nodup →
        (r.write = false → ∃ t, exec (.remoteRequest r) s = .next t ∧ SameMemory s₁ t ∧
          answered t .ok (as.map fun a => s₁.view { agent := .remote, core := 0, crew := 0 } .phys a)) ∧
        (r.write = true → ∃ t, exec (.remoteRequest r) s = .next t ∧ answered t .ok [] ∧
          (∀ j, j < r.len → ∃ a, as[j]? = some a ∧ t.latest .phys a = r.data.getD j 0) ∧ ∀ sp a, ¬(sp = .phys ∧ a ∈ as) → t.latest sp a = s₁.latest sp a)) ∧
  (∀ (s : State) (addr n : Nat), inHostMem addr n = false → (s.dev.memActive = false ∨ 2 ^ 39 < addr + n) →
    exec (.hostMemRead addr n) s = .next { s with dev := { s.dev with hostData := none } }) ∧
  (∀ (s : State) (addr n : Nat), (∀ l, owned s none l = false) → s.held = [] → s.drawers = [] → s.pend = [] → Claims.NoErrors s →
    let answer := some ((List.range n).map fun j => s.view { agent := .host, core := 0, crew := 0 } .phys (addr + j))
    (inHostMem addr n = true → exec (.hostMemRead addr n) s = .next { s with dev := { s.dev with hostData := answer } }) ∧
    (s.dev.memActive = true → addr + n ≤ 2 ^ 39 → ∃ copies, exec (.hostMemRead addr n) s = .next { s with hostCopies := copies, dev := { s.dev with hostData := answer } } ∧
      ∀ l, l ∈ copies ↔ l ∈ s.hostCopies ∨ ∃ j, j < n ∧ l = (addr + j) / 128)) ∧
  ∀ (s : State) (addr : Nat) (data : List Byte), (inHostMem addr data.length = true ∨ s.dev.memActive = true ∧ addr + data.length ≤ 2 ^ 39) →
    (∀ l, owned s none l = false) → s.held = [] → s.drawers = [] → s.pend = [] → Claims.NoErrors s →
    ∃ t, exec (.hostMemWrite addr data) s = .next t ∧ t.crews = s.crews ∧ t.dev = s.dev ∧
      ∀ sp a, t.latest sp a = if sp = .phys ∧ addr ≤ a ∧ a < addr + data.length then data.getD (a - addr) 0 else s.latest sp a

/-! ### Barriers, deques and collectives -/

/-- The object at `off` becomes `o`, and no other byte of memory is last written anew. -/
def Claims.objectBecomes (s t : State) (c : Crew) (off : Nat) (o : Obj) : Prop :=
  t.crews = s.crews ∧ readObj t c off = o ∧
    ∀ sp a, ¬(sp = .scratch c.core ∧ c.scratch + off ≤ a ∧ a < c.scratch + off + 16) → t.latest sp a = s.latest sp a

/-- R128 to R131, R294 to R299, R324: with a usable offset, no earlier acquire or release fence under way and nothing outstanding that comes before on the object's bytes nor a command that owns its line (`objReady`), `binit` writes a new object, `barr` arrives, and `bwait` and `byld` go on where the object releases them, with an acquire at crew scope, take its error, or join its waiters and park; the checks fail in their order; without an active lane the split only moves on. Where an object is read or written no error stands in the arrays. -/
def Obligations.BarrierInstructionsComplete : Prop :=
  ∀ (s : State) (u : UnitRef) (h : Here), Issuing s u h →
    let off := fun (b : Opnd) => ((h.awake.read b false 0 false 0).setWidth 32 : W32).toNat
    let ready := fun (g : Guard) (b : Opnd) => h.awake.active g ≠ 0 ∧ h.awake.pending [(b, false)] = .ok ()
    let usable := fun (b : Opnd) => off b % 16 = 0 ∧ off b + 16 ≤ h.crew.kern.scratch
    let quiet := fun (b : Opnd) => Here.objReady s h.awake (off b) = .ok () ∧ Claims.NoErrors s
    let obj := fun (b : Opnd) => readObj s h.crew (off b)
    let sound := fun (b : Opnd) => objMode (obj b) < 3 ∧ fld (obj b) 42 6 = 0
    (∀ (g : Guard) (b : Opnd) (i : Instr), (∃ x : BinitArgs, x.g = g ∧ x.b = b ∧ i = .binit x) ∨ (∃ x : BarrArgs, x.g = g ∧ x.b = b ∧ i = .barr x) ∨
        (∃ x : BwaitArgs, x.g = g ∧ x.b = b ∧ (i = .bwait x ∨ i = .byld x)) →
      (h.awake.active g = 0 → exec i s = .next (s.put (h.awake.advance 8))) ∧
      (ready g b → ¬usable b → exec i s = .next (takeTrap s u { cause := 0x0F4, lane := lowest (h.awake.active g) })) ∧
      (ready g b → usable b → quiet b → (∀ x, i ≠ .binit x) → ¬sound b →
        exec i s = .next (takeTrap s u { cause := 0x0F3, lane := lowest (h.awake.active g) }))) ∧
    (∀ x : BinitArgs, ready x.g x.b → usable x.b → quiet x.b →
      (objWaiters (obj x.b) ≠ 0 → exec (.binit x) s = .next (takeTrap s u { cause := 0x0F5, lane := lowest (h.awake.active x.g) })) ∧
      (objWaiters (obj x.b) = 0 → ∃ t : State, exec (.binit x) s = .next (t.put (Claims.issued h 8)) ∧
        Claims.objectBecomes s t h.crew (off x.b) ((x.exp.setWidth 128 <<< 48) ||| ((match x.mode with
          | .bytes => 0
          | .rows => 1
          | .arrivals => 2 : BitVec 128) <<< 36)))) ∧
    (∀ x : BarrArgs, ready x.g x.b → usable x.b → quiet x.b → sound x.b →
      let o := obj x.b
      let a := objArrived o + x.n.toNat
      (objMode o ≠ 2 → exec (.barr x) s = .next (takeTrap s u { cause := 0x0F6, lane := lowest (h.awake.active x.g) })) ∧
      (objMode o = 2 → objExpected o ≠ 0 → 2 ^ 16 ≤ a → exec (.barr x) s = .next (takeTrap s u { cause := 0x0F2, lane := lowest (h.awake.active x.g) })) ∧
      (objMode o = 2 → (objExpected o ≠ 0 → a < 2 ^ 16) → h.awake.drained = .ok () →
        let o' := if objExpected o = 0 then o else setFld o 64 16 (a % objExpected o)
        let flips := objExpected o = 0 ∨ a / objExpected o % 2 = 1
        ∃ t : State, exec (.barr x) s = .next (t.put (Claims.issued h 8)) ∧
          Claims.objectBecomes s t h.crew (off x.b) (if flips then o' ^^^ (1 <<< 40) else o'))) ∧
    ∀ (x : BwaitArgs) (i : Instr) (cont : W64), i = .bwait x ∧ cont = h.split.pc + 8 ∨
        (i = .byld x ∧ cont = h.awake.read x.t true 0 false 0 ∧ h.awake.pending [(x.t, true)] = .ok () ∧ cont.extractLsb' 0 3 = 0) →
      ready x.g x.b → usable x.b → quiet x.b → sound x.b →
      let o := obj x.b
      let want := match x.ph with
        | .recorded => !objPhase o
        | .p0 => true
        | .p1 => false
      let released := if objMode o ≤ 1 then objPending o = 0 else objPhase o = want
      (objError o = true → exec i s = .next (takeTrap s u
        { cause := objCause o, addr := BitVec.ofNat 64 (off x.b), addr2 := (o.extractLsb' 96 32).setWidth 64 })) ∧
      (objError o = false → released → exec i s = .next ((acquireStep s h.viewer .crew (.scratch h.crew.core) (h.crew.scratch + off x.b)).put
        { h.awake with split := { h.awake.split with pc := cont } })) ∧
      (objError o = false → ¬released → ∃ t : State, exec i s = .next (parkUnit (t.put h.awake) u (.barrier (off x.b) want cont)) ∧
        Claims.objectBecomes s t h.crew (off x.b) (setFld o 80 16 (objWaiters o + 1)))

/-- R138 to R140, R301 to R303, R324, R385: `emit` pushes a record for every active lane, in lane order, into the deque of its launch; `wqpop` takes records at its tail and `wqsteal` at the head of a neighbour's, where a pinned record stops it, and both give a lane without a record zeros and a false status; the packer serves the deque whose turn it is and starts a warp pair with the records of one entry from the tail. Each acts on a deque that is not corrupt, and its other words stay. A release fence still queued holds back `emit`, `wqpop` and `wqsteal`, an acquire under way the last two; no error stands in the arrays. -/
def Obligations.WorkDequesMoveRecords : Prop :=
  let word := fun (s : State) (core : Nat) (d : Deque) (i j : Nat) => BitVec.ofNat 64 (bytesToNat (s.latestBytes (.scratch core) (dqSlot d i + 8 * j) 8))
  (∀ (x : EmitArgs) (s : State) (u : UnitRef) (h : Here) (d : Deque), Issuing s u h →
    let act := h.awake.active x.g
    let L := lanesOf act
    let core := h.crew.core
    let entry := fun l => fld (h.awake.read x.e true 0 false l) 0 32
    let hint := fun l => fld (h.awake.read x.fh true 0 false l) 0 32
    let tl := dqTail s core d
    (act = 0 → exec (.emit x) s = .next (s.put (h.awake.advance 8))) ∧
    (act ≠ 0 → h.awake.pending ([(x.e, false), (x.fh, false)] ++ aRegs x.n.toNat 7) = .ok () → h.awake.unfenced = .ok () → Claims.NoErrors s →
      (dequeOf (s.core core) h.crew.launch = none → exec (.emit x) s = .next (takeTrap s u { cause := 0x0F7, lane := lowest act })) ∧
      (dequeOf (s.core core) h.crew.launch = some d → (∀ l ∈ L, entry l % 16 = 0 ∧ entry l < 16 * h.crew.entries.length ∧ hint l / 2 % 2 ^ 15 = 0) →
        (d.cap < tl - dqHead s core d + L.length → exec (.emit x) s = .next (takeTrap s u { cause := 0x0F8, lane := lowest act })) ∧
        (tl - dqHead s core d + L.length ≤ d.cap → dqCorrupt s core d = true → exec (.emit x) s = .next (takeTrap s u { cause := 0x0F9, lane := lowest act })) ∧
        (tl - dqHead s core d + L.length ≤ d.cap → dqCorrupt s core d = false → tl + L.length < 2 ^ 64 → h.awake.drained = .ok () →
          ∃ t : State, exec (.emit x) s = .next (t.put (Claims.issued h 8)) ∧ t.crews = s.crews ∧ dqTail t core d = tl + L.length ∧ dqHead t core d = dqHead s core d ∧
            ∀ i l, L[i]? = some l → (word t core d (tl + i) 0 = BitVec.ofNat 64 (entry l + 2 ^ 32 * hint l)) ∧
              ∀ j, j < 7 → word t core d (tl + i) (j + 1) = h.warp.getA (x.n.toNat + j) l)))) ∧
  (∀ (x : WqArgs) (s : State) (u : UnitRef) (h : Here) (d : Deque), Issuing s u h → h.awake.pending (aRegs (aNumber x.d) 8) = .ok () →
    h.awake.acquired = .ok () → h.awake.unfenced = .ok () → Claims.NoErrors s →
    let L := lanesOf (h.awake.active x.g)
    let core := h.crew.core
    let tl := dqTail s core d
    let hd := dqHead s core d
    ∀ (found : Bool), dequeOf (s.core core) h.crew.launch = (if found then some d else none) → (found = true → dqCorrupt s core d = false ∧ 0 < d.cap) →
    ∃ (t : State) (k : Here), exec (.wqpop x) s = .next (t.put k) ∧ t.crews = s.crews ∧ k.split = (Claims.issued h 8).split ∧ k.pair = h.pair ∧
      k.crew = h.crew ∧ k.u = h.u ∧ k.warp.stores = h.warp.stores ∧ k.warp.c = h.warp.c ∧
      (found = true → dqTail t core d = tl - min L.length (tl - hd) ∧ dqHead t core d = hd) ∧
      (∀ i l, L[i]? = some l →
        let got := found && decide (i < tl - hd)
        (∀ j, j < 8 → k.warp.getA (aNumber x.d + j) l = if got then word s core d (tl - 1 - i) j else 0) ∧
        (x.kt ≠ 0 → (k.warp.pred x.kt.toNat).getLsbD l = got)) ∧
      (∀ m l, l < 64 → l ∉ L ∨ m < aNumber x.d ∨ aNumber x.d + 8 ≤ m → k.warp.getA m l = h.warp.getA m l) ∧
      (∀ n, n ≠ x.kt.toNat → k.warp.pred n = h.warp.pred n) ∧ ∀ l, l < 64 → l ∉ L → (k.warp.pred x.kt.toNat).getLsbD l = (h.warp.pred x.kt.toNat).getLsbD l) ∧
  (∀ (x : WqArgs) (s : State) (u : UnitRef) (h : Here), Issuing s u h → h.awake.pending ((x.c, false) :: aRegs (aNumber x.d) 8) = .ok () →
    h.awake.acquired = .ok () → h.awake.unfenced = .ok () → Claims.NoErrors s →
    let L := lanesOf (h.awake.active x.g)
    let core := fun l => h.crew.core / 8 * 8 + fld (h.awake.read x.c true 0 false l) 0 3
    (∀ l ∈ L, ∀ d, dequeOf (s.core (core l)) h.crew.launch = some d → dqCorrupt s (core l) d = false ∧ 0 < d.cap) →
    ∃ (t : State) (k : Here), exec (.wqsteal x) s = .next (t.put k) ∧ t.crews = s.crews ∧ k.split = (Claims.issued h 8).split ∧ k.pair = h.pair ∧
      k.crew = h.crew ∧ k.u = h.u ∧ k.warp.stores = h.warp.stores ∧
      ∀ i l, L[i]? = some l →
        let before := (L.take i).countP fun m => core m == core l
        (∀ d, dequeOf (s.core (core l)) h.crew.launch = some d → core l ≠ h.crew.core →
          let hd := dqHead s (core l) d
          let got := (List.range (before + 1)).all fun j => decide (hd + j < dqTail s (core l) d) && !(word s (core l) d (hd + j) 0).getLsbD 32
          dqTail t (core l) d = dqTail s (core l) d ∧
          (∀ j, j < 8 → k.warp.getA (aNumber x.d + j) l = if got then word s (core l) d (hd + before) j else 0) ∧
          (x.kt ≠ 0 → (k.warp.pred x.kt.toNat).getLsbD l = got)) ∧
        (dequeOf (s.core (core l)) h.crew.launch = none ∨ core l = h.crew.core →
          (∀ j, j < 8 → k.warp.getA (aNumber x.d + j) l = 0) ∧ (x.kt ≠ 0 → (k.warp.pred x.kt.toNat).getLsbD l = false))) ∧
  ∀ (s : State) (core n : Nat) (d : Deque) (uid : Nat) (c : Crew) (w : Nat) (area : W64), (s.core core).deques[n]? = some d → d.stopped = false →
    nextDeque s core = some d.launch → Claims.NoErrors s → s.crew? uid = some c →
    let tl := dqTail s core d
    let first := (word s core d (tl - 1) 0).toNat
    dqCorrupt s core d = false → dqHead s core d < tl → 0 < d.cap → c.grant ≤ 64 → receiver s core d.launch (first / 2 ^ 48) = some (uid, c) →
    packRoom s core uid c = some (w, area) → atCollective c = false → (c.kern.nv ≤ 80 ∨ (∀ e k, owned s e k = false) ∧ s.held = []) →
    ∀ e, c.entries[first % 2 ^ 32 / 16]? = some e → first % 16 = 0 → first / 2 ^ 33 % 2 ^ 15 = 0 →
    ∃ (t : State) (p : Pair) (m : Nat) (a b : Split), exec (.continuationPack core n) s = .next t ∧ t.pair? uid w = some p ∧ p.packed = true ∧ p.area = area ∧
      1 ≤ m ∧ (m ≤ c.grant ∨ m = 1) ∧ m ≤ tl - dqHead s core d ∧ dqTail t core d = tl - m ∧ p.live = BitVec.ofNat 64 (2 ^ m - 1) ∧
      p.acc.splits = [(0, a)] ∧ a.pc = c.abase + BitVec.ofNat 64 e.1 ∧ a.mask = p.live ∧
      p.exe.splits = [(0, b)] ∧ b.pc = c.xbase + BitVec.ofNat 64 e.2 ∧ b.mask = p.live ∧
      ∀ i, i < m → (word s core d (tl - 1 - i) 0).toNat % 2 ^ 32 = first % 2 ^ 32 ∧ ∀ j, j < 7 → i < 64 → p.acc.getA j i = word s core d (tl - 1 - i) (j + 1)

/-- Every split of crew `c` that is parked at a collective has gone on behind it, with its latches empty (R38, R163). -/
def Claims.GoneOn (c c' : Crew) : Prop :=
  ∀ p k sl (x : Split) i (y : Pair), Tbl.get? c.pairs p = some y → Tbl.get? (y.warp sl).splits k = some x → x.wait = .collective i →
    ∃ (y' : Pair) (x' : Split), Tbl.get? c'.pairs p = some y' ∧ Tbl.get? (y'.warp sl).splits k = some x' ∧
      x'.pc = x.pc + BitVec.ofNat 64 i.length ∧ x'.lat = [] ∧ x'.wait = .ready ∧ x'.mask = x.mask

/-- Every split of crew `c` that is parked at `setw` or `pyld` has received `v` in its destination register (R165, R166). -/
def Claims.Received (c c' : Crew) (v : Nat) : Prop :=
  ∀ p k sl (x : Split) (y y' : Pair) d, Tbl.get? c.pairs p = some y → Tbl.get? c'.pairs p = some y' → Tbl.get? (y.warp sl).splits k = some x →
    ((∃ a : SetwArgs, x.wait = .collective (.setw a) ∧ a.nwb = false ∧ d = a.d) ∨
     (∃ a : DestArgs, x.wait = .collective (.pyld a) ∧ a.nwb = false ∧ d = a.d)) →
    let w := y'.warp sl
    (∀ n l, d = .v n → l ∈ lanesOf x.mask → w.getV n.toNat l = BitVec.ofNat 32 v) ∧
    (∀ n l, d = .a n → l ∈ lanesOf x.mask → w.getA n.toNat l = BitVec.ofNat 64 v) ∧
    (∀ n, d = .s n → x.mask ≠ 0 → w.getS n.toNat = BitVec.ofNat 32 v) ∧
    (∀ n, d = .c n → x.mask ≠ 0 → w.getC n.toNat = BitVec.ofNat 64 v)

/-- R163: a split that reaches a crew-collective parks there. When every warp of the crew has reached the same one it completes: `setw` takes the request of the lowest warp pair, which stays pending where the crew cannot be re-sliced, changes nothing where the grant is that already, and else re-slices once the access warps have emptied; d receives the grant (R165). `pyld` without a request gives 0, and with a pre-emption request 1, and the save begins, once the save pool has room (R166, R416). `cbar` has performed at crew scope every store that happens before one of the crew's warps (R300, R326). `regroup` sorts the threads by key and then by old number, and moves the named registers, the predicates and the flags, or traps in every warp (R212, R213). -/
def Obligations.CollectivesMeet : Prop :=
  (∀ (s : State) (u : UnitRef) (h : Here), Issuing s u h →
    (∀ x : SetwArgs, h.awake.pending [(x.d, false)] = .ok () → exec (.setw x) s = .next (parkUnit s u (.collective (.setw x)))) ∧
    (∀ x : DestArgs, h.awake.pending [(x.d, false)] = .ok () → exec (.pyld x) s = .next (parkUnit s u (.collective (.pyld x)))) ∧
    (∀ x : RegroupArgs, h.awake.pending [(x.d, false), (x.live, false)] = .ok () →
      exec (.regroup x) s = .next (parkUnit s u (.collective (.regroup x)))) ∧
    ∀ x : BareArgs, exec (.cbar x) s = .next (parkUnit s u (.collective (.cbar x)))) ∧
  ∀ (s : State) (uid : Nat) (c : Crew), s.crew? uid = some c → c.saving = false → c.saved = none → c.grant ∈ [8, 16, 32, 64] →
    let t := completeCollective s uid
    let plain := ∀ e ∈ crewUnits uid c, (∀ a : SetwArgs, e.2.wait = .collective (.setw a) → spilledRegs [(a.d, false)] = []) ∧
      ∀ a : DestArgs, e.2.wait = .collective (.pyld a) → spilledRegs [(a.d, false)] = []
    (crewReached c = none → t = s) ∧
    -- setw
    (crewReached c = some 1 → plain → ∀ g, setwRequest c = some g →
      (quiescent c = false → ∃ c' : Crew, t.crew? uid = some c' ∧ c'.grant = c.grant ∧ c'.widthReq = some g ∧
        Claims.GoneOn c c' ∧ Claims.Received c c' c.grant) ∧
      ∀ g' p, quiescent c = true → chooseGrant s c.core (some uid) (c.wanted 0) (fun _ => true) g = some (g', p) →
        (g' = c.grant → ∃ c' : Crew, t.crew? uid = some c' ∧ c'.grant = c.grant ∧ c'.widthReq = none ∧
          Claims.GoneOn c c' ∧ Claims.Received c c' c.grant) ∧
        (g' ≠ c.grant → joinable c g' = false → ∃ c' : Crew, t.crew? uid = some c' ∧ c'.grant = c.grant ∧ c'.widthReq = some g ∧
          Claims.GoneOn c c' ∧ Claims.Received c c' c.grant) ∧
        (g' ≠ c.grant → joinable c g' = true → (c.emptied = false ∨ ∃ p ∈ c.pairs, p.2.xcps ≠ []) → t = s)) ∧
    -- pyld
    (crewReached c = some 2 → plain →
      (c.preq = false → c.widthReq = none → ∃ c' : Crew, t.crew? uid = some c' ∧ c'.grant = c.grant ∧ c'.saving = false ∧
        Claims.GoneOn c c' ∧ Claims.Received c c' 0) ∧
      (c.preq = true → saveRoom s uid c = none → t = s) ∧
      (c.preq = true → (saveRoom s uid c).isSome = true →
        (∀ (z : State) (c₁ : Crew), (writeGrant s uid 1).map (fun (y : State) => y.onCrew uid fun c₀ => { c₀ with yielded := quiescent c }) = .ok z →
          z.crew? uid = some c₁ → (saveRoom z uid c₁).isSome = true) →
        ∃ c' : Crew, t.crew? uid = some c' ∧ c'.grant = c.grant ∧ c'.saving = true ∧ c'.yielded = quiescent c ∧
        Claims.GoneOn c c' ∧ Claims.Received c c' 1)) ∧
    -- cbar
    (crewReached c = some 3 → c.drained = true →
      (∀ x ∈ crewUnits uid c, x.1.slice = .access → ∀ h : Here, s.here? x.1 = some h → h.warp.stores = []) →
      ∃ c' : Crew, t.crew? uid = some c' ∧ Claims.GoneOn c c' ∧
        ∀ w ∈ t.wide, (w.agent.ofCrew uid = true ∨ ∃ a ∈ w.known, a.ofCrew uid = true ∧ a ≠ .members uid) → Scope.crew.code ≤ w.scope.code) ∧
    -- regroup
    (crewReached c = some 4 → regroupOk c = false →
      t = (crewUnits uid c).foldl (fun (z : State) (x : UnitRef × Split) => takeTrap z x.1 { cause := 0x0F1 }) s) ∧
    (crewReached c = some 4 → regroupOk c = true → (∀ p ∈ c.pairs, p.2.acc.loads = []) →
      (∀ p ∈ c.pairs, ∀ k x rest h, p.2.exe.splits = (k, x) :: rest → s.here? { crew := uid, pair := p.1, slice := .execute, split := k } = some h →
        ∀ n ∈ regroupTouched h, n < 80) →
      (regroupKeys s uid c).map (·.1) = List.range (regroupKeys s uid c).length →
      let key := fun (tid : Nat) => (((regroupKeys s uid c)[tid]?).map (·.2)).getD 0
      ∀ ids : List Nat, ids.Perm (List.range (regroupKeys s uid c).length) →
        ids.Pairwise (fun i j => key i < key j ∨ (key i = key j ∧ i < j)) →
      ∃ c' : Crew, t.crew? uid = some c' ∧ c'.grant = c.grant ∧ Claims.GoneOn c c' ∧
        ∀ r tid sl (po pn : Pair) k (x : Split) rest a, ids[r]? = some tid → Tbl.get? c.pairs (tid / c.grant) = some po →
          Tbl.get? c'.pairs (r / c.grant) = some pn → (po.warp sl).splits = (k, x) :: rest → regroupOf (po.warp sl) = some a → a.nwb = false →
          let old := po.warp sl
          let new := pn.warp sl
          let lo := tid % c.grant
          let ln := r % c.grant
          let h : Here := { u := { crew := uid, pair := tid / c.grant, slice := sl, split := k }, crew := c, pair := po, warp := old, split := x }
          (∀ n ∈ regroupNames h a, (sl = .access → (∀ m, a.d = .a m → m.toNat ≠ n) → new.getA n ln = old.getA n lo) ∧
            (sl = .execute → (∀ m, a.d = .v m → m.toNat ≠ n) → new.getV n ln = old.getV n lo)) ∧
          (∀ i, 1 ≤ i → i < 16 → (new.pred i).getLsbD ln = (old.pred i).getLsbD lo) ∧
          (sl = .execute → new.getF ln = old.getF lo) ∧
          (∀ m, a.d = .a m → sl = .access → new.getA m.toNat ln = BitVec.ofNat 64 tid) ∧
          ∀ m, a.d = .v m → sl = .execute → new.getV m.toNat ln = BitVec.ofNat 32 tid)

/-! ### Events of cores, crews, the host and the device -/

/-- R347, R367, R383, R386 to R389, R408, R411, R416, R417, R381, R431: where its condition holds, an event of a core or a crew takes effect: an idle core is gated and a gated one woken, a waiting unit boosted; requests reach the crews to be pre-empted, and a deadline at zero begins the save where the pool has room; a save writes the image and frees the core, a resume puts the crew back as its image has it or refuses a corrupt image, a placement starts the next crew of a launch, with warps for native code and threads for a Portable Form program; a machine check traps, also where the split is parked or stalled; the patrol corrects; marks of failed banks stay. The model's own: the threads of Portable Form crews and their places (log entry 4), the reason code of a wake-up that Table 1.7 does not list (log entry 28), at which waits a split has a boundary (log entry 60), the report of a corrupt image (log entry 63), and the order of an image's records (log entry 65). -/
def Obligations.CoreAndCrewEvents : Prop :=
  (∀ (core : Nat) (s : State), core < 96 → (s.core core).gated = false → 16 ≤ (s.core core).idle → coreIdle s core = true →
    exec (.clockGate core) s = .next (s.setCore core { s.core core with gated := true })) ∧
  (∀ (core : Nat) (r : BitVec 4) (s : State), core < 96 → (s.core core).gated = true → reasonHolds s core r.toNat = true →
    exec (.coreWake core r) s = .next (s.setCore core
      { s.core core with gated := false, idle := 0, waking := 24, wake := BitVec.ofNat 32 r.toNat })) ∧
  (∀ (u : UnitRef) (s : State) (h : Here), s.here? u = some h → h.isReady = true → h.split.boosted = none →
    h.split.readyAt + 2048 ≤ (s.core h.crew.core).cyc.toNat → h.split.issued + 2048 ≤ (s.core h.crew.core).cyc.toNat →
    exec (.unitBoost u) s = .next (s.onSplit u fun x => { x with boosted := some (s.core h.crew.core).cyc.toNat })) ∧
  (∀ (queue : Nat) (s : State) id (l : Launch) w core us, s.runningLaunch queue = some (id, l) →
    (∀ u ∈ l.asked, ∀ c : Crew, s.crew? u = some c → c.preq = false ∧ c.saving = false) → waitingOf s id l = some w → w.spot s id l = none →
    victims s id l w = some (core, us) →
    ∃ t : State, exec (.preemptionRequest queue) s = .next t ∧ Tbl.get? t.launches id = some { l with asked := us, freed := some core } ∧
      ∀ u ∈ us, ∀ c : Crew, s.crew? u = some c → c.preq = false → c.saving = false → c.saved = none →
        ∃ c' : Crew, t.crew? u = some c' ∧ c'.preq = true ∧ c'.deadline = (s.hq c.queue).cfg.extractLsb' 32 32 ∧
          (c'.deadline ≠ 0 → c'.saving = false) ∧ (c'.deadline = 0 → us = [u] → (saveRoom s u c).isSome = true → c'.saving = true) ∧
          c'.grant = c.grant ∧ c'.core = c.core) ∧
  (∀ (uid : Nat) (s : State) (c : Crew), s.crew? uid = some c → c.preq = true → c.deadline = 0 → c.saving = false → c.saved = none →
    (saveRoom s uid c).isSome = true → ∃ (t : State) (c' : Crew), exec (.deadlineExpiry uid) s = .next t ∧ t.crew? uid = some c' ∧ c'.saving = true ∧ c'.grant = c.grant ∧
      ∀ p sl k (x : Split) (y : Pair), Tbl.get? c.pairs p = some y → Tbl.get? (y.warp sl).splits k = some x →
        ∃ (y' : Pair) (x' : Split), Tbl.get? c'.pairs p = some y' ∧ Tbl.get? (y'.warp sl).splits k = some x' ∧
          x'.pc = x.pc ∧ x'.mask = x.mask ∧ x'.stack = x.stack ∧ x'.lat = []) ∧
  (∀ (uid : Nat) (s : State) (c : Crew), s.crew? uid = some c → c.saving = true → c.saved = none → saveReady s uid c = true →
    (∀ k ∈ (s.core c.core).cmds, k.crew ≠ uid) → (∀ p ∈ c.pairs, p.2.acc.acks = 0) → s.drawers = [] → s.pend = [] → Claims.NoErrors s →
    (∀ e k, owned s e k = false) → s.held = [] → (∀ x ∈ crewUnits uid c, x.2.wait.atBarrier = false) →
    let p := keepSight (performWhere s (fun w => w.pastCrew uid) .die) uid c
    let img := contextImage p uid c []
    let base := fld (s.ctx c.ctx).pool 12 40 * 4096
    ∀ o n, c.room = some (o, n) →
      ∃ (t : State) (i : SaveInfo), exec (.crewSave uid) s = .next t ∧
        t.crew? uid = some { c with preq := false, deadline := 0, saving := false, yielded := false, saved := some i, room := none } ∧
        i.image = base + o ∧ i.size = img.1.length ∧ i.reslice = c.yielded ∧ i.corrupt = false ∧ i.crc = img.2 ∧ i.records = [] ∧
        t.latestBytes .phys (base + o) img.1.length = img.1) ∧
  (∀ (uid : Nat) (s : State) (c : Crew) (i : SaveInfo) (l : Launch), s.crew? uid = some c → c.saved = some i →
    Tbl.get? s.launches c.launch = some l → i.corrupt = false → (waitingOf s c.launch l).bind (·.saved) = some uid → turnOf s c.launch l = true →
    s.drawers = [] → s.pend = [] → Claims.NoErrors s → (∀ e k, owned s e k = false) → s.held = [] →
    let img := deviceLoad s i.image i.size
    (∀ n, imageFault c img = some n → ∃ t : State, exec (.crewResume uid) s = .next t ∧
      (∃ (c' : Crew) (j : SaveInfo), t.crew? uid = some c' ∧ c'.saved = some j ∧ j.corrupt = true ∧ j.image = i.image) ∧
      (bitAt (s.ctx c.ctx).mcheck 9 = false → fld (t.ctx c.ctx).mcheck 0 9 = 0x134 + n ∧ bitAt (t.ctx c.ctx).mcheck 9 = true)) ∧
    (imageFault c img = none → ∀ core g p, (savedWaiting uid c i l).spot s c.launch l = some (core, g, p) → (g = c.grant ∨ c.kern.nv ≤ 80) →
      ∃ (t : State) (c' : Crew), exec (.crewResume uid) s = .next t ∧ t.crew? uid = some c' ∧ c'.saved = none ∧ c'.grant = g ∧
        (g = c.grant → c'.core = core ∧ c'.num = c.num ∧ (c.kern.prog = none →
          ∀ j q (y : Pair), c.pairs[j]? = some (q, y) → ∃ y' : Pair, c'.pairs[j]? = some (q, y') ∧ ∀ sl k, k < 4 →
            let at_ := bytesAt img 32 8 + 296 * (8 * j + (if sl = .access then 0 else 4) + k)
            (bytesAt img (at_ + 16) 4 = 0 → Tbl.get? (y'.warp sl).splits k = none) ∧
            (bytesAt img (at_ + 16) 4 ≠ 0 → ∃ x' : Split, Tbl.get? (y'.warp sl).splits k = some x' ∧
              x'.pc.toNat = bytesAt img at_ 8 ∧ x'.mask.toNat = bytesAt img (at_ + 8) 8))))) ∧
  (∀ (queue : Nat) (s : State) id (l : Launch) w core g p, s.runningLaunch queue = some (id, l) → waitingOf s id l = some w → w.saved = none →
    turnOf s id l = true → w.spot s id l = some (core, g, p) → (l.entry.kern.nv ≤ 80 ∨ (∀ e k, owned s e k = false) ∧ s.held = []) →
    ∃ (t : State) (c : Crew), exec (.crewPlacement queue) s = .next t ∧ t.crew? s.nextCrew = some c ∧ t.nextCrew = s.nextCrew + 1 ∧
      c.core = core ∧ c.grant = g ∧ c.launch = id ∧ c.queue = queue ∧ c.ctx = l.ctx ∧ c.num = BitVec.ofNat 32 l.placed ∧ c.threads = l.threads ∧
      c.kern = l.entry.kern ∧ c.scratch = p.scratch ∧ c.saved = none ∧ c.preq = false ∧ c.pairs.map (·.1) = List.range (pairsAt l.threads g) ∧
      (∀ n (q : Pair), Tbl.get? c.pairs n = some q → q.live = liveLanes l.threads n g ∧
        (l.entry.kern.prog = none → ∃ a b : Split, q.acc.splits = [(0, a)] ∧ a.pc = l.entry.addr ∧ a.mask = q.live ∧
          q.exe.splits = [(0, b)] ∧ b.pc = l.entry.xaddr ∧ b.mask = q.live) ∧
        (∀ pr r, l.entry.kern.prog = some pr → pr.regions.head? = some r → q.acc.ended = true ∧ q.acc.splits = [] ∧
          ∀ lane ∈ lanesOf q.live, ∃ x : Split, Tbl.get? q.exe.splits lane = some x ∧ x.mask = laneBit lane ∧
            (r.par = true ∨ n * g + lane = 0 → x.wait = .ready ∧ x.pc = l.entry.xaddr + BitVec.ofNat 64 (8 * r.first)) ∧
            (r.par = false → n * g + lane ≠ 0 → x.wait = .region)) ∧
        q.acc.getC 0 = l.paddr ∧ q.acc.getC 2 = BitVec.ofNat 64 p.scratch ∧ q.acc.getC 3 = BitVec.ofNat 64 l.entry.kern.scratch ∧
        ∀ e ∈ q.queues, e.2.entries = []) ∧
      Tbl.get? t.launches id = some { l with placed := l.placed + 1, uids := l.uids ++ [s.nextCrew], asked := [], freed := none }) ∧
  (∀ (u : UnitRef) (s : State) (h : Here) cause addr rest, s.here? u = some h → h.split.mc = (cause, addr) :: rest → h.split.halted = false → h.crew.saving = false →
    let taken := fun (t : State) => exec (.machineCheckDelivery u) s =
      .next (takeTrap (t.onSplit u fun x => { x with mc := rest }) u { cause := cause.toNat, addr := addr })
    (h.split.wait.restarts = true → h.split.wait.atBarrier = false → taken s) ∧
    (∀ off want cont, h.split.wait = .barrier off want cont → crewWaits s h.crew off 16 = false → taken (leaveObj s u.crew h.crew off)) ∧
    (h.split.wait = .ready → h.split.wait.restarts = true)) ∧
  (∀ (a : Nat) (s : State), isDevice a = true →
    let i := 108 + dieOf a
    (faulty s i 0x20 (a / 64) = false → exec (.patrolRead (.hbmUnit a)) s = .next s) ∧
    ((∀ f ∈ s.faults, f.1 = i → f.2.1 = 0x20 → f.2.2.1 = a / 64 → f.2.2.2 = false) → faulty s i 0x20 (a / 64) = true →
      ∃ t : State, exec (.patrolRead (.hbmUnit a)) s = .next t ∧ faulty t i 0x20 (a / 64) = false ∧ t.mem = s.mem ∧ t.crews = s.crews ∧
        ((s.err i).corrected ≠ 0xFFFFFFFF → (t.err i).corrected = (s.err i).corrected + 1) ∧ (t.err i).uncorrected = (s.err i).uncorrected)) ∧
  (∀ (core bank : Nat) (s : State), core < 96 → bank < 32 → (s.err core).failed.getLsbD bank = false →
    256 ≤ (Cells.get (s.err core).perBank bank).toNat →
    exec (.bankFailMark core bank) s = .next (s.setErr core { s.err core with failed := (s.err core).failed ||| BitVec.twoPow 32 bank })) ∧
  ∀ (core : Nat) (mask : W32) (s : State), core < 96 →
    exec (.failedBankMaskWrite core mask) s = .next (s.setErr core { s.err core with failed := (s.err core).failed ||| mask })

/-- The value of the event counter that a waiting queue reads, in the state that has read it. -/
def Claims.counter (s : State) (n : Nat) (a : W64) (t : State) (v : Nat) : Prop :=
  ∃ d, launchRead s (s.hq n).ctx a 8 = .ok (some (t, d)) ∧ v = bytesToNat d

/-- R371, R373, R375 to R377, R390, R441: a record that cannot be read stops its queue, and so does a reserved operation or a bad field; a no-op, an event write and a wait whose counter has come complete their command; a wait whose counter has not come waits; a launch record starts its launch, whose completion is written when its crews have ended; queues move into slots and out of them; writes to tail, cfg and control act as their rules say. R435, R436, R441: a mailbox request answers the status of the first step that fails; a query gives the sizes, a load also installs the object and names it, an unload takes the kernels of a load that is not in use out of the load table, and an eviction drops the object's cached translations. The model's own: when each code of Table 13.4 is found, 0x04 and 0x08 at the start of a launch and 0x05 at a tail beyond the ring also of a disabled queue (log entry 41), the wait of a completion's write on an owned line (log entry 42), and the order of the loader's checks within a step (log entry 43). -/
def Obligations.HostQueuesAndTheMailbox : Prop :=
  ((∀ (n : Nat) (s : State), let q := s.hq n
     (∀ i ∈ [Instr.noOpRecord n, .eventWait n, .eventWrite n, .launch n],
       (∀ e, startCommand s n = .error e → exec i s = .next (stopQueue s n e)) ∧
       ∀ s' r, startCommand s n = .record s' r → 4 ≤ bytesAt r 0 2 → exec i s = .next (stopQueue s' n 1)) ∧
     (∀ s' r, startCommand s n = .record s' r →
       (bytesAt r 0 2 = 0 → (zeroRange r 2 64 = false → exec (.noOpRecord n) s = .next (stopQueue s' n 1)) ∧
         (zeroRange r 2 64 = true → ∃ t : State, exec (.noOpRecord n) s = .next t ∧ (t.hq n).progress = q.progress + 1 ∧ (t.hq n).run = none ∧
           (t.hq n).err = q.err ∧ t.crews = s'.crews ∧ t.mem = s'.mem)) ∧
       (bytesAt r 0 2 = 2 → (eventRecordOk r = false → exec (.eventWait n) s = .next (stopQueue s' n 1)) ∧
         (eventRecordOk r = true →
           let a := BitVec.ofNat 64 (bytesAt r 16 8)
           let v := bytesAt r 24 8
           let w := stampQueue (s'.setHq n { q with run := some (.wait a (BitVec.ofNat 64 v)) }) n
           ∀ z m, Claims.counter w n a z m → ∃ t : State, exec (.eventWait n) s = .next t ∧
             (v ≤ m → (t.hq n).progress = q.progress + 1 ∧ (t.hq n).run = none) ∧
             (m < v → (t.hq n).progress = q.progress ∧ (t.hq n).run = some (.wait a (BitVec.ofNat 64 v))))) ∧
       (bytesAt r 0 2 = 3 → (eventRecordOk r = false → exec (.eventWrite n) s = .next (stopQueue s' n 1)) ∧
         (eventRecordOk r = true → ∀ z, launchWrite s' q.ctx (BitVec.ofNat 64 (bytesAt r 16 8)) (natToBytes (bytesAt r 24 8) 8) = .ok (some z) →
           exec (.eventWrite n) s = .next (pollAll (completeCommand z n)))) ∧
       (bytesAt r 0 2 = 1 → (launchRecordOk r = false →
           exec (.launch n) s = .next (stopNamed s' n 1 (loadedAt s' q.ctx (BitVec.ofNat 64 (bytesAt r 16 8))))) ∧
         (launchRecordOk r = true → loadedAt s' q.ctx (BitVec.ofNat 64 (bytesAt r 16 8)) = none → exec (.launch n) s = .next (stopQueue s' n 3)) ∧
         (∀ e, launchRecordOk r = true → loadedAt s' q.ctx (BitVec.ofNat 64 (bytesAt r 16 8)) = some e →
           (capOk e.kern (bytesAt r 12 2) = false → exec (.launch n) s = .next (stopNamed s' n 1 (some e))) ∧
           ∀ f, capOk e.kern (bytesAt r 12 2) = true → launchRead s' q.ctx (BitVec.ofNat 64 (bytesAt r 24 8)) (bytesAt r 14 2) = .error f →
             exec (.launch n) s = .next (stopNamed s' n 9 (some e))) ∧
         ∀ e z params, launchRecordOk r = true → loadedAt s' q.ctx (BitVec.ofNat 64 (bytesAt r 16 8)) = some e → capOk e.kern (bytesAt r 12 2) = true →
           launchRead s' q.ctx (BitVec.ofNat 64 (bytesAt r 24 8)) (bytesAt r 14 2) = .ok (some (z, params)) →
           let l := launchOf n q.ctx e r params
           (∀ code, neverFits z (nextWaiting z.nextLaunch l).want = some code → ∃ t : State, exec (.launch n) s = .next t ∧
             (t.hq n).err = BitVec.ofNat 8 code ∧ (t.hq n).named = some e.loadid ∧ t.launches = z.launches) ∧
           (neverFits z (nextWaiting z.nextLaunch l).want = none → ∃ t : State, exec (.launch n) s = .next t ∧
             (t.hq n).run = some (.launch z.nextLaunch) ∧ (t.hq n).progress = q.progress ∧ t.nextLaunch = z.nextLaunch + 1 ∧
             Tbl.get? t.launches z.nextLaunch = some l ∧ Tbl.keys t.crews = Tbl.keys z.crews)))) ∧
   (∀ (n : Nat) (s : State) (a v : W64) (z : State) (m : Nat), (s.hq n).res = true → (s.hq n).run = some (.wait a v) → Claims.counter s n a z m →
     ∃ t : State, exec (.eventWaitPoll n) s = .next t ∧
       (v.toNat ≤ m → (t.hq n).progress = (s.hq n).progress + 1 ∧ (t.hq n).run = none) ∧ (m < v.toNat → t = z)) ∧
   (∀ (n : Nat) (s : State) id (l : Launch), s.runningLaunch n = some (id, l) → l.nx * l.ny * l.nz ≤ l.placed →
     (∀ e ∈ s.crews, e.2.launch ≠ id) →
     let p := performWhere s (fun w => l.uids.any fun u => w.pastCrew u) .die
     let done := fun (z : State) => pollAll (completeCommand { z with launches := Tbl.erase z.launches id } n)
     (l.caddr = 0 → exec (.launchCompletion n) s = .next (done p)) ∧
     (l.caddr ≠ 0 → ∀ z, launchWrite p l.ctx l.caddr (natToBytes l.cval.toNat 8) = .ok (some z) → exec (.launchCompletion n) s = .next (done z))) ∧
   (∀ (n : Nat) (s : State) id (l : Launch) z, (s.hq n).run = some (.complete id) → (s.hq n).err = 0 → Tbl.get? s.launches id = some l → l.caddr ≠ 0 →
     launchWrite s l.ctx l.caddr (natToBytes l.cval.toNat 8) = .ok (some z) →
     exec (.launchCompletion n) s = .next (pollAll (completeCommand { z with launches := Tbl.erase z.launches id } n))) ∧
   (∀ (n : Nat) (s : State), nextResident s = some n → (s.hq n).eligible = true → residents s < 64 → ∃ t : State, exec (.queueSwitchIn n) s = .next t ∧
     (t.hq n).res = true ∧ (t.hq n).latched = none ∧ (t.hq n).tail = (s.hq n).tail) ∧
   (∀ (n m : Nat) (s : State), nextResident s = some m → 64 ≤ residents s → switchOut s (s.hq m).prio = some n →
     ∃ t : State, exec (.queueSwitchOut n) s = .next t ∧ (t.hq n).res = false ∧ (t.hq n).tail = (s.hq n).tail ∧ (t.hq n).progress = (s.hq n).progress ∧
       ∀ k, k ≠ n → t.hq k = s.hq k) ∧
   ∀ (n : Nat) (s : State) (v : W64), n < 1024 →
     let q := s.hq n
     (v < q.tail → exec (.tailW n v) s = .next (s.setHq n { q with regress := true })) ∧
     (q.tail ≤ v → q.progress.toNat + q.size < v.toNat → ∃ t : State, exec (.tailW n v) s = .next t ∧ (t.hq n).err = 5 ∧ (t.hq n).tail = q.tail) ∧
     (q.tail ≤ v → v.toNat ≤ q.progress.toNat + q.size → ∃ t : State, exec (.tailW n v) s = .next t ∧ (t.hq n).tail = v ∧ (t.hq n).err = q.err ∧
       t.crews = s.crews ∧ t.mem = s.mem) ∧
     ((fld v 15 17 ≠ 0 ∨ bitAt v 7 = true ∨ 12 < fld v 0 4) → exec (.cfgW n v) s = .next { s with dev := { s.dev with refused := true } }) ∧
     (fld v 15 17 = 0 → bitAt v 7 = false → fld v 0 4 ≤ 12 → ∃ t : State, exec (.cfgW n v) s = .next t ∧
       (∀ b, b < 64 → (t.hq n).cfg.getLsbD b = if q.quiet = false ∧ (b < 4 ∨ (8 ≤ b ∧ b < 14)) then q.cfg.getLsbD b else v.getLsbD b) ∧
       (q.en = false → bitAt v 14 = true → (t.hq n).tail = 0 ∧ (t.hq n).progress = 0) ∧
       ((q.en = true ∨ bitAt v 14 = false) → (t.hq n).tail = q.tail ∧ (t.hq n).progress = q.progress) ∧
       (bitAt v 14 = false → (t.hq n).waiting = false ∧ (q.launching = false → (t.hq n).res = false))) ∧
     (∃ t : State, exec (.holdW n) s = .next t ∧ (t.hq n).held = true ∧ ∀ id (l : Launch) u (c : Crew), s.runningLaunch n = some (id, l) →
       s.crew? u = some c → c.launch = id → c.saved = none → c.saving = false → ∃ c' : Crew, t.crew? u = some c' ∧ c'.preq = true) ∧
     exec (.relW n) s = .next (s.setHq n { q with held := false }) ∧
     let c := s.setHq n { q with err := 0, regress := false, named := none }
     ((∀ id, q.run ≠ some (.complete id)) → exec (.clrW n) s = .next
       (if q.en = true ∧ q.err ≠ 0 ∧ q.progress = q.tail then signal c (2 + q.ctx) else c)) ∧
     (∀ id (l : Launch), q.run = some (.complete id) → Tbl.get? s.launches id = some l → l.caddr ≠ 0 →
       (launchWrite c l.ctx l.caddr (natToBytes l.cval.toNat 8) = .ok none → exec (.clrW n) s = .next c) ∧
       ∀ z, launchWrite c l.ctx l.caddr (natToBytes l.cval.toNat 8) = .ok (some z) →
         exec (.clrW n) s = .next (pollAll (completeCommand { z with launches := Tbl.erase z.launches id } n)))) ∧
  (∀ (s : State), mailboxBusy s = true →
     let r := requestOf s
     (∀ i, (r.op = 1 ∧ i = Instr.mailboxQuery) ∨ (r.op = 2 ∧ i = .mailboxLoad) →
       (∀ z n, readObject s r = .fails z n → exec i s = .next (answer z n)) ∧ (readObject s r = .busy → exec i s = .next s) ∧
       (∀ z o n, readObject s r = .ok z o → (checkObject z o).2 = .inl n → exec i s = .next (answer (checkObject z o).1 n))) ∧
     (r.op = 1 → ∀ z o ks, readObject s r = .ok z o → (checkObject z o).2 = .inr ks →
       exec .mailboxQuery s = .next (answer (putSizes (checkObject z o).1 (loadSizes o ks)) 0)) ∧
     (r.op = 2 → ∀ z o ks, readObject s r = .ok z o → (checkObject z o).2 = .inr ks →
       let y := (checkObject z o).1
       let ws := loadWrites y r o ks (loadSizes o ks)
       let waits := (loadRegions r o (loadSizes o ks)).any fun q => regionWaits y r.ctx q.1 q.2
       (waits = true → exec .mailboxLoad s = .next s) ∧
       (waits = false → regionsOk y r o (loadSizes o ks) = false → exec .mailboxLoad s = .next (answer y 0x0B)) ∧
       (waits = false → regionsOk y r o (loadSizes o ks) = true → 4096 < y.loads.length + ks.length → exec .mailboxLoad s = .next (answer y 0x0D)) ∧
       (waits = false → regionsOk y r o (loadSizes o ks) = true → y.loads.length + ks.length ≤ 4096 → freeBytes y (ws.map (·.1)) = true →
         ∃ t : State, exec .mailboxLoad s = .next t ∧ t.loads = y.loads ++ newEntries y r o ks ∧ t.objects = y.objects ++ [{ ctx := r.ctx, loadid := newLoadId y, model := o.model }] ∧ t.nextLoad = nextLoadId (newLoadId y) ∧
           Tbl.keys t.crews = Tbl.keys y.crews ∧ t.queues = y.queues ∧ bytesAt (mailboxBytes t) 48 2 = 0 ∧ bytesAt (mailboxBytes t) 4 4 = newLoadId y % 2 ^ 32 ∧
           (o.model = 2 → bitAt (t.ctx r.ctx).root 1 = true) ∧ (o.model ≠ 2 → (t.ctx r.ctx).root = (y.ctx r.ctx).root))) ∧
     (r.op = 3 →
       let mine := fun (e : Loaded) => e.ctx = r.ctx ∧ e.loadid = r.loadid
       ((∀ e ∈ s.objects, ¬mine e) → exec .mailboxUnload s = .next (answer s 0x0E)) ∧
       ((∃ e ∈ s.objects, mine e) → loadInUse s r.loadid = true → exec .mailboxUnload s = .next (answer s 0x0C)) ∧
       ((∃ e ∈ s.objects, mine e) → loadInUse s r.loadid = false → ∃ t : State, exec .mailboxUnload s = .next t ∧
         t.loads = s.loads.filter (fun e => e.loadid != r.loadid) ∧ t.objects = s.objects.filter (fun e => e.loadid != r.loadid) ∧
         ((∀ e ∈ s.objects, e.loadid = r.loadid ∨ e.ctx ≠ r.ctx ∨ e.model ≠ 2) → bitAt (t.ctx r.ctx).root 1 = false) ∧ bytesAt (mailboxBytes t) 48 2 = 0 ∧ t.crews = s.crews ∧ t.mem = s.mem)) ∧
     (r.op = 4 →
       (∀ z n, readObject s r = .fails z n → exec .mailboxEvict s = .next (answer z n)) ∧
       ∀ z o, readObject s r = .ok z o → ∃ t : State, exec .mailboxEvict s = .next t ∧
         t.cache = z.cache.filter (fun e => e.digest != o.digest) ∧ bytesAt (mailboxBytes t) 48 2 = 0 ∧ t.loads = z.loads))

/-- The state in which a command of the debug access port runs on its target: dcmd is written, and the target's core woken (R387, R422). -/
def Claims.commanded (s : State) (ctx : Nat) (cmd : W64) (core : Nat) : State :=
  wakeCore (s.onDebug ctx fun d => { d with dcmd := cmd }) core 6

/-- R421 to R424: a debug command on no target, or on a saved crew, is refused with its reason; a halt holds the units of its scope, with no latch kept; a resume releases them (where none of them, nor what was stepped out of them, is a debug split); a step restricts the split to the lanes asked for, or is refused; a read gives the selected state and a write changes it; a word of scratchpad is read and written once no command owns its line. The value that a write of such a word stores is free (log entry 32), and the crew that a number names is the one of lowest identity (log entry 36). -/
def Obligations.DebugCommandsAct : Prop :=
  ∀ (ctx : Nat) (cmd : W64) (s : State), ctx < 64 → fld (s.ctx ctx).dbg.dstat 0 2 ≠ 1 →
    let op := fld cmd 0 4
    let clean := fld cmd 4 4 = 0 ∧ fld cmd 17 15 = 0
    let refused := fun (z : State) (r : Nat) => z.onDebug ctx fun d => { d with dstat := BitVec.ofNat 64 (256 * r + 3) }
    let finished := fun (z : State) => z.onDebug ctx fun d => { d with dstat := 2 }
    (∀ i, (op = 1 ∧ i = Instr.debugHalt ctx cmd) ∨ (op = 2 ∧ i = .debugResume ctx cmd) ∨ (op = 3 ∧ i = .debugStep ctx cmd) ∨
        (op = 4 ∧ i = .debugRead ctx cmd) ∨ (op = 5 ∧ i = .debugWrite ctx cmd) →
      (¬clean → exec i s = .next { s with dev := { s.dev with refused := true } }) ∧
      (clean → ∀ r, debugTarget s ctx cmd = .inl r → exec i s = .next (refused (s.onDebug ctx fun d => { d with dcmd := cmd }) r))) ∧
    (clean → ∀ (u : UnitRef) (h : Here), debugTarget s ctx cmd = .inr u → s.here? u = some h →
      let z := Claims.commanded s ctx cmd h.crew.core
      let d := (s.ctx ctx).dbg
      let kind := fld d.dsel 0 8
      let m := d.dmask &&& h.split.mask
      (op = 1 → ∃ t : State, exec (.debugHalt ctx cmd) s = .next t ∧ fld (t.ctx ctx).dbg.dstat 0 2 = 2 ∧
        ∀ v ∈ haltScope s ctx u, ∀ k : Here, s.here? v = some k → ∃ k' : Here, t.here? v = some k' ∧ k'.split.halted = true ∧
          k'.split.pc = k.split.pc ∧ k'.split.mask = k.split.mask ∧ (v.slice = .execute → k'.split.lat = [])) ∧
      (op = 2 → (∀ v ∈ withDebugSplits s (haltScope s ctx u), ∀ k : Here, s.here? v = some k → k.split.debug = false) →
        ∃ t : State, exec (.debugResume ctx cmd) s = .next t ∧ fld (t.ctx ctx).dbg.dstat 0 2 = 2 ∧
          ∀ v ∈ haltScope s ctx u, ∀ k : Here, s.here? v = some k → ∃ k' : Here, t.here? v = some k' ∧ k'.split.halted = false ∧
            k'.split.pc = k.split.pc ∧ k'.split.mask = k.split.mask ∧ (k.split.halted = true → k'.split.skip = true)) ∧
      (op = 3 → (h.split.halted = false → exec (.debugStep ctx cmd) s = .next (refused z 2)) ∧
        (h.split.halted = true → nextCollective z h = true → exec (.debugStep ctx cmd) s = .next (refused z 3)) ∧
        (h.split.halted = true → nextCollective z h = false → m = 0 → exec (.debugStep ctx cmd) s = .next (finished z)) ∧
        (h.split.halted = true → nextCollective z h = false → m ≠ 0 → ∃ t : State, exec (.debugStep ctx cmd) s = .next t ∧
          fld (t.ctx ctx).dbg.dstat 0 2 = 1 ∧
          ((m = h.split.mask → ∃ k : Here, t.here? u = some k ∧ k.split.halted = false ∧ k.split.dstep = some m ∧ k.split.mask = m ∧ k.split.pc = h.split.pc) ∧
           (m ≠ h.split.mask → u.split < 4 → (Tbl.get? h.warp.splits 4) = none →
             ∃ k k' : Here, t.here? u = some k ∧ k.split.halted = true ∧ k.split.mask = h.split.mask &&& ~~~m ∧
               t.here? { u with split := 4 } = some k' ∧ k'.split.halted = false ∧ k'.split.debug = true ∧ k'.split.dstep = some m ∧ k'.split.mask = m ∧ k'.split.pc = h.split.pc)))) ∧
      (op = 4 → kind ≠ 12 → (h.split.halted = false → exec (.debugRead ctx cmd) s = .next (refused z 2)) ∧
        (h.split.halted = true → ∀ k : Here, z.here? u = some k →
          (debugValue z k kind (fld d.dsel 8 16) (fld d.dsel 24 6) = none → exec (.debugRead ctx cmd) s = .next (refused z 4)) ∧
          ∀ y v, debugValue z k kind (fld d.dsel 8 16) (fld d.dsel 24 6) = some (y, v) →
            exec (.debugRead ctx cmd) s = .next (finished (y.onDebug ctx fun d => { d with ddata := v })))) ∧
      (op = 5 → kind ≠ 12 → (h.split.halted = false → exec (.debugWrite ctx cmd) s = .next (refused z 2)) ∧
        (h.split.halted = true → ∀ k : Here, z.here? u = some k →
          (debugPut z k kind (fld d.dsel 8 16) (fld d.dsel 24 6) d.ddata = none → exec (.debugWrite ctx cmd) s = .next (refused z 4)) ∧
          ∀ y, debugPut z k kind (fld d.dsel 8 16) (fld d.dsel 24 6) d.ddata = some y → exec (.debugWrite ctx cmd) s = .next (finished y))) ∧
      (kind = 12 → h.split.halted = true → ∀ i, (op = 4 ∧ i = Instr.debugRead ctx cmd) ∨ (op = 5 ∧ i = .debugWrite ctx cmd) →
        let off := d.ddata.toNat
        (off % 8 ≠ 0 ∨ h.crew.kern.scratch < off + 8 → exec i s = .next (refused z 4)) ∧
        (off % 8 = 0 → off + 8 ≤ h.crew.kern.scratch →
          (crewWaits z h.crew off 8 = true → exec i s = .next (z.onDebug ctx fun d => { d with dstat := 1 })) ∧
          (crewWaits z h.crew off 8 = false →
            (op = 4 → Claims.NoErrors s → exec i s = .next (finished (z.onDebug ctx fun d => { d with ddata := BitVec.ofNat 64 (bytesToNat
              (z.viewBytes (crewEngine u.crew h.crew) (.scratch h.crew.core) (h.crew.scratch + off) 8)) }))) ∧
            (op = 5 → ∃ t : State, exec i s = .next t ∧ fld (t.ctx ctx).dbg.dstat 0 2 = 2 ∧ t.crews = s.crews)))))

/-- R360, R362, R368, R369, R399, R448, R450 to R452, R454, R460, R463 to R466: registers of the aperture take the writes their rules allow and refuse the others; an invalidation completes when no access of its context is under way, and no TLB holds what it names; the fuse counter rises for a value signed by the vendor key alone; a port that goes down fails what was sent to a device that no port reaches; starts run the firmware that the vendor key verified; starts, trips and throttles leave the device as their rules say. The model's own: the codes and the bodies of SPDM answers, with the forms of their versions and algorithms (log entry 6), when an invalidation completes (log entry 18), that ready falls on a thermal trip (log entry 37), that a throttle takes the clock down one step and none takes it up (log entry 38), and what a start leaves of arrays that no rule names (log entry 39). -/
def Obligations.DeviceEvents : Prop :=
  (∀ (s : State) (ctl : W64),
    let d := s.dev
    let bad := fld ctl 12 52 ≠ 0 ∨ (fld ctl 6 4 = 0 ∧ bitAt ctl 10 = false)
    (d.istatus = 1 → exec (.translationInvalidate ctl) s = .next s) ∧
    (d.istatus ≠ 1 → bad → exec (.translationInvalidate ctl) s = .next { s with dev := { d with istatus := 3 } }) ∧
    (d.istatus ≠ 1 → ¬bad → exec (.translationInvalidate ctl) s =
      .next { s with dev := { d with ictl := ctl, istatus := if bitAt ctl 11 = true then 1 else d.istatus } })) ∧
  (∀ s : State, s.dev.istatus = 1 → (∀ e ∈ s.crews, usesMatching s.dev e.2 = false) → ∃ t : State, exec .invalidationComplete s = .next t ∧
    t.dev = { s.dev with istatus := 2 } ∧ t.crews = s.crews ∧ (∀ e ∈ t.cores, ∀ x ∈ e.2.tlb, x.matches s.dev = false) ∧
    (∀ e ∈ t.tlb2, ∀ x ∈ e.2, TlbEntry.matches x s.dev = false) ∧
    ∀ n x, x ∈ (s.core n).tlb → x.matches s.dev = false → x ∈ (t.core n).tlb) ∧
  (∀ (s : State) (ctx : Nat), ctx < 64 →
    exec (.faultClear ctx) s = .next (s.setCtx ctx { s.ctx ctx with fault := 0, fpc := 0 }) ∧
    exec (.mcheckClear ctx) s = .next (s.setCtx ctx { s.ctx ctx with mcheck := 0, maddr := 0 })) ∧
  (∀ (s : State) (ctx off : Nat) (v : W64) (c : Ctx), ctx < 64 →
    let old := s.ctx ctx
    (off = 0 ∧ c = { old with root := setFld v 1 1 (fld old.root 1 1) }) ∨ (off = 8 ∧ c = { old with pool := v }) ∨
      (off = 0x10 ∧ c = { old with psize := v }) ∨ (off = 0x18 ∧ c = { old with rtag := v }) ∨ (off = 0x20 ∧ c = { old with bspool := v }) ∨
      (off = 0x28 ∧ c = { old with bssize := v }) →
    let kept := c.root = old.root ∧ c.pool = old.pool ∧ c.psize = old.psize ∧ c.bspool = old.bspool ∧ c.bssize = old.bssize
    (entryOk s ctx c = true → (kept ∨ ctxInUse s ctx = false) → exec (.contextEntryWrite ctx off v) s = .next (s.setCtx ctx c)) ∧
    ((entryOk s ctx c = false ∨ (¬kept ∧ ctxInUse s ctx = true)) →
      exec (.contextEntryWrite ctx off v) s = .next { s with dev := { s.dev with refused := true } })) ∧
  (∀ (s : State) (b : Nat) (v : W64), b < 116 → exec (.injectionRegisterWrite b v) s =
    .next (if fld v 0 8 ∈ arrayIds then s.setErr b { s.err b with inj := v } else s)) ∧
  (∀ (s : State) (v : W64),
    (let fine := fld v 10 54 = 0 ∧ (fld v 0 10 < 576 ∨ fld v 0 10 = 1023) ∧ s.crews = []
     (fine → exec (.domainIdWrite v) s = .next { s with dev := { s.dev with domain := v.setWidth 10 } }) ∧
     (¬fine → exec (.domainIdWrite v) s = .next { s with dev := { s.dev with refused := true } })) ∧
    exec .astatClear s = .next { s with dev := { s.dev with refused := false } }) ∧
  (∀ s : State, let d := s.dev
    let ok := d.fuse.toNat < d.rvalue.toNat ∧ d.rvalue.toNat ≤ 255 ∧ ecdsaOk d.vendorKey (sha384 (raiseMessage d)) (raiseSig d) = true
    (ok → exec .fuseRaise s = .next { s with dev := { d with fuse := d.rvalue.setWidth 8, rstatus := 2, nonces := d.nonces + 1 } }) ∧
    (¬ok → exec .fuseRaise s = .next { s with dev := { d with rstatus := 3, nonces := d.nonces + 1 } })) ∧
  (∀ (s : State) (off : Nat) (v : W64),
    (off % 8 = 0 → off < 0x80 → off ∉ [0, 8, 0x10, 0x18, 0x20, 0x28, 0x30, 0x38, 0x40] → v ≠ 0 →
      exec (.registerWrite off v) s = .next { s with dev := { s.dev with refused := true } }) ∧
    (∀ x, (off = 0 ∧ x = fld v 0 16) ∨ (off = 8 ∧ x = fld v 32 32 + fld v 9 7 + fld v 1 7) ∨ (off = 0x18 ∧ x = fld v 8 56) ∨ (off = 0x38 ∧ x = fld v 18 46) →
      exec (.registerWrite off v) s = .next (if x = 0 then s else { s with dev := { s.dev with refused := true } })) ∧
    (off = 0x30 → 400 ≤ v.toNat → v.toNat ≤ 1600 → exec (.registerWrite off v) s = .next { s with dev := { s.dev with plimit := v.setWidth 16 } }) ∧
    (off = 0x30 → (v.toNat < 400 ∨ 1600 < v.toNat) → exec (.registerWrite off v) s = .next { s with dev := { s.dev with refused := true } }) ∧
    (∀ ctx, ctx < 64 → off = 0x20040 + 0x200 * ctx → fld v 0 3 = 0 → exec (.registerWrite off v) s = .next (s.setCtx ctx { s.ctx ctx with hacc := v })) ∧
    (∀ ctx, ctx < 64 → off = 0x20048 + 0x200 * ctx → fld v 0 3 = 0 → exec (.registerWrite off v) s = .next (s.setCtx ctx { s.ctx ctx with hexe := v })) ∧
    ∀ n, n < 1024 → off = 0x10010 + 64 * n → exec (.registerWrite off v) s = exec (.tailW n v) s) ∧
  (∀ (s : State) (v : W64),
    (fld v 2 62 ≠ 0 → exec (.goW v) s = .next { s with dev := { s.dev with refused := true } }) ∧
    (fld v 2 62 = 0 → bitAt v 1 = false → exec (.goW v) s = .next { s with dev := { s.dev with wnext := bitAt v 0 } }) ∧
    (fld v 2 62 = 0 → bitAt v 1 = true → exec (.goW v) s = exec .cxlReset { s with dev := { s.dev with wnext := bitAt v 0 } })) ∧
  (∀ s : State, let e := s.env
    let bad := e.fuseErr = true ∨ keyDigest e.fwKey ≠ s.dev.vendorFuse ∨ ecdsaOk e.fwKey (sha384 e.fw.image) e.fwSig = false ∨ e.fw.version < s.dev.fuse.toNat
    (∀ i ∈ [Instr.powerOn, .cxlReset, .conventionalReset], ∃ t : State, exec i s = .next t ∧ t.crews = [] ∧ t.loads = [] ∧ t.objects = [] ∧ t.launches = [] ∧
      t.queues = [] ∧ t.ctxs = [] ∧ t.tlb2 = [] ∧ t.dev.fuse = s.dev.fuse ∧ t.dev.warm ≤ (s.dev.wnext && i != .powerOn) ∧
      (bad → t.dev.ready = false ∧ t.dev.fail ≠ 0 ∧ t.dev.memActive = false ∧ t.dev.msix.getLsbD 0 = true) ∧
      (¬bad → selfTestFails e = false → e.trainBad = false → e.scrubBad = false → e.cxlBad = false →
        t.dev.ready = true ∧ t.dev.fail = 0 ∧ t.dev.memActive = true ∧ t.dev.fw = e.fw ∧ t.dev.vendorKey = e.fwKey ∧ t.dev.domain = 1023 ∧ (t.dev.warm = false → ∀ a, isDevice a = true → t.latest .phys a = 0))) ∧
    (∃ t : State, exec .powerLoss s = .next t ∧ t.crews = [] ∧ t.dev.ready = false ∧ t.dev.memActive = false ∧ t.dev.fuse = s.dev.fuse ∧
      ∀ a, isDevice a = true → t.latest .phys a = 0) ∧
    (∃ t : State, exec .thermalTrip s = .next t ∧ t.dev.trip = true ∧ t.dev.ready = false ∧ t.dev.msix.getLsbD 0 = true)) ∧
  (∀ (s : State) (power tj : Nat), tj < 2 ^ 16 → ∃ t : State, exec (.throttle power tj) s = .next t ∧ t.dev.tj.toNat = tj ∧
    (tj < 1840 → (s.dev.plimit.toNat < power ∨ 1680 ≤ tj) → 12 < s.dev.clock → t.dev.clock = s.dev.clock - 1 ∧ t.dev.throt = true) ∧
    (1840 ≤ tj → t.dev.trip = true ∧ t.dev.ready = false ∧ t.dev.msix.getLsbD 0 = true) ∧
    (power ≤ s.dev.plimit.toNat → tj < 1680 → t.dev.clock = s.dev.clock) ∧ t.crews = s.crews ∧ t.mem = s.mem) ∧
  (∀ (s : State) (p : Nat), p < 8 →
    let z := { s with dev := { s.dev with ports := s.dev.ports &&& ~~~(BitVec.twoPow 8 p) } }
    (∀ k ∈ s.cores, (∀ l ∈ k.2.late, reachable z l.dev = true) ∧ ∀ c ∈ k.2.cmds, c.sent = [] ∨ c.reached z = true) →
    let lost := s.crews.flatMap fun e => e.2.pairs.flatMap fun y => y.2.acc.loads.flatMap fun l =>
      if (∃ d ∈ l.remote, d ≠ s.dev.domain.toNat ∧ reachable z d = false) then l.lanes.map fun x => (e.1, y.1, l, x.lane) else []
    exec (.portDown p) s = .next (lost.foldl (fun s x => s.onPair x.1 x.2.1 fun y => deliverLane y x.2.2.1 x.2.2.2 0 true) z)) ∧
  ∀ (s : State) (r : SpdmReq), s.dev.ready = true →
    (r.secured = true → s.dev.session = false → exec (.spdmRequest r) s = .next s) ∧
    ((r.secured = true → s.dev.session = true) →
      (∀ l m, r.code = .installKeys l m → r.secured = false → exec (.spdmRequest r) s = .next s) ∧
      (∀ l m, r.code = .installKeys l m → r.secured = true → ∃ t : State, exec (.spdmRequest r) s = .next t ∧
        t.dev.linkKeys = (s.dev.linkKeys || l) ∧ t.dev.fabricKeys = (s.dev.fabricKeys || m)) ∧
      (r.code = .getMeasurements → exec (.spdmRequest r) s = .next { s with dev := { s.dev with
        spdm := Config.spdmBody 0xE0 r.param s.dev.sessions ++ measurementsOf s r.param.toNat } }) ∧
      (r.code = .getVersion → exec (.spdmRequest r) s = .next { s with dev := { s.dev with
        spdm := Config.spdmBody 0x84 r.param s.dev.sessions ++ [0x00, 0x12, 0x00, 0x13] } }) ∧
      (r.code = .negotiateAlgorithms → exec (.spdmRequest r) s = .next { s with dev := { s.dev with
        spdm := Config.spdmBody 0xE3 r.param s.dev.sessions ++ [0x80, 0, 0, 0, 0x02, 0, 0, 0] } }) ∧
      (r.code = .challenge →
        let m := Config.spdmBody 0x83 r.param s.dev.sessions ++ sha384 (certChain s.dev)
        exec (.spdmRequest r) s = .next { s with dev := { s.dev with spdm := m ++ identitySign s.dev m } }) ∧
      (r.code = .keyExchange → ∃ t : State, exec (.spdmRequest r) s = .next t ∧ t.dev.session = false ∧ t.dev.sessions = s.dev.sessions + 1) ∧
      (r.code = .finish → Config.finishOk s.dev.sessions r.proof = true → ∃ t : State, exec (.spdmRequest r) s = .next t ∧ t.dev.session = true))
end

