-- ==== Sys2Proof/Laws/Store.lean ====
section
/-! SUPPORT. Laws of the two containers: what a read gives after a write, for every list, and that writing keeps the canonical form. -/
namespace Sys2Proof.Machine

/-! ### Cells -/

theorem Cells.get_nil {w : Nat} (k : Nat) : Cells.get ([] : Cells w) k = 0 := rfl

theorem Cells.get_insert_same {w : Nat} (m : Cells w) (k : Nat) (x : BitVec w) (h : ∀ e ∈ m, e.1 ≠ k) :
    (m.insert k x).get k = x := by
  induction m with
  | nil => simp [Cells.insert, Cells.get]
  | cons e r ih =>
    obtain ⟨a, y⟩ := e
    have ha : a ≠ k := h (a, y) (by simp)
    simp only [Cells.insert]
    split
    · simp [Cells.get]
    · simp [Cells.get, ha, ih fun e he => h e (by simp [he])]

theorem Cells.get_insert_other {w : Nat} (m : Cells w) (k j : Nat) (x : BitVec w) (h : j ≠ k) :
    (m.insert k x).get j = m.get j := by
  induction m with
  | nil => simp [Cells.insert, Cells.get, Ne.symm h]
  | cons e r ih =>
    obtain ⟨a, y⟩ := e
    simp only [Cells.insert]
    split
    · simp [Cells.get, Ne.symm h]
    · simp [Cells.get, ih]

theorem Cells.get_filter_other {w : Nat} (m : Cells w) (k j : Nat) (h : j ≠ k) :
    Cells.get (m.filter fun e => e.1 != k) j = m.get j := by
  induction m with
  | nil => rfl
  | cons e r ih =>
    obtain ⟨a, y⟩ := e
    by_cases ha : a = k
    · subst ha; simp [Cells.get, Ne.symm h, ih]
    · simp [ha, Cells.get, ih]

theorem Cells.get_of_absent {w : Nat} (m : Cells w) (k : Nat) (h : ∀ e ∈ m, e.1 ≠ k) : m.get k = 0 := by
  induction m with
  | nil => rfl
  | cons e r ih =>
    obtain ⟨a, y⟩ := e
    have ha : a ≠ k := h (a, y) (by simp)
    simp [Cells.get, ha, ih fun e he => h e (by simp [he])]

theorem Cells.absent_filter {w : Nat} (m : Cells w) (k : Nat) : ∀ e ∈ m.filter (fun e => e.1 != k), e.1 ≠ k := by
  intro e he
  simpa using (List.mem_filter.mp he).2

/-- A cell reads as it was last written. -/
@[simp] theorem Cells.get_set_same {w : Nat} (m : Cells w) (k : Nat) (x : BitVec w) : (m.set k x).get k = x := by
  simp only [Cells.set]
  split
  · rename_i h; rw [Cells.get_of_absent _ _ (Cells.absent_filter m k), h]
  · exact Cells.get_insert_same _ _ _ (Cells.absent_filter m k)

/-- A write leaves every other cell alone. -/
theorem Cells.get_set_other {w : Nat} (m : Cells w) {k j : Nat} (x : BitVec w) (h : j ≠ k) : (m.set k x).get j = m.get j := by
  simp only [Cells.set]
  split
  · exact Cells.get_filter_other m k j h
  · rw [Cells.get_insert_other _ _ _ _ h, Cells.get_filter_other m k j h]

/-- What a cell reads after a write. -/
theorem Cells.get_set {w : Nat} (m : Cells w) (k j : Nat) (x : BitVec w) :
    (m.set k x).get j = if j = k then x else m.get j := by
  by_cases h : j = k
  · subst h; simp
  · simp [h, Cells.get_set_other m x h]

/-- What a cell reads after a run is written. -/
theorem Cells.get_setList {w : Nat} (xs : List (BitVec w)) (m : Cells w) (k j : Nat) :
    (m.setList k xs).get j = if k ≤ j ∧ j < k + xs.length then xs.getD (j - k) 0 else m.get j := by
  induction xs generalizing m k with
  | nil =>
    have : ¬(k ≤ j ∧ j < k) := by omega
    simp [Cells.setList, this]
  | cons x xs ih =>
    rw [Cells.setList, ih, Cells.get_set]
    by_cases h1 : j = k
    · subst h1
      have h2 : ¬(j + 1 ≤ j ∧ j < j + 1 + xs.length) := by omega
      have h3 : j ≤ j ∧ j < j + (x :: xs).length := by simp
      rw [if_neg h2, if_pos h3]; simp
    · by_cases h2 : k + 1 ≤ j ∧ j < k + 1 + xs.length
      · have h3 : k ≤ j ∧ j < k + (x :: xs).length := by simp; omega
        rw [if_pos h2, if_pos h3]
        have h4 : j - k = (j - (k + 1)) + 1 := by omega
        rw [h4]; simp
      · have h3 : ¬(k ≤ j ∧ j < k + (x :: xs).length) := by simp; omega
        rw [if_neg h2, if_neg h3, if_neg h1]

theorem Cells.above_mono {w : Nat} (m : Cells w) {a b : Nat} (h : a ≤ b) (hm : m.above b = true) : m.above a = true := by
  cases m with
  | nil => rfl
  | cons e r =>
    obtain ⟨c, y⟩ := e
    simp only [Cells.above, Bool.and_eq_true, decide_eq_true_eq] at hm ⊢
    exact ⟨⟨by omega, hm.1.2⟩, hm.2⟩

theorem Cells.above_filter {w : Nat} (m : Cells w) (p : Nat × BitVec w → Bool) (lo : Nat) (h : m.above lo = true) :
    Cells.above lo (m.filter p) = true := by
  induction m generalizing lo with
  | nil => rfl
  | cons e r ih =>
    obtain ⟨a, y⟩ := e
    simp only [Cells.above, Bool.and_eq_true, decide_eq_true_eq] at h
    rw [List.filter_cons]
    split
    · simp only [Cells.above, Bool.and_eq_true, decide_eq_true_eq]
      exact ⟨h.1, ih _ h.2⟩
    · exact Cells.above_mono _ (by omega) (ih _ h.2)

theorem Cells.above_insert {w : Nat} (m : Cells w) (k : Nat) (x : BitVec w) (lo : Nat) (h : m.above lo = true) (hk : lo ≤ k)
    (hx : x ≠ 0) (ha : ∀ e ∈ m, e.1 ≠ k) : (m.insert k x).above lo = true := by
  induction m generalizing lo with
  | nil => simp [Cells.insert, Cells.above, hk]; exact hx
  | cons e r ih =>
    obtain ⟨a, y⟩ := e
    have hne : a ≠ k := ha (a, y) (by simp)
    simp only [Cells.above, Bool.and_eq_true, decide_eq_true_eq] at h
    simp only [Cells.insert]
    split
    · simp only [Cells.above, Bool.and_eq_true, decide_eq_true_eq]
      exact ⟨⟨hk, by simpa using hx⟩, ⟨by omega, h.1.2⟩, h.2⟩
    · simp only [Cells.above, Bool.and_eq_true, decide_eq_true_eq]
      exact ⟨h.1, ih _ h.2 (by omega) fun e he => ha e (by simp [he])⟩

/-- Writing a cell keeps the canonical form. -/
theorem Cells.wf_set {w : Nat} (m : Cells w) (k : Nat) (x : BitVec w) (h : m.wf = true) : (m.set k x).wf = true := by
  simp only [Cells.set]
  split
  · exact Cells.above_filter _ _ _ h
  · exact Cells.above_insert _ _ _ _ (Cells.above_filter _ _ _ h) (Nat.zero_le _) (by assumption) (Cells.absent_filter m k)

/-- Writing a run keeps the canonical form. -/
theorem Cells.wf_setList {w : Nat} (xs : List (BitVec w)) (m : Cells w) (k : Nat) (h : m.wf = true) : (m.setList k xs).wf = true := by
  induction xs generalizing m k with
  | nil => exact h
  | cons x xs ih => exact ih _ _ (Cells.wf_set m k x h)

/-- Keeping some cells keeps the canonical form. -/
theorem Cells.wf_keep {w : Nat} (m : Cells w) (p : Nat → Bool) (h : m.wf = true) : (m.keep p).wf = true :=
  Cells.above_filter _ _ _ h

/-- The operations on memory keep its canonical form. -/
theorem Memory.wf_setList (m : Mem) (a : Nat) (xs : List Byte) (h : Memory.wf m = true) : Memory.wf (Cells.setList m a xs) = true :=
  Cells.wf_setList xs m a h

theorem Memory.wf_keep (m : Mem) (p : Nat → Bool) (h : Memory.wf m = true) : Memory.wf (Cells.keep m p) = true :=
  Cells.wf_keep m p h

/-! ### Tables -/

/-- A record reads as it was last put. -/
@[simp] theorem Tbl.get?_set_same {α : Type} (t : Tbl α) (k : Nat) (x : α) : Tbl.get? (Tbl.set t k x) k = some x := by
  induction t with
  | nil => simp [Tbl.set, Tbl.get?]
  | cons e r ih =>
    obtain ⟨a, y⟩ := e
    simp only [Tbl.set]
    split
    · simp [Tbl.get?]
    · split
      · simp [Tbl.get?]
      · rename_i h1 h2
        have h3 : ¬a = k := fun h => h2 h.symm
        have h4 : ¬k < a := h1
        simp [Tbl.get?, h3, h4, ih]

/-- A put leaves every other record alone. -/
theorem Tbl.get?_set_other {α : Type} (t : Tbl α) {k j : Nat} (x : α) (h : j ≠ k) : Tbl.get? (Tbl.set t k x) j = Tbl.get? t j := by
  induction t with
  | nil => simp [Tbl.set, Tbl.get?, Ne.symm h]
  | cons e r ih =>
    obtain ⟨a, y⟩ := e
    simp only [Tbl.set]
    split
    · rename_i h1
      simp only [Tbl.get?, Ne.symm h, if_false]
      split
      · rename_i h2
        have h3 : ¬a = j := by omega
        have h4 : j < a := by omega
        simp [h3, h4]
      · rfl
    · split
      · rename_i h1 h2
        subst h2
        simp [Tbl.get?, Ne.symm h]
      · simp [Tbl.get?, ih]

/-- What a table gives after a put. -/
theorem Tbl.get?_set {α : Type} (t : Tbl α) (k j : Nat) (x : α) :
    Tbl.get? (Tbl.set t k x) j = if j = k then some x else Tbl.get? t j := by
  by_cases h : j = k
  · subst h; simp
  · simp [h, Tbl.get?_set_other t x h]

end Sys2Proof.Machine
end

