-- ==== Sys2Proof/Laws/State.lean ====
section
/-! SUPPORT. What each update of the state, and of the view an instruction works on, leaves alone and what it gives back: true by unfolding, used as simplification rules. -/
namespace Sys2Proof.Machine

/-! ### Updates of the state -/

@[simp] theorem State.setCore_agenda (s : State) (n : Nat) (c : Core) : (s.setCore n c).agenda = s.agenda := rfl
@[simp] theorem State.setCore_cur (s : State) (n : Nat) (c : Core) : (s.setCore n c).cur = s.cur := rfl
@[simp] theorem State.setCore_mem (s : State) (n : Nat) (c : Core) : (s.setCore n c).mem = s.mem := rfl
@[simp] theorem State.setCore_wide (s : State) (n : Nat) (c : Core) : (s.setCore n c).wide = s.wide := rfl
@[simp] theorem State.setCore_dirty (s : State) (n : Nat) (c : Core) : (s.setCore n c).dirty = s.dirty := rfl
@[simp] theorem State.setCore_crews (s : State) (n : Nat) (c : Core) : (s.setCore n c).crews = s.crews := rfl
@[simp] theorem State.setCore_nextCrew (s : State) (n : Nat) (c : Core) : (s.setCore n c).nextCrew = s.nextCrew := rfl
@[simp] theorem State.setCore_ctxs (s : State) (n : Nat) (c : Core) : (s.setCore n c).ctxs = s.ctxs := rfl
@[simp] theorem State.setCore_queues (s : State) (n : Nat) (c : Core) : (s.setCore n c).queues = s.queues := rfl
@[simp] theorem State.setCore_launches (s : State) (n : Nat) (c : Core) : (s.setCore n c).launches = s.launches := rfl
@[simp] theorem State.setCore_nextLaunch (s : State) (n : Nat) (c : Core) : (s.setCore n c).nextLaunch = s.nextLaunch := rfl
@[simp] theorem State.setCore_tlb2 (s : State) (n : Nat) (c : Core) : (s.setCore n c).tlb2 = s.tlb2 := rfl
@[simp] theorem State.setCore_drawers (s : State) (n : Nat) (c : Core) : (s.setCore n c).drawers = s.drawers := rfl
@[simp] theorem State.setCore_kvOld (s : State) (n : Nat) (c : Core) : (s.setCore n c).kvOld = s.kvOld := rfl
@[simp] theorem State.setCore_pend (s : State) (n : Nat) (c : Core) : (s.setCore n c).pend = s.pend := rfl
@[simp] theorem State.setCore_errs (s : State) (n : Nat) (c : Core) : (s.setCore n c).errs = s.errs := rfl
@[simp] theorem State.setCore_faults (s : State) (n : Nat) (c : Core) : (s.setCore n c).faults = s.faults := rfl
@[simp] theorem State.setCore_loads (s : State) (n : Nat) (c : Core) : (s.setCore n c).loads = s.loads := rfl
@[simp] theorem State.setCore_nextLoad (s : State) (n : Nat) (c : Core) : (s.setCore n c).nextLoad = s.nextLoad := rfl
@[simp] theorem State.setCore_cache (s : State) (n : Nat) (c : Core) : (s.setCore n c).cache = s.cache := rfl
@[simp] theorem State.setCore_clock (s : State) (n : Nat) (c : Core) : (s.setCore n c).clock = s.clock := rfl
@[simp] theorem State.setCore_env (s : State) (n : Nat) (c : Core) : (s.setCore n c).env = s.env := rfl
@[simp] theorem State.setCore_dev (s : State) (n : Nat) (c : Core) : (s.setCore n c).dev = s.dev := rfl
@[simp] theorem State.setCore_l2 (s : State) (n : Nat) (c : Core) : (s.setCore n c).l2 = s.l2 := rfl
@[simp] theorem State.setCore_hostCopies (s : State) (n : Nat) (c : Core) : (s.setCore n c).hostCopies = s.hostCopies := rfl
@[simp] theorem State.setCore_held (s : State) (n : Nat) (c : Core) : (s.setCore n c).held = s.held := rfl
@[simp] theorem State.setCore_checks (s : State) (n : Nat) (c : Core) : (s.setCore n c).checks = s.checks := rfl
@[simp] theorem State.setCore_nextStore (s : State) (n : Nat) (c : Core) : (s.setCore n c).nextStore = s.nextStore := rfl
@[simp] theorem State.setCore_steps (s : State) (n : Nat) (c : Core) : (s.setCore n c).steps = s.steps := rfl
@[simp] theorem State.setCore_faultBits (s : State) (n : Nat) (c : Core) : (s.setCore n c).faultBits = s.faultBits := rfl
@[simp] theorem State.setCore_objects (s : State) (n : Nat) (c : Core) : (s.setCore n c).objects = s.objects := rfl
@[simp] theorem State.setCtx_agenda (s : State) (n : Nat) (c : Ctx) : (s.setCtx n c).agenda = s.agenda := rfl
@[simp] theorem State.setCtx_cur (s : State) (n : Nat) (c : Ctx) : (s.setCtx n c).cur = s.cur := rfl
@[simp] theorem State.setCtx_mem (s : State) (n : Nat) (c : Ctx) : (s.setCtx n c).mem = s.mem := rfl
@[simp] theorem State.setCtx_wide (s : State) (n : Nat) (c : Ctx) : (s.setCtx n c).wide = s.wide := rfl
@[simp] theorem State.setCtx_dirty (s : State) (n : Nat) (c : Ctx) : (s.setCtx n c).dirty = s.dirty := rfl
@[simp] theorem State.setCtx_cores (s : State) (n : Nat) (c : Ctx) : (s.setCtx n c).cores = s.cores := rfl
@[simp] theorem State.setCtx_crews (s : State) (n : Nat) (c : Ctx) : (s.setCtx n c).crews = s.crews := rfl
@[simp] theorem State.setCtx_nextCrew (s : State) (n : Nat) (c : Ctx) : (s.setCtx n c).nextCrew = s.nextCrew := rfl
@[simp] theorem State.setCtx_queues (s : State) (n : Nat) (c : Ctx) : (s.setCtx n c).queues = s.queues := rfl
@[simp] theorem State.setCtx_launches (s : State) (n : Nat) (c : Ctx) : (s.setCtx n c).launches = s.launches := rfl
@[simp] theorem State.setCtx_nextLaunch (s : State) (n : Nat) (c : Ctx) : (s.setCtx n c).nextLaunch = s.nextLaunch := rfl
@[simp] theorem State.setCtx_tlb2 (s : State) (n : Nat) (c : Ctx) : (s.setCtx n c).tlb2 = s.tlb2 := rfl
@[simp] theorem State.setCtx_drawers (s : State) (n : Nat) (c : Ctx) : (s.setCtx n c).drawers = s.drawers := rfl
@[simp] theorem State.setCtx_kvOld (s : State) (n : Nat) (c : Ctx) : (s.setCtx n c).kvOld = s.kvOld := rfl
@[simp] theorem State.setCtx_pend (s : State) (n : Nat) (c : Ctx) : (s.setCtx n c).pend = s.pend := rfl
@[simp] theorem State.setCtx_errs (s : State) (n : Nat) (c : Ctx) : (s.setCtx n c).errs = s.errs := rfl
@[simp] theorem State.setCtx_faults (s : State) (n : Nat) (c : Ctx) : (s.setCtx n c).faults = s.faults := rfl
@[simp] theorem State.setCtx_loads (s : State) (n : Nat) (c : Ctx) : (s.setCtx n c).loads = s.loads := rfl
@[simp] theorem State.setCtx_nextLoad (s : State) (n : Nat) (c : Ctx) : (s.setCtx n c).nextLoad = s.nextLoad := rfl
@[simp] theorem State.setCtx_cache (s : State) (n : Nat) (c : Ctx) : (s.setCtx n c).cache = s.cache := rfl
@[simp] theorem State.setCtx_clock (s : State) (n : Nat) (c : Ctx) : (s.setCtx n c).clock = s.clock := rfl
@[simp] theorem State.setCtx_env (s : State) (n : Nat) (c : Ctx) : (s.setCtx n c).env = s.env := rfl
@[simp] theorem State.setCtx_dev (s : State) (n : Nat) (c : Ctx) : (s.setCtx n c).dev = s.dev := rfl
@[simp] theorem State.setCtx_l2 (s : State) (n : Nat) (c : Ctx) : (s.setCtx n c).l2 = s.l2 := rfl
@[simp] theorem State.setCtx_hostCopies (s : State) (n : Nat) (c : Ctx) : (s.setCtx n c).hostCopies = s.hostCopies := rfl
@[simp] theorem State.setCtx_held (s : State) (n : Nat) (c : Ctx) : (s.setCtx n c).held = s.held := rfl
@[simp] theorem State.setCtx_checks (s : State) (n : Nat) (c : Ctx) : (s.setCtx n c).checks = s.checks := rfl
@[simp] theorem State.setCtx_nextStore (s : State) (n : Nat) (c : Ctx) : (s.setCtx n c).nextStore = s.nextStore := rfl
@[simp] theorem State.setCtx_steps (s : State) (n : Nat) (c : Ctx) : (s.setCtx n c).steps = s.steps := rfl
@[simp] theorem State.setCtx_faultBits (s : State) (n : Nat) (c : Ctx) : (s.setCtx n c).faultBits = s.faultBits := rfl
@[simp] theorem State.setCtx_objects (s : State) (n : Nat) (c : Ctx) : (s.setCtx n c).objects = s.objects := rfl
@[simp] theorem State.setErr_agenda (s : State) (n : Nat) (e : ErrBlock) : (s.setErr n e).agenda = s.agenda := rfl
@[simp] theorem State.setErr_cur (s : State) (n : Nat) (e : ErrBlock) : (s.setErr n e).cur = s.cur := rfl
@[simp] theorem State.setErr_mem (s : State) (n : Nat) (e : ErrBlock) : (s.setErr n e).mem = s.mem := rfl
@[simp] theorem State.setErr_wide (s : State) (n : Nat) (e : ErrBlock) : (s.setErr n e).wide = s.wide := rfl
@[simp] theorem State.setErr_dirty (s : State) (n : Nat) (e : ErrBlock) : (s.setErr n e).dirty = s.dirty := rfl
@[simp] theorem State.setErr_cores (s : State) (n : Nat) (e : ErrBlock) : (s.setErr n e).cores = s.cores := rfl
@[simp] theorem State.setErr_crews (s : State) (n : Nat) (e : ErrBlock) : (s.setErr n e).crews = s.crews := rfl
@[simp] theorem State.setErr_nextCrew (s : State) (n : Nat) (e : ErrBlock) : (s.setErr n e).nextCrew = s.nextCrew := rfl
@[simp] theorem State.setErr_ctxs (s : State) (n : Nat) (e : ErrBlock) : (s.setErr n e).ctxs = s.ctxs := rfl
@[simp] theorem State.setErr_queues (s : State) (n : Nat) (e : ErrBlock) : (s.setErr n e).queues = s.queues := rfl
@[simp] theorem State.setErr_launches (s : State) (n : Nat) (e : ErrBlock) : (s.setErr n e).launches = s.launches := rfl
@[simp] theorem State.setErr_nextLaunch (s : State) (n : Nat) (e : ErrBlock) : (s.setErr n e).nextLaunch = s.nextLaunch := rfl
@[simp] theorem State.setErr_tlb2 (s : State) (n : Nat) (e : ErrBlock) : (s.setErr n e).tlb2 = s.tlb2 := rfl
@[simp] theorem State.setErr_drawers (s : State) (n : Nat) (e : ErrBlock) : (s.setErr n e).drawers = s.drawers := rfl
@[simp] theorem State.setErr_kvOld (s : State) (n : Nat) (e : ErrBlock) : (s.setErr n e).kvOld = s.kvOld := rfl
@[simp] theorem State.setErr_pend (s : State) (n : Nat) (e : ErrBlock) : (s.setErr n e).pend = s.pend := rfl
@[simp] theorem State.setErr_faults (s : State) (n : Nat) (e : ErrBlock) : (s.setErr n e).faults = s.faults := rfl
@[simp] theorem State.setErr_loads (s : State) (n : Nat) (e : ErrBlock) : (s.setErr n e).loads = s.loads := rfl
@[simp] theorem State.setErr_nextLoad (s : State) (n : Nat) (e : ErrBlock) : (s.setErr n e).nextLoad = s.nextLoad := rfl
@[simp] theorem State.setErr_cache (s : State) (n : Nat) (e : ErrBlock) : (s.setErr n e).cache = s.cache := rfl
@[simp] theorem State.setErr_clock (s : State) (n : Nat) (e : ErrBlock) : (s.setErr n e).clock = s.clock := rfl
@[simp] theorem State.setErr_env (s : State) (n : Nat) (e : ErrBlock) : (s.setErr n e).env = s.env := rfl
@[simp] theorem State.setErr_dev (s : State) (n : Nat) (e : ErrBlock) : (s.setErr n e).dev = s.dev := rfl
@[simp] theorem State.setErr_l2 (s : State) (n : Nat) (e : ErrBlock) : (s.setErr n e).l2 = s.l2 := rfl
@[simp] theorem State.setErr_hostCopies (s : State) (n : Nat) (e : ErrBlock) : (s.setErr n e).hostCopies = s.hostCopies := rfl
@[simp] theorem State.setErr_held (s : State) (n : Nat) (e : ErrBlock) : (s.setErr n e).held = s.held := rfl
@[simp] theorem State.setErr_checks (s : State) (n : Nat) (e : ErrBlock) : (s.setErr n e).checks = s.checks := rfl
@[simp] theorem State.setErr_nextStore (s : State) (n : Nat) (e : ErrBlock) : (s.setErr n e).nextStore = s.nextStore := rfl
@[simp] theorem State.setErr_steps (s : State) (n : Nat) (e : ErrBlock) : (s.setErr n e).steps = s.steps := rfl
@[simp] theorem State.setErr_faultBits (s : State) (n : Nat) (e : ErrBlock) : (s.setErr n e).faultBits = s.faultBits := rfl
@[simp] theorem State.setErr_objects (s : State) (n : Nat) (e : ErrBlock) : (s.setErr n e).objects = s.objects := rfl
@[simp] theorem State.setHq_agenda (s : State) (n : Nat) (q : HostQueue) : (s.setHq n q).agenda = s.agenda := rfl
@[simp] theorem State.setHq_cur (s : State) (n : Nat) (q : HostQueue) : (s.setHq n q).cur = s.cur := rfl
@[simp] theorem State.setHq_mem (s : State) (n : Nat) (q : HostQueue) : (s.setHq n q).mem = s.mem := rfl
@[simp] theorem State.setHq_wide (s : State) (n : Nat) (q : HostQueue) : (s.setHq n q).wide = s.wide := rfl
@[simp] theorem State.setHq_dirty (s : State) (n : Nat) (q : HostQueue) : (s.setHq n q).dirty = s.dirty := rfl
@[simp] theorem State.setHq_cores (s : State) (n : Nat) (q : HostQueue) : (s.setHq n q).cores = s.cores := rfl
@[simp] theorem State.setHq_crews (s : State) (n : Nat) (q : HostQueue) : (s.setHq n q).crews = s.crews := rfl
@[simp] theorem State.setHq_nextCrew (s : State) (n : Nat) (q : HostQueue) : (s.setHq n q).nextCrew = s.nextCrew := rfl
@[simp] theorem State.setHq_ctxs (s : State) (n : Nat) (q : HostQueue) : (s.setHq n q).ctxs = s.ctxs := rfl
@[simp] theorem State.setHq_launches (s : State) (n : Nat) (q : HostQueue) : (s.setHq n q).launches = s.launches := rfl
@[simp] theorem State.setHq_nextLaunch (s : State) (n : Nat) (q : HostQueue) : (s.setHq n q).nextLaunch = s.nextLaunch := rfl
@[simp] theorem State.setHq_tlb2 (s : State) (n : Nat) (q : HostQueue) : (s.setHq n q).tlb2 = s.tlb2 := rfl
@[simp] theorem State.setHq_drawers (s : State) (n : Nat) (q : HostQueue) : (s.setHq n q).drawers = s.drawers := rfl
@[simp] theorem State.setHq_kvOld (s : State) (n : Nat) (q : HostQueue) : (s.setHq n q).kvOld = s.kvOld := rfl
@[simp] theorem State.setHq_pend (s : State) (n : Nat) (q : HostQueue) : (s.setHq n q).pend = s.pend := rfl
@[simp] theorem State.setHq_errs (s : State) (n : Nat) (q : HostQueue) : (s.setHq n q).errs = s.errs := rfl
@[simp] theorem State.setHq_faults (s : State) (n : Nat) (q : HostQueue) : (s.setHq n q).faults = s.faults := rfl
@[simp] theorem State.setHq_loads (s : State) (n : Nat) (q : HostQueue) : (s.setHq n q).loads = s.loads := rfl
@[simp] theorem State.setHq_nextLoad (s : State) (n : Nat) (q : HostQueue) : (s.setHq n q).nextLoad = s.nextLoad := rfl
@[simp] theorem State.setHq_cache (s : State) (n : Nat) (q : HostQueue) : (s.setHq n q).cache = s.cache := rfl
@[simp] theorem State.setHq_clock (s : State) (n : Nat) (q : HostQueue) : (s.setHq n q).clock = s.clock := rfl
@[simp] theorem State.setHq_env (s : State) (n : Nat) (q : HostQueue) : (s.setHq n q).env = s.env := rfl
@[simp] theorem State.setHq_dev (s : State) (n : Nat) (q : HostQueue) : (s.setHq n q).dev = s.dev := rfl
@[simp] theorem State.setHq_l2 (s : State) (n : Nat) (q : HostQueue) : (s.setHq n q).l2 = s.l2 := rfl
@[simp] theorem State.setHq_hostCopies (s : State) (n : Nat) (q : HostQueue) : (s.setHq n q).hostCopies = s.hostCopies := rfl
@[simp] theorem State.setHq_held (s : State) (n : Nat) (q : HostQueue) : (s.setHq n q).held = s.held := rfl
@[simp] theorem State.setHq_checks (s : State) (n : Nat) (q : HostQueue) : (s.setHq n q).checks = s.checks := rfl
@[simp] theorem State.setHq_nextStore (s : State) (n : Nat) (q : HostQueue) : (s.setHq n q).nextStore = s.nextStore := rfl
@[simp] theorem State.setHq_steps (s : State) (n : Nat) (q : HostQueue) : (s.setHq n q).steps = s.steps := rfl
@[simp] theorem State.setHq_faultBits (s : State) (n : Nat) (q : HostQueue) : (s.setHq n q).faultBits = s.faultBits := rfl
@[simp] theorem State.setHq_objects (s : State) (n : Nat) (q : HostQueue) : (s.setHq n q).objects = s.objects := rfl
@[simp] theorem State.setCrew_agenda (s : State) (n : Nat) (c : Crew) : (s.setCrew n c).agenda = s.agenda := rfl
@[simp] theorem State.setCrew_cur (s : State) (n : Nat) (c : Crew) : (s.setCrew n c).cur = s.cur := rfl
@[simp] theorem State.setCrew_mem (s : State) (n : Nat) (c : Crew) : (s.setCrew n c).mem = s.mem := rfl
@[simp] theorem State.setCrew_wide (s : State) (n : Nat) (c : Crew) : (s.setCrew n c).wide = s.wide := rfl
@[simp] theorem State.setCrew_dirty (s : State) (n : Nat) (c : Crew) : (s.setCrew n c).dirty = s.dirty := rfl
@[simp] theorem State.setCrew_cores (s : State) (n : Nat) (c : Crew) : (s.setCrew n c).cores = s.cores := rfl
@[simp] theorem State.setCrew_nextCrew (s : State) (n : Nat) (c : Crew) : (s.setCrew n c).nextCrew = s.nextCrew := rfl
@[simp] theorem State.setCrew_ctxs (s : State) (n : Nat) (c : Crew) : (s.setCrew n c).ctxs = s.ctxs := rfl
@[simp] theorem State.setCrew_queues (s : State) (n : Nat) (c : Crew) : (s.setCrew n c).queues = s.queues := rfl
@[simp] theorem State.setCrew_launches (s : State) (n : Nat) (c : Crew) : (s.setCrew n c).launches = s.launches := rfl
@[simp] theorem State.setCrew_nextLaunch (s : State) (n : Nat) (c : Crew) : (s.setCrew n c).nextLaunch = s.nextLaunch := rfl
@[simp] theorem State.setCrew_tlb2 (s : State) (n : Nat) (c : Crew) : (s.setCrew n c).tlb2 = s.tlb2 := rfl
@[simp] theorem State.setCrew_drawers (s : State) (n : Nat) (c : Crew) : (s.setCrew n c).drawers = s.drawers := rfl
@[simp] theorem State.setCrew_kvOld (s : State) (n : Nat) (c : Crew) : (s.setCrew n c).kvOld = s.kvOld := rfl
@[simp] theorem State.setCrew_pend (s : State) (n : Nat) (c : Crew) : (s.setCrew n c).pend = s.pend := rfl
@[simp] theorem State.setCrew_errs (s : State) (n : Nat) (c : Crew) : (s.setCrew n c).errs = s.errs := rfl
@[simp] theorem State.setCrew_faults (s : State) (n : Nat) (c : Crew) : (s.setCrew n c).faults = s.faults := rfl
@[simp] theorem State.setCrew_loads (s : State) (n : Nat) (c : Crew) : (s.setCrew n c).loads = s.loads := rfl
@[simp] theorem State.setCrew_nextLoad (s : State) (n : Nat) (c : Crew) : (s.setCrew n c).nextLoad = s.nextLoad := rfl
@[simp] theorem State.setCrew_cache (s : State) (n : Nat) (c : Crew) : (s.setCrew n c).cache = s.cache := rfl
@[simp] theorem State.setCrew_clock (s : State) (n : Nat) (c : Crew) : (s.setCrew n c).clock = s.clock := rfl
@[simp] theorem State.setCrew_env (s : State) (n : Nat) (c : Crew) : (s.setCrew n c).env = s.env := rfl
@[simp] theorem State.setCrew_dev (s : State) (n : Nat) (c : Crew) : (s.setCrew n c).dev = s.dev := rfl
@[simp] theorem State.setCrew_l2 (s : State) (n : Nat) (c : Crew) : (s.setCrew n c).l2 = s.l2 := rfl
@[simp] theorem State.setCrew_hostCopies (s : State) (n : Nat) (c : Crew) : (s.setCrew n c).hostCopies = s.hostCopies := rfl
@[simp] theorem State.setCrew_held (s : State) (n : Nat) (c : Crew) : (s.setCrew n c).held = s.held := rfl
@[simp] theorem State.setCrew_checks (s : State) (n : Nat) (c : Crew) : (s.setCrew n c).checks = s.checks := rfl
@[simp] theorem State.setCrew_nextStore (s : State) (n : Nat) (c : Crew) : (s.setCrew n c).nextStore = s.nextStore := rfl
@[simp] theorem State.setCrew_steps (s : State) (n : Nat) (c : Crew) : (s.setCrew n c).steps = s.steps := rfl
@[simp] theorem State.setCrew_faultBits (s : State) (n : Nat) (c : Crew) : (s.setCrew n c).faultBits = s.faultBits := rfl
@[simp] theorem State.setCrew_objects (s : State) (n : Nat) (c : Crew) : (s.setCrew n c).objects = s.objects := rfl
@[simp] theorem State.put_agenda (s : State) (h : Here) : (s.put h).agenda = s.agenda := rfl
@[simp] theorem State.put_cur (s : State) (h : Here) : (s.put h).cur = s.cur := rfl
@[simp] theorem State.put_mem (s : State) (h : Here) : (s.put h).mem = s.mem := rfl
@[simp] theorem State.put_wide (s : State) (h : Here) : (s.put h).wide = s.wide := rfl
@[simp] theorem State.put_dirty (s : State) (h : Here) : (s.put h).dirty = s.dirty := rfl
@[simp] theorem State.put_cores (s : State) (h : Here) : (s.put h).cores = s.cores := rfl
@[simp] theorem State.put_nextCrew (s : State) (h : Here) : (s.put h).nextCrew = s.nextCrew := rfl
@[simp] theorem State.put_ctxs (s : State) (h : Here) : (s.put h).ctxs = s.ctxs := rfl
@[simp] theorem State.put_queues (s : State) (h : Here) : (s.put h).queues = s.queues := rfl
@[simp] theorem State.put_launches (s : State) (h : Here) : (s.put h).launches = s.launches := rfl
@[simp] theorem State.put_nextLaunch (s : State) (h : Here) : (s.put h).nextLaunch = s.nextLaunch := rfl
@[simp] theorem State.put_tlb2 (s : State) (h : Here) : (s.put h).tlb2 = s.tlb2 := rfl
@[simp] theorem State.put_drawers (s : State) (h : Here) : (s.put h).drawers = s.drawers := rfl
@[simp] theorem State.put_kvOld (s : State) (h : Here) : (s.put h).kvOld = s.kvOld := rfl
@[simp] theorem State.put_pend (s : State) (h : Here) : (s.put h).pend = s.pend := rfl
@[simp] theorem State.put_errs (s : State) (h : Here) : (s.put h).errs = s.errs := rfl
@[simp] theorem State.put_faults (s : State) (h : Here) : (s.put h).faults = s.faults := rfl
@[simp] theorem State.put_loads (s : State) (h : Here) : (s.put h).loads = s.loads := rfl
@[simp] theorem State.put_nextLoad (s : State) (h : Here) : (s.put h).nextLoad = s.nextLoad := rfl
@[simp] theorem State.put_cache (s : State) (h : Here) : (s.put h).cache = s.cache := rfl
@[simp] theorem State.put_clock (s : State) (h : Here) : (s.put h).clock = s.clock := rfl
@[simp] theorem State.put_env (s : State) (h : Here) : (s.put h).env = s.env := rfl
@[simp] theorem State.put_dev (s : State) (h : Here) : (s.put h).dev = s.dev := rfl
@[simp] theorem State.put_l2 (s : State) (h : Here) : (s.put h).l2 = s.l2 := rfl
@[simp] theorem State.put_hostCopies (s : State) (h : Here) : (s.put h).hostCopies = s.hostCopies := rfl
@[simp] theorem State.put_held (s : State) (h : Here) : (s.put h).held = s.held := rfl
@[simp] theorem State.put_checks (s : State) (h : Here) : (s.put h).checks = s.checks := rfl
@[simp] theorem State.put_nextStore (s : State) (h : Here) : (s.put h).nextStore = s.nextStore := rfl
@[simp] theorem State.put_steps (s : State) (h : Here) : (s.put h).steps = s.steps := rfl
@[simp] theorem State.put_faultBits (s : State) (h : Here) : (s.put h).faultBits = s.faultBits := rfl
@[simp] theorem State.put_objects (s : State) (h : Here) : (s.put h).objects = s.objects := rfl

@[simp] theorem State.core_setCore (s : State) (n : Nat) (c : Core) : (s.setCore n c).core n = c := by
  simp [State.core, State.setCore]
theorem State.core_setCore_other (s : State) {n m : Nat} (c : Core) (h : m ≠ n) : (s.setCore n c).core m = s.core m := by
  simp [State.core, State.setCore, Tbl.get?_set_other s.cores c h]
@[simp] theorem State.ctx_setCtx (s : State) (n : Nat) (c : Ctx) : (s.setCtx n c).ctx n = c := by
  simp [State.ctx, State.setCtx]
theorem State.ctx_setCtx_other (s : State) {n m : Nat} (c : Ctx) (h : m ≠ n) : (s.setCtx n c).ctx m = s.ctx m := by
  simp [State.ctx, State.setCtx, Tbl.get?_set_other s.ctxs c h]
@[simp] theorem State.err_setErr (s : State) (n : Nat) (e : ErrBlock) : (s.setErr n e).err n = e := by
  simp [State.err, State.setErr]
@[simp] theorem State.hq_setHq (s : State) (n : Nat) (q : HostQueue) : (s.setHq n q).hq n = q := by
  simp [State.hq, State.setHq]
@[simp] theorem State.crew?_setCrew (s : State) (n : Nat) (c : Crew) : (s.setCrew n c).crew? n = some c := by
  simp [State.crew?, State.setCrew]
@[simp] theorem State.core_put (s : State) (h : Here) (n : Nat) : (s.put h).core n = s.core n := rfl
@[simp] theorem State.ctx_put (s : State) (h : Here) (n : Nat) : (s.put h).ctx n = s.ctx n := rfl
@[simp] theorem State.err_put (s : State) (h : Here) (n : Nat) : (s.put h).err n = s.err n := rfl
@[simp] theorem State.hq_put (s : State) (h : Here) (n : Nat) : (s.put h).hq n = s.hq n := rfl
@[simp] theorem State.crew?_put (s : State) (h : Here) : (s.put h).crew? h.u.crew = some h.joined := by
  simp [State.crew?, State.put]
theorem State.crew?_put_other (s : State) (h : Here) {c : Nat} (hc : c ≠ h.u.crew) : (s.put h).crew? c = s.crew? c := by
  simp [State.crew?, State.put, Tbl.get?_set_other s.crews h.joined hc]

/-! ### The view of a split -/

@[simp] theorem Pair.warp_setWarp (p : Pair) (sl : Slice) (w : Warp) : (p.setWarp sl w).warp sl = w := by
  cases sl <;> rfl

/-- A view that is put back reads as it was put, with the split in its warp's table and the warp in its pair. -/
theorem State.here?_put (s : State) (h : Here) (hs : h.crew.saved.isSome = false) :
    (s.put h).here? h.u = some
      { h with
        crew := h.joined,
        pair := h.pair.setWarp h.u.slice { h.warp with splits := Tbl.set h.warp.splits h.u.split h.split },
        warp := { h.warp with splits := Tbl.set h.warp.splits h.u.split h.split } } := by
  simp [State.here?, State.put, Here.joined, hs]

/-- What a view of a split is made of. -/
theorem State.here?_parts {s : State} {u : UnitRef} {h : Here} (hh : s.here? u = some h) :
    h.u = u ∧ Tbl.get? s.crews u.crew = some h.crew ∧ Tbl.get? h.crew.pairs u.pair = some h.pair ∧ h.warp = h.pair.warp u.slice ∧
      Tbl.get? h.warp.splits u.split = some h.split ∧ h.crew.saved = none := by
  unfold State.here? at hh
  split at hh
  · cases hh
  · split at hh
    · cases hh
    · split at hh
      · cases hh
      · split at hh
        · cases hh
        · cases hh
          refine ⟨rfl, by assumption, by assumption, rfl, by assumption, ?_⟩
          exact Option.not_isSome_iff_eq_none.mp ‹¬_›

@[simp] theorem Here.advance_u (h : Here) (n : Nat) : (h.advance n).u = h.u := rfl
@[simp] theorem Here.advance_crew (h : Here) (n : Nat) : (h.advance n).crew = h.crew := rfl
@[simp] theorem Here.advance_pair (h : Here) (n : Nat) : (h.advance n).pair = h.pair := rfl
@[simp] theorem Here.advance_warp (h : Here) (n : Nat) : (h.advance n).warp = h.warp := rfl
@[simp] theorem Here.advance_pc (h : Here) (n : Nat) : (h.advance n).split.pc = h.split.pc + BitVec.ofNat 64 n := rfl
@[simp] theorem Here.advance_split_mask (h : Here) (n : Nat) : (h.advance n).split.mask = h.split.mask := rfl
@[simp] theorem Here.advance_split_born (h : Here) (n : Nat) : (h.advance n).split.born = h.split.born := rfl
@[simp] theorem Here.advance_split_stack (h : Here) (n : Nat) : (h.advance n).split.stack = h.split.stack := rfl
@[simp] theorem Here.advance_split_lat (h : Here) (n : Nat) : (h.advance n).split.lat = h.split.lat := rfl
@[simp] theorem Here.advance_split_wait (h : Here) (n : Nat) : (h.advance n).split.wait = h.split.wait := rfl
@[simp] theorem Here.advance_split_record (h : Here) (n : Nat) : (h.advance n).split.record = h.split.record := rfl
@[simp] theorem Here.advance_split_mc (h : Here) (n : Nat) : (h.advance n).split.mc = h.split.mc := rfl
@[simp] theorem Here.advance_split_ahead (h : Here) (n : Nat) : (h.advance n).split.ahead = h.split.ahead := rfl
@[simp] theorem Here.advance_split_readyAt (h : Here) (n : Nat) : (h.advance n).split.readyAt = h.split.readyAt := rfl
@[simp] theorem Here.advance_split_issued (h : Here) (n : Nat) : (h.advance n).split.issued = h.split.issued := rfl
@[simp] theorem Here.advance_split_boosted (h : Here) (n : Nat) : (h.advance n).split.boosted = h.split.boosted := rfl
@[simp] theorem Here.advance_split_halted (h : Here) (n : Nat) : (h.advance n).split.halted = h.split.halted := rfl
@[simp] theorem Here.advance_split_debug (h : Here) (n : Nat) : (h.advance n).split.debug = h.split.debug := rfl
@[simp] theorem Here.advance_split_dstep (h : Here) (n : Nat) : (h.advance n).split.dstep = h.split.dstep := rfl
@[simp] theorem Here.advance_split_skip (h : Here) (n : Nat) : (h.advance n).split.skip = h.split.skip := rfl
@[simp] theorem Here.advance_split_step (h : Here) (n : Nat) : (h.advance n).split.step = h.split.step := rfl
@[simp] theorem Here.advance_split_stepDue (h : Here) (n : Nat) : (h.advance n).split.stepDue = h.split.stepDue := rfl
@[simp] theorem Here.advance_split_preqTrap (h : Here) (n : Nat) : (h.advance n).split.preqTrap = h.split.preqTrap := rfl
@[simp] theorem Here.advance_split_inside (h : Here) (n : Nat) : (h.advance n).split.inside = h.split.inside := rfl
@[simp] theorem Here.advance_split_skipCtl (h : Here) (n : Nat) : (h.advance n).split.skipCtl = h.split.skipCtl := rfl
@[simp] theorem Here.advance_split_parent (h : Here) (n : Nat) : (h.advance n).split.parent = h.split.parent := rfl
@[simp] theorem Here.advance_split_flight (h : Here) (n : Nat) : (h.advance n).split.flight = h.split.flight := rfl
@[simp] theorem Here.advance_split_fences (h : Here) (n : Nat) : (h.advance n).split.fences = h.split.fences := rfl
@[simp] theorem Here.setQueue_u (h : Here) (n : Nat) (q : Queue) : (h.setQueue n q).u = h.u := rfl
@[simp] theorem Here.setQueue_crew (h : Here) (n : Nat) (q : Queue) : (h.setQueue n q).crew = h.crew := rfl
@[simp] theorem Here.setQueue_warp (h : Here) (n : Nat) (q : Queue) : (h.setQueue n q).warp = h.warp := rfl
@[simp] theorem Here.setQueue_split (h : Here) (n : Nat) (q : Queue) : (h.setQueue n q).split = h.split := rfl
@[simp] theorem Here.latch_u (h : Here) (v : Cells 64) : (h.latch v).u = h.u := by unfold Here.latch; split <;> rfl
@[simp] theorem Here.latch_crew (h : Here) (v : Cells 64) : (h.latch v).crew = h.crew := by unfold Here.latch; split <;> rfl
@[simp] theorem Here.latch_pair (h : Here) (v : Cells 64) : (h.latch v).pair = h.pair := by unfold Here.latch; split <;> rfl
@[simp] theorem Here.latch_warp (h : Here) (v : Cells 64) : (h.latch v).warp = h.warp := by unfold Here.latch; split <;> rfl
@[simp] theorem Here.latch_split_pc (h : Here) (v : Cells 64) : (h.latch v).split.pc = h.split.pc := by unfold Here.latch; split <;> rfl
@[simp] theorem Here.latch_split_mask (h : Here) (v : Cells 64) : (h.latch v).split.mask = h.split.mask := by unfold Here.latch; split <;> rfl
@[simp] theorem Here.latch_split_born (h : Here) (v : Cells 64) : (h.latch v).split.born = h.split.born := by unfold Here.latch; split <;> rfl
@[simp] theorem Here.latch_split_stack (h : Here) (v : Cells 64) : (h.latch v).split.stack = h.split.stack := by unfold Here.latch; split <;> rfl
@[simp] theorem Here.latch_split_wait (h : Here) (v : Cells 64) : (h.latch v).split.wait = h.split.wait := by unfold Here.latch; split <;> rfl
@[simp] theorem Here.latch_split_record (h : Here) (v : Cells 64) : (h.latch v).split.record = h.split.record := by unfold Here.latch; split <;> rfl
@[simp] theorem Here.latch_split_mc (h : Here) (v : Cells 64) : (h.latch v).split.mc = h.split.mc := by unfold Here.latch; split <;> rfl
@[simp] theorem Here.latch_split_ahead (h : Here) (v : Cells 64) : (h.latch v).split.ahead = h.split.ahead := by unfold Here.latch; split <;> rfl
@[simp] theorem Here.latch_split_readyAt (h : Here) (v : Cells 64) : (h.latch v).split.readyAt = h.split.readyAt := by unfold Here.latch; split <;> rfl
@[simp] theorem Here.latch_split_issued (h : Here) (v : Cells 64) : (h.latch v).split.issued = h.split.issued := by unfold Here.latch; split <;> rfl
@[simp] theorem Here.latch_split_boosted (h : Here) (v : Cells 64) : (h.latch v).split.boosted = h.split.boosted := by unfold Here.latch; split <;> rfl
@[simp] theorem Here.latch_split_halted (h : Here) (v : Cells 64) : (h.latch v).split.halted = h.split.halted := by unfold Here.latch; split <;> rfl
@[simp] theorem Here.latch_split_debug (h : Here) (v : Cells 64) : (h.latch v).split.debug = h.split.debug := by unfold Here.latch; split <;> rfl
@[simp] theorem Here.latch_split_dstep (h : Here) (v : Cells 64) : (h.latch v).split.dstep = h.split.dstep := by unfold Here.latch; split <;> rfl
@[simp] theorem Here.latch_split_skip (h : Here) (v : Cells 64) : (h.latch v).split.skip = h.split.skip := by unfold Here.latch; split <;> rfl
@[simp] theorem Here.latch_split_step (h : Here) (v : Cells 64) : (h.latch v).split.step = h.split.step := by unfold Here.latch; split <;> rfl
@[simp] theorem Here.latch_split_stepDue (h : Here) (v : Cells 64) : (h.latch v).split.stepDue = h.split.stepDue := by unfold Here.latch; split <;> rfl
@[simp] theorem Here.latch_split_preqTrap (h : Here) (v : Cells 64) : (h.latch v).split.preqTrap = h.split.preqTrap := by unfold Here.latch; split <;> rfl
@[simp] theorem Here.latch_split_inside (h : Here) (v : Cells 64) : (h.latch v).split.inside = h.split.inside := by unfold Here.latch; split <;> rfl
@[simp] theorem Here.latch_split_skipCtl (h : Here) (v : Cells 64) : (h.latch v).split.skipCtl = h.split.skipCtl := by unfold Here.latch; split <;> rfl
@[simp] theorem Here.latch_split_parent (h : Here) (v : Cells 64) : (h.latch v).split.parent = h.split.parent := by unfold Here.latch; split <;> rfl
@[simp] theorem Here.latch_split_flight (h : Here) (v : Cells 64) : (h.latch v).split.flight = h.split.flight := by unfold Here.latch; split <;> rfl
@[simp] theorem Here.latch_split_fences (h : Here) (v : Cells 64) : (h.latch v).split.fences = h.split.fences := by unfold Here.latch; split <;> rfl

@[simp] theorem Here.queue?_setQueue (h : Here) (n : Nat) (q : Queue) : (h.setQueue n q).queue? n = some q := by
  simp [Here.queue?, Here.setQueue]
theorem Here.queue?_setQueue_other (h : Here) {n m : Nat} (q : Queue) (hm : m ≠ n) : (h.setQueue n q).queue? m = h.queue? m := by
  simp [Here.queue?, Here.setQueue, Tbl.get?_set_other h.pair.queues q hm]

/-! ### Registers of a warp -/

@[simp] theorem Warp.getV_setV (w : Warp) (n lane : Nat) (x : BitVec 32) : (w.setV n lane x).getV n lane = x := by simp [Warp.getV, Warp.setV]
@[simp] theorem Warp.setV_splits (w : Warp) (n lane : Nat) (x : BitVec 32) : (w.setV n lane x).splits = w.splits := rfl
@[simp] theorem Warp.setV_nextSplit (w : Warp) (n lane : Nat) (x : BitVec 32) : (w.setV n lane x).nextSplit = w.nextSplit := rfl
@[simp] theorem Warp.setV_dead (w : Warp) (n lane : Nat) (x : BitVec 32) : (w.setV n lane x).dead = w.dead := rfl
@[simp] theorem Warp.setV_s (w : Warp) (n lane : Nat) (x : BitVec 32) : (w.setV n lane x).s = w.s := rfl
@[simp] theorem Warp.setV_a (w : Warp) (n lane : Nat) (x : BitVec 32) : (w.setV n lane x).a = w.a := rfl
@[simp] theorem Warp.setV_c (w : Warp) (n lane : Nat) (x : BitVec 32) : (w.setV n lane x).c = w.c := rfl
@[simp] theorem Warp.setV_k (w : Warp) (n lane : Nat) (x : BitVec 32) : (w.setV n lane x).k = w.k := rfl
@[simp] theorem Warp.setV_fflags (w : Warp) (n lane : Nat) (x : BitVec 32) : (w.setV n lane x).fflags = w.fflags := rfl
@[simp] theorem Warp.setV_role (w : Warp) (n lane : Nat) (x : BitVec 32) : (w.setV n lane x).role = w.role := rfl
@[simp] theorem Warp.setV_tctl (w : Warp) (n lane : Nat) (x : BitVec 32) : (w.setV n lane x).tctl = w.tctl := rfl
@[simp] theorem Warp.setV_holdSplits (w : Warp) (n lane : Nat) (x : BitVec 32) : (w.setV n lane x).holdSplits = w.holdSplits := rfl
@[simp] theorem Warp.setV_holdPair (w : Warp) (n lane : Nat) (x : BitVec 32) : (w.setV n lane x).holdPair = w.holdPair := rfl
@[simp] theorem Warp.setV_pipe (w : Warp) (n lane : Nat) (x : BitVec 32) : (w.setV n lane x).pipe = w.pipe := rfl
@[simp] theorem Warp.setV_ended (w : Warp) (n lane : Nat) (x : BitVec 32) : (w.setV n lane x).ended = w.ended := rfl
@[simp] theorem Warp.setV_seq (w : Warp) (n lane : Nat) (x : BitVec 32) : (w.setV n lane x).seq = w.seq := rfl
@[simp] theorem Warp.setV_stores (w : Warp) (n lane : Nat) (x : BitVec 32) : (w.setV n lane x).stores = w.stores := rfl
@[simp] theorem Warp.setV_loads (w : Warp) (n lane : Nat) (x : BitVec 32) : (w.setV n lane x).loads = w.loads := rfl
@[simp] theorem Warp.setV_acks (w : Warp) (n lane : Nat) (x : BitVec 32) : (w.setV n lane x).acks = w.acks := rfl
@[simp] theorem Warp.setV_maint (w : Warp) (n lane : Nat) (x : BitVec 32) : (w.setV n lane x).maint = w.maint := rfl
@[simp] theorem Warp.setV_seen (w : Warp) (n lane : Nat) (x : BitVec 32) : (w.setV n lane x).seen = w.seen := rfl
@[simp] theorem Warp.setV_rejects (w : Warp) (n lane : Nat) (x : BitVec 32) : (w.setV n lane x).rejects = w.rejects := rfl
@[simp] theorem Warp.setV_aged (w : Warp) (n lane : Nat) (x : BitVec 32) : (w.setV n lane x).aged = w.aged := rfl
@[simp] theorem Warp.setV_agedAt (w : Warp) (n lane : Nat) (x : BitVec 32) : (w.setV n lane x).agedAt = w.agedAt := rfl
@[simp] theorem Warp.setV_fences (w : Warp) (n lane : Nat) (x : BitVec 32) : (w.setV n lane x).fences = w.fences := rfl
@[simp] theorem Warp.getA_setA (w : Warp) (n lane : Nat) (x : BitVec 64) : (w.setA n lane x).getA n lane = x := by simp [Warp.getA, Warp.setA]
@[simp] theorem Warp.setA_splits (w : Warp) (n lane : Nat) (x : BitVec 64) : (w.setA n lane x).splits = w.splits := rfl
@[simp] theorem Warp.setA_nextSplit (w : Warp) (n lane : Nat) (x : BitVec 64) : (w.setA n lane x).nextSplit = w.nextSplit := rfl
@[simp] theorem Warp.setA_dead (w : Warp) (n lane : Nat) (x : BitVec 64) : (w.setA n lane x).dead = w.dead := rfl
@[simp] theorem Warp.setA_v (w : Warp) (n lane : Nat) (x : BitVec 64) : (w.setA n lane x).v = w.v := rfl
@[simp] theorem Warp.setA_s (w : Warp) (n lane : Nat) (x : BitVec 64) : (w.setA n lane x).s = w.s := rfl
@[simp] theorem Warp.setA_c (w : Warp) (n lane : Nat) (x : BitVec 64) : (w.setA n lane x).c = w.c := rfl
@[simp] theorem Warp.setA_k (w : Warp) (n lane : Nat) (x : BitVec 64) : (w.setA n lane x).k = w.k := rfl
@[simp] theorem Warp.setA_fflags (w : Warp) (n lane : Nat) (x : BitVec 64) : (w.setA n lane x).fflags = w.fflags := rfl
@[simp] theorem Warp.setA_role (w : Warp) (n lane : Nat) (x : BitVec 64) : (w.setA n lane x).role = w.role := rfl
@[simp] theorem Warp.setA_tctl (w : Warp) (n lane : Nat) (x : BitVec 64) : (w.setA n lane x).tctl = w.tctl := rfl
@[simp] theorem Warp.setA_holdSplits (w : Warp) (n lane : Nat) (x : BitVec 64) : (w.setA n lane x).holdSplits = w.holdSplits := rfl
@[simp] theorem Warp.setA_holdPair (w : Warp) (n lane : Nat) (x : BitVec 64) : (w.setA n lane x).holdPair = w.holdPair := rfl
@[simp] theorem Warp.setA_pipe (w : Warp) (n lane : Nat) (x : BitVec 64) : (w.setA n lane x).pipe = w.pipe := rfl
@[simp] theorem Warp.setA_ended (w : Warp) (n lane : Nat) (x : BitVec 64) : (w.setA n lane x).ended = w.ended := rfl
@[simp] theorem Warp.setA_seq (w : Warp) (n lane : Nat) (x : BitVec 64) : (w.setA n lane x).seq = w.seq := rfl
@[simp] theorem Warp.setA_stores (w : Warp) (n lane : Nat) (x : BitVec 64) : (w.setA n lane x).stores = w.stores := rfl
@[simp] theorem Warp.setA_loads (w : Warp) (n lane : Nat) (x : BitVec 64) : (w.setA n lane x).loads = w.loads := rfl
@[simp] theorem Warp.setA_acks (w : Warp) (n lane : Nat) (x : BitVec 64) : (w.setA n lane x).acks = w.acks := rfl
@[simp] theorem Warp.setA_maint (w : Warp) (n lane : Nat) (x : BitVec 64) : (w.setA n lane x).maint = w.maint := rfl
@[simp] theorem Warp.setA_seen (w : Warp) (n lane : Nat) (x : BitVec 64) : (w.setA n lane x).seen = w.seen := rfl
@[simp] theorem Warp.setA_rejects (w : Warp) (n lane : Nat) (x : BitVec 64) : (w.setA n lane x).rejects = w.rejects := rfl
@[simp] theorem Warp.setA_aged (w : Warp) (n lane : Nat) (x : BitVec 64) : (w.setA n lane x).aged = w.aged := rfl
@[simp] theorem Warp.setA_agedAt (w : Warp) (n lane : Nat) (x : BitVec 64) : (w.setA n lane x).agedAt = w.agedAt := rfl
@[simp] theorem Warp.setA_fences (w : Warp) (n lane : Nat) (x : BitVec 64) : (w.setA n lane x).fences = w.fences := rfl
@[simp] theorem Warp.getS_setS (w : Warp) (n : Nat) (x : BitVec 32) : (w.setS n x).getS n = x := by simp [Warp.getS, Warp.setS]
@[simp] theorem Warp.setS_splits (w : Warp) (n : Nat) (x : BitVec 32) : (w.setS n x).splits = w.splits := rfl
@[simp] theorem Warp.setS_nextSplit (w : Warp) (n : Nat) (x : BitVec 32) : (w.setS n x).nextSplit = w.nextSplit := rfl
@[simp] theorem Warp.setS_dead (w : Warp) (n : Nat) (x : BitVec 32) : (w.setS n x).dead = w.dead := rfl
@[simp] theorem Warp.setS_v (w : Warp) (n : Nat) (x : BitVec 32) : (w.setS n x).v = w.v := rfl
@[simp] theorem Warp.setS_a (w : Warp) (n : Nat) (x : BitVec 32) : (w.setS n x).a = w.a := rfl
@[simp] theorem Warp.setS_c (w : Warp) (n : Nat) (x : BitVec 32) : (w.setS n x).c = w.c := rfl
@[simp] theorem Warp.setS_k (w : Warp) (n : Nat) (x : BitVec 32) : (w.setS n x).k = w.k := rfl
@[simp] theorem Warp.setS_fflags (w : Warp) (n : Nat) (x : BitVec 32) : (w.setS n x).fflags = w.fflags := rfl
@[simp] theorem Warp.setS_role (w : Warp) (n : Nat) (x : BitVec 32) : (w.setS n x).role = w.role := rfl
@[simp] theorem Warp.setS_tctl (w : Warp) (n : Nat) (x : BitVec 32) : (w.setS n x).tctl = w.tctl := rfl
@[simp] theorem Warp.setS_holdSplits (w : Warp) (n : Nat) (x : BitVec 32) : (w.setS n x).holdSplits = w.holdSplits := rfl
@[simp] theorem Warp.setS_holdPair (w : Warp) (n : Nat) (x : BitVec 32) : (w.setS n x).holdPair = w.holdPair := rfl
@[simp] theorem Warp.setS_pipe (w : Warp) (n : Nat) (x : BitVec 32) : (w.setS n x).pipe = w.pipe := rfl
@[simp] theorem Warp.setS_ended (w : Warp) (n : Nat) (x : BitVec 32) : (w.setS n x).ended = w.ended := rfl
@[simp] theorem Warp.setS_seq (w : Warp) (n : Nat) (x : BitVec 32) : (w.setS n x).seq = w.seq := rfl
@[simp] theorem Warp.setS_stores (w : Warp) (n : Nat) (x : BitVec 32) : (w.setS n x).stores = w.stores := rfl
@[simp] theorem Warp.setS_loads (w : Warp) (n : Nat) (x : BitVec 32) : (w.setS n x).loads = w.loads := rfl
@[simp] theorem Warp.setS_acks (w : Warp) (n : Nat) (x : BitVec 32) : (w.setS n x).acks = w.acks := rfl
@[simp] theorem Warp.setS_maint (w : Warp) (n : Nat) (x : BitVec 32) : (w.setS n x).maint = w.maint := rfl
@[simp] theorem Warp.setS_seen (w : Warp) (n : Nat) (x : BitVec 32) : (w.setS n x).seen = w.seen := rfl
@[simp] theorem Warp.setS_rejects (w : Warp) (n : Nat) (x : BitVec 32) : (w.setS n x).rejects = w.rejects := rfl
@[simp] theorem Warp.setS_aged (w : Warp) (n : Nat) (x : BitVec 32) : (w.setS n x).aged = w.aged := rfl
@[simp] theorem Warp.setS_agedAt (w : Warp) (n : Nat) (x : BitVec 32) : (w.setS n x).agedAt = w.agedAt := rfl
@[simp] theorem Warp.setS_fences (w : Warp) (n : Nat) (x : BitVec 32) : (w.setS n x).fences = w.fences := rfl
@[simp] theorem Warp.getC_setC (w : Warp) (n : Nat) (x : BitVec 64) : (w.setC n x).getC n = x := by simp [Warp.getC, Warp.setC]
@[simp] theorem Warp.setC_splits (w : Warp) (n : Nat) (x : BitVec 64) : (w.setC n x).splits = w.splits := rfl
@[simp] theorem Warp.setC_nextSplit (w : Warp) (n : Nat) (x : BitVec 64) : (w.setC n x).nextSplit = w.nextSplit := rfl
@[simp] theorem Warp.setC_dead (w : Warp) (n : Nat) (x : BitVec 64) : (w.setC n x).dead = w.dead := rfl
@[simp] theorem Warp.setC_v (w : Warp) (n : Nat) (x : BitVec 64) : (w.setC n x).v = w.v := rfl
@[simp] theorem Warp.setC_s (w : Warp) (n : Nat) (x : BitVec 64) : (w.setC n x).s = w.s := rfl
@[simp] theorem Warp.setC_a (w : Warp) (n : Nat) (x : BitVec 64) : (w.setC n x).a = w.a := rfl
@[simp] theorem Warp.setC_k (w : Warp) (n : Nat) (x : BitVec 64) : (w.setC n x).k = w.k := rfl
@[simp] theorem Warp.setC_fflags (w : Warp) (n : Nat) (x : BitVec 64) : (w.setC n x).fflags = w.fflags := rfl
@[simp] theorem Warp.setC_role (w : Warp) (n : Nat) (x : BitVec 64) : (w.setC n x).role = w.role := rfl
@[simp] theorem Warp.setC_tctl (w : Warp) (n : Nat) (x : BitVec 64) : (w.setC n x).tctl = w.tctl := rfl
@[simp] theorem Warp.setC_holdSplits (w : Warp) (n : Nat) (x : BitVec 64) : (w.setC n x).holdSplits = w.holdSplits := rfl
@[simp] theorem Warp.setC_holdPair (w : Warp) (n : Nat) (x : BitVec 64) : (w.setC n x).holdPair = w.holdPair := rfl
@[simp] theorem Warp.setC_pipe (w : Warp) (n : Nat) (x : BitVec 64) : (w.setC n x).pipe = w.pipe := rfl
@[simp] theorem Warp.setC_ended (w : Warp) (n : Nat) (x : BitVec 64) : (w.setC n x).ended = w.ended := rfl
@[simp] theorem Warp.setC_seq (w : Warp) (n : Nat) (x : BitVec 64) : (w.setC n x).seq = w.seq := rfl
@[simp] theorem Warp.setC_stores (w : Warp) (n : Nat) (x : BitVec 64) : (w.setC n x).stores = w.stores := rfl
@[simp] theorem Warp.setC_loads (w : Warp) (n : Nat) (x : BitVec 64) : (w.setC n x).loads = w.loads := rfl
@[simp] theorem Warp.setC_acks (w : Warp) (n : Nat) (x : BitVec 64) : (w.setC n x).acks = w.acks := rfl
@[simp] theorem Warp.setC_maint (w : Warp) (n : Nat) (x : BitVec 64) : (w.setC n x).maint = w.maint := rfl
@[simp] theorem Warp.setC_seen (w : Warp) (n : Nat) (x : BitVec 64) : (w.setC n x).seen = w.seen := rfl
@[simp] theorem Warp.setC_rejects (w : Warp) (n : Nat) (x : BitVec 64) : (w.setC n x).rejects = w.rejects := rfl
@[simp] theorem Warp.setC_aged (w : Warp) (n : Nat) (x : BitVec 64) : (w.setC n x).aged = w.aged := rfl
@[simp] theorem Warp.setC_agedAt (w : Warp) (n : Nat) (x : BitVec 64) : (w.setC n x).agedAt = w.agedAt := rfl
@[simp] theorem Warp.setC_fences (w : Warp) (n : Nat) (x : BitVec 64) : (w.setC n x).fences = w.fences := rfl
/-- A write of one lane's register leaves every other register and lane alone. -/
theorem Warp.getV_setV_other (w : Warp) (n lane m l : Nat) (x : BitVec 32) (hl : lane < 64) (hk : l < 64) (h : m ≠ n ∨ l ≠ lane) :
    (w.setV n lane x).getV m l = w.getV m l := by
  have : 64 * m + l ≠ 64 * n + lane := by omega
  simp [Warp.getV, Warp.setV, Cells.get_set_other _ x this]
/-- A write of one lane's register leaves every other register and lane alone. -/
theorem Warp.getA_setA_other (w : Warp) (n lane m l : Nat) (x : BitVec 64) (hl : lane < 64) (hk : l < 64) (h : m ≠ n ∨ l ≠ lane) :
    (w.setA n lane x).getA m l = w.getA m l := by
  have : 64 * m + l ≠ 64 * n + lane := by omega
  simp [Warp.getA, Warp.setA, Cells.get_set_other _ x this]
theorem Warp.getS_setS_other (w : Warp) {n m : Nat} (x : BitVec 32) (h : m ≠ n) : (w.setS n x).getS m = w.getS m := by
  simp [Warp.getS, Warp.setS, Cells.get_set_other _ x h]
theorem Warp.getC_setC_other (w : Warp) {n m : Nat} (x : BitVec 64) (h : m ≠ n) : (w.setC n x).getC m = w.getC m := by
  simp [Warp.getC, Warp.setC, Cells.get_set_other _ x h]

/-- Predicate k0 reads true in every lane, whatever is written (R35). -/
@[simp] theorem Warp.pred_zero (w : Warp) : w.pred 0 = BitVec.allOnes 64 := rfl
@[simp] theorem Warp.setPred_zero (w : Warp) (lanes val : W64) : w.setPred 0 lanes val = w := rfl

end Sys2Proof.Machine
end

