-- ==== Sys2Proof/Laws/Canonical.lean ====
section
/-! SUPPORT. The operations that store keep physical memory and every scratchpad in canonical form. -/
namespace Sys2Proof.Machine

/-- Memory and every scratchpad list what they listed. -/
def SameStore (s t : State) : Prop := t.mem = s.mem ∧ ∀ e ∈ t.cores, ∃ f ∈ s.cores, e.2.scratch = f.2.scratch

theorem SameStore.refl (s : State) : SameStore s s := ⟨rfl, fun e he => ⟨e, he, rfl⟩⟩

theorem SameStore.trans {s t r : State} (h : SameStore s t) (k : SameStore t r) : SameStore s r :=
  ⟨k.1.trans h.1, fun e he => by
    obtain ⟨f, hf, hef⟩ := k.2 e he
    obtain ⟨g, hg, hfg⟩ := h.2 f hf
    exact ⟨g, hg, hef.trans hfg⟩⟩

theorem SameStore.of_eq {s t : State} (hm : t.mem = s.mem) (hc : t.cores = s.cores) : SameStore s t := by
  refine ⟨hm, fun e he => ⟨e, ?_, rfl⟩⟩
  rwa [hc] at he

theorem SameStore.foldl {α : Type} (f : State → α → State) (h : ∀ s x, SameStore s (f s x)) (l : List α) (s : State) : SameStore s (l.foldl f s) := by
  induction l generalizing s with
  | nil => exact .refl s
  | cons x l ih => exact (h s x).trans (ih _)

/-- What lists the same keeps the canonical form. -/
theorem SameStore.canonical {s t : State} (h : SameStore s t) (hs : s.memoryCanonical) : t.memoryCanonical :=
  ⟨by rw [h.1]; exact hs.1, fun e he => by
    obtain ⟨f, hf, hef⟩ := h.2 e he
    rw [hef]; exact hs.2 f hf⟩

/-- A put lists the new record and old ones. -/
theorem Tbl.mem_set {α : Type} {t : Tbl α} {k : Nat} {x : α} {e : Nat × α} (h : e ∈ Tbl.set t k x) : e = (k, x) ∨ e ∈ t := by
  induction t with
  | nil => exact .inl (by simpa [Tbl.set] using h)
  | cons f r ih =>
    obtain ⟨a, y⟩ := f
    simp only [Tbl.set] at h
    split at h
    · exact (List.mem_cons.mp h).imp_right id
    · split at h
      · rcases List.mem_cons.mp h with h | h
        · exact .inl h
        · exact .inr (List.mem_cons_of_mem _ h)
      · rcases List.mem_cons.mp h with h | h
        · exact .inr (by rw [h]; exact List.mem_cons_self)
        · exact (ih h).imp_right (List.mem_cons_of_mem _)

/-- What a table gives it lists. -/
theorem Tbl.mem_of_get? {α : Type} {t : Tbl α} {k : Nat} {x : α} (h : Tbl.get? t k = some x) : (k, x) ∈ t := by
  induction t with
  | nil => cases h
  | cons f r ih =>
    obtain ⟨a, y⟩ := f
    simp only [Tbl.get?] at h
    split at h
    · cases h; subst_vars; exact List.mem_cons_self
    · split at h
      · cases h
      · exact List.mem_cons_of_mem _ (ih h)

/-! ### The cores -/

theorem State.canonical_core {s : State} (hs : s.memoryCanonical) (n : Nat) : Memory.wf (s.core n).scratch = true := by
  unfold State.core
  cases h : Tbl.get? s.cores n with
  | none => rfl
  | some c => exact hs.2 _ (Tbl.mem_of_get? h)

theorem State.canonical_setCore {s : State} (hs : s.memoryCanonical) (n : Nat) {c : Core} (hc : Memory.wf c.scratch = true) :
    (s.setCore n c).memoryCanonical :=
  ⟨hs.1, fun e he => by
    rcases Tbl.mem_set he with rfl | h
    · exact hc
    · exact hs.2 e h⟩

/-! ### The L2 slices -/

theorem l1Drop_same (s : State) (p : Nat → Bool) (line : Nat) : SameStore s (l1Drop s p line) := by
  unfold l1Drop
  split
  · exact .refl s
  · refine ⟨rfl, fun e he => ?_⟩
    obtain ⟨f, hf, rfl⟩ := List.mem_map.mp he
    refine ⟨f, hf, ?_⟩
    split <;> rfl

theorem l2Drop_same (s : State) (n line : Nat) : SameStore s (l2Drop s n line) := by
  unfold l2Drop
  split
  · exact .refl s
  · refine .trans (.of_eq ?_ ?_) (l1Drop_same _ _ _) <;> (unfold dropFaults; split <;> rfl)

theorem l2Use_same (s : State) (n line : Nat) : SameStore s (l2Use s n line) := by
  unfold l2Use
  dsimp only
  split
  · exact .of_eq rfl rfl
  · exact (l2Drop_same s n _).trans (.of_eq rfl rfl)

theorem l2Write_same (s : State) (n line : Nat) : SameStore s (l2Write s n line) := by
  unfold l2Write
  refine .trans ?_ (.of_eq rfl rfl)
  refine .trans ?_ (l2Use_same _ _ _)
  refine .trans (.of_eq rfl rfl) (SameStore.foldl _ (fun s m => ?_) _ _)
  split
  · exact .refl s
  · exact l2Drop_same _ _ _

theorem uncache_same (s : State) (line : Nat) : SameStore s (uncache s line) :=
  (SameStore.foldl _ (fun s m => l2Drop_same s m line) _ s).trans (.of_eq rfl rfl)

theorem claimLines_same (s : State) (w : Wide) : SameStore s (claimLines s w) := by
  unfold claimLines
  split
  · exact .refl s
  · refine SameStore.foldl _ (fun s l => ?_) _ _
    split
    · exact uncache_same _ _
    · exact l2Write_same _ _ _

theorem widen_same (s : State) (sc : Scope) (w : Wide) : SameStore s (widen s sc w) := by
  unfold widen
  dsimp only
  split
  · exact (claimLines_same s w).trans (.of_eq rfl rfl)
  · exact .of_eq rfl rfl

/-! ### Stores -/

/-- A store that enters memory keeps the canonical form. -/
theorem settleOne_canonical {s : State} (w : Wide) (hs : s.memoryCanonical) : (settleOne s w).memoryCanonical := by
  unfold settleOne
  split
  · exact ⟨Memory.wf_setList _ _ _ hs.1, hs.2⟩
  · exact State.canonical_setCore hs _ (Memory.wf_setList _ _ _ (State.canonical_core hs _))

theorem settle_canonical (ws : List Wide) {s : State} (hs : s.memoryCanonical) : (settle s ws).memoryCanonical := by
  induction ws generalizing s with
  | nil => exact hs
  | cons w ws ih =>
    simp only [settle]
    split
    · exact ih (settleOne_canonical w hs)
    · exact hs

theorem State.settled_canonical {s : State} (hs : s.memoryCanonical) : s.settled.memoryCanonical := settle_canonical _ hs

/-- Performing pending stores at a wider scope keeps the canonical form. -/
theorem performWhere_canonical {s : State} (p : Wide → Bool) (sc : Scope) (hs : s.memoryCanonical) : (performWhere s p sc).memoryCanonical :=
  State.settled_canonical ((SameStore.foldl _ (fun s w => widen_same s sc w) _ s).canonical hs)

theorem performAt_canonical {s : State} (n : Nat) (sc : Scope) (hs : s.memoryCanonical) : (performAt s n sc).memoryCanonical := by
  unfold performAt
  split
  · exact hs
  · exact State.settled_canonical ((SameStore.foldl _ (fun s w => widen_same s sc w) _ s).canonical hs)

theorem enterWide_canonical {s : State} (w : Wide) (hs : s.memoryCanonical) : (enterWide s w).memoryCanonical := by
  unfold enterWide
  apply State.settled_canonical
  refine SameStore.canonical (.of_eq rfl rfl) (s := if 4 ≤ w.scope.code then claimLines s w else s) ?_
  split
  · exact (claimLines_same s w).canonical hs
  · exact hs

theorem writeInto_same (s : State) (whole : Bool) (i array idx : Nat) : SameStore s (writeInto s whole i array idx) := by
  unfold writeInto
  dsimp only
  repeat' split
  all_goals exact .refl _

theorem injectWrite_same (s : State) (i array idx : Nat) : SameStore s (injectWrite s i array idx) := writeInto_same s true i array idx

theorem meetWrites_same (s : State) (w : Wide) : SameStore s (meetWrites s w) := by
  have put : ∀ (s : State) b i array idx j array' idx', SameStore s (injectWrite (writeInto s b i array idx) j array' idx') :=
    fun s b i array idx j array' idx' => (writeInto_same s b i array idx).trans (writeInto_same _ true _ _ _)
  unfold meetWrites
  split
  · exact .refl s
  · dsimp only
    split
    · have first : SameStore s (if isDevice w.addr then (blocksOf w.addr w.data.length 64).foldl (fun s u =>
          injectWrite (writeInto s (!partly w.addr w.data.length 64 u) (108 + dieOf (64 * u)) 0x20 u) (108 + dieOf (64 * u)) 0x21 u) s else s) := by
        split
        · exact SameStore.foldl _ (fun s u => put s _ _ _ _ _ _ _) _ s
        · exact .refl s
      split
      · exact first
      · exact (first.trans (SameStore.foldl _ (fun s u => injectWrite_same s _ _ _) _ _)).trans (SameStore.foldl _ (fun s u => put s _ _ _ _ _ _ _) _ _)
    · exact SameStore.foldl _ (fun s u => put s _ _ _ _ _ _ _) _ s

/-- A store that is performed keeps the canonical form. -/
theorem storeAt_canonical {s : State} (w : Wide) (hs : s.memoryCanonical) : (storeAt s w).memoryCanonical :=
  enterWide_canonical w ((meetWrites_same s w).canonical hs)

/-- So does one that takes an earlier place in coherence order. -/
theorem storePlaced_canonical {s : State} (v : Viewer) (w : Wide) (hs : s.memoryCanonical) : (storePlaced s v w).memoryCanonical :=
  State.settled_canonical (SameStore.canonical (.of_eq rfl rfl) ((meetWrites_same s w).canonical hs))

/-! ### Placement and starts -/

/-- A crew's allocation is emptied (R482). -/
theorem clearScratch_canonical {s : State} (core off n : Nat) (hs : s.memoryCanonical) : (clearScratch s core off n).memoryCanonical :=
  SameStore.canonical (.of_eq rfl rfl) (State.canonical_setCore hs core (Cells.above_filter _ _ _ (State.canonical_core hs core)))

theorem setLists_canonical {α : Type} (a : α → Nat) (d : α → List Byte) (l : List α) (m : Mem) (h : Memory.wf m = true) :
    Memory.wf (l.foldl (fun m x => Cells.setList m (a x) (d x)) m) = true := by
  induction l generalizing m with
  | nil => exact h
  | cons x l ih => exact ih _ (Memory.wf_setList _ _ _ h)

/-- What a warm start leaves of memory (R352, R459). -/
theorem loseDirty_canonical {s : State} (hs : s.memoryCanonical) : Memory.wf (loseDirty s) = true :=
  setLists_canonical _ _ _ _ (setLists_canonical _ _ _ _ hs.1)

theorem clearForStart_canonical {s : State} (warm : Bool) (hs : s.memoryCanonical) : (clearForStart s warm).memoryCanonical :=
  ⟨loseDirty_canonical hs, fun e he => by cases he⟩

/-- A cold start scrubs memory (R459). -/
theorem scrub_canonical {s : State} (hs : s.memoryCanonical) : (scrub s).memoryCanonical := ⟨Cells.above_filter _ _ _ hs.1, hs.2⟩

end Sys2Proof.Machine
end

