-- ==== Sys2Proof/Laws/Encoding.lean ====
section
/-! SUPPORT. The fields of an encoded word read back: what the decoder's field readers give on a word that the encoder wrote. -/
namespace Sys2Proof

/-! ### Parts of a concatenation -/

theorem extract_above {a b : Nat} (x : BitVec a) (y : BitVec b) (lo w : Nat) (h : b ≤ lo) :
    (x ++ y).extractLsb' lo w = x.extractLsb' (lo - b) w := by
  apply BitVec.eq_of_getLsbD_eq
  intro i hi
  have h1 : ¬ (lo + i < b) := by omega
  have h2 : lo + i - b = lo - b + i := by omega
  simp [BitVec.getLsbD_append, hi, h1, h2]

theorem extract_below {a b : Nat} (x : BitVec a) (y : BitVec b) (lo w : Nat) (h : lo + w ≤ b) :
    (x ++ y).extractLsb' lo w = y.extractLsb' lo w := by
  apply BitVec.eq_of_getLsbD_eq
  intro i hi
  have h1 : lo + i < b := by omega
  simp [BitVec.getLsbD_append, hi, h1]

theorem extract_whole {a : Nat} (x : BitVec a) : x.extractLsb' 0 a = x := by
  apply BitVec.eq_of_getLsbD_eq
  intro i hi
  simp [hi]

theorem bit_above {a b : Nat} (x : BitVec a) (y : BitVec b) (i : Nat) (h : b ≤ i) : (x ++ y).getLsbD i = x.getLsbD (i - b) := by
  have h1 : ¬ (i < b) := by omega
  simp [BitVec.getLsbD_append, h1]

theorem bit_below {a b : Nat} (x : BitVec a) (y : BitVec b) (i : Nat) (h : i < b) : (x ++ y).getLsbD i = y.getLsbD i := by
  simp [BitVec.getLsbD_append, h]

/-! ### A word and its fields (Table 2.2) -/

theorem bit_zero (b : Bool) : (bit b).getLsbD 0 = b := by cases b <;> rfl

theorem Fields.word_form (form : BitVec 2) (f : Fields) : (f.word form).extractLsb' 62 2 = form := by
  simp (disch := omega) only [Fields.word, extract_above]
  exact extract_whole form

@[simp] theorem Fields.ofWord_word (form : BitVec 2) (f : Fields) : Fields.ofWord (f.word form) = f := by
  simp (disch := omega) only [Fields.word, Fields.ofWord, extract_above, extract_below, bit_above, bit_below]
  simp only [Nat.sub_self, Nat.reduceSub, extract_whole, bit_zero]

/-! ### The form of an instruction -/

/-- The form field of an instruction's first word (R54, R68). -/
def Instr.form : Instr → BitVec 2
  | .pairWord _ => 1
  | i => if i.ext.isSome then 2 else 0

/-- The form of an instruction whose word `Fields.word` makes. -/
theorem form_word (f : Fields) (b : Bool) : (f.word (if b then 2 else 0)).extractLsb' 62 2 = if b then 2 else 0 := f.word_form _

/-- The form of a pair word. -/
theorem pair_form (x : PairArgs) : (encode (.pairWord x)).1.extractLsb' 62 2 = 1 := by
  simp (disch := omega) only [encode, extract_above]
  exact extract_whole 1

end Sys2Proof
end

