-- ==== Sys2Proof/Laws/Ops.lean ====
section
/-! SUPPORT. What the shapes every meaning is built from can answer: an issuing split's instruction always answers a next state, its own effect where its parts succeed, the trap or the wait where they stop. -/
namespace Sys2Proof.Machine

/-- A part that succeeds gives the next state. -/
theorem runOn_ok {s : State} {u : UnitRef} {h : Here} (I : Issuing s u h) {f : Here → Part State} {t : State}
    (hf : f h.awake = .ok t) : runOn s f = .next t := by
  simp only [runOn, I.cur, I.here]
  simp only [Here.awake] at hf
  rw [hf]

/-- A part that stops takes the trap or the wait. -/
theorem runOn_stop {s : State} {u : UnitRef} {h : Here} (I : Issuing s u h) {f : Here → Part State} {st : Stop}
    (hf : f h.awake = .error st) : runOn s f = .next (stopWith s u st) := by
  simp only [runOn, I.cur, I.here]
  simp only [Here.awake] at hf
  rw [hf]

/-- While a split issues, no part ends the run. -/
theorem runOn_next {s : State} {u : UnitRef} {h : Here} (I : Issuing s u h) (f : Here → Part State) :
    ∃ t, runOn s f = .next t := by
  cases hf : f h.awake with
  | ok t => exact ⟨t, runOn_ok I hf⟩
  | error st => exact ⟨_, runOn_stop I hf⟩

/-- A part over the split's surroundings that succeeds gives the state with its view. -/
theorem runHere_ok {s : State} {u : UnitRef} {h : Here} (I : Issuing s u h) {f : Here → Part Here} {h' : Here}
    (hf : f h.awake = .ok h') : runHere s f = .next (s.put h') :=
  runOn_ok I (by rw [hf])

theorem Issuing.unit {s : State} {u : UnitRef} {h : Here} (I : Issuing s u h) : h.u = u := (State.here?_parts I.here).1

/-! ### Filling and preparing keep the unit -/

theorem fillRegs_unit {ns : List Nat} {s s' : State} {h h' : Here} (hf : fillRegs s h ns = .ok (s', h')) :
    h'.u = h.u ∧ h'.crew = h.crew ∧ h'.pair = h.pair ∧ h'.split = h.split := by
  induction ns generalizing s h with
  | nil => simp only [fillRegs, Except.ok.injEq, Prod.mk.injEq] at hf; obtain ⟨-, rfl⟩ := hf; exact ⟨rfl, rfl, rfl, rfl⟩
  | cons n ns ih =>
    simp only [fillRegs] at hf
    split at hf
    · cases hf; exact ⟨rfl, rfl, rfl, rfl⟩
    · split at hf
      · cases hf
      · simpa using ih hf

/-- With no register above the bound, nothing is filled. -/
@[simp] theorem fillRegs_nil (s : State) (h : Here) : fillRegs s h [] = .ok (s, h) := rfl
@[simp] theorem spillRegs_nil (s : State) (h : Here) : spillRegs s h [] = .ok s := rfl

/-- What serving the operands of an instruction is made of. -/
theorem prepare_parts {s s' : State} {h h' : Here} {ds ss : List Use} {act : W64} (hp : prepare s h ds ss act = .ok (s', h')) :
    fillRegs s h (dedup (spilledRegs (ds ++ ss))) = .ok (s', h') ∧ h'.pending (ds ++ ss) = .ok () ∧ h'.serve ds ss = .ok () ∧
      h'.latches ss = .ok () ∧ h'.markers ss act = .ok () := by
  simp only [prepare] at hp
  cases hf : fillRegs s h (dedup (spilledRegs (ds ++ ss))) with
  | error e => rw [hf] at hp; cases hp
  | ok p =>
    obtain ⟨t, k⟩ := p
    rw [hf] at hp
    simp only at hp
    cases h1 : k.pending (ds ++ ss) with
    | error e => rw [h1] at hp; cases hp
    | ok _ =>
      cases h2 : k.serve ds ss with
      | error e => rw [h1, h2] at hp; cases hp
      | ok _ =>
        cases h3 : k.latches ss with
        | error e => rw [h1, h2, h3] at hp; cases hp
        | ok _ =>
          cases h4 : k.markers ss act with
          | error e => rw [h1, h2, h3, h4] at hp; cases hp
          | ok _ =>
            rw [h1, h2, h3, h4] at hp
            cases hp
            exact ⟨rfl, h1, h2, h3, h4⟩

/-- Operands are served where each of the parts finds nothing in the way. -/
theorem prepare_ok {s s' : State} {h h' : Here} {ds ss : List Use} {act : W64}
    (hf : fillRegs s h (dedup (spilledRegs (ds ++ ss))) = .ok (s', h')) (h1 : h'.pending (ds ++ ss) = .ok ())
    (h2 : h'.serve ds ss = .ok ()) (h3 : h'.latches ss = .ok ()) (h4 : h'.markers ss act = .ok ()) :
    prepare s h ds ss act = .ok (s', h') := by
  simp only [prepare, hf, h1, h2, h3, h4]
  rfl

theorem prepare_unit {s s' : State} {h h' : Here} {ds ss : List Use} {act : W64} (hp : prepare s h ds ss act = .ok (s', h')) :
    h'.u = h.u ∧ h'.crew = h.crew ∧ h'.pair = h.pair ∧ h'.split = h.split :=
  fillRegs_unit (prepare_parts hp).1

/-- Where no register above the bound is named, serving the operands changes nothing. -/
theorem prepare_same {s s' : State} {h h' : Here} {ds ss : List Use} {act : W64} (hn : spilledRegs (ds ++ ss) = [])
    (hp : prepare s h ds ss act = .ok (s', h')) : s' = s ∧ h' = h := by
  have hf := (prepare_parts hp).1
  rw [hn] at hf
  cases hf
  exact ⟨rfl, rfl⟩

theorem Served.unit {i : Instr} {g : Guard} {s s' : State} {h h' : Here} (v : Served i g s h s' h') :
    h'.u = h.u ∧ h'.crew = h.crew ∧ h'.pair = h.pair ∧ h'.split = h.awake.split :=
  prepare_unit v

/-! ### Instructions over operands -/

/-- An instruction over the operands its word names completes with its view once they are served. -/
theorem runInstr_completes {i : Instr} {g : Guard} {f : Here → W64 → List Use → Part Here} {F : Here → Here}
    (he : ∀ s, exec i s = runInstr s i g f) (hf : ∀ h : Here, f h (h.active g) (i.uses h.u.slice).2 = .ok (F h)) :
    CompletesAs i g F := by
  intro s u h s₁ h₁ s₂ I v st
  have hu := I.unit
  subst hu
  have h1 := (Served.unit v).1
  have hf' := hf h₁
  rw [h1] at hf'
  simp only [Served] at v
  simp only [Stored] at st
  rw [he]
  simp only [runInstr, I.cur, runUses]
  apply runOn_ok I
  simp only [v, hf', st]

/-- The same where the instruction also changes what lies outside its crew. -/
theorem runFull_completes {i : Instr} {g : Guard} {f : State → Here → W64 → List Use → Part (State × Here)}
    (he : ∀ s, exec i s = runFull s i g f) {s : State} {u : UnitRef} {h : Here} {s₁ : State} {h₁ : Here} {s₂ : State} {h₂ : Here}
    {s₃ : State} (I : Issuing s u h) (v : Served i g s h s₁ h₁)
    (hf : f s₁ h₁ (h₁.active g) (i.uses h.u.slice).2 = .ok (s₂, h₂)) (st : Stored i h.u.slice s₂ h₂ s₃) :
    exec i s = .next (s₃.put h₂) := by
  have h1 := (Served.unit v).1
  simp only [Served] at v
  simp only [Stored] at st
  rw [he]
  apply runOn_ok I
  have ha : h.awake.u = h.u := rfl
  simp only [ha, v, hf, st]

end Sys2Proof.Machine
end

