-- ==== Sys2Proof/Laws/PerInstr.lean ====
section
/-! SUPPORT. For every instruction, one lemma: the form field of its first word tells its length (R54, R55). -/
namespace Sys2Proof.Laws.Encoding

/-- The form field of the first word that the encoder writes is the instruction's form. -/
def Statement (i : Instr) : Prop := (encode i).1.extractLsb' 62 2 = i.form

theorem nop (x) : Statement (.nop x) := form_word _ _
theorem bra (x) : Statement (.bra x) := form_word _ _
theorem brx (x) : Statement (.brx x) := form_word _ _
theorem call (x) : Statement (.call x) := form_word _ _
theorem calx (x) : Statement (.calx x) := form_word _ _
theorem ret (x) : Statement (.ret x) := form_word _ _
theorem exit (x) : Statement (.exit x) := form_word _ _
theorem rcv (x) : Statement (.rcv x) := form_word _ _
theorem setw (x) : Statement (.setw x) := form_word _ _
theorem pyld (x) : Statement (.pyld x) := form_word _ _
theorem loop (x) : Statement (.loop x) := form_word _ _
theorem iadd (x) : Statement (.iadd x) := form_word _ _
theorem isub (x) : Statement (.isub x) := form_word _ _
theorem iaddc (x) : Statement (.iaddc x) := form_word _ _
theorem isubb (x) : Statement (.isubb x) := form_word _ _
theorem imul (x) : Statement (.imul x) := form_word _ _
theorem imulh (x) : Statement (.imulh x) := form_word _ _
theorem imad (x) : Statement (.imad x) := form_word _ _
theorem idiv (x) : Statement (.idiv x) := form_word _ _
theorem irem (x) : Statement (.irem x) := form_word _ _
theorem iabs (x) : Statement (.iabs x) := form_word _ _
theorem ineg (x) : Statement (.ineg x) := form_word _ _
theorem imin (x) : Statement (.imin x) := form_word _ _
theorem imax (x) : Statement (.imax x) := form_word _ _
theorem isad (x) : Statement (.isad x) := form_word _ _
theorem iclamp (x) : Statement (.iclamp x) := form_word _ _
theorem mov (x) : Statement (.mov x) := form_word _ _
theorem movi (x) : Statement (.movi x) := form_word _ _
theorem iaddImm (x) : Statement (.iaddImm x) := form_word _ _
theorem isubImm (x) : Statement (.isubImm x) := form_word _ _
theorem imulImm (x) : Statement (.imulImm x) := form_word _ _
theorem iminImm (x) : Statement (.iminImm x) := form_word _ _
theorem imaxImm (x) : Statement (.imaxImm x) := form_word _ _
theorem movImm (x) : Statement (.movImm x) := form_word _ _
theorem andImm (x) : Statement (.andImm x) := form_word _ _
theorem orImm (x) : Statement (.orImm x) := form_word _ _
theorem xorImm (x) : Statement (.xorImm x) := form_word _ _
theorem shlImm (x) : Statement (.shlImm x) := form_word _ _
theorem shrImm (x) : Statement (.shrImm x) := form_word _ _
theorem sraImm (x) : Statement (.sraImm x) := form_word _ _
theorem rotlImm (x) : Statement (.rotlImm x) := form_word _ _
theorem andB (x) : Statement (.andB x) := form_word _ _
theorem orB (x) : Statement (.orB x) := form_word _ _
theorem xorB (x) : Statement (.xorB x) := form_word _ _
theorem notB (x) : Statement (.notB x) := form_word _ _
theorem bfn (x) : Statement (.bfn x) := form_word _ _
theorem shl (x) : Statement (.shl x) := form_word _ _
theorem shr (x) : Statement (.shr x) := form_word _ _
theorem sra (x) : Statement (.sra x) := form_word _ _
theorem rotl (x) : Statement (.rotl x) := form_word _ _
theorem popc (x) : Statement (.popc x) := form_word _ _
theorem clz (x) : Statement (.clz x) := form_word _ _
theorem ctz (x) : Statement (.ctz x) := form_word _ _
theorem brev (x) : Statement (.brev x) := form_word _ _
theorem bext (x) : Statement (.bext x) := form_word _ _
theorem bins (x) : Statement (.bins x) := form_word _ _
theorem bsel (x) : Statement (.bsel x) := form_word _ _
theorem icmp (x) : Statement (.icmp x) := form_word _ _
theorem fcmp (x) : Statement (.fcmp x) := form_word _ _
theorem fclass (x) : Statement (.fclass x) := form_word _ _
theorem sel (x) : Statement (.sel x) := form_word _ _
theorem kop (x) : Statement (.kop x) := form_word _ _
theorem kmov (x) : Statement (.kmov x) := form_word _ _
theorem fadd (x) : Statement (.fadd x) := form_word _ _
theorem fsub (x) : Statement (.fsub x) := form_word _ _
theorem fmul (x) : Statement (.fmul x) := form_word _ _
theorem fma (x) : Statement (.fma x) := form_word _ _
theorem fmin (x) : Statement (.fmin x) := form_word _ _
theorem fmax (x) : Statement (.fmax x) := form_word _ _
theorem fabs (x) : Statement (.fabs x) := form_word _ _
theorem fneg (x) : Statement (.fneg x) := form_word _ _
theorem fclamp (x) : Statement (.fclamp x) := form_word _ _
theorem frcp (x) : Statement (.frcp x) := form_word _ _
theorem frsq (x) : Statement (.frsq x) := form_word _ _
theorem fsqrt (x) : Statement (.fsqrt x) := form_word _ _
theorem fdiv (x) : Statement (.fdiv x) := form_word _ _
theorem fdot2 (x) : Statement (.fdot2 x) := form_word _ _
theorem frnd (x) : Statement (.frnd x) := form_word _ _
theorem dadd (x) : Statement (.dadd x) := form_word _ _
theorem dsub (x) : Statement (.dsub x) := form_word _ _
theorem dmul (x) : Statement (.dmul x) := form_word _ _
theorem dfma (x) : Statement (.dfma x) := form_word _ _
theorem dmin (x) : Statement (.dmin x) := form_word _ _
theorem dmax (x) : Statement (.dmax x) := form_word _ _
theorem ddiv (x) : Statement (.ddiv x) := form_word _ _
theorem dsqrt (x) : Statement (.dsqrt x) := form_word _ _
theorem fex2 (x) : Statement (.fex2 x) := form_word _ _
theorem flg2 (x) : Statement (.flg2 x) := form_word _ _
theorem fsin (x) : Statement (.fsin x) := form_word _ _
theorem fcos (x) : Statement (.fcos x) := form_word _ _
theorem ftanh (x) : Statement (.ftanh x) := form_word _ _
theorem cvt (x) : Statement (.cvt x) := form_word _ _
theorem fpk (x) : Statement (.fpk x) := form_word _ _
theorem fupk (x) : Statement (.fupk x) := form_word _ _
theorem bfq (x) : Statement (.bfq x) := form_word _ _
theorem bfd (x) : Statement (.bfd x) := form_word _ _
theorem escl (x) : Statement (.escl x) := form_word _ _
theorem shfl (x) : Statement (.shfl x) := form_word _ _
theorem vote (x) : Statement (.vote x) := form_word _ _
theorem ballot (x) : Statement (.ballot x) := form_word _ _
theorem redx (x) : Statement (.redx x) := form_word _ _
theorem scan (x) : Statement (.scan x) := form_word _ _
theorem matchL (x) : Statement (.matchL x) := form_word _ _
theorem bcast (x) : Statement (.bcast x) := form_word _ _
theorem regroup (x) : Statement (.regroup x) := form_word _ _
theorem lq (x) : Statement (.lq x) := form_word _ _
theorem la (x) : Statement (.la x) := form_word _ _
theorem sa (x) : Statement (.sa x) := form_word _ _
theorem sd (x) : Statement (.sd x) := form_word _ _
theorem lsq (x) : Statement (.lsq x) := form_word _ _
theorem lsa (x) : Statement (.lsa x) := form_word _ _
theorem ssa (x) : Statement (.ssa x) := form_word _ _
theorem pf (x) : Statement (.pf x) := form_word _ _
theorem rlq (x) : Statement (.rlq x) := form_word _ _
theorem lea (x) : Statement (.lea x) := form_word _ _
theorem leaLong (x) : Statement (.leaLong x) := form_word _ _
theorem qpush (x) : Statement (.qpush x) := form_word _ _
theorem qpop (x) : Statement (.qpop x) := form_word _ _
theorem qpeek (x) : Statement (.qpeek x) := form_word _ _
theorem qend (x) : Statement (.qend x) := form_word _ _
theorem qstat (x) : Statement (.qstat x) := form_word _ _
theorem qdrop (x) : Statement (.qdrop x) := form_word _ _
theorem atom (x) : Statement (.atom x) := form_word _ _
theorem acas (x) : Statement (.acas x) := form_word _ _
theorem fence (x) : Statement (.fence x) := form_word _ _
theorem upd (x) : Statement (.upd x) := form_word _ _
theorem uflush (x) : Statement (.uflush x) := form_word _ _
theorem ubind (x) : Statement (.ubind x) := form_word _ _
theorem uunbind (x) : Statement (.uunbind x) := form_word _ _
theorem cinv (x) : Statement (.cinv x) := form_word _ _
theorem cwb (x) : Statement (.cwb x) := form_word _ _
theorem stld (x) : Statement (.stld x) := form_word _ _
theorem stsp (x) : Statement (.stsp x) := form_word _ _
theorem stinv (x) : Statement (.stinv x) := form_word _ _
theorem mma (x) : Statement (.mma x) := form_word _ _
theorem mmac (x) : Statement (.mmac x) := form_word _ _
theorem msca (x) : Statement (.msca x) := form_word _ _
theorem mzero (x) : Statement (.mzero x) := form_word _ _
theorem mrd (x) : Statement (.mrd x) := form_word _ _
theorem mrdx (x) : Statement (.mrdx x) := form_word _ _
theorem mrmax (x) : Statement (.mrmax x) := form_word _ _
theorem mrsum (x) : Statement (.mrsum x) := form_word _ _
theorem mst (x) : Statement (.mst x) := form_word _ _
theorem mflag (x) : Statement (.mflag x) := form_word _ _
theorem smx (x) : Statement (.smx x) := form_word _ _
theorem kvmap (x) : Statement (.kvmap x) := form_word _ _
theorem kvapp (x) : Statement (.kvapp x) := form_word _ _
theorem kvacc (x) : Statement (.kvacc x) := form_word _ _
theorem kvsel (x) : Statement (.kvsel x) := form_word _ _
theorem kvpack (x) : Statement (.kvpack x) := form_word _ _
theorem kvscl (x) : Statement (.kvscl x) := form_word _ _
theorem xpost (x) : Statement (.xpost x) := form_word _ _
theorem xgath (x) : Statement (.xgath x) := form_word _ _
theorem xstat (x) : Statement (.xstat x) := form_word _ _
theorem xcp (x) : Statement (.xcp x) := form_word _ _
theorem xtwait (x) : Statement (.xtwait x) := form_word _ _
theorem binit (x) : Statement (.binit x) := form_word _ _
theorem barr (x) : Statement (.barr x) := form_word _ _
theorem bwait (x) : Statement (.bwait x) := form_word _ _
theorem byld (x) : Statement (.byld x) := form_word _ _
theorem cbar (x) : Statement (.cbar x) := form_word _ _
theorem emit (x) : Statement (.emit x) := form_word _ _
theorem wqpop (x) : Statement (.wqpop x) := form_word _ _
theorem wqsteal (x) : Statement (.wqsteal x) := form_word _ _
theorem trap (x) : Statement (.trap x) := form_word _ _
theorem tfence (x) : Statement (.tfence x) := form_word _ _
theorem rte (x) : Statement (.rte x) := form_word _ _
theorem rds (x) : Statement (.rds x) := form_word _ _
theorem wrs (x) : Statement (.wrs x) := form_word _ _
theorem brk (x) : Statement (.brk x) := form_word _ _
theorem icinv (x) : Statement (.icinv x) := form_word _ _
theorem isync (x) : Statement (.isync x) := form_word _ _
theorem pairWord (x) : Statement (.pairWord x) := pair_form x
theorem loadValueArrival crew pair load lane err : Statement (.loadValueArrival crew pair load lane err) := form_word _ _
theorem storePairing crew pair q : Statement (.storePairing crew pair q) := form_word _ _
theorem storeQueueDrain crew pair : Statement (.storeQueueDrain crew pair) := form_word _ _
theorem missRejectionAged crew pair : Statement (.missRejectionAged crew pair) := form_word _ _
theorem commandAcceptance core : Statement (.commandAcceptance core) := form_word _ _
theorem engineRowFinish core cmd row r data : Statement (.engineRowFinish core cmd row r data) := form_word _ _
theorem remoteWriteAck core cmd row r : Statement (.remoteWriteAck core cmd row r) := form_word _ _
theorem remoteReply crew pair load lane r data : Statement (.remoteReply crew pair load lane r data) := form_word _ _
theorem remoteTimeout r : Statement (.remoteTimeout r) := form_word _ _
theorem remoteRequest r : Statement (.remoteRequest r) := form_word _ _
theorem xcpComplete crew pair idx : Statement (.xcpComplete crew pair idx) := form_word _ _
theorem updateAccept crew pair : Statement (.updateAccept crew pair) := form_word _ _
theorem continuationPack core deque : Statement (.continuationPack core deque) := form_word _ _
theorem clockGate core : Statement (.clockGate core) := form_word _ _
theorem coreWake core reason : Statement (.coreWake core reason) := form_word _ _
theorem unitBoost u : Statement (.unitBoost u) := form_word _ _
theorem preemptionRequest queue : Statement (.preemptionRequest queue) := form_word _ _
theorem deadlineExpiry crew : Statement (.deadlineExpiry crew) := form_word _ _
theorem crewSave crew : Statement (.crewSave crew) := form_word _ _
theorem crewResume crew : Statement (.crewResume crew) := form_word _ _
theorem crewPlacement queue : Statement (.crewPlacement queue) := form_word _ _
theorem machineCheckDelivery u : Statement (.machineCheckDelivery u) := form_word _ _
theorem patrolRead p : Statement (.patrolRead p) := form_word _ _
theorem bankFailMark core bank : Statement (.bankFailMark core bank) := form_word _ _
theorem launch queue : Statement (.launch queue) := form_word _ _
theorem eventWait queue : Statement (.eventWait queue) := form_word _ _
theorem eventWaitPoll queue : Statement (.eventWaitPoll queue) := form_word _ _
theorem eventWrite queue : Statement (.eventWrite queue) := form_word _ _
theorem noOpRecord queue : Statement (.noOpRecord queue) := form_word _ _
theorem launchCompletion queue : Statement (.launchCompletion queue) := form_word _ _
theorem queueSwitchIn queue : Statement (.queueSwitchIn queue) := form_word _ _
theorem queueSwitchOut queue : Statement (.queueSwitchOut queue) := form_word _ _
theorem tailW queue val : Statement (.tailW queue val) := form_word _ _
theorem cfgW queue val : Statement (.cfgW queue val) := form_word _ _
theorem holdW queue : Statement (.holdW queue) := form_word _ _
theorem relW queue : Statement (.relW queue) := form_word _ _
theorem clrW queue : Statement (.clrW queue) := form_word _ _
theorem mailboxQuery : Statement (.mailboxQuery) := form_word _ _
theorem mailboxLoad : Statement (.mailboxLoad) := form_word _ _
theorem mailboxUnload : Statement (.mailboxUnload) := form_word _ _
theorem mailboxEvict : Statement (.mailboxEvict) := form_word _ _
theorem translationInvalidate ctl : Statement (.translationInvalidate ctl) := form_word _ _
theorem invalidationComplete : Statement (.invalidationComplete) := form_word _ _
theorem debugHalt ctx cmd : Statement (.debugHalt ctx cmd) := form_word _ _
theorem debugResume ctx cmd : Statement (.debugResume ctx cmd) := form_word _ _
theorem debugStep ctx cmd : Statement (.debugStep ctx cmd) := form_word _ _
theorem debugRead ctx cmd : Statement (.debugRead ctx cmd) := form_word _ _
theorem debugWrite ctx cmd : Statement (.debugWrite ctx cmd) := form_word _ _
theorem faultClear ctx : Statement (.faultClear ctx) := form_word _ _
theorem mcheckClear ctx : Statement (.mcheckClear ctx) := form_word _ _
theorem contextEntryWrite ctx off val : Statement (.contextEntryWrite ctx off val) := form_word _ _
theorem injectionRegisterWrite block val : Statement (.injectionRegisterWrite block val) := form_word _ _
theorem failedBankMaskWrite core mask : Statement (.failedBankMaskWrite core mask) := form_word _ _
theorem domainIdWrite val : Statement (.domainIdWrite val) := form_word _ _
theorem astatClear : Statement (.astatClear) := form_word _ _
theorem fuseRaise : Statement (.fuseRaise) := form_word _ _
theorem registerWrite off val : Statement (.registerWrite off val) := form_word _ _
theorem goW val : Statement (.goW val) := form_word _ _
theorem powerOn : Statement (.powerOn) := form_word _ _
theorem cxlReset : Statement (.cxlReset) := form_word _ _
theorem conventionalReset : Statement (.conventionalReset) := form_word _ _
theorem thermalTrip : Statement (.thermalTrip) := form_word _ _
theorem throttle power tj : Statement (.throttle power tj) := form_word _ _
theorem hostMemRead addr len : Statement (.hostMemRead addr len) := form_word _ _
theorem hostMemWrite addr data : Statement (.hostMemWrite addr data) := form_word _ _
theorem portDown port : Statement (.portDown port) := form_word _ _
theorem matrixPass core bank : Statement (.matrixPass core bank) := form_word _ _
theorem spdmRequest r : Statement (.spdmRequest r) := form_word _ _
theorem powerLoss : Statement (.powerLoss) := form_word _ _

end Sys2Proof.Laws.Encoding
end

