-- ==== Sys2Proof/Tests/Slice0.lean ====
section
/-! SUPPORT. Tests: words written from the encoding tables, ill-formed terms, single steps, and witnesses for the hypotheses of the statements. -/
set_option Elab.async false

namespace Sys2Proof.Tests
open Sys2Proof.Machine

/-! ### Words written from the encoding tables -/

/-- A full-form word from its fields (Table 2.2): opcode, guard with its negation as bit 4, destination, first and second source, modifier. -/
def fields (op g d a b mod : Nat) : Nat := op * 2 ^ 52 + g * 2 ^ 47 + d * 2 ^ 37 + a * 2 ^ 28 + b * 2 ^ 19 + mod

/-- Every word decodes to the instruction beside it. -/
def reads (l : List (Nat × Instr)) : Bool := l.all fun p => decide (decodeTableWord 64 p.1 = some p.2)

/-- Table 6.1: group 0. -/
def wordsControl : List (Nat × Instr) := [
    (fields 0x000 0 0x000 0x000 0x000 0x00000, .nop { g := ⟨false, 0⟩, long := false }),
    (fields 0x001 0 0x000 0x000 0x000 0x00000 + 0xFFFFFFF, .bra { g := ⟨false, 0⟩, disp := -1 }),
    (fields 0x002 0 0x000 0x006 0x000 0x00000, .brx { g := ⟨false, 0⟩, t := .v 6 }),
    (fields 0x003 0 0x002 0x000 0x000 0x00000 + 16, .call { g := ⟨false, 0⟩, nwb := false, link := .v 2, disp := 16 }),
    (fields 0x004 0 0x002 0x004 0x000 0x00000, .calx { g := ⟨false, 0⟩, nwb := false, link := .v 2, t := .v 4 }),
    (fields 0x005 0 0x000 0x144 0x000 0x00000, .ret { g := ⟨false, 0⟩, t := .s 4 }),
    (fields 0x006 18 0x000 0x000 0x000 0x00000, .exit { g := ⟨true, 2⟩ }),
    (fields 0x007 0 0x000 0x000 0x000 0x7FFFF, .rcv { g := ⟨false, 0⟩, disp := -1 }),
    (fields 0x008 0 0x001 0x000 0x000 0x00002, .setw { g := ⟨false, 0⟩, nwb := false, d := .v 1, req := 2 }),
    (fields 0x009 0 0x142 0x000 0x000 0x00000, .pyld { g := ⟨false, 0⟩, nwb := false, d := .s 2 }),
    (fields 0x00A 0 0x003 0x003 0x000 0x00000 + 0xFFFFFFC, .loop { g := ⟨false, 0⟩, nwb := false, x := .v 3, disp := -4 })]
theorem test_decode_control : reads wordsControl = true := by decide +kernel

/-- Table 6.3: group 1. -/
def wordsInteger : List (Nat × Instr) := [
    (fields 0x040 0 0x001 0x002 0x003 0x1C200, .iadd { g := ⟨false, 0⟩, nwb := false, d := .v 1, a := .v 2, b := .v 3, c := .none, ty := .z32, rnd := .rn, ftz := false, flag := true }),
    (fields 0x041 0 0x001 0x002 0x003 0x0C000, .isub { g := ⟨false, 0⟩, nwb := false, d := .v 1, a := .v 2, b := .v 3, c := .none, ty := .s32, rnd := .rn, ftz := false, flag := false }),
    (fields 0x042 0 0x001 0x002 0x003 0x1C121, .iaddc { g := ⟨false, 0⟩, nwb := false, d := .v 1, a := .v 2, b := .v 3, ty := .z32, ko := 1, ki := 2, cin := true }),
    (fields 0x043 0 0x001 0x002 0x003 0x1C004, .isubb { g := ⟨false, 0⟩, nwb := false, d := .v 1, a := .v 2, b := .v 3, ty := .z32, ko := 4, ki := 0, cin := false }),
    (fields 0x044 0 0x001 0x002 0x003 0x0C000, .imul { g := ⟨false, 0⟩, nwb := false, d := .v 1, a := .v 2, b := .v 3, c := .none, ty := .s32, rnd := .rn, ftz := false, flag := false }),
    (fields 0x045 0 0x001 0x002 0x003 0x1C000, .imulh { g := ⟨false, 0⟩, nwb := false, d := .v 1, a := .v 2, b := .v 3, c := .none, ty := .z32, rnd := .rn, ftz := false, flag := false }),
    (fields 0x046 0 0x001 0x002 0x003 0x0C004, .imad { g := ⟨false, 0⟩, nwb := false, d := .v 1, a := .v 2, b := .v 3, c := .v 4, ty := .s32, rnd := .rn, ftz := false, flag := false }),
    (fields 0x047 0 0x001 0x002 0x003 0x0C000, .idiv { g := ⟨false, 0⟩, nwb := false, d := .v 1, a := .v 2, b := .v 3, c := .none, ty := .s32, rnd := .rn, ftz := false, flag := false }),
    (fields 0x048 0 0x001 0x002 0x003 0x00000, .irem { g := ⟨false, 0⟩, nwb := false, d := .v 1, a := .v 2, b := .v 3, c := .none, ty := .dflt, rnd := .rn, ftz := false, flag := false }),
    (fields 0x049 0 0x001 0x002 0x000 0x0C200, .iabs { g := ⟨false, 0⟩, nwb := false, d := .v 1, a := .v 2, b := .none, c := .none, ty := .s32, rnd := .rn, ftz := false, flag := true }),
    (fields 0x04A 0 0x001 0x002 0x000 0x0C000, .ineg { g := ⟨false, 0⟩, nwb := false, d := .v 1, a := .v 2, b := .none, c := .none, ty := .s32, rnd := .rn, ftz := false, flag := false }),
    (fields 0x04B 0 0x001 0x002 0x003 0x0C000, .imin { g := ⟨false, 0⟩, nwb := false, d := .v 1, a := .v 2, b := .v 3, c := .none, ty := .s32, rnd := .rn, ftz := false, flag := false }),
    (fields 0x04C 0 0x001 0x002 0x003 0x0C000, .imax { g := ⟨false, 0⟩, nwb := false, d := .v 1, a := .v 2, b := .v 3, c := .none, ty := .s32, rnd := .rn, ftz := false, flag := false }),
    (fields 0x04D 0 0x001 0x002 0x003 0x0C140, .isad { g := ⟨false, 0⟩, nwb := false, d := .v 1, a := .v 2, b := .v 3, c := .s 0, ty := .s32, rnd := .rn, ftz := false, flag := false }),
    (fields 0x04E 0 0x001 0x002 0x003 0x0C005, .iclamp { g := ⟨false, 0⟩, nwb := false, d := .v 1, a := .v 2, b := .v 3, c := .v 5, ty := .s32, rnd := .rn, ftz := false, flag := false }),
    (fields 0x04F 0 0x001 0x102 0x000 0x24000, .mov { g := ⟨false, 0⟩, nwb := false, d := .v 1, a := .l 2, b := .none, c := .none, ty := .b32, rnd := .rn, ftz := false, flag := false })]
theorem test_decode_integer : reads wordsInteger = true := by decide +kernel

/-- Table 2.12: immediate variants. -/
def wordsImmediate : List (Nat × Instr) := [
    (fields 0x060 0 0x007 0x003 0x000 0x00000 + 0x1234567, .iaddImm { g := ⟨false, 0⟩, nwb := false, d := .v 7, a := .v 3, imm := 0x1234567 }),
    (fields 0x061 0 0x007 0x003 0x000 0x00000 + 0x1234567, .isubImm { g := ⟨false, 0⟩, nwb := false, d := .v 7, a := .v 3, imm := 0x1234567 }),
    (fields 0x064 0 0x007 0x003 0x000 0x00000 + 0x1234567, .imulImm { g := ⟨false, 0⟩, nwb := false, d := .v 7, a := .v 3, imm := 0x1234567 }),
    (fields 0x06B 0 0x007 0x003 0x000 0x00000 + 0x1234567, .iminImm { g := ⟨false, 0⟩, nwb := false, d := .v 7, a := .v 3, imm := 0x1234567 }),
    (fields 0x06C 0 0x007 0x003 0x000 0x00000 + 0x1234567, .imaxImm { g := ⟨false, 0⟩, nwb := false, d := .v 7, a := .v 3, imm := 0x1234567 }),
    (fields 0x06F 0 0x007 0x000 0x000 0x00000 + 0x1234567, .movImm { g := ⟨false, 0⟩, nwb := false, d := .v 7, a := .none, imm := 0x1234567 }),
    (fields 0x0A0 0 0x007 0x003 0x000 0x00000 + 0x1234567, .andImm { g := ⟨false, 0⟩, nwb := false, d := .v 7, a := .v 3, imm := 0x1234567 }),
    (fields 0x0A1 0 0x007 0x003 0x000 0x00000 + 0x1234567, .orImm { g := ⟨false, 0⟩, nwb := false, d := .v 7, a := .v 3, imm := 0x1234567 }),
    (fields 0x0A2 0 0x007 0x003 0x000 0x00000 + 0x1234567, .xorImm { g := ⟨false, 0⟩, nwb := false, d := .v 7, a := .v 3, imm := 0x1234567 }),
    (fields 0x0A5 0 0x007 0x003 0x000 0x00000 + 0x1234567, .shlImm { g := ⟨false, 0⟩, nwb := false, d := .v 7, a := .v 3, imm := 0x1234567 }),
    (fields 0x0A6 0 0x007 0x003 0x000 0x00000 + 0x1234567, .shrImm { g := ⟨false, 0⟩, nwb := false, d := .v 7, a := .v 3, imm := 0x1234567 }),
    (fields 0x0A7 0 0x007 0x003 0x000 0x00000 + 0x1234567, .sraImm { g := ⟨false, 0⟩, nwb := false, d := .v 7, a := .v 3, imm := 0x1234567 }),
    (fields 0x0A8 0 0x007 0x003 0x000 0x00000 + 0x1234567, .rotlImm { g := ⟨false, 0⟩, nwb := false, d := .v 7, a := .v 3, imm := 0x1234567 })]
theorem test_decode_immediate : reads wordsImmediate = true := by decide +kernel

/-- Table 6.5: group 2. -/
def wordsBits : List (Nat × Instr) := [
    (fields 0x080 0 0x001 0x002 0x003 0x24000, .andB { g := ⟨false, 0⟩, nwb := false, d := .v 1, a := .v 2, b := .v 3, c := .none, ty := .b32, rnd := .rn, ftz := false, flag := false }),
    (fields 0x081 0 0x001 0x002 0x003 0x24000, .orB { g := ⟨false, 0⟩, nwb := false, d := .v 1, a := .v 2, b := .v 3, c := .none, ty := .b32, rnd := .rn, ftz := false, flag := false }),
    (fields 0x082 0 0x001 0x002 0x149 0x24000, .xorB { g := ⟨false, 0⟩, nwb := false, d := .v 1, a := .v 2, b := .s 9, c := .none, ty := .b32, rnd := .rn, ftz := false, flag := false }),
    (fields 0x083 0 0x001 0x002 0x000 0x24000, .notB { g := ⟨false, 0⟩, nwb := false, d := .v 1, a := .v 2, b := .none, c := .none, ty := .b32, rnd := .rn, ftz := false, flag := false }),
    (fields 0x084 0 0x001 0x002 0x003 0x24096, .bfn { g := ⟨false, 0⟩, nwb := false, d := .v 1, a := .v 2, b := .v 3, ty := .b32, table := 0x96 }),
    (fields 0x085 0 0x001 0x002 0x003 0x24000, .shl { g := ⟨false, 0⟩, nwb := false, d := .v 1, a := .v 2, b := .v 3, c := .none, ty := .b32, rnd := .rn, ftz := false, flag := false }),
    (fields 0x086 0 0x001 0x002 0x003 0x24000, .shr { g := ⟨false, 0⟩, nwb := false, d := .v 1, a := .v 2, b := .v 3, c := .none, ty := .b32, rnd := .rn, ftz := false, flag := false }),
    (fields 0x087 0 0x001 0x002 0x003 0x24000, .sra { g := ⟨false, 0⟩, nwb := false, d := .v 1, a := .v 2, b := .v 3, c := .none, ty := .b32, rnd := .rn, ftz := false, flag := false }),
    (fields 0x088 0 0x001 0x002 0x003 0x24000, .rotl { g := ⟨false, 0⟩, nwb := false, d := .v 1, a := .v 2, b := .v 3, c := .none, ty := .b32, rnd := .rn, ftz := false, flag := false }),
    (fields 0x089 0 0x001 0x002 0x000 0x24000, .popc { g := ⟨false, 0⟩, nwb := false, d := .v 1, a := .v 2, b := .none, c := .none, ty := .b32, rnd := .rn, ftz := false, flag := false }),
    (fields 0x08A 0 0x001 0x002 0x000 0x24000, .clz { g := ⟨false, 0⟩, nwb := false, d := .v 1, a := .v 2, b := .none, c := .none, ty := .b32, rnd := .rn, ftz := false, flag := false }),
    (fields 0x08B 0 0x001 0x002 0x000 0x24000, .ctz { g := ⟨false, 0⟩, nwb := false, d := .v 1, a := .v 2, b := .none, c := .none, ty := .b32, rnd := .rn, ftz := false, flag := false }),
    (fields 0x08C 0 0x001 0x002 0x000 0x24000, .brev { g := ⟨false, 0⟩, nwb := false, d := .v 1, a := .v 2, b := .none, c := .none, ty := .b32, rnd := .rn, ftz := false, flag := false }),
    (fields 0x08D 0 0x001 0x002 0x003 0x24200, .bext { g := ⟨false, 0⟩, nwb := false, d := .v 1, a := .v 2, b := .v 3, c := .none, ty := .b32, rnd := .rn, ftz := false, flag := true }),
    (fields 0x08E 0 0x001 0x002 0x003 0x24004, .bins { g := ⟨false, 0⟩, nwb := false, d := .v 1, a := .v 2, b := .v 3, c := .v 4, ty := .b32, rnd := .rn, ftz := false, flag := false }),
    (fields 0x08F 0 0x001 0x002 0x003 0x24004, .bsel { g := ⟨false, 0⟩, nwb := false, d := .v 1, a := .v 2, b := .v 3, c := .v 4, ty := .b32, rnd := .rn, ftz := false, flag := false })]
theorem test_decode_bits : reads wordsBits = true := by decide +kernel

/-- Tables 6.6 to 6.8: group 3. -/
def wordsPredicate : List (Nat × Instr) := [
    (fields 0x0C0 0 0x000 0x004 0x005 0x0C021, .icmp { g := ⟨false, 0⟩, a := .v 4, b := .v 5, ty := .s32, ftz := false, kd := 1, cc := .lt }),
    (fields 0x0C1 0 0x000 0x004 0x005 0x34863, .fcmp { g := ⟨false, 0⟩, a := .v 4, b := .v 5, ty := .f32, ftz := true, kd := 3, cc := .ord }),
    (fields 0x0C2 0 0x001 0x002 0x000 0x34000, .fclass { g := ⟨false, 0⟩, nwb := false, d := .v 1, a := .v 2, b := .none, c := .none, ty := .f32, rnd := .rn, ftz := false, flag := false }),
    (fields 0x0C3 0 0x001 0x002 0x003 0x24007, .sel { g := ⟨false, 0⟩, nwb := false, d := .v 1, a := .v 2, b := .v 3, ty := .b32, kn := 7 }),
    (fields 0x0C4 0 0x000 0x000 0x000 0x00725, .kop { g := ⟨false, 0⟩, op := .andn, kd := 5, ka := 2, neg := true }),
    (fields 0x0C5 0 0x001 0x000 0x000 0x24006, .kmov { g := ⟨false, 0⟩, ty := .b32, form := .toReg false (.v 1) 6 }),
    (fields 0x0C5 0 0x000 0x002 0x000 0x24206, .kmov { g := ⟨false, 0⟩, ty := .b32, form := .ofReg (.v 2) 6 }),
    (fields 0x0C5 0 0x000 0x000 0x000 0x00534, .kmov { g := ⟨false, 0⟩, ty := .dflt, form := .copy 4 3 true })]
theorem test_decode_predicate : reads wordsPredicate = true := by decide +kernel

/-- Table 7.1: group 4. -/
def wordsFloat : List (Nat × Instr) := [
    (fields 0x100 0 0x001 0x002 0x003 0x37800, .fadd { g := ⟨false, 0⟩, nwb := false, d := .v 1, a := .v 2, b := .v 3, c := .none, ty := .f32, rnd := .ru, ftz := true, flag := false }),
    (fields 0x101 0 0x001 0x002 0x003 0x35000, .fsub { g := ⟨false, 0⟩, nwb := false, d := .v 1, a := .v 2, b := .v 3, c := .none, ty := .f32, rnd := .rz, ftz := false, flag := false }),
    (fields 0x102 0 0x001 0x002 0x003 0x36000, .fmul { g := ⟨false, 0⟩, nwb := false, d := .v 1, a := .v 2, b := .v 3, c := .none, ty := .f32, rnd := .rd, ftz := false, flag := false }),
    (fields 0x103 0 0x001 0x002 0x003 0x34004, .fma { g := ⟨false, 0⟩, nwb := false, d := .v 1, a := .v 2, b := .v 3, c := .v 4, ty := .f32, rnd := .rn, ftz := false, flag := false }),
    (fields 0x104 0 0x001 0x002 0x003 0x34000, .fmin { g := ⟨false, 0⟩, nwb := false, d := .v 1, a := .v 2, b := .v 3, c := .none, ty := .f32, rnd := .rn, ftz := false, flag := false }),
    (fields 0x105 0 0x001 0x002 0x003 0x34000, .fmax { g := ⟨false, 0⟩, nwb := false, d := .v 1, a := .v 2, b := .v 3, c := .none, ty := .f32, rnd := .rn, ftz := false, flag := false }),
    (fields 0x106 0 0x001 0x002 0x000 0x34000, .fabs { g := ⟨false, 0⟩, nwb := false, d := .v 1, a := .v 2, b := .none, c := .none, ty := .f32, rnd := .rn, ftz := false, flag := false }),
    (fields 0x107 0 0x001 0x002 0x000 0x34000, .fneg { g := ⟨false, 0⟩, nwb := false, d := .v 1, a := .v 2, b := .none, c := .none, ty := .f32, rnd := .rn, ftz := false, flag := false }),
    (fields 0x108 0 0x001 0x002 0x003 0x34004, .fclamp { g := ⟨false, 0⟩, nwb := false, d := .v 1, a := .v 2, b := .v 3, c := .v 4, ty := .f32, rnd := .rn, ftz := false, flag := false }),
    (fields 0x109 0 0x001 0x002 0x000 0x34000, .frcp { g := ⟨false, 0⟩, nwb := false, d := .v 1, a := .v 2, b := .none, c := .none, ty := .f32, rnd := .rn, ftz := false, flag := false }),
    (fields 0x10A 0 0x001 0x002 0x000 0x34000, .frsq { g := ⟨false, 0⟩, nwb := false, d := .v 1, a := .v 2, b := .none, c := .none, ty := .f32, rnd := .rn, ftz := false, flag := false }),
    (fields 0x10B 0 0x001 0x002 0x000 0x34000, .fsqrt { g := ⟨false, 0⟩, nwb := false, d := .v 1, a := .v 2, b := .none, c := .none, ty := .f32, rnd := .rn, ftz := false, flag := false }),
    (fields 0x10C 0 0x001 0x002 0x003 0x34000, .fdiv { g := ⟨false, 0⟩, nwb := false, d := .v 1, a := .v 2, b := .v 3, c := .none, ty := .f32, rnd := .rn, ftz := false, flag := false }),
    (fields 0x10D 0 0x001 0x002 0x003 0x34204, .fdot2 { g := ⟨false, 0⟩, nwb := false, d := .v 1, a := .v 2, b := .v 3, c := .v 4, ty := .f32, rnd := .rn, ftz := false, flag := true }),
    (fields 0x10E 0 0x001 0x002 0x000 0x34200, .frnd { g := ⟨false, 0⟩, nwb := false, d := .v 1, a := .v 2, b := .none, c := .none, ty := .f32, rnd := .rn, ftz := false, flag := true })]
theorem test_decode_float : reads wordsFloat = true := by decide +kernel

/-- Table 7.2: group 5. -/
def wordsDouble : List (Nat × Instr) := [
    (fields 0x140 0 0x002 0x004 0x006 0x38000, .dadd { g := ⟨false, 0⟩, nwb := false, d := .v 2, a := .v 4, b := .v 6, c := .none, ty := .f64, rnd := .rn, ftz := false, flag := false }),
    (fields 0x141 0 0x002 0x004 0x006 0x38000, .dsub { g := ⟨false, 0⟩, nwb := false, d := .v 2, a := .v 4, b := .v 6, c := .none, ty := .f64, rnd := .rn, ftz := false, flag := false }),
    (fields 0x142 0 0x002 0x004 0x006 0x38000, .dmul { g := ⟨false, 0⟩, nwb := false, d := .v 2, a := .v 4, b := .v 6, c := .none, ty := .f64, rnd := .rn, ftz := false, flag := false }),
    (fields 0x143 0 0x002 0x004 0x006 0x38008, .dfma { g := ⟨false, 0⟩, nwb := false, d := .v 2, a := .v 4, b := .v 6, c := .v 8, ty := .f64, rnd := .rn, ftz := false, flag := false }),
    (fields 0x144 0 0x002 0x004 0x006 0x38000, .dmin { g := ⟨false, 0⟩, nwb := false, d := .v 2, a := .v 4, b := .v 6, c := .none, ty := .f64, rnd := .rn, ftz := false, flag := false }),
    (fields 0x145 0 0x002 0x004 0x006 0x38000, .dmax { g := ⟨false, 0⟩, nwb := false, d := .v 2, a := .v 4, b := .v 6, c := .none, ty := .f64, rnd := .rn, ftz := false, flag := false }),
    (fields 0x146 0 0x002 0x004 0x006 0x38000, .ddiv { g := ⟨false, 0⟩, nwb := false, d := .v 2, a := .v 4, b := .v 6, c := .none, ty := .f64, rnd := .rn, ftz := false, flag := false }),
    (fields 0x147 0 0x002 0x004 0x000 0x38000, .dsqrt { g := ⟨false, 0⟩, nwb := false, d := .v 2, a := .v 4, b := .none, c := .none, ty := .f64, rnd := .rn, ftz := false, flag := false }),
    (fields 0x148 0 0x001 0x002 0x000 0x34000, .fex2 { g := ⟨false, 0⟩, nwb := false, d := .v 1, a := .v 2, b := .none, c := .none, ty := .f32, rnd := .rn, ftz := false, flag := false }),
    (fields 0x149 0 0x001 0x002 0x000 0x34000, .flg2 { g := ⟨false, 0⟩, nwb := false, d := .v 1, a := .v 2, b := .none, c := .none, ty := .f32, rnd := .rn, ftz := false, flag := false }),
    (fields 0x14A 0 0x001 0x002 0x000 0x34000, .fsin { g := ⟨false, 0⟩, nwb := false, d := .v 1, a := .v 2, b := .none, c := .none, ty := .f32, rnd := .rn, ftz := false, flag := false }),
    (fields 0x14B 0 0x001 0x002 0x000 0x34000, .fcos { g := ⟨false, 0⟩, nwb := false, d := .v 1, a := .v 2, b := .none, c := .none, ty := .f32, rnd := .rn, ftz := false, flag := false }),
    (fields 0x14C 0 0x001 0x002 0x000 0x34800, .ftanh { g := ⟨false, 0⟩, nwb := false, d := .v 1, a := .v 2, b := .none, c := .none, ty := .f32, rnd := .rn, ftz := true, flag := false })]
theorem test_decode_double : reads wordsDouble = true := by decide +kernel

/-- Table 7.4: group 6. -/
def wordsConvert : List (Nat × Instr) := [
    (fields 0x180 0 0x001 0x002 0x000 0x0D00D, .cvt { g := ⟨false, 0⟩, nwb := false, d := .v 1, a := .v 2, ty := .s32, st := .f32, rnd := .rz, ftz := false, sat := false }),
    (fields 0x181 0 0x001 0x002 0x003 0x3C200, .fpk { g := ⟨false, 0⟩, nwb := false, d := .v 1, a := .v 2, b := .v 3, ty := .e4m3, rnd := .rn, ftz := false, j := 1 }),
    (fields 0x182 0 0x001 0x002 0x000 0x3C003, .fupk { g := ⟨false, 0⟩, nwb := false, d := .v 1, a := .v 2, ty := .e4m3, ftz := false, j := 3 }),
    (fields 0x183 0 0x001 0x002 0x000 0x6C800, .bfq { g := ⟨false, 0⟩, nwb := false, d := .v 1, a := .v 2, b := .none, c := .none, ty := .m8, rnd := .rn, ftz := true, flag := false }),
    (fields 0x184 0 0x001 0x002 0x000 0x5C000, .bfd { g := ⟨false, 0⟩, nwb := false, d := .v 1, a := .v 2, b := .none, c := .none, ty := .m4, rnd := .rn, ftz := false, flag := false }),
    (fields 0x185 0 0x001 0x002 0x003 0x34200, .escl { g := ⟨false, 0⟩, nwb := false, d := .v 1, a := .v 2, b := .v 3, ty := .f32, rnd := .rn, ftz := false, op := .apply })]
theorem test_decode_convert : reads wordsConvert = true := by decide +kernel

/-- Table 7.7: group 7. -/
def wordsLanes : List (Nat × Instr) := [
    (fields 0x1C0 0 0x001 0x002 0x003 0x24600, .shfl { g := ⟨false, 0⟩, nwb := false, d := .v 1, a := .v 2, b := .v 3, ty := .b32, mode := .xor }),
    (fields 0x1C1 0 0x000 0x000 0x000 0x00325, .vote { g := ⟨false, 0⟩, mode := .any, kd := 5, ka := 2, neg := true }),
    (fields 0x1C2 0 0x142 0x000 0x000 0x00013, .ballot { g := ⟨false, 0⟩, nwb := false, d := .s 2, ka := 3, neg := true }),
    (fields 0x1C3 0 0x001 0x002 0x000 0x0C002, .redx { g := ⟨false, 0⟩, nwb := false, d := .v 1, a := .v 2, ty := .s32, ftz := false, op := .max, excl := false }),
    (fields 0x1C4 0 0x001 0x002 0x000 0x34200, .scan { g := ⟨false, 0⟩, nwb := false, d := .v 1, a := .v 2, ty := .f32, ftz := false, op := .add, excl := true }),
    (fields 0x1C5 0 0x004 0x002 0x000 0x24000, .matchL { g := ⟨false, 0⟩, nwb := false, d := .v 4, a := .v 2, b := .none, c := .none, ty := .b32, rnd := .rn, ftz := false, flag := false }),
    (fields 0x1C6 0 0x001 0x002 0x000 0x24200, .bcast { g := ⟨false, 0⟩, nwb := false, d := .v 1, a := .v 2, b := .none, c := .none, ty := .b32, rnd := .rn, ftz := false, flag := true }),
    (fields 0x1C7 0 0x001 0x002 0x144 0x00000, .regroup { g := ⟨false, 0⟩, nwb := false, d := .v 1, key := .v 2, live := .s 4 })]
theorem test_decode_lanes : reads wordsLanes = true := by decide +kernel

/-- Tables 8.1 to 8.3: group 8. -/
def wordsAccessMemory : List (Nat × Instr) := [
    (fields 0x200 0 0x111 0x001 0x000 0x007FF, .lq { g := ⟨false, 0⟩, d := .q 1, base := .a 1, v := .none, sz := .b32, ord := .none, scope := .thread, x := true, ro := true, disp := -1 }),
    (fields 0x201 0 0x003 0x001 0x000 0x56002, .la { g := ⟨false, 0⟩, d := .a 3, base := .a 1, v := .none, sz := .b64, ord := .acq, scope := .die, x := false, ro := false, disp := 2 }),
    (fields 0x202 0 0x000 0x001 0x11C 0x09000, .sa { g := ⟨false, 0⟩, d := .none, base := .a 1, v := .q 12, sz := .b32, ord := .rel, scope := .crew, x := false, ro := false, disp := 0 }),
    (fields 0x203 0 0x000 0x001 0x143 0x30405, .sd { g := ⟨false, 0⟩, d := .none, base := .a 1, v := .c 3, sz := .z16, ord := .none, scope := .thread, x := true, ro := false, disp := 5 }),
    (fields 0x204 0 0x112 0x001 0x000 0x60000, .lsq { g := ⟨false, 0⟩, d := .q 2, base := .a 1, v := .none, sz := .s32, ord := .none, scope := .thread, x := false, ro := false, disp := 0 }),
    (fields 0x205 0 0x142 0x144 0x000 0x20000, .lsa { g := ⟨false, 0⟩, d := .c 2, base := .c 4, v := .none, sz := .s8, ord := .none, scope := .thread, x := false, ro := false, disp := 0 }),
    (fields 0x206 0 0x000 0x001 0x11D 0x40000, .ssa { g := ⟨false, 0⟩, d := .none, base := .a 1, v := .q 13, sz := .s16, ord := .none, scope := .thread, x := false, ro := false, disp := 0 }),
    (fields 0x207 0 0x000 0x001 0x000 0x00400, .pf { g := ⟨false, 0⟩, d := .none, base := .a 1, v := .none, sz := .b32, ord := .none, scope := .thread, x := true, ro := false, disp := 0 }),
    (fields 0x208 0 0x111 0x001 0x145 0x10000, .rlq { g := ⟨false, 0⟩, d := .q 1, base := .a 1, v := .c 5, sz := .z8, ord := .none, scope := .thread, x := false, ro := false, disp := 0 }),
    (fields 0x209 0 0x003 0x001 0x000 0x7FFF8, .lea { g := ⟨false, 0⟩, d := .a 3, base := .a 1, disp := -8 })]
theorem test_decode_access_memory : reads wordsAccessMemory = true := by decide +kernel

/-- Table 8.4: group 9. -/
def wordsQueues : List (Nat × Instr) := [
    (fields 0x240 0 0x116 0x004 0x000 0x0003B, .qpush { g := ⟨false, 0⟩, nwb := false, qd := .q 6, v := .v 4, en := true, neg := true, kt := 11 }),
    (fields 0x241 0 0x004 0x110 0x000 0x00005, .qpop { g := ⟨false, 0⟩, nwb := false, d := .v 4, q := .q 0, kt := 5 }),
    (fields 0x242 0 0x004 0x000 0x000 0x00025, .qpeek { g := ⟨false, 0⟩, nwb := false, d := .v 4, n := 2, kt := 5 }),
    (fields 0x243 0 0x116 0x004 0x000 0x00020, .qend { g := ⟨false, 0⟩, nwb := false, qd := .q 6, v := .v 4 }),
    (fields 0x244 0 0x142 0x000 0x000 0x00120, .qstat { g := ⟨false, 0⟩, nwb := false, d := .s 2, clr := true, n := 2 }),
    (fields 0x245 0 0x000 0x000 0x000 0x00210, .qdrop { g := ⟨false, 0⟩, all := false, cnt := 2, n := 1 })]
theorem test_decode_queues : reads wordsQueues = true := by decide +kernel

/-- Table 8.8: group 10. -/
def wordsAtomics : List (Nat × Instr) := [
    (fields 0x280 0 0x142 0x143 0x144 0x1E5FF, .atom { g := ⟨false, 0⟩, d := .c 2, base := .c 3, v := .c 4, op := .min, ord := .ar, scope := .die, ty := .z64, disp := -1 }),
    (fields 0x281 0 0x142 0x143 0x144 0x05345, .acas { g := ⟨false, 0⟩, d := .c 2, base := .c 3, cmp := .c 4, new := .c 5, ord := .acq, scope := .crew, wide := true }),
    (fields 0x282 0 0x000 0x000 0x000 0x0D000, .fence { g := ⟨false, 0⟩, sem := .ar, scope := .crew }),
    (fields 0x283 0 0x000 0x001 0x116 0x0FFFC, .upd { g := ⟨false, 0⟩, base := .a 1, v := .q 6, disp := -4 }),
    (fields 0x284 0 0x000 0x001 0x002 0x00000, .uflush { g := ⟨false, 0⟩, base := .a 1, len := .a 2, flag := false }),
    (fields 0x285 0 0x000 0x143 0x000 0x00007, .ubind { g := ⟨false, 0⟩, base := .c 3, n := 7 }),
    (fields 0x286 0 0x000 0x000 0x000 0x00007, .uunbind { g := ⟨false, 0⟩, base := .none, n := 7 }),
    (fields 0x287 0 0x000 0x001 0x002 0x00000, .cinv { g := ⟨false, 0⟩, base := .a 1, len := .a 2, flag := false }),
    (fields 0x288 0 0x000 0x001 0x002 0x00200, .cwb { g := ⟨false, 0⟩, base := .a 1, len := .a 2, flag := true })]
theorem test_decode_atomics : reads wordsAtomics = true := by decide +kernel

/-- Tables 9.1 and 9.2: group 11. -/
def wordsMatrix : List (Nat × Instr) := [
    (fields 0x2C0 0 0x000 0x143 0x000 0x001FF, .stld { g := ⟨false, 0⟩, off := .s 3, j := 511 }),
    (fields 0x2C1 0 0x000 0x143 0x000 0x00002, .stsp { g := ⟨false, 0⟩, off := .s 3, j := 2 }),
    (fields 0x2C2 0 0x000 0x000 0x000 0x00002, .stinv { g := ⟨false, 0⟩, off := .none, j := 2 }),
    (fields 0x2C3 0 0x000 0x008 0x141 0x12A03, .mma { g := ⟨false, 0⟩, a := .v 8, klen := .s 1, fa := .m4, fb := .m8, ftz := true, t := 1, j := 3 }),
    (fields 0x2C4 0 0x000 0x110 0x005 0x3F403, .mmac { g := ⟨false, 0⟩, a := .q 0, klen := .v 5, fa := .e4m3, fb := .e2m1, ftz := false, t := 2, j := 3 }),
    (fields 0x2C5 0 0x000 0x004 0x000 0x2BA06, .msca { g := ⟨false, 0⟩, e := .v 4, shift := 10, ftz := true, u := 3, t := 1, j := 6 }),
    (fields 0x2C6 0 0x000 0x000 0x000 0x00035, .mzero { g := ⟨false, 0⟩, pm := 3, mm := 5 }),
    (fields 0x2C7 0 0x008 0x000 0x000 0x37500, .mrd { g := ⟨false, 0⟩, d := .v 8, ty := .f32, clr := true, u := 2, col := 5 }),
    (fields 0x2C8 0 0x008 0x143 0x004 0x37580, .mrdx { g := ⟨false, 0⟩, d := .v 8, c := .s 3, r := .v 4, ty := .f32, ftz := true, u := 2, col := 5, st := true }),
    (fields 0x2C9 0 0x004 0x000 0x000 0x00800, .mrmax { g := ⟨false, 0⟩, nwb := false, d := .v 4, u := 1 }),
    (fields 0x2CA 0 0x004 0x000 0x000 0x01800, .mrsum { g := ⟨false, 0⟩, nwb := false, d := .v 4, u := 3 }),
    (fields 0x2CB 0 0x11C 0x000 0x000 0x00F00, .mst { g := ⟨false, 0⟩, d := .q 12, ty := .dflt, clr := false, u := 1, col := 7 }),
    (fields 0x2CC 0 0x004 0x000 0x000 0x00009, .mflag { g := ⟨false, 0⟩, nwb := false, d := .v 4, mask := 9 })]
theorem test_decode_matrix : reads wordsMatrix = true := by decide +kernel

/-- R272, R274, Table 9.8: group 12. -/
def wordsAttention : List (Nat × Instr) := [
    (fields 0x300 0 0x004 0x006 0x007 0x34943, .smx { g := ⟨false, 0⟩, nwb := false, d := .v 4, rold := .v 6, mx := .v 7, c := .s 3, ty := .f32, ftz := true }),
    (fields 0x301 0 0x003 0x142 0x004 0x00000, .kvmap { g := ⟨false, 0⟩, d := .a 3, h := .c 2, b := .a 4, w := .none }),
    (fields 0x302 0 0x000 0x142 0x143 0x00000, .kvapp { g := ⟨false, 0⟩, d := .none, h := .c 2, b := .c 3, w := .none }),
    (fields 0x303 0 0x000 0x001 0x004 0x00116, .kvacc { g := ⟨false, 0⟩, d := .none, h := .a 1, b := .a 4, w := .q 6 }),
    (fields 0x304 0 0x145 0x142 0x000 0x00000, .kvsel { g := ⟨false, 0⟩, d := .c 5, h := .c 2, b := .none, w := .none }),
    (fields 0x305 0 0x000 0x142 0x143 0x00000, .kvpack { g := ⟨false, 0⟩, d := .none, h := .c 2, b := .c 3, w := .none }),
    (fields 0x306 0 0x004 0x006 0x007 0x6C000, .kvscl { g := ⟨false, 0⟩, nwb := false, d := .v 4, a := .v 6, e := .v 7, ty := .m8, ftz := false })]
theorem test_decode_attention : reads wordsAttention = true := by decide +kernel

/-- Table 10.1: group 13. -/
def wordsEngines : List (Nat × Instr) := [
    (fields 0x340 0 0x000 0x002 0x000 0x00003, .xpost { g := ⟨false, 0⟩, base := .a 2, n := 3 }),
    (fields 0x342 0 0x003 0x000 0x000 0x00001, .xstat { g := ⟨false, 0⟩, d := .a 3, clr := true }),
    (fields 0x343 0 0x000 0x002 0x003 0x06B44, .xcp { g := ⟨false, 0⟩, d := .a 2, s := .a 3, n := .c 4, ro := true, sz := 2, tag := 5 }),
    (fields 0x344 0 0x000 0x000 0x000 0x0003A, .xtwait { g := ⟨false, 0⟩, m := 7, tag := 2 }),
    (fields 0x345 0 0x000 0x143 0x000 0x20009, .binit { g := ⟨false, 0⟩, b := .s 3, mode := .arrivals, exp := 9 }),
    (fields 0x346 0 0x000 0x143 0x000 0x00001, .barr { g := ⟨false, 0⟩, b := .s 3, n := 1 }),
    (fields 0x347 0 0x000 0x143 0x000 0x00002, .bwait { g := ⟨false, 0⟩, b := .s 3, t := .none, ph := .p0 }),
    (fields 0x348 0 0x000 0x143 0x146 0x00003, .byld { g := ⟨false, 0⟩, b := .s 3, t := .s 6, ph := .p1 }),
    (fields 0x349 0 0x000 0x000 0x000 0x00000, .cbar { g := ⟨false, 0⟩ }),
    (fields 0x34A 0 0x000 0x002 0x003 0x00004, .emit { g := ⟨false, 0⟩, e := .a 2, fh := .a 3, n := 4 }),
    (fields 0x34B 0 0x002 0x000 0x000 0x00005, .wqpop { g := ⟨false, 0⟩, d := .a 2, c := .none, kt := 5 }),
    (fields 0x34C 0 0x002 0x143 0x000 0x00005, .wqsteal { g := ⟨false, 0⟩, d := .a 2, c := .c 3, kt := 5 })]
theorem test_decode_engines : reads wordsEngines = true := by decide +kernel

/-- Table 10.5: group 14. -/
def wordsSystem : List (Nat × Instr) := [
    (fields 0x380 0 0x000 0x000 0x000 0x0003F, .trap { g := ⟨false, 0⟩, n := 63 }),
    (fields 0x381 0 0x000 0x000 0x000 0x00000, .tfence { g := ⟨false, 0⟩ }),
    (fields 0x382 0 0x000 0x000 0x000 0x00000, .rte { g := ⟨false, 0⟩ }),
    (fields 0x383 0 0x004 0x000 0x000 0x00018, .rds { g := ⟨false, 0⟩, nwb := false, d := .v 4, idx := 0x18 }),
    (fields 0x384 0 0x000 0x004 0x000 0x00014, .wrs { g := ⟨false, 0⟩, a := .v 4, idx := 0x14 }),
    (fields 0x385 0 0x000 0x000 0x000 0x00005, .brk { g := ⟨false, 0⟩, n := 5 }),
    (fields 0x386 0 0x000 0x004 0x006 0x00000, .icinv { g := ⟨false, 0⟩, base := .v 4, len := .v 6, flag := false }),
    (fields 0x387 0 0x000 0x000 0x000 0x00000, .isync { g := ⟨false, 0⟩ })]
theorem test_decode_system : reads wordsSystem = true := by decide +kernel
/-- Table 2.13: long words with their extension words; bits 127..64 are the second word. -/
theorem test_decode_long :
    decodeTableWord 128 (fields 0x050 0 2 0 0 0x28000 + 2 * 2 ^ 62 + 0x123456789A * 2 ^ 64) =
      some (.movi { g := ⟨false, 0⟩, nwb := false, d := .v 2, ty := .b64, imm := 0x123456789A }) ∧
    decodeTableWord 128 (fields 0x209 0 3 1 0 0 + 2 * 2 ^ 62 + 0xFFFFFFFFFFFFFFFF * 2 ^ 64) =
      some (.leaLong { g := ⟨false, 0⟩, d := .a 3, base := .a 1, disp := -1 }) ∧
    decodeTableWord 128 (fields 0x341 0 0 4 0 0 + 2 * 2 ^ 62 + (2 ^ 49 + 0x10 * 2 ^ 29 + 15 * 2 ^ 23 + 0x400) * 2 ^ 64) =
      some (.xgath { g := ⟨false, 0⟩, a := .a 4, cont := true, ro := false, bar := 0x10, esize := 15, dst := 0x400 }) := by decide +kernel

/-- Table 2.14 and the worked examples of 02, 06 and 07. -/
theorem test_decode_examples : reads [
    (0x1031_8020_201B_4004, .fma { g := ⟨false, 3⟩, nwb := false, d := .v 1, a := .v 2, b := .v 3, c := .v 4, ty := .f32, rnd := .rn, ftz := false, flag := false }),
    (0x0600_00E0_3FFF_FFFB, .iaddImm { g := ⟨false, 0⟩, nwb := false, d := .v 7, a := .v 3, imm := -5 }),
    (0x4100_2048_1C00_A140, .pairWord { s0 := { op := .iadd, ty := .s32, ftz := false, k := 0, nwb := false, d := 4, b := 9 },
                                        s1 := { op := .xor, ty := .b32, ftz := false, k := 0, nwb := false, d := 5, b := 10 } }),
    (0x3460_0014_3000_0001, .barr { g := ⟨false, 0⟩, b := .s 3, n := 1 })] = true := by decide +kernel

/-- R71: never-execute words are `nop`, whatever their other fields hold; a form 0b10 word is 16 bytes long. -/
theorem test_decode_never : reads [
    (fields 0x3FF 16 0x1FF 0x1FF 0x1FF 0x7FFFF, .nop { g := ⟨true, 0⟩, long := false }),
    (fields 0x050 16 0 0 0 0 + 2 * 2 ^ 62, .nop { g := ⟨true, 0⟩, long := true })] = true := by decide +kernel

/-- The decode checks refuse a word by name (R54, R56, R57, R69, R71, R72, R77). -/
def refuses (l : List (Slice × Nat × DecodeErr)) : Bool := l.all fun p =>
  match decodeChecked p.1 16 (fun q => if q = 0 then some .fwd else none) (BitVec.ofNat 64 p.2.1) 0 with
  | .error e => decide (e = p.2.2)
  | .ok _ => false

/-- Reserved form, unassigned opcode, wrong slice, guard on a collective, illegal operands and modifiers, pair class, pair banks, register beyond the count, misaligned pair, queue direction. -/
theorem test_decode_refuses : refuses [
    (.execute, 3 * 2 ^ 62, .reservedForm),
    (.execute, fields 0x3C0 0 0 0 0 0, .illegalOpcode),
    (.execute, fields 0x050 0 2 0 0 0, .illegalOpcode),
    (.access, fields 0x100 0 1 2 3 0, .wrongSlice),
    (.execute, fields 0x200 0 0x110 1 0 0, .wrongSlice),
    (.execute, fields 0x349 1 0 0 0 0, .guardOnCollective),
    (.execute, fields 0x040 0 0x104 2 3 0, .illegalOperand),
    (.execute, fields 0x040 0 0x102 2 3 0, .illegalOperand),
    (.execute, fields 0x040 0 1 2 3 0x001, .illegalOperand),
    (.execute, fields 0x040 0 1 2 3 0x78000, .illegalModifier),
    (.execute, fields 0x180 0 1 2 0 0xD20D, .illegalModifier),
    (.execute, 0x4100_2048_1C00_A141, .illegalPair),
    (.execute, 0x4100_2048_1C00_A140 + 3 * 2 ^ 13, .pairBankConflict),
    (.execute, fields 0x040 0 16 2 3 0, .registerBeyondCount),
    (.execute, fields 0x140 0 3 4 6 0, .misalignedPair),
    (.execute, fields 0x040 0 0x110 2 3 0, .queueDirection),
    (.access, fields 0x040 0 0x111 2 3 0, .queueDirection)] = true := by decide +kernel

/-! ### Ill-formed terms -/

/-- No term is well formed in its slice. -/
def illFormed (l : List (Slice × Instr)) : Bool := l.all fun p => !p.2.wf p.1

/-- The operands and modifiers of an ALU instruction that is well formed. -/
def aluOk : AluArgs :=
  { g := ⟨false, 0⟩, nwb := false, d := .v 1, a := .v 2, b := .v 3, c := .none, ty := .s32, rnd := .rn, ftz := false, flag := false }
/-- A load of group 8 that is well formed. -/
def memOk : MemArgs :=
  { g := ⟨false, 0⟩, d := .a 3, base := .a 1, v := .none, sz := .b32, ord := .none, scope := .thread, x := false, ro := false, disp := 0 }
/-- The two are well formed, and stop being so with a never-execute guard, a wrong operand or a wrong modifier. -/
theorem test_wf_alu : (Instr.iadd aluOk).wf .execute = true ∧ illFormed [
    (.execute, .iadd { aluOk with g := ⟨true, 0⟩ }), (.execute, .iadd { aluOk with d := .l 0 }), (.execute, .iadd { aluOk with d := .none }),
    (.execute, .iadd { aluOk with a := .a 2 }), (.execute, .iadd { aluOk with b := .none }), (.execute, .iadd { aluOk with c := .v 4 }),
    (.execute, .iadd { aluOk with ty := .f32 }), (.execute, .iadd { aluOk with rnd := .rz }), (.execute, .iadd { aluOk with ftz := true }),
    (.execute, .imul { aluOk with flag := true }), (.execute, .iadd { aluOk with d := .s 1 }), (.access, .fadd { aluOk with ty := .f32 }),
    (.access, .iadd { aluOk with d := .v 1 }), (.access, .iadd { aluOk with nwb := true, d := .a 1, a := .a 2, b := .a 3 })] = true := by decide +kernel

theorem test_wf_memory : (Instr.la memOk).wf .access = true ∧ illFormed [
    (.execute, .la memOk), (.access, .la { memOk with g := ⟨true, 0⟩ }), (.access, .la { memOk with d := .q 1 }), (.access, .lq memOk),
    (.access, .la { memOk with base := .q 1 }), (.access, .la { memOk with v := .a 2 }), (.access, .la { memOk with ord := .rel }),
    (.access, .la { memOk with x := true }), (.access, .lsa { memOk with ro := true }), (.access, .lq { memOk with d := .q 1, sz := .b64 })] = true := by
  decide +kernel

theorem test_wf_control : illFormed [
    (.execute, .bra { g := ⟨true, 0⟩, disp := 0 }), (.execute, .brx { g := ⟨false, 0⟩, t := .q 1 }), (.execute, .ret { g := ⟨true, 0⟩, t := .v 2 }),
    (.execute, .call { g := ⟨false, 0⟩, nwb := false, link := .q 6, disp := 0 }), (.execute, .call { g := ⟨true, 0⟩, nwb := false, link := .v 2, disp := 0 }),
    (.execute, .calx { g := ⟨false, 0⟩, nwb := false, link := .s 2, t := .v 4 }), (.execute, .exit { g := ⟨true, 0⟩ }),
    (.execute, .nop { g := ⟨false, 0⟩, long := true }), (.execute, .rcv { g := ⟨false, 1⟩, disp := 0 }), (.execute, .cbar { g := ⟨false, 1⟩ }),
    (.execute, .rte { g := ⟨true, 3⟩ }), (.execute, .setw { g := ⟨false, 2⟩, nwb := false, d := .v 1, req := 0 }),
    (.execute, .setw { g := ⟨false, 0⟩, nwb := false, d := .q 6, req := 0 }), (.execute, .pyld { g := ⟨false, 0⟩, nwb := false, d := .q 6 }),
    (.access, .pyld { g := ⟨false, 0⟩, nwb := true, d := .a 1 }), (.execute, .loop { g := ⟨false, 0⟩, nwb := false, x := .q 6, disp := 0 })] = true := by
  decide +kernel

theorem test_wf_values : illFormed [
    (.execute, .iaddc { g := ⟨false, 0⟩, nwb := false, d := .v 1, a := .v 2, b := .v 3, ty := .z32, ko := 1, ki := 2, cin := false }),
    (.execute, .isubb { g := ⟨false, 0⟩, nwb := false, d := .v 1, a := .v 2, b := .v 3, ty := .b32, ko := 1, ki := 0, cin := false }),
    (.execute, .movi { g := ⟨false, 0⟩, nwb := false, d := .v 1, ty := .s32, imm := 0 }),
    (.execute, .movImm { g := ⟨false, 0⟩, nwb := false, d := .v 1, a := .v 2, imm := 0 }),
    (.execute, .iaddImm { g := ⟨false, 0⟩, nwb := false, d := .v 1, a := .none, imm := 0 }),
    (.execute, .bfn { g := ⟨false, 0⟩, nwb := false, d := .q 6, a := .v 2, b := .v 3, ty := .b32, table := 0 }),
    (.execute, .icmp { g := ⟨false, 0⟩, a := .v 1, b := .v 2, ty := .s32, ftz := false, kd := 1, cc := .ord }),
    (.execute, .icmp { g := ⟨false, 0⟩, a := .v 1, b := .v 2, ty := .s32, ftz := true, kd := 1, cc := .eq }),
    (.access, .fcmp { g := ⟨false, 0⟩, a := .a 1, b := .a 2, ty := .f32, ftz := false, kd := 1, cc := .eq }),
    (.execute, .sel { g := ⟨false, 0⟩, nwb := false, d := .s 1, a := .s 2, b := .s 3, ty := .b32, kn := 1 }),
    (.execute, .kop { g := ⟨true, 0⟩, op := .and, kd := 1, ka := 2, neg := false }),
    (.execute, .kmov { g := ⟨false, 0⟩, ty := .b32, form := .toReg false (.s 1) 2 }),
    (.execute, .kmov { g := ⟨false, 0⟩, ty := .f32, form := .copy 1 2 false })] = true := by decide +kernel

theorem test_wf_vector : illFormed [
    (.execute, .cvt { g := ⟨false, 0⟩, nwb := false, d := .v 1, a := .v 2, ty := .s32, st := .f32, rnd := .rn, ftz := false, sat := true }),
    (.execute, .cvt { g := ⟨false, 0⟩, nwb := false, d := .v 1, a := .v 2, ty := .e4m3, st := .s32, rnd := .rn, ftz := false, sat := false }),
    (.execute, .fpk { g := ⟨false, 0⟩, nwb := false, d := .v 1, a := .v 2, b := .v 3, ty := .e4m3, rnd := .rn, ftz := false, j := 2 }),
    (.execute, .fpk { g := ⟨false, 0⟩, nwb := false, d := .q 6, a := .v 2, b := .v 3, ty := .e4m3, rnd := .rn, ftz := false, j := 0 }),
    (.execute, .fupk { g := ⟨false, 0⟩, nwb := false, d := .v 1, a := .v 2, ty := .e4m3, ftz := false, j := 4 }),
    (.execute, .escl { g := ⟨false, 0⟩, nwb := false, d := .v 1, a := .v 2, b := .v 3, ty := .f32, rnd := .rn, ftz := false, op := .get }),
    (.execute, .escl { g := ⟨false, 0⟩, nwb := false, d := .v 1, a := .v 2, b := .v 3, ty := .f32, rnd := .rz, ftz := false, op := .mul }),
    (.execute, .shfl { g := ⟨false, 0⟩, nwb := false, d := .s 1, a := .v 2, b := .v 3, ty := .b32, mode := .idx }),
    (.execute, .vote { g := ⟨true, 0⟩, mode := .all, kd := 1, ka := 2, neg := false }),
    (.execute, .ballot { g := ⟨false, 0⟩, nwb := false, d := .q 6, ka := 1, neg := false }),
    (.execute, .redx { g := ⟨false, 0⟩, nwb := false, d := .v 1, a := .v 2, ty := .s32, ftz := false, op := .and, excl := false }),
    (.execute, .redx { g := ⟨false, 0⟩, nwb := false, d := .v 1, a := .v 2, ty := .s32, ftz := false, op := .add, excl := true }),
    (.access, .scan { g := ⟨false, 0⟩, nwb := false, d := .a 1, a := .a 2, ty := .s32, ftz := false, op := .add, excl := false }),
    (.access, .regroup { g := ⟨false, 0⟩, nwb := false, d := .a 1, key := .a 2, live := .c 3 }),
    (.execute, .regroup { g := ⟨false, 0⟩, nwb := false, d := .s 1, key := .v 2, live := .s 4 }),
    (.execute, .bcast { aluOk with ty := .b32, flag := true })] = true := by decide +kernel

theorem test_wf_access : illFormed [
    (.access, .lea { g := ⟨false, 0⟩, d := .c 3, base := .a 1, disp := 0 }), (.execute, .leaLong { g := ⟨false, 0⟩, d := .a 3, base := .a 1, disp := 0 }),
    (.access, .qpush { g := ⟨false, 0⟩, nwb := false, qd := .q 1, v := .a 1, en := false, neg := false, kt := 1 }),
    (.access, .qpush { g := ⟨false, 0⟩, nwb := false, qd := .a 1, v := .a 1, en := false, neg := false, kt := 0 }),
    (.execute, .qpop { g := ⟨false, 0⟩, nwb := false, d := .s 1, q := .q 1, kt := 0 }),
    (.execute, .qpeek { g := ⟨true, 0⟩, nwb := false, d := .v 1, n := 1, kt := 0 }),
    (.access, .qend { g := ⟨false, 0⟩, nwb := true, qd := .q 1, v := .none }), (.execute, .qstat { g := ⟨false, 0⟩, nwb := false, d := .q 6, clr := false, n := 1 }),
    (.execute, .qdrop { g := ⟨false, 0⟩, all := true, cnt := 1, n := 1 }),
    (.access, .atom { g := ⟨false, 0⟩, d := .a 1, base := .c 2, v := .c 3, op := .add, ord := .none, scope := .thread, ty := .b32, disp := 0 }),
    (.access, .atom { g := ⟨false, 0⟩, d := .c 1, base := .c 2, v := .c 3, op := .min, ord := .none, scope := .thread, ty := .b32, disp := 0 }),
    (.access, .acas { g := ⟨false, 0⟩, d := .c 1, base := .c 2, cmp := .c 3, new := .a 4, ord := .none, scope := .thread, wide := false }),
    (.access, .fence { g := ⟨false, 0⟩, sem := .none, scope := .die }), (.access, .upd { g := ⟨false, 0⟩, base := .q 1, v := .a 2, disp := 0 }),
    (.access, .uflush { g := ⟨false, 0⟩, base := .a 1, len := .a 2, flag := true }), (.access, .ubind { g := ⟨false, 0⟩, base := .a 1, n := 0 }),
    (.access, .uunbind { g := ⟨false, 0⟩, base := .c 1, n := 0 }), (.execute, .cinv { g := ⟨false, 0⟩, base := .a 1, len := .a 2, flag := false }),
    (.access, .cwb { g := ⟨false, 0⟩, base := .a 1, len := .none, flag := false }),
    (.execute, .icinv { g := ⟨false, 0⟩, base := .v 2, len := .v 4, flag := true })] = true := by decide +kernel

theorem test_wf_matrix : illFormed [
    (.execute, .stld { g := ⟨false, 0⟩, off := .v 1, j := 0 }), (.execute, .stinv { g := ⟨false, 0⟩, off := .s 1, j := 0 }),
    (.execute, .mma { g := ⟨false, 0⟩, a := .v 2, klen := .s 1, fa := .m4, fb := .m8, ftz := false, t := 0, j := 0 }),
    (.execute, .mmac { g := ⟨false, 0⟩, a := .v 4, klen := .s 1, fa := .m4, fb := .m3, ftz := false, t := 0, j := 0 }),
    (.execute, .msca { g := ⟨false, 0⟩, e := .l 0, shift := 0, ftz := false, u := 0, t := 0, j := 0 }), (.execute, .mzero { g := ⟨false, 0⟩, pm := 0, mm := 0 }),
    (.execute, .mrd { g := ⟨false, 0⟩, d := .v 4, ty := .f32, clr := false, u := 0, col := 0 }),
    (.execute, .mrd { g := ⟨false, 0⟩, d := .v 8, ty := .s8, clr := false, u := 0, col := 0 }),
    (.execute, .mst { g := ⟨false, 0⟩, d := .v 8, ty := .f32, clr := false, u := 0, col := 0 }),
    (.execute, .mrdx { g := ⟨false, 0⟩, d := .v 4, c := .s 1, r := .v 2, ty := .f32, ftz := false, u := 0, col := 0, st := false }),
    (.execute, .mrmax { g := ⟨false, 0⟩, nwb := false, d := .s 1, u := 0 }), (.execute, .mflag { g := ⟨false, 0⟩, nwb := false, d := .s 1, mask := 0 })] = true := by
  decide +kernel

theorem test_wf_engines : illFormed [
    (.execute, .smx { g := ⟨false, 0⟩, nwb := false, d := .s 4, rold := .v 6, mx := .v 7, c := .s 3, ty := .f32, ftz := false }),
    (.execute, .smx { g := ⟨false, 0⟩, nwb := false, d := .v 4, rold := .v 6, mx := .s 7, c := .s 3, ty := .f32, ftz := false }),
    (.access, .kvmap { g := ⟨false, 0⟩, d := .c 3, h := .a 1, b := .c 1, w := .none }), (.access, .kvapp { g := ⟨false, 0⟩, d := .none, h := .a 1, b := .c 1, w := .none }),
    (.access, .kvacc { g := ⟨false, 0⟩, d := .none, h := .a 1, b := .c 1, w := .none }), (.access, .kvsel { g := ⟨false, 0⟩, d := .a 1, h := .a 2, b := .none, w := .none }),
    (.access, .kvpack { g := ⟨false, 0⟩, d := .none, h := .c 1, b := .none, w := .none }),
    (.execute, .kvscl { g := ⟨false, 0⟩, nwb := false, d := .v 4, a := .v 6, e := .v 7, ty := .m4, ftz := false }),
    (.access, .xpost { g := ⟨false, 0⟩, base := .q 1, n := 0 }), (.access, .xgath { g := ⟨false, 0⟩, a := .c 1, cont := false, ro := false, bar := 0, esize := 0, dst := 0 }),
    (.access, .xstat { g := ⟨false, 0⟩, d := .q 1, clr := false }), (.access, .xcp { g := ⟨false, 0⟩, d := .c 1, s := .a 1, n := .c 1, ro := false, sz := 0, tag := 0 }),
    (.execute, .xtwait { g := ⟨false, 0⟩, m := 0, tag := 0 }), (.execute, .binit { g := ⟨false, 0⟩, b := .s 1, mode := .rows, exp := 1 }),
    (.execute, .barr { g := ⟨false, 0⟩, b := .s 1, n := 0 }), (.execute, .bwait { g := ⟨false, 0⟩, b := .s 1, t := .s 2, ph := .p0 }),
    (.execute, .byld { g := ⟨false, 0⟩, b := .s 1, t := .none, ph := .p0 }), (.access, .emit { g := ⟨false, 0⟩, e := .a 1, fh := .a 2, n := 10 }),
    (.access, .wqpop { g := ⟨false, 0⟩, d := .a 9, c := .none, kt := 0 }), (.access, .wqsteal { g := ⟨false, 0⟩, d := .a 8, c := .none, kt := 0 })] = true := by
  decide +kernel

theorem test_wf_system : illFormed [
    (.execute, .trap { g := ⟨true, 0⟩, n := 0 }), (.execute, .brk { g := ⟨true, 0⟩, n := 0 }), (.execute, .tfence { g := ⟨true, 0⟩ }),
    (.execute, .isync { g := ⟨true, 0⟩ }), (.access, .rds { g := ⟨false, 0⟩, nwb := false, d := .q 1, idx := 0 }),
    (.execute, .wrs { g := ⟨false, 0⟩, a := .q 0, idx := 0x10 }),
    (.execute, .pairWord { s0 := { op := .iadd, ty := .f32, ftz := false, k := 0, nwb := false, d := 4, b := 9 },
                           s1 := { op := .xor, ty := .b32, ftz := false, k := 0, nwb := false, d := 5, b := 10 } }),
    (.execute, .pairWord { s0 := { op := .iadd, ty := .s32, ftz := false, k := 0, nwb := false, d := 4, b := 9 },
                           s1 := { op := .xor, ty := .b32, ftz := false, k := 0, nwb := false, d := 8, b := 10 } }),
    (.execute, .clockGate 0)] = true := by decide +kernel


/-! ### Single steps -/

/-- The same value in every lane of each listed v register of the stand-in's execute warp. -/
def withV (l : List (Nat × W32)) (s : State) : State :=
  s.onWarp 0 0 .execute fun w => { w with v := l.foldl (fun c p => (List.range 8).foldl (fun c ln => Cells.set c (64 * p.1 + ln) p.2) c) w.v }

/-- One value for each lane of a v register. -/
def withLanes (n : Nat) (l : List W32) (s : State) : State :=
  s.onWarp 0 0 .execute fun w => { w with v := l.zipIdx.foldl (fun c p => Cells.set c (64 * n + p.2) p.1) w.v }

/-- A predicate of both warps. -/
def withK (n : Nat) (m : W64) (s : State) : State :=
  (s.onWarp 0 0 .execute fun w => { w with k := Cells.set w.k n m }).onWarp 0 0 .access fun w => { w with k := Cells.set w.k n m }

/-- An s register of the execute warp. -/
def withS (n : Nat) (v : W32) (s : State) : State := s.onWarp 0 0 .execute fun w => { w with s := Cells.set w.s n v }

/-- A c register of the access warp. -/
def withC (n : Nat) (v : W64) (s : State) : State := s.onWarp 0 0 .access fun w => { w with c := Cells.set w.c n v }

/-- One value for each lane of an a register. -/
def withA (n : Nat) (l : List W64) (s : State) : State :=
  s.onWarp 0 0 .access fun w => { w with a := l.zipIdx.foldl (fun c p => Cells.set c (64 * n + p.2) p.1) w.a }

/-- Entries of a queue, each the same value in every lane, with the lanes of `tags` marked. -/
def withQ (n : Nat) (l : List (W32 × W64)) (s : State) : State :=
  s.onPair 0 0 fun p => match Tbl.get? p.queues n with
    | none => p
    | some q => { p with queues := Tbl.set p.queues n { q with entries := l.zipIdx.map fun e =>
        { id := e.2, vals := (List.range 8).foldl (fun c ln => Cells.set c ln e.1.1) [], tags := e.1.2, missing := 0 } } }

/-- Bytes of memory. -/
def withMem (a : Nat) (l : List Byte) (s : State) : State := { s with mem := Cells.setList s.mem a l }

/-- Bytes of the scratchpad of core 0. -/
def withScratch (a : Nat) (l : List Byte) (s : State) : State := s.setCore 0 { s.core 0 with scratch := Cells.setList (s.core 0).scratch a l }

/-- The state after the word has run as the next instruction. -/
def after (w : Nat) (f : State → State) : State :=
  match step (f (State.reset.withFetchWord 64 w)) with
  | .next t => t
  | _ => State.reset

/-- The same for a word with its extension word. -/
def afterLong (w x : Nat) (f : State → State) : State :=
  match step (f (State.reset.withFetchWord 128 (w + x * 2 ^ 64))) with
  | .next t => t
  | _ => State.reset

def pairOf (s : State) : Pair := (s.pair? 0 0).getD (startPair stubCrew 0 0 0 0 0 0 [])
def vOf (s : State) (n l : Nat) : W32 := (pairOf s).exe.getV n l
def aOf (s : State) (n l : Nat) : W64 := (pairOf s).acc.getA n l
def cOf (s : State) (n : Nat) : W64 := (pairOf s).acc.getC n
def kOf (s : State) (n : Nat) : W64 := (pairOf s).exe.pred n
def split0 (s : State) (sl : Slice) : Split := (Tbl.get? ((pairOf s).warp sl).splits 0).getD (Split.start 0 0)

/-- Each word, run on the registers before it, leaves the registers after it in lane 0, and these flags. -/
def runs (l : List (Nat × List (Nat × W32) × List (Nat × W32) × W32)) : Bool :=
  l.all fun t => let s := after t.1 (withV t.2.1)
    t.2.2.1.all (fun p => decide (vOf s p.1 0 = p.2)) && decide ((pairOf s).exe.getF 0 = t.2.2.2) && decide ((split0 s .execute).pc = 0x10008)

/-- R169 to R172: .sat at the bound, wrap, high halves, corners of division (Table 6.4), the absolute value of the least number. -/
theorem test_integer : runs [
    (fields 0x040 0 1 2 3 0x0C200, [(2, 0x7FFFFFFF), (3, 1)], [(1, 0x7FFFFFFF)], 0x20),
    (fields 0x040 0 1 2 3 0x0C000, [(2, 0x7FFFFFFF), (3, 1)], [(1, 0x80000000)], 0),
    (fields 0x041 0 1 2 3 0x1C200, [(2, 3), (3, 5)], [(1, 0)], 0x20),
    (fields 0x041 0 2 2 3 0x0C000, [(2, 3), (3, 5)], [(2, 0xFFFFFFFE)], 0),
    (fields 0x044 0 1 2 3 0x0C000, [(2, 0xFFFFFFFF), (3, 7)], [(1, 0xFFFFFFF9)], 0),
    (fields 0x045 0 1 2 3 0x1C000, [(2, 0xFFFFFFFF), (3, 0xFFFFFFFF)], [(1, 0xFFFFFFFE)], 0),
    (fields 0x045 0 1 2 3 0x0C000, [(2, 0xFFFFFFFF), (3, 7)], [(1, 0xFFFFFFFF)], 0),
    (fields 0x046 0 1 2 3 0x0C004, [(2, 3), (3, 5), (4, 7)], [(1, 22)], 0),
    (fields 0x047 0 1 2 3 0x0C000, [(2, 0xFFFFFFF9), (3, 2)], [(1, 0xFFFFFFFD)], 0),
    (fields 0x047 0 1 2 3 0x0C000, [(2, 9), (3, 0)], [(1, 0)], 2),
    (fields 0x048 0 1 2 3 0x0C000, [(2, 0xFFFFFFF9), (3, 2)], [(1, 0xFFFFFFFF)], 0),
    (fields 0x048 0 1 2 3 0x0C000, [(2, 9), (3, 0)], [(1, 9)], 2),
    (fields 0x049 0 1 2 0 0x0C200, [(2, 0x80000000)], [(1, 0x7FFFFFFF)], 0x20),
    (fields 0x04A 0 1 2 0 0x0C000, [(2, 0x80000000)], [(1, 0x80000000)], 0),
    (fields 0x04B 0 1 2 3 0x0C000, [(2, 0x80000000), (3, 1)], [(1, 0x80000000)], 0),
    (fields 0x04C 0 1 2 3 0x1C000, [(2, 0x80000000), (3, 1)], [(1, 0x80000000)], 0),
    (fields 0x04D 0 1 2 3 0x0C004, [(2, 3), (3, 7), (4, 8)], [(1, 12)], 0),
    (fields 0x04E 0 1 2 3 0x0C005, [(2, 9), (3, 6), (5, 4)], [(1, 4)], 0),
    (fields 0x04F 0 1 2 0 0x24000, [(2, 0xDEADBEEF)], [(1, 0xDEADBEEF)], 0)] = true := by decide +kernel

/-- R170: the carry out of the low half goes into the high half. -/
theorem test_carry :
    let s := after (fields 0x042 0 1 2 3 0x1C001) (withV [(2, 0xFFFFFFFF), (3, 1)])
    let t := after (fields 0x042 0 1 2 3 0x1C121) (fun s => withK 2 0xFF (withV [(2, 5), (3, 1)] s))
    let b := after (fields 0x043 0 1 2 3 0x1C004) (withV [(2, 1), (3, 2)])
    (vOf s 1 0, kOf s 1) = (0, 0xFF) ∧ (vOf t 1 0, kOf t 1) = (7, 0) ∧ (vOf b 1 0, kOf b 4) = (0xFFFFFFFF, 0xFF) := by decide +kernel

/-- R63, R64: the immediate variants and the long form. -/
theorem test_immediates : runs [
    (fields 0x060 0 7 3 0 0 + 0xFFFFFFB, [(3, 2)], [(7, 0xFFFFFFFD)], 0),
    (fields 0x061 0 7 3 0 0 + 5, [(3, 2)], [(7, 0xFFFFFFFD)], 0),
    (fields 0x064 0 7 3 0 0 + 0xFFFFFFF, [(3, 2)], [(7, 0xFFFFFFFE)], 0),
    (fields 0x06B 0 7 3 0 0 + 0xFFFFFFF, [(3, 2)], [(7, 0xFFFFFFFF)], 0),
    (fields 0x06C 0 7 3 0 0 + 0xFFFFFFF, [(3, 2)], [(7, 2)], 0),
    (fields 0x06F 0 7 0 0 0 + 0x8000000, [], [(7, 0xF8000000)], 0),
    (fields 0x0A0 0 7 3 0 0 + 0xFFFFF00, [(3, 0x12345678)], [(7, 0x12345600)], 0),
    (fields 0x0A1 0 7 3 0 0 + 1, [(3, 0x12345678)], [(7, 0x12345679)], 0),
    (fields 0x0A2 0 7 3 0 0 + 0xFFFFFFF, [(3, 0x12345678)], [(7, 0xEDCBA987)], 0),
    (fields 0x0A5 0 7 3 0 0 + 32, [(3, 1)], [(7, 0)], 0),
    (fields 0x0A6 0 7 3 0 0 + 31, [(3, 0x80000000)], [(7, 1)], 0),
    (fields 0x0A7 0 7 3 0 0 + 40, [(3, 0x80000000)], [(7, 0xFFFFFFFF)], 0),
    (fields 0x0A8 0 7 3 0 0 + 33, [(3, 0x80000000)], [(7, 1)], 0)] = true := by decide +kernel

theorem test_movi :
    let s := afterLong (0x8500_0040_0002_8000) (0x12_3456_789A) id
    (vOf s 2 5, vOf s 3 5, (split0 s .execute).pc) = (0x3456789A, 0x12, 0x10010) := by decide +kernel

/-- R174 to R176: shifts by the width and more, counts, the table of the three-input function, fields that the width cuts off. -/
theorem test_bits : runs [
    (fields 0x080 0 1 2 3 0x24000, [(2, 0xC), (3, 0xA)], [(1, 8)], 0), (fields 0x081 0 1 2 3 0x24000, [(2, 0xC), (3, 0xA)], [(1, 0xE)], 0),
    (fields 0x082 0 1 2 3 0x24000, [(2, 0xC), (3, 0xA)], [(1, 6)], 0), (fields 0x083 0 1 2 0 0x24000, [(2, 0xC)], [(1, 0xFFFFFFF3)], 0),
    (fields 0x084 0 1 2 3 0x240E8, [(1, 6), (2, 0xC), (3, 0xA)], [(1, 0xE)], 0), (fields 0x084 0 1 2 3 0x240CA, [(1, 6), (2, 0xC), (3, 0xA)], [(1, 0xA)], 0),
    (fields 0x085 0 1 2 3 0x24000, [(2, 3), (3, 31)], [(1, 0x80000000)], 0), (fields 0x085 0 1 2 3 0x24000, [(2, 3), (3, 32)], [(1, 0)], 0),
    (fields 0x086 0 1 2 3 0x24000, [(2, 0x80000000), (3, 0x80000001)], [(1, 0)], 0), (fields 0x087 0 1 2 3 0x24000, [(2, 0x80000000), (3, 40)], [(1, 0xFFFFFFFF)], 0),
    (fields 0x088 0 1 2 3 0x24000, [(2, 0x80000001), (3, 33)], [(1, 3)], 0), (fields 0x089 0 1 2 0 0x24000, [(2, 0xF0F00001)], [(1, 9)], 0),
    (fields 0x08A 0 1 2 0 0x24000, [(2, 1)], [(1, 31)], 0), (fields 0x08A 0 1 2 0 0x24000, [(2, 0)], [(1, 32)], 0),
    (fields 0x08B 0 1 2 0 0x24000, [(2, 0x80000000)], [(1, 31)], 0), (fields 0x08B 0 1 2 0 0x24000, [(2, 0)], [(1, 32)], 0),
    (fields 0x08C 0 1 2 0 0x24000, [(2, 0x80000001)], [(1, 0x80000001)], 0), (fields 0x08C 0 1 2 0 0x24000, [(2, 0x3)], [(1, 0xC0000000)], 0),
    (fields 0x08D 0 1 2 3 0x24200, [(2, 0xF0), (3, 0x0404)], [(1, 0xFFFFFFFF)], 0), (fields 0x08D 0 1 2 3 0x24000, [(2, 0xF0000000), (3, 0x081C)], [(1, 0xF)], 0),
    (fields 0x08E 0 1 2 3 0x24004, [(2, 0xFF), (3, 0x12345678), (4, 0x0408)], [(1, 0x12345F78)], 0),
    (fields 0x08F 0 1 2 3 0x24004, [(2, 0x12345678), (3, 0x9ABCDEF0), (4, 0xFFFF0000)], [(1, 0x1234DEF0)], 0)] = true := by decide +kernel

/-- R178 to R183. The example "a compare and a select" of chapter 6: −2 < 3 holds as .s32, not as .z32. -/
theorem test_predicates :
    let c := after 0x0C00_0000_4028_C021 (withV [(4, 0xFFFFFFFE), (5, 3)])
    let z := after (fields 0x0C0 0 0 4 5 0x1C021) (withV [(4, 0xFFFFFFFE), (5, 3)])
    let n := after (fields 0x0C1 0 0 4 5 0x34063) (withV [(4, 0x7FC00000), (5, 0)])
    let e := after (fields 0x0C3 0 1 2 3 0x24007) (fun s => withK 7 0x0F (withV [(2, 11), (3, 22)] s))
    let k := after (fields 0x0C4 0 0 0 0 0x00725) (fun s => withK 2 0x0F (withK 5 0x3C s))
    let m := after (fields 0x0C5 0 1 0 0 0x24006) (withK 6 0x02)
    let r := after (fields 0x0C5 0 0 2 0 0x24206) (withLanes 2 [0, 5, 0, 1])
    kOf c 1 = 0xFF ∧ kOf z 1 = 0 ∧ kOf n 3 = 0 ∧ (vOf e 1 3, vOf e 1 4) = (11, 22) ∧ kOf k 5 = 0x0C ∧ (vOf m 1 0, vOf m 1 1) = (0, 1) ∧
      kOf r 6 = 0x0A := by decide +kernel

/-- R188 to R193: rounding, invalid operations, minimumNumber, the one rounding of a fused sum and of a packed product sum. -/
theorem test_float : runs [
    (fields 0x100 0 1 2 3 0x34000, [(2, 0x3F800000), (3, 0x40000000)], [(1, 0x40400000)], 0),
    (fields 0x100 0 1 2 3 0x34000, [(2, 0x4B800000), (3, 0x3F800000)], [(1, 0x4B800000)], 0x10),
    (fields 0x100 0 1 2 3 0x37000, [(2, 0x4B800000), (3, 0x3F800000)], [(1, 0x4B800001)], 0x10),
    (fields 0x101 0 1 2 3 0x34000, [(2, 0x7F800000), (3, 0x7F800000)], [(1, 0x7FC00000)], 1),
    (fields 0x102 0 1 2 3 0x34000, [(2, 0x7F7FFFFF), (3, 0x40000000)], [(1, 0x7F800000)], 0x14),
    (fields 0x103 0 1 2 3 0x34004, [(2, 0x40000000), (3, 0x40400000), (4, 0x40800000)], [(1, 0x41200000)], 0),
    (fields 0x104 0 1 2 3 0x34000, [(2, 0x7FC00000), (3, 0xC0000000)], [(1, 0xC0000000)], 0),
    (fields 0x105 0 1 2 3 0x34000, [(2, 0x80000000), (3, 0)], [(1, 0)], 0),
    (fields 0x106 0 1 2 0 0x34000, [(2, 0xC0000000)], [(1, 0x40000000)], 0),
    (fields 0x107 0 1 2 0 0x34000, [(2, 0x40000000)], [(1, 0xC0000000)], 0),
    (fields 0x108 0 1 2 3 0x34004, [(2, 0x3F800000), (3, 0x40400000), (4, 0x40000000)], [(1, 0x40000000)], 0),
    (fields 0x109 0 1 2 0 0x34000, [(2, 0x40000000)], [(1, 0x3F000000)], 0),
    (fields 0x10A 0 1 2 0 0x34000, [(2, 0x40800000)], [(1, 0x3F000000)], 0),
    (fields 0x10B 0 1 2 0 0x34000, [(2, 0x40000000)], [(1, 0x3FB504F3)], 0x10),
    (fields 0x10C 0 1 2 3 0x34000, [(2, 0x3F800000), (3, 0x40400000)], [(1, 0x3EAAAAAB)], 0x10),
    (fields 0x10C 0 1 2 3 0x34000, [(2, 0x3F800000), (3, 0)], [(1, 0x7F800000)], 2),
    (fields 0x10D 0 1 2 3 0x34004, [(2, 0x42003C00), (3, 0x44004000), (4, 0x3F800000)], [(1, 0x41700000)], 0),
    (fields 0x10E 0 1 2 0 0x34000, [(2, 0xBE99999A)], [(1, 0x80000000)], 0),
    (fields 0x10E 0 1 2 0 0x34200, [(2, 0x40200000)], [(1, 0x40000000)], 0x10),
    (fields 0x0C2 0 1 2 0 0x34000, [(2, 0)], [(1, 0x10)], 0)] = true := by decide +kernel

/-- R194 to R196, Table 7.3: double precision over pairs of registers, and the transcendentals where they are exact or special. -/
theorem test_double_and_transcendental : runs [
    (fields 0x140 0 2 4 6 0x38000, [(4, 0), (5, 0x3FF00000), (6, 0), (7, 0x3FF00000)], [(2, 0), (3, 0x40000000)], 0),
    (fields 0x141 0 2 4 6 0x38000, [(4, 0), (5, 0x3FF00000), (6, 0), (7, 0x40000000)], [(2, 0), (3, 0xBFF00000)], 0),
    (fields 0x142 0 2 4 6 0x38000, [(4, 0), (5, 0x40080000), (6, 0), (7, 0x40000000)], [(2, 0), (3, 0x40180000)], 0),
    (fields 0x143 0 2 4 6 0x38008, [(5, 0x40080000), (7, 0x40000000), (9, 0x3FF00000)], [(2, 0), (3, 0x401C0000)], 0),
    (fields 0x144 0 2 4 6 0x38000, [(5, 0x40080000), (7, 0xC0000000)], [(2, 0), (3, 0xC0000000)], 0),
    (fields 0x145 0 2 4 6 0x38000, [(5, 0x40080000), (7, 0xC0000000)], [(2, 0), (3, 0x40080000)], 0),
    (fields 0x146 0 2 4 6 0x38000, [(5, 0x40080000), (7, 0x40000000)], [(2, 0), (3, 0x3FF80000)], 0),
    (fields 0x147 0 2 4 0 0x38000, [(5, 0x40220000)], [(2, 0), (3, 0x40080000)], 0),
    (fields 0x148 0 1 2 0 0x34000, [(2, 0x40400000)], [(1, 0x41000000)], 0), (fields 0x148 0 1 2 0 0x34000, [(2, 0xFF800000)], [(1, 0)], 0),
    (fields 0x149 0 1 2 0 0x34000, [(2, 0x41000000)], [(1, 0x40400000)], 0), (fields 0x149 0 1 2 0 0x34000, [(2, 0x80000000)], [(1, 0xFF800000)], 2),
    (fields 0x14A 0 1 2 0 0x34000, [(2, 0x80000000)], [(1, 0x80000000)], 0), (fields 0x14A 0 1 2 0 0x34000, [(2, 0x7F800000)], [(1, 0x7FC00000)], 1),
    (fields 0x14B 0 1 2 0 0x34000, [(2, 0)], [(1, 0x3F800000)], 0), (fields 0x14C 0 1 2 0 0x34000, [(2, 0xFF800000)], [(1, 0xBF800000)], 0)] = true := by
  decide +kernel

/-- R198 to R204. The example "packing two FP8 values" of chapter 7. -/
theorem test_conversions : runs [
    (0x1810_0060_1013_C200, [(3, 0x11223344), (1, 0x3FC00000), (2, 0x44160000)], [(3, 0x7E3C3344)], 0x14),
    (fields 0x182 0 5 3 0 0x3C003, [(3, 0x7E3C3344)], [(5, 0x43E00000)], 0),
    (fields 0x180 0 1 2 0 0x0D00D, [(2, 0xC0200000)], [(1, 0xFFFFFFFE)], 0x10), (fields 0x180 0 1 2 0 0x34003, [(2, 0x01000001)], [(1, 0x4B800000)], 0x10),
    (fields 0x184 0 1 2 0 0x5C000, [(2, 0x0000820D)], [(1, 0xC0400000)], 0), (fields 0x184 0 1 2 0 0x5C000, [(2, 0xFF03)], [(1, 0x7FC00000)], 0),
    (fields 0x185 0 1 2 0 0x34000, [(2, 0xC0C00000)], [(1, 129)], 0), (fields 0x185 0 1 2 3 0x34200, [(2, 0x40400000), (3, 0x80)], [(1, 0x40C00000)], 0),
    (fields 0x185 0 1 2 3 0x00400, [(2, 200), (3, 200)], [(1, 254)], 0x20)] = true := by decide +kernel

/-- Table 4.5: conversions to .e2m1 in .rn. -/
theorem test_e2m1 :
    ([(0x40A00000, 0x6, 0x10), (0x40DCCCCD, 0x7, 0x10), (0x40E00000, 0x7, 0x14), (0x3E800000, 0, 0x18), (0xFF800000, 0xF, 4), (0x7FC00000, 0, 1)] : List (W64 × W64 × W32)).all
      (fun t => let r := convert .e2m1 .f32 .rn false false t.1; decide (r.val = t.2.1) && decide (r.flags = t.2.2)) = true ∧
    (convert .e2m1 .f32 .rz false false 0x40E00000).flags = 0x10 := by decide +kernel

/-- The example "quantising to .m4" of chapter 4. -/
theorem test_bfq :
    let s := after (fields 0x183 0 1 2 0 0x5C000) (withLanes 2 [0x40400000, 0xC0300000, 0x3E99999A, 0x40F33333])
    (List.range 4).map (vOf s 1) = [0x8203, 0x82FD, 0x8200, 0x8207] ∧ (pairOf s).exe.getF 3 = 0x38 := by decide +kernel

/-- R206 to R211, Table 7.9: lanes. -/
theorem test_lanes :
    let eight := withLanes 2 [10, 11, 12, 13, 14, 15, 16, 17]
    let v := fun s => (List.range 8).map (vOf s 1)
    v (after (fields 0x1C0 0 1 2 3 0x24600) fun s => withV [(3, 1)] (eight s)) = [11, 10, 13, 12, 15, 14, 17, 16] ∧
    v (after (fields 0x1C0 0 1 2 3 0x24200) fun s => withV [(3, 2)] (eight s)) = [10, 11, 10, 11, 12, 13, 14, 15] ∧
    v (after (fields 0x1C6 0 1 2 0x143 0x24000) fun s => withS 3 11 (eight s)) = List.replicate 8 13 ∧
    kOf (after (fields 0x1C1 0 0 0 0 0x00225) fun s => withK 2 4 s) 5 = 0xFF ∧
    (vOf (after (fields 0x1C2 0 2 0 0 3) fun s => withK 3 0x5A s) 2 7) = 0x5A ∧
    v (after (fields 0x1C5 0 4 2 0 0x24000) (withLanes 2 [5, 6, 5, 5, 6, 7, 7, 5])) = List.replicate 8 0 ∧
    vOf (after (fields 0x1C5 0 4 2 0 0x24000) (withLanes 2 [5, 6, 5, 5, 6, 7, 7, 5])) 4 3 = 0x8D := by decide +kernel

theorem test_reductions :
    let put := withLanes 4 [0x4B800000, 0, 0x3F800000, 0x3F800000]
    let r := after 0x1C30_0100_4003_4000 put
    let c := after (fields 0x1C4 0 8 4 0 0x34000) put
    ((List.range 8).map (vOf r 8) = List.replicate 8 0x4B800001 ∧ (pairOf r).exe.getF 0 = 0) ∧
    (List.range 8).map (vOf c 8) = List.replicate 8 0x4B800000 ∧ (List.range 8).map (pairOf c).exe.getF = [0, 0, 16, 16, 16, 16, 16, 16] := by decide +kernel

/-- R37: the second slot of a pair word does not see what the first writes. -/
theorem test_pair_word :
    let s := after (0x4100_2048_1C00_A140) (withV [(4, 3), (5, 4), (9, 8), (10, 6)])
    (vOf s 4 0, vOf s 5 0) = (11, 2) := by decide +kernel

/-! ### Control, traps and special registers -/

theorem test_branch :
    let b := after (fields 0x001 0 0 0 0 4) id
    let d := after (fields 0x001 2 0 0 0 4) (withK 2 0x0F)
    let c := after (fields 0x003 0 2 0 0 16) id
    (split0 b .execute).pc = 0x10020 ∧
    ((split0 d .execute).pc, (split0 d .execute).mask) = (0x10008, 0xF0) ∧
    ((Tbl.get? (pairOf d).exe.splits 1).map fun x => (x.pc, x.mask)) = some (0x10020, 0x0F) ∧
    ((split0 c .execute).pc, vOf c 2 0) = (0x10080, 0x10008) := by decide +kernel

theorem test_loop :
    let s := after (fields 0x00A 0 3 3 0 0xFFFFFFC) (withV [(3, 2)])
    let t := after (fields 0x00A 0 3 3 0 0xFFFFFFC) (withV [(3, 1)])
    ((split0 s .execute).pc, vOf s 3 0) = (0xFFE0, 1) ∧ ((split0 t .execute).pc, vOf t 3 0) = (0x10008, 0) := by decide +kernel

theorem test_indirect :
    let s := after (fields 0x002 0 0 6 0 0) (fun s => withLanes 7 [] (withLanes 6 [0x10100, 0x10200, 0x10100, 0x10100, 0x10100, 0x10100, 0x10100, 0x10100] s))
    let t := after (fields 0x002 0 0 6 0 0) (withLanes 6 [0x10100, 0x10204])
    ((split0 s .execute).pc, (split0 s .execute).mask) = (0x10100, 0xFD) ∧
    ((Tbl.get? (pairOf s).exe.splits 1).map fun x => (x.pc, x.mask)) = some (0x10200, 2) ∧
    ((split0 t .execute).pc, (split0 t .execute).record.tcause) = (0x20000, 0x10 + 0x8000 + 512 * 1) := by decide +kernel

theorem test_rcv_exit :
    let s := after (fields 0x007 0 0 0 0 2) id
    let t := after (fields 0x006 2 0 0 0 0) (withK 2 0x0F)
    ((split0 s .execute).stack.map fun e => (e.tag, e.pc, e.mask)) = [(0, 0x2002, 0xFF)] ∧
    ((split0 t .execute).mask, (pairOf t).exe.dead) = (0xF0, 0x0F) := by decide +kernel

/-- R307, Table 14.2: the entry of a software trap. -/
theorem test_trap :
    let s := after (fields 0x380 0 0 0 0 5) id
    let x := split0 s .execute
    (x.pc, x.record.tcause, x.record.targ, (x.stack.map fun e => (e.tag, e.pc, e.mask))) = (0x20140, 0x140, 5, [(0x340, 0x2001, 0xFF)]) := by decide +kernel

/-- R310, R311: a special register read in every lane, $role written, a reserved bit trapped. -/
theorem test_special_registers :
    let s := after (fields 0x383 0 3 0 0 0x01) id
    let r := after (fields 0x384 0 0 2 0 0x14) (withV [(2, 3)])
    let b := after (fields 0x384 0 0 2 0 0x14) (withV [(2, 4)])
    (List.range 8).map (vOf s 3) = [0, 1, 2, 3, 4, 5, 6, 7] ∧ (pairOf r).exe.role = 3 ∧ (split0 b .execute).record.tcause = 0x30 + 0x8000 := by decide +kernel

/-! ### Memory, queues and engines -/

/-- R215, R219: a load into the queue takes the next entry and is in flight with its addresses; R222: a store enters the queue. -/
theorem test_loads_and_stores :
    let l := after (fields 0x200 0 0x111 1 0 0x00002) (withA 1 [0x8000, 0x8010])
    let d := after (fields 0x203 0 0 1 0x143 0) (fun s => withC 3 0x1234 (withA 1 [0x8000] s))
    let q := after (fields 0x241 0 4 0x110 0 5) (withQ 0 [(77, 2)])
    ((pairOf l).acc.loads.map fun x => (x.lanes.take 2).map (·.pa)) = [[0x8008, 0x8018]] ∧
    ((Tbl.get? (pairOf l).queues 1).map fun q => q.entries.map (·.missing)) = some [0xFF] ∧
    ((pairOf d).acc.stores.map fun e => (e.kind, e.size, (e.lanes.take 1).map fun x => (x.pa, x.val))) = [(.sd, 4, [(0x8000, 0x1234)])] ∧
    (vOf q 4 3, kOf q 5) = (77, 2) := by decide +kernel

/-- R217, R219: the arrival of a value, then the entry's lane; R319: a drained store is in memory, little-endian. -/
theorem test_memory_events :
    let l := after (fields 0x201 0 3 1 0 0x20000) (fun s => withMem 0x8000 [0x80] (withA 1 [0x8000] s))
    let run := fun (s : State) i => match exec i s with
      | .next t => t
      | _ => s
    let id := ((pairOf l).acc.loads.map (·.id)).headD 99
    let a := run l (.loadValueArrival 0 0 id 0 false)
    let d := after (fields 0x203 0 0 0x145 0x143 0) (fun s => withC 3 0x12345678 (withC 5 0x8000 s))
    let m := run d (.storeQueueDrain 0 0)
    aOf a 3 0 = 0xFFFFFFFFFFFFFF80 ∧ (List.range 4).map (m.latest .phys <| 0x8000 + ·) = [0x78, 0x56, 0x34, 0x12] ∧ (pairOf m).acc.stores = [] := by decide +kernel

/-- R240: atomics give the old value and leave the new one. -/
theorem test_atomics :
    let put := fun s => withMem 0x8000 [5, 0, 0, 0] (withC 3 0x8000 (withC 4 (-1) s))
    let s := after (fields 0x280 0 0x142 0x143 0x144 0x00000) put
    let m := after (fields 0x280 0 0x142 0x143 0x144 0x20100) put
    let c := after (fields 0x281 0 0x142 0x143 0x144 0x00145) (fun s => withMem 0x8000 [5] (withC 3 0x8000 (withC 4 5 (withC 5 9 s))))
    (cOf s 2, s.latest .phys 0x8000) = (5, 4) ∧ (cOf m 2, m.latest .phys 0x8000) = (5, 5) ∧ (cOf c 2, c.latest .phys 0x8000) = (5, 9) := by decide +kernel

/-- R230, R234: pushes with tags, the status word's present and free counts. -/
theorem test_queues :
    let p := after (fields 0x240 0 0x116 4 0 0x2B) (fun s => withK 11 6 (withV [(4, 9)] s))
    let st := after (fields 0x244 0 0x002 0 0 0) (withQ 0 [(1, 0), (2, 0), (3, 0)])
    let dr := after (fields 0x245 0 0 0 0 0x100) (withQ 0 [(1, 0), (2, 0), (3, 0)])
    ((Tbl.get? (pairOf p).queues 6).map fun q => q.entries.map fun e => (Cells.get e.vals 0, e.tags)) = some [(9, 6)] ∧
    vOf st 2 0 &&& 0x3FFF = 3 + 13 * 128 ∧ ((Tbl.get? (pairOf dr).queues 0).map (·.entries.length)) = some 1 := by decide +kernel

/-- The example "regrouping eight threads": old thread numbers by key. -/
theorem test_regroup_order :
    let keys : List Nat := [3, 1, 3, 0, 1, 1, 0, 3]
    (sortBy (fun (a b : Nat × Nat) => decide (a.2 < b.2) || (decide (a.2 = b.2) && decide (a.1 < b.1))) (keys.zipIdx.map fun p => (p.2, p.1))).map (·.1) = [3, 6, 1, 4, 5, 0, 2, 7] := by decide +kernel

/-- The barrier example of chapter 10: the object after `binit`, and the arrivals of Table 10.4. -/
theorem test_barrier :
    let s := after (fields 0x345 0 0 0x142 0 0x20002) (withS 2 0x100)
    let a := fun s => after 0x3460_0014_3000_0001 fun t => withS 3 0x100 (withScratch 0x100 (natToBytes (readObj s stubCrew 0x100).toNat 16) t)
    let o := fun (s : State) => readObj s stubCrew 0x100
    o s = 0x0002_0020_0000_0000 ∧ o (a s) = 0x1_0002_0020_0000_0000 ∧ o (a (a s)) = 0x0002_0120_0000_0000 := by decide +kernel

/-- The copy example of chapter 10: the counter, and the bytes with their zeros. -/
theorem test_xcp :
    let s := after 0x3430_0000_4028_3406 fun s => withMem 0x9000 [0x11, 0x12, 0x13, 0x14, 0x15, 0xAA] (withA 4 [0x200, 0x220, 0x240, 0, 32, 64, 96, 128]
      (withA 5 [0x8000, 0x9000] (withA 6 [32, 5, 0] s)))
    let t := match exec (.xcpComplete 0 0 0) s with
      | .next t => t
      | _ => s
    (pairOf s).tagcnt = 0x10000 ∧ (pairOf t).tagcnt = 0 ∧ (List.range 6).map (t.latest (.scratch 0) <| 0x220 + ·) = [0x11, 0x12, 0x13, 0x14, 0x15, 0] := by decide +kernel

/-! ### Matrix and attention -/

/-- The example "one cell through the array and msca" of chapter 4: the sum of images, then the scaled accumulation; and with κ = 3. -/
theorem test_cell :
    let a : List Nat := [3, 0xD, 0, 7]
    let b : List Nat := [2, 4, 7, 1]
    let cell := fun n => cellOf (((a.zip b).take n).map fun p => { neg := false, a := image .m4 false p.1, b := image .e2m1 false p.2 })
    cell 4 = 1 ∧ scaleAccumulate 0x3F800000 (cell 4) 0x82 0x7F 4 false = (0x3FC00000, 0) ∧ scaleAccumulate 0x3F800000 (cell 3) 0x82 0x7F 4 false = (0xC0000000, 0) := by
  decide +kernel

/-- The example "one exponential" of chapter 4, and Table 4.8. -/
theorem test_exponential :
    let f := fun (n : Nat) => fmtF32.value n
    (exp2Read (f 0x40400000) (f 0x3F000000) (f 0x3F800000) false).val = 0x3FB504F3 ∧ (exp2Read (f 0x40400000) (f 0x3F000000) (f 0x7F800000) false).val = 0 ∧
    (exp2Read (f 0xFF800000) (f 0x3F000000) (f 0xFF800000) false).val = 0 ∧ (exp2Read (f 0x7F800000) (f 0x3F000000) (f 0x7F800000) false).val = 0x3F800000 := by
  decide +kernel

/-- R272, Table 9.7: an empty old row gives the new maximum and alpha +0. -/
theorem test_smx : runs [(fields 0x300 0 4 6 7 0x34003, [(6, 0xFF800000), (7, 0x3F800000), (3, 0x3F800000)], [(4, 0x3F800000), (5, 0)], 0),
    (fields 0x300 0 4 6 7 0x34003, [(6, 0x40000000), (7, 0x3F800000), (3, 0x3F800000)], [(4, 0x40000000), (5, 0x3F800000)], 0)] = true := by decide +kernel

/-- R277: the mantissas of the example "an append that raises a page scale". -/
theorem test_kv_rescale : (shiftMant 100 2, shiftMant (-37) 2, shiftMant 6 2, shiftMant 45 2) = (25, -9, 2, 11) := by decide +kernel

/-- R270, R271: row maximum and clearing of a tile of the stand-in. -/
theorem test_tiles :
    let put := fun (s : State) => s.onCrew 0 fun c => { c with mt := Cells.setList [] (cellNo 0 1 2 0) [0x40400000, 0x40A00000], acst := Cells.set [] 0 9 }
    let m := after (fields 0x2C9 0 4 0 0 0x00800) put
    let z := after (fields 0x2C6 0 0 0 0 0x002) put
    let f := after (fields 0x2CC 0 4 0 0 1) put
    (vOf m 4 2, vOf m 4 1) = (0x40A00000, 0) ∧ ((z.crew? 0).map fun c => c.mt) = some [] ∧
    (vOf f 4 0, (f.crew? 0).map fun c => Cells.get c.acst 0) = (9, some 8) := by decide +kernel

/-! ### Check values -/

/-- R356: the check value of CRC-32C. -/
theorem test_crc32c : crc32c [0x31, 0x32, 0x33, 0x34, 0x35, 0x36, 0x37, 0x38, 0x39] = 0xE3069283 := by decide +kernel

/-- The example "where a line lives": the stack of a device address. -/
theorem test_stack : dieOf 0x12_3456_7880 = 7 := by decide +kernel

/-- FIPS 180-4: SHA-384 of "abc". -/
theorem test_sha384 : bytesToNat (sha384 [0x61, 0x62, 0x63]).reverse = 0xcb00753f45a35e8bb5a03d699ac65007272c32ab0eded1631a8b605a43ff5bed8086072ba1e7cc2358baeca134c825a7 := by
  decide +kernel

/-! ### Events -/

/-- R371: a tail beyond progress plus size stops an enabled queue with 0x05, a smaller tail sets regress. -/
theorem test_tail :
    let s := State.reset.setHq 3 { State.reset.hq 3 with cfg := 0x4004, tail := 2 }
    let run := fun i => match exec i s with
      | .next t => t.hq 3
      | _ => s.hq 3
    (run (.tailW 3 1)).regress = true ∧ (run (.tailW 3 257)).err = 5 ∧ (run (.tailW 3 9)).tail = 9 := by decide +kernel

/-- R461: the power limit accepts its range. -/
theorem test_registers :
    let run := fun v => match exec (.registerWrite 0x30 v) State.reset with
      | .next t => (t.dev.plimit, t.dev.refused)
      | _ => (0, false)
    run 400 = (400, false) ∧ run 399 = (1600, true) := by decide +kernel

/-! ### Witnesses

For every statement with hypotheses, a state and operands that meet them together: a split of the stand-in's crew that issues, with what the statement asks for put in place. -/

def unitOf (sl : Slice) : UnitRef := { crew := 0, pair := 0, slice := sl, split := 0 }

/-- The stand-in with its split of a slice issuing. -/
def standing (sl : Slice) (f : State → State) : State := { f (placeWord State.reset 64 0) with cur := some (unitOf sl) }

/-- The view of that split. -/
def viewOf (s : State) (sl : Slice) : Here :=
  (s.here? (unitOf sl)).getD { u := unitOf sl, crew := stubCrew, pair := pairOf s, warp := (pairOf s).warp sl, split := Split.start 0 0 }

/-- The split issues. -/
def issues (s : State) (sl : Slice) : Bool := decide (s.cur = some (unitOf sl)) && (s.here? (unitOf sl)).isSome

theorem issues_sound {s : State} {sl : Slice} (h : issues s sl = true) : Issuing s (unitOf sl) (viewOf s sl) := by
  simp only [issues, Bool.and_eq_true, decide_eq_true_eq] at h
  refine ⟨h.1, ?_⟩
  obtain ⟨k, hk⟩ := Option.isSome_iff_exists.mp h.2
  rw [viewOf, hk]
  rfl

/-- A part answers this value. -/
def gives {ε α : Type} [DecidableEq α] (e : Except ε α) (a : α) : Bool :=
  match e with
  | .ok b => decide (b = a)
  | .error _ => false

theorem gives_sound {ε α : Type} [DecidableEq α] {e : Except ε α} {a : α} (h : gives e a = true) : e = .ok a := by
  cases e with
  | error => simp [gives] at h
  | ok b => simp [gives] at h; rw [h]

/-- A part answers. -/
def answers {ε α : Type} (e : Except ε α) : Bool :=
  match e with
  | .ok _ => true
  | .error _ => false

theorem answers_sound {ε α : Type} {e : Except ε α} (h : answers e = true) : ∃ a, e = .ok a := by
  cases e with
  | error => simp [answers] at h
  | ok b => exact ⟨b, rfl⟩

/-- The operands of an instruction are served in the stand-in's split, and it names no register above the bound. -/
def servedIn (s : State) (sl : Slice) (i : Instr) : Bool :=
  issues s sl && answers (prepare s (viewOf s sl).awake (i.uses sl).1 (i.uses sl).2 ((viewOf s sl).awake.active ⟨false, 0⟩))
    && (spilledRegs ((i.uses sl).1 ++ (i.uses sl).2)).isEmpty && (spilledRegs (i.uses sl).1).isEmpty

theorem servedIn_sound {s : State} {sl : Slice} {i : Instr} (h : servedIn s sl i = true) :
    Issuing s (unitOf sl) (viewOf s sl) ∧ Served i ⟨false, 0⟩ s (viewOf s sl) s (viewOf s sl).awake ∧ ∀ k, Stored i (viewOf s sl).u.slice s k s := by
  simp only [servedIn, Bool.and_eq_true, List.isEmpty_iff] at h
  obtain ⟨⟨⟨hi, hp⟩, hn⟩, hd⟩ := h
  have I := issues_sound hi
  have hu := I.unit
  obtain ⟨⟨s', h'⟩, hp⟩ := answers_sound hp
  obtain ⟨rfl, rfl⟩ := prepare_same hn hp
  refine ⟨I, ?_, fun k => ?_⟩
  · simp only [Served, hu]
    exact hp
  · simp only [Stored, hu]
    show spillRegs s' k (dedup (spilledRegs (i.uses sl).1)) = .ok s'
    rw [hd]
    rfl

/-- Every queue the split reads holds two entries, and four latches are valid. -/
def stocked (s : State) : State :=
  ((List.range 12).foldl (fun s n => withQ n [(3, 0), (4, 0)] s) s).onSplit (unitOf .execute) fun x => { x with lat := [[(0, 1)], [(0, 2)], [(0, 3)], [(0, 4)]] }

/-- Statements over `CompletesAs` for the execute slice: each instruction of these words finds its operands. -/
theorem witness_completes_execute :
    ((wordsInteger ++ wordsImmediate ++ wordsBits ++ wordsPredicate ++ wordsFloat ++ wordsDouble ++ wordsConvert ++ wordsLanes ++
        [(0, Instr.smx { g := ⟨false, 0⟩, nwb := false, d := .v 4, rold := .q 1, mx := .v 7, c := .s 3, ty := .f32, ftz := true }),
         (0, Instr.kvscl { g := ⟨false, 0⟩, nwb := false, d := .q 6, a := .q 0, e := .v 7, ty := .m8, ftz := false }),
         (0, Instr.qpush { g := ⟨false, 0⟩, nwb := false, qd := .q 6, v := .v 4, en := true, neg := true, kt := 11 }),
         (0, Instr.qend { g := ⟨false, 0⟩, nwb := false, qd := .q 12, v := .none }),
         (0, Instr.fadd { g := ⟨false, 0⟩, nwb := false, d := .q 7, a := .q 0, b := .q 0, c := .none, ty := .f32, rnd := .rn, ftz := false, flag := false })]).all
      fun p => servedIn (standing .execute stocked) .execute p.2) = true := by decide +kernel

/-- The same for the access slice, its queues and its 64-bit types. -/
theorem witness_completes_access :
    ([.iadd { g := ⟨false, 0⟩, nwb := false, d := .a 1, a := .q 6, b := .c 2, c := .none, ty := .dflt, rnd := .rn, ftz := false, flag := false },
      .qpush { g := ⟨false, 0⟩, nwb := false, qd := .q 0, v := .a 1, en := false, neg := false, kt := 0 },
      .xstat { g := ⟨false, 0⟩, d := .a 3, clr := true }, .lea { g := ⟨false, 0⟩, d := .a 3, base := .a 1, disp := -8 },
      .leaLong { g := ⟨false, 0⟩, d := .a 3, base := .a 1, disp := 0x12345 },
      .shfl { g := ⟨false, 0⟩, nwb := false, d := .a 1, a := .a 2, b := .c 3, ty := .b64, mode := .up }] : List Instr).all
      (fun i => servedIn (standing .access stocked) .access i) = true := by decide +kernel

/-- A register above the bound is filled before the instruction and stored behind it. -/
theorem witness_spilled :
    let s := standing .execute id
    let i : Instr := .iadd { g := ⟨false, 0⟩, nwb := false, d := .v 200, a := .v 100, b := .v 3, c := .none, ty := .s32, rnd := .rn, ftz := false, flag := false }
    issues s .execute = true ∧ answers (prepare s (viewOf s .execute).awake (i.uses .execute).1 (i.uses .execute).2 0xFF) = true ∧
      answers (spillRegs s (viewOf s .execute) (dedup (spilledRegs (i.uses .execute).1))) = true := by decide +kernel

def exeS (f : State → State) : State := standing .execute f
def accS (f : State → State) : State := standing .access f
def exeH (f : State → State) : Here := viewOf (exeS f) .execute
def accH (f : State → State) : Here := viewOf (accS f) .access

/-- Stack entries of the split of a slice. -/
def withStack (sl : Slice) (l : List StackEntry) (s : State) : State := s.onSplit (unitOf sl) fun x => { x with stack := l }

/-- A plain entry, and a trap entry. -/
def deferred : StackEntry := { tag := 1, pc := 0x2002, low := 0, mask := 0x0F, arr := 0 }
def trapEntry : StackEntry := { tag := 0x340, pc := 0x2002, low := 0, mask := 0x0F, arr := 0 }

/-- The split's lanes spread over four splits. -/
def fourSplits (s : State) : State := s.onWarp 0 0 .execute fun w =>
  { w with splits := (List.range 4).map fun i => (i, Split.start 0x10000 (BitVec.ofNat 64 (3 * 4 ^ i))) }

/-- DivisionTruncatesTowardZero: the operations that its clauses describe exist, with an operand for each clause: a zero divisor, the corner, and neither. -/
theorem witness_division :
    (∃ f : Ty → Int → Int → Res, (∀ t a, f t a 0 = { val := 0, flags := fDz }) ∧
      (∀ t a b, b ≠ 0 → (Ty.signed t = true ∧ a = Claims.least t ∧ b = -1) → f t a b = { val := Claims.reduced t (Claims.least t), flags := fOf }) ∧
      (∀ t a b, b ≠ 0 → ¬(Ty.signed t = true ∧ a = Claims.least t ∧ b = -1) → f t a b = { val := Claims.reduced t (a.tdiv b), flags := 0 })) ∧
    (Ty.signed .s32 = true ∧ (-2147483648 : Int) = Claims.least .s32) := by
  refine ⟨⟨fun t a b => if b = 0 then { val := 0, flags := fDz } else
      if Ty.signed t = true ∧ a = Claims.least t ∧ b = -1 then { val := Claims.reduced t (Claims.least t), flags := fOf }
      else { val := Claims.reduced t (a.tdiv b), flags := 0 }, ?_, ?_, ?_⟩, by decide⟩
  · intro t a; simp
  · intro t a b hb hc; simp only [if_neg hb, if_pos hc]
  · intro t a b hb hc; simp only [if_neg hb, if_neg hc]

/-- FloatResultsAreRoundedOnce: a quiet and a signalling input. -/
theorem witness_nan : (fmtF32.input false 0x7FC00000).isNan = true ∧ (fmtF32.input false 0x7F800001).isSnan = true ∧
    (fmtF16.input false 0x7C01).isSnan = true ∧ (fmtBf16.input false 0x7FC0).isNan = true ∧ (fmtF64.input false 0x7FF8000000000000).isNan = true := by
  decide +kernel

/-- ResultsReachTheirDestination, ResultsLeaveTheRestAlone: a destination of each kind in a view, with an active lane, a queue and an inactive lane. -/
theorem witness_results :
    lowest (exeH id).split.mask = some 0 ∧ bitAt (exeH id).split.mask 7 = true ∧ bitAt (exeH id).split.mask 8 = false ∧ ((exeH id).queue? 6).isSome = true ∧
      (exeH id).u.slice = .execute ∧ (accH id).u.slice = .access ∧ namings 6 [] = 0 ∧ queueNo (.v 1) ≠ some 6 := by decide +kernel

/-- RegisterInstructionsTouchNothingElse: an instruction of the common layout whose operands are served and that answers a next state. -/
theorem witness_register_frame :
    let x : AluArgs := { g := ⟨false, 0⟩, nwb := false, d := .v 1, a := .q 0, b := .v 3, c := .none, ty := .s32, rnd := .rn, ftz := false, flag := false }
    servedIn (exeS stocked) .execute (.iadd x) = true ∧ (match exec (.iadd x) (exeS stocked) with
      | .next _ => true
      | _ => false) = true := by decide +kernel

/-- PairWordSlotsReadBeforeTheyWrite. -/
theorem witness_pair_word :
    let x : PairArgs := { s0 := { op := .iadd, ty := .s32, ftz := false, k := 0, nwb := false, d := 4, b := 9 },
                          s1 := { op := .xor, ty := .b32, ftz := false, k := 2, nwb := true, d := 5, b := 10 } }
    issues (exeS id) .execute = true ∧ answers (prepare (exeS id) (exeH id).awake (pairUses x).1 (pairUses x).2 (exeH id).awake.mask) = true ∧
      dedup (spilledRegs (pairUses x).1) = [] := by decide +kernel

/-- BranchesSplitTheWarp: every case of its clauses. -/
theorem witness_branches :
    let h := exeH id
    let f := exeH fourSplits
    let d := exeH (withStack .execute (List.replicate 16 deferred))
    h.split.mask &&& ~~~(0xFF : W64) = 0 ∧ (h.split.mask &&& ~~~(0x0F : W64) ≠ 0 ∧ h.split.stack.length ≤ 16 ∧ h.warp.splitCount < 4) ∧
      (d.split.mask &&& ~~~(0x0F : W64) ≠ 0 ∧ d.split.stack.length = 16 ∧ d.warp.splitCount < 4) ∧
      (f.split.mask &&& ~~~(1 : W64) ≠ 0 ∧ f.split.stack.length < 16 ∧ 4 ≤ f.warp.splitCount) := by decide +kernel

/-- IndirectTransfersGoLaneByLane: eight lanes that go to two addresses, with one split and with four. -/
theorem witness_indirect :
    let dest := fun (l : Nat) => (if l = 2 then 0x10200 else 0x10100 : W64)
    let ds : List W64 := [0x10100, 0x10200]
    lowest (exeH id).split.mask = some 0 ∧ (∀ l, l < 64 → bitAt (exeH id).split.mask l = true → dest l ∈ ds) ∧ ds.length + (exeH id).split.stack.length ≤ 16 ∧
      lowest (exeH fourSplits).split.mask = some 0 ∧ (∀ l, l < 64 → bitAt (exeH fourSplits).split.mask l = true → dest l ∈ ds) := by decide +kernel

/-- ControlTransfersComplete: a branch that splits, a call, a loop, indirect transfers with aligned targets, and one with a misaligned target in lane 1. -/
theorem witness_transfers :
    let k := withK 2 0x0F
    let s := exeS k
    let h := viewOf s .execute
    let call : CallArgs := { g := ⟨false, 0⟩, nwb := false, link := .v 2, disp := 16 }
    let loop : LoopArgs := { g := ⟨false, 0⟩, nwb := false, x := .v 3, disp := -4 }
    let t := exeS (withLanes 6 [0x10100, 0x10204, 0x10100, 0x10100, 0x10100, 0x10100, 0x10100, 0x10100])
    let b : BrxArgs := { g := ⟨false, 0⟩, t := .v 6 }
    issues s .execute = true ∧ answers (branch s h.awake (h.awake.active ⟨false, 2⟩) (h.split.pc + 32) (h.split.pc + 8)) = true ∧
      servedIn s .execute (.call call) = true ∧ servedIn s .execute (.loop loop) = true ∧
      answers (branch s (h.awake.result (.v 2) true false 0xFF fun _ => h.split.pc + 8) 0xFF (h.split.pc + 128) (h.split.pc + 8)) = true ∧
      servedIn t .execute (.brx b) = true ∧ servedIn t .execute (.ret b) = true ∧
      (viewOf t .execute).src ((Instr.brx b).uses .execute).2 0 false 1 = 0x10204 ∧ bitAt ((viewOf t .execute).active ⟨false, 0⟩) 1 = true := by decide +kernel

theorem witness_indirect_calls :
    let t := exeS (withLanes 6 [0x10100, 0x10200, 0x10100, 0x10100, 0x10100, 0x10100, 0x10100, 0x10100])
    let h := viewOf t .execute
    let c : CalxArgs := { g := ⟨false, 0⟩, nwb := false, link := .v 2, t := .v 6 }
    servedIn t .execute (.calx c) = true ∧ (∀ l, l < 64 → bitAt (h.active ⟨false, 0⟩) l = true →
        (h.src ((Instr.calx c).uses .execute).2 0 false l).extractLsb' 0 3 = 0) ∧
      answers (indirect t ((h.awake.popAll ((Instr.calx c).uses .execute).2).result (.v 2) true false 0xFF fun _ => h.split.pc + 8)
        (fun l => if bitAt (h.active ⟨false, 0⟩) l then h.src ((Instr.calx c).uses .execute).2 0 false l else h.split.pc + 8)) = true := by decide +kernel

/-- NopRcvAndExitComplete: both forms of `rcv`, a split that goes on, and one that ends with its warp in either slice. -/
theorem witness_nop_rcv_exit :
    let h := exeH (withK 2 0x0F)
    issues (exeS (withK 2 0x0F)) .execute = true ∧ h.split.stack.length < 16 ∧ h.split.mask &&& ~~~(h.awake.active ⟨false, 2⟩) ≠ 0 ∧
      (h.split.mask ≠ 0 ∧ h.split.mask &&& ~~~(h.awake.active ⟨false, 0⟩) = 0 ∧ h.warp.splits = [(0, h.split)] ∧ h.split.stack = []) ∧
      ((accH id).split.mask &&& ~~~((accH id).awake.active ⟨false, 0⟩) = 0 ∧ (accH id).warp.splits = [(0, (accH id).split)] ∧ (accH id).warp.stores = []) := by
  decide +kernel

/-- StacksSpillBeyondSixteen: fifteen, sixteen and 256 entries; the place of the seventeenth can be written. -/
theorem witness_stacks :
    let h := exeH (withStack .execute (List.replicate 16 deferred))
    let place := h.pair.area + BitVec.ofNat 64 (roundUp (bsBytes h.crew.grant h.crew.kern.nv) 64 + 3840 * h.u.split + 16 * (h.split.stack.length - 16))
    (exeH (withStack .execute (List.replicate 15 deferred))).split.stack.length < 16 ∧ (16 ≤ h.split.stack.length ∧ h.split.stack.length < 256) ∧
      h.split.stack[15]? = some deferred ∧ (h.u.slice = .execute ∧ h.u.split < 4) ∧ answers (bsStore (exeS id) h place deferred.bytes) = true ∧
      256 ≤ (accH (withStack .access (List.replicate 256 deferred))).split.stack.length ∧ (exeH id).split.stack = [] := by decide +kernel

/-! #### Traps -/

/-- A context without handlers. -/
def noHandler (s : State) : State := s.setCtx 0 { s.ctx 0 with hacc := 0, hexe := 0 }

/-- TrapsEnterTheHandler: both slices, at fifteen entries. -/
theorem witness_traps :
    let f := withStack .execute (List.replicate 15 deferred)
    issues (exeS f) .execute = true ∧ ((exeS f).ctx (exeH f).crew.ctx).hexe ≠ 0 ∧ (exeH f).split.stack.length < 16 ∧
      issues (accS id) .access = true ∧ ((accS id).ctx (accH id).crew.ctx).hacc ≠ 0 ∧ (accH id).split.stack.length < 16 := by decide +kernel

/-- UnhandledTrapsEndTheSplit: no handler, and a full stack. -/
theorem witness_unhandled :
    issues (exeS noHandler) .execute = true ∧ ((exeS noHandler).ctx (exeH noHandler).crew.ctx).hexe = 0 ∧
      (((exeS noHandler).ctx 0).dbg.dctl.getLsbD 0 && ((exeS noHandler).ctx 0).dbg.dctl.getLsbD 1) = false ∧
      issues (accS (withStack .access (List.replicate 256 deferred))) .access = true ∧
      256 ≤ (accH (withStack .access (List.replicate 256 deferred))).split.stack.length := by decide +kernel

/-- SoftwareTrapsComplete: with and without an active lane; flag 0 raised and enabled in lanes 2 and 5; nothing raised. -/
theorem witness_software_traps :
    let f := fun s => (withK 2 0 s).onWarp 0 0 .execute fun w => { w with fflags := Cells.set (Cells.set w.fflags 2 0x101) 5 0x101 }
    let h := exeH f
    let raised := fun l fl => decide (l < 64) && bitAt (h.awake.active ⟨false, 0⟩) l && (h.warp.getF l).getLsbD fl && (h.warp.getF l).getLsbD (fl + 8)
    issues (exeS f) .execute = true ∧ h.awake.active ⟨false, 2⟩ = 0 ∧ h.awake.active ⟨false, 0⟩ ≠ 0 ∧ raised 2 0 = true ∧
      ((List.range 2).all fun m => !raised m 0) = true ∧ ((List.range 64).all fun l => (List.range 6).all fun fl =>
        !(bitAt ((exeH id).awake.active ⟨false, 0⟩) l && ((exeH id).warp.getF l).getLsbD fl && ((exeH id).warp.getF l).getLsbD (fl + 8))) = true := by decide +kernel

/-- ReturnsFromTraps: the entries of its clauses: a trap entry at both ends of the tags, one with a misaligned address, and entries below and above the tags. -/
theorem witness_returns :
    let at_ := fun (e : StackEntry) => viewOf (exeS (withStack .execute [e, deferred])) .execute
    issues (exeS (withStack .execute [trapEntry, deferred])) .execute = true ∧ (at_ trapEntry).split.stack = [trapEntry, deferred] ∧
      (0x200 ≤ trapEntry.tag.toNat ∧ trapEntry.tag.toNat ≤ 0x37F ∧ trapEntry.low = 0) ∧ deferred.tag.toNat < 0x200 ∧
      (0x37F < (0x380 : BitVec 10).toNat ∧ (0x200 : BitVec 10).toNat = 0x200) ∧ ({ trapEntry with low := 4 } : StackEntry).low ≠ 0 ∧ (exeH id).split.stack = [] := by
  decide +kernel

/-- SpecialRegistersAreRead: a 32-bit, a 64-bit and a trap register in the execute slice, a register of the access slice, an index outside the table. -/
theorem witness_special_read :
    let s := exeS (withStack .execute [trapEntry])
    let h := viewOf s .execute
    let a := accS id
    issues s .execute = true ∧ issues a .access = true ∧
      ([(0x01, false), (0x18, true), (0x21, true)] : List (Nat × Bool)).all (fun p => answers (prepare s h.awake [(.v 4, p.2)] [] (h.awake.active ⟨false, 0⟩))) = true ∧
      pairAligned (.v 4, true) = true ∧ spilledRegs [(.v 4, true)] = [] ∧ (Claims.specialValue s h.awake 0x01 3).isSome = true ∧
      (Claims.specialValue s h.awake 0x18 3).isSome = true ∧ h.split.stack.find? (fun e => e.isTrap) = some trapEntry ∧
      Claims.specialValue s h 0x0A 0 = none ∧ answers (prepare a (viewOf a .access).awake [(.a 3, false)] [] 0xFF) = true ∧
      (Claims.specialValue a (viewOf a .access).awake 0x1D 0).isSome = true := by decide +kernel

/-- SpecialRegistersAreWritten: values at both sides of each bound. -/
theorem witness_special_written :
    let f := fun v s => withStack .execute [deferred, trapEntry] (withS 4 v (withV [(2, v)] s))
    let s := fun v => exeS (f v)
    let h := fun v => exeH (f v)
    issues (s 3) .execute = true ∧ answers (prepare (s 3) (h 3).awake [] [(.v 2, false)] (h 3).awake.mask) = true ∧
      answers (prepare (s 3) (h 3).awake [] [(.s 4, true)] (h 3).awake.mask) = true ∧ lowest ((h 3).awake.active ⟨false, 0⟩) = some 0 ∧
      ((h 3).read (.v 2) false 0 false 0, (h 4).read (.v 2) false 0 false 0, (h 31).read (.v 2) false 0 false 0, (h 32).read (.v 2) false 0 false 0) = (3, 4, 31, 32) ∧
      pairAligned (.s 4, true) = true ∧ (h 3).split.stack[1]? = some trapEntry ∧ trapEntry.isTrap = true ∧ deferred.isTrap = false ∧
      ((h 3).read (.s 4) true 0 false 0 &&& ~~~trapEntry.mask = 0) ∧ ((h 0x10).read (.s 4) true 0 false 0 &&& ~~~trapEntry.mask ≠ 0) := by decide +kernel

/-! #### Encodings and the step -/

/-- DecodeInvertsEncode, DecodedWordsEncodeBack: a well-formed instruction, a word that decodes. -/
theorem witness_encoding :
    let i : Instr := .iadd { g := ⟨true, 2⟩, nwb := true, d := .q 7, a := .l 3, b := .s 63, c := .none, ty := .z32, rnd := .rn, ftz := false, flag := true }
    i.wf .execute = true ∧ (match decode .execute 256 (encode i).1 0 with
      | .ok j => decide (j = i)
      | .error _ => false) = true := by decide +kernel

/-- StepRunsTheDecodedInstruction: a unit selected for the access slice, and one at its turn in a pipe. -/
theorem witness_step :
    let s := placeWord State.reset 64 (fields 0x060 0 7 3 0 5)
    let a := placeWord State.reset 64 (fields 0x201 0 3 1 0 0)
    let s₀ := { s with agenda := [] }
    let a₀ := { a with agenda := [] }
    let u := unitOf .execute
    let p := s₀.onPipe 0 0 fun _ => { running := [u], next := 0, breaking := false }
    let h := viewOf p .execute
    let k := viewOf a₀ .access
    (s.agenda.length = 1 ∧ s.dev.ready = true ∧ (s.core 0).gated = false ∧ (s.core 0).waking = 0) ∧
      (h.split.mc = [] ∧ h.split.halted = false ∧ h.isReady = true ∧ (p.pipe 0 0).running[(p.pipe 0 0).next]? = some h.u) ∧
      ((selectUnit a₀ (readyUnits a₀ 0 fun x => decide (x.u.slice = .access))).map (·.u) = some k.u) ∧
      (match fetchWord p h h.split.pc with
        | .ok (t, w) => !needsExt w && (breakTrap t h).isNone && quiet t 0 && (t.here? u).isSome && (match decodeChecked .execute 256 h.dirs w 0 with
            | .ok i => (match exec i { noteIssue t h with cur := some u } with
              | .next _ => true
              | _ => false)
            | .error _ => false)
        | .error _ => false) = true := by decide +kernel

/-- The crew as four portable threads and more: a parallel-for of one instruction (v7 = v3 + 5). -/
def threaded (s : State) : State := s.onCrew 0 fun c =>
  let r : Region := { first := 0, last := 1, par := true }
  { c with kern := { c.kern with portable := true, prog := some { nvp := 16, regions := [r], code := [BitVec.ofNat 64 (fields 0x060 0 7 3 0 5)] } },
           pairs := c.pairs.map fun p => (p.1, p.2.threads c.xbase r 0 0) }

/-- StepRunsTheDecodedInstruction: a thread of a Portable Form program at its turn. -/
theorem witness_thread :
    let s := threaded (placeWord State.reset 64 0)
    let u := { unitOf .execute with split := 2 }
    let p := { s with agenda := [] }.onPipe 0 0 fun _ => { running := [u], next := 0, breaking := false }
    (match p.here? u with
      | some h => decide (h.program?.isSome ∧ h.wordNo = 0 ∧ h.split.flight = [] ∧ h.split.mc = [] ∧ h.isReady = true ∧ h.split.halted = false) &&
          (match decodePortable 16 (BitVec.ofNat 64 (fields 0x060 0 7 3 0 5)) 0 with
            | some i => (match threadExec i { noteIssue p h with cur := some u } with
              | .next t => decide (((t.here? u).map fun k => k.warp.getV 7 2) = some 5)
              | _ => false)
            | none => false)
      | none => false) = true ∧ quiet p 0 = true := by decide +kernel

/-- FetchedWordsComeFromMemory: a word fetched ahead, a cached line, memory, and an address without a translation. -/
theorem witness_fetch :
    let s := placeWord State.reset 64 (fields 0x060 0 7 3 0 5)
    let h := viewOf s .execute
    let cached := match fetchWord s h 0x10000 with
      | .ok (t, _) => t
      | .error _ => s
    Tbl.get? h.split.ahead 0x10000 = none ∧ (match use s 0 0 0x10000 .x with
      | .ok (t, pa, _) => quiet t 0 && (cachedLine (t.core 0) 0 (0x10000 / 128)).isNone && decide (pa % 128 = 0x10000 % 128)
      | .error _ => false) = true ∧ (cachedLine (cached.core 0) 0 (0x10000 / 128)).isSome = true ∧ answers (use s 0 0 0x100000000000 .x) = false ∧
      Tbl.get? [(0x10000, (5 : W64))] 0x10000 = some 5 := by decide +kernel

/-- StepKeepsMemoryCanonical, TheFuseCounterNeverGoesBack: a state in canonical form whose step answers. -/
theorem witness_invariants :
    (Memory.wf (placeWord State.reset 64 0).mem && (placeWord State.reset 64 0).cores.all (fun e => Memory.wf e.2.scratch)) = true ∧
      (match step (placeWord State.reset 64 0) with
        | .next _ => true
        | _ => false) = true := by decide +kernel

/-! #### Memory -/

/-- A second page of 1 GiB that can be read and not written. -/
def readOnlyPage (s : State) : State := withMem 0x3008 (natToBytes 0x40000197 8) s

/-- Eight lanes' addresses in `a1`. -/
def eightAt (b : W64) (s : State) : State := withA 1 ((List.range 8).map fun i => b + BitVec.ofNat 64 (4 * i)) s

/-- AccessesAreChecked: lists that fail first in lane 1 by each check, and lists that pass. -/
theorem witness_checks :
    let s := accS readOnlyPage
    let h := viewOf s .access
    let bad := fun (x : W64) => x.extractLsb' 57 7 != if x.getLsbD 56 then 0x7F else (0 : BitVec 7)
    let ok : LaneVa := (0, 0x8000)
    (bad 0x8000 = false ∧ bad 0x0200_0000_0000_0000 = true) ∧ ((0x8000 : W64).toNat % 4 = 0 ∧ (0x8002 : W64).toNat % 4 ≠ 0) ∧
      (answers (check4 s 0 0 0x8000 .w) = true ∧ answers (check4 s 0 0 0x8000_0000 .w) = false) ∧
      (match check4 s 0 0 0x4000_0000 .w with
        | .ok t => !permits t.pte .w
        | .error _ => false) = true ∧
      answers (checkGlobal s h 1 4 .w [ok, (1, 0x8004)]) = true ∧ answers (checkGlobal s h 1 4 .w [ok, (1, 0x4000_0000)]) = false ∧
      (answers (checkScratch h 1 4 [(0, 0), (1, 65532)]) = true ∧ answers (checkScratch h 1 4 [(0, 0), (1, 65536)]) = false) := by decide +kernel

def mem0 (d base v : Opnd) : MemArgs :=
  { g := ⟨false, 0⟩, d := d, base := base, v := v, sz := .b32, ord := .none, scope := .thread, x := false, ro := false, disp := 0 }

/-- What the load and store statements ask of an access: its operands stand, its checks pass, nothing holds it back. -/
def accessReady (s : State) (us : List Use) (scratch : Bool) (kind : Nat) (n : Need) (base : Opnd) : Bool :=
  let h := (viewOf s .access).awake
  issues s .access && answers (h.pending us) && (match checkAccess s h scratch kind 4 n ((lanesOf (h.active ⟨false, 0⟩)).map fun l => (l, h.read base true 0 false l)) with
    | .ok (ps, _) => answers (h.loadReady (if scratch then .scratch 0 else .phys) 4 ps) && decide (0 < ps.length)
    | .error _ => false)

/-- LoadsAreSent: into a queue, into a register, from the scratchpad; with .nf one lane left out. -/
theorem witness_loads :
    let s := accS (eightAt 0x8000)
    let p := accS (eightAt 0)
    let f := accS (withA 1 [0x8000, 0x8000_0000, 0x8008, 0x800C, 0x8010, 0x8014, 0x8018, 0x801C])
    let k := (viewOf f .access).awake
    let all := (lanesOf (k.active ⟨false, 0⟩)).map fun l => (l, k.read (.a 1) true 0 false l)
    accessReady s [(.a 1, false)] false 0 .r (.a 1) = true ∧ accessReady s [(.a 1, false), (.a 3, false)] false 0 .r (.a 1) = true ∧
      accessReady p [(.a 1, false)] true 0 .r (.a 1) = true ∧ answers ((viewOf s .access).awake.pushReady 1 1) = true ∧
      issues f .access = true ∧ (all.filter fun a => !nfFails f k a).length = 7 ∧ (all.all fun a => canonical a.2 && decide (a.2.toNat % 4 = 0)) = true ∧
      answers (checkAccess f k false 0 4 .r (all.filter fun a => !nfFails f k a)) = true := by decide +kernel

/-- StoresEnterTheQueue: `sd`, `sa` and `ssa` with room in the store queue and in the address FIFO. -/
theorem witness_stores :
    let s := accS (eightAt 0x8000)
    let p := accS (eightAt 0)
    let h := (viewOf s .access).awake
    accessReady s [(.a 1, false), (.c 3, false)] false 1 .w (.a 1) = true ∧ accessReady p [(.a 1, false)] true 1 .w (.a 1) = true ∧
      answers h.acquired = true ∧ answers h.storeRoom = true ∧ answers (h.releaseData none) = true ∧
      (match h.queue? 12 with
        | some q => decide (q.addrs.length < q.depth) && h.warp.stores.isEmpty
        | none => false) = true := by decide +kernel

/-- A binding of add on .f32 over 4 KiB from 0x8000. -/
def bound (s : State) : State := s.setCtx 0 { s.ctx 0 with bindings := [(2, { rbase := 0x8000, rlen := 0x1000, sbase := 0x2_0000, oper := 0, etype := 0x0D, leaving := false })] }

/-- StoresEnterTheQueue, the update: eight lanes inside a region. -/
theorem witness_update :
    let f := fun s => bound (eightAt 0x8000 s)
    let h := (viewOf (accS f) .access).awake
    let x : UpdArgs := { g := ⟨false, 0⟩, base := .a 1, v := .a 2, disp := 0 }
    servedIn (accS f) .access (.upd x) = true ∧ answers (checkUpdate (accS f) h ((lanesOf (h.active ⟨false, 0⟩)).map fun l => (l, h.read (.a 1) true 0 false l))) = true ∧
      answers h.acquired = true ∧ answers (h.releaseData none) = true ∧ answers h.storeRoom = true := by decide +kernel

/-- PrefetchAddressesAndRemoteLoads: an `rlq` to device 5 from a device with a number. -/
theorem witness_remote_load :
    let f := fun s => withC 5 5 (eightAt 0x8000 { s with dev := { s.dev with domain := 3 } })
    let s := accS f
    let h := (viewOf s .access).awake
    let all := (lanesOf (h.active ⟨false, 0⟩)).map fun l => (l, h.read (.a 1) true 0 false l)
    issues s .access = true ∧ answers (h.pending [(.a 1, false), (.c 5, false)]) = true ∧ s.dev.domain ≠ 0x3FF ∧ ((h.read (.c 5) true 0 false 0).setWidth 10 : BitVec 10).toNat ≤ 575 ∧
      (all.all fun a => canonical a.2 && decide (a.2.toNat % 4 = 0)) = true ∧ answers (watch s h 0 4 all) = true ∧ answers h.acquired = true ∧
      answers (h.pushReady 1 1) = true ∧ answers ((viewOf (accS id) .access).awake.pending [(.a 1, false)]) = true := by decide +kernel

/-- A store and a load in the stand-in's access warp. -/
def stored1 : State := after (fields 0x203 0 0 0x145 0x143 0) fun s => withC 3 0x12345678 (withC 5 0x8000 s)
def loading1 : State := after (fields 0x200 0 0x111 1 0 0) (eightAt 0x8000)
def paired1 : State := after (fields 0x202 0 0 1 0x11C 0) fun s => withQ 12 [(7, 2)] (eightAt 0x8000 s)

/-- StoresPairAndDrain: a paired store at the head of the queue; an unpaired one whose data has come, with one suppressed lane. -/
theorem witness_drain :
    (match placedPair stored1 0 0 with
      | some (_, p) => (match p.acc.stores with
        | e :: _ => e.paired && decide (e.kind ≠ .upd) && decide (e.rel = none) && (e.lanes.all fun x => !x.off && unowned stored1 .phys x.pa e.size) && p.acc.loads.isEmpty
        | [] => false)
      | none => false) = true ∧ stored1.drawers = [] ∧ stored1.pend = [] ∧ (stored1.faults = [] ∧ stored1.errs = []) ∧
    (match placedPair paired1 0 0 with
      | some (_, p) => (match Tbl.get? p.queues 12 with
        | some q => !q.addrs.isEmpty && (match q.entries with
          | e :: _ => decide (e.missing = 0) && decide (e.tags = 2)
          | [] => false)
        | none => false)
      | none => false) = true := by decide +kernel

def remoteLoading1 : State := after (fields 0x208 0 0x111 1 0x145 0) fun s => withC 5 5 (eightAt 0x8000 { s with dev := { s.dev with domain := 3, endpoints := [(5, 0x8001_0000_0000_0000)] } })
def updating1 : State := after (fields 0x283 0 0 1 2 0) fun s => bound (eightAt 0x8000 s)

/-- Lane 3 of the oldest load in flight. -/
def lane3 (s : State) : Option (Load × LoadLane) := (placedPair s 0 0).bind fun y => y.2.acc.loads.head?.bind fun l => findLane y.2 l.id 3

/-- LoadedValuesArrive: a lane in flight; a remote lane; an update at the head of the queue. -/
theorem witness_arrivals :
    ((lane3 loading1).map fun y => decide (y.1.remote = none) && decide (y.2.pa = 0x800C)) = some true ∧
      ((lane3 remoteLoading1).map fun y => decide (y.1.remote = some 5)) = some true ∧ reachable remoteLoading1 5 = true ∧ remoteLoading1.dev.domain = 3 ∧
      ((placedPair updating1 0 0).map fun y => y.2.acc.stores.map fun e => (e.kind, e.rel)) = some [(.upd, none)] ∧
      (loading1.faults = [] ∧ loading1.drawers = [] ∧ loading1.pend = []) ∧ unowned loading1 .phys 0x800C 4 = true := by decide +kernel

/-- R219: eight lanes of one load get their values one after another: one leaves seven, all of them leave no load. LoadedValuesArrive: a load of the kind that a lane leaves. -/
theorem test_lanes_leave_their_load :
    ((placedPair loading1 0 0).bind fun y => y.2.acc.loads.head?.map fun l =>
      ((deliverLane y.2 l 3 7 false).acc.loads.map (·.lanes.length), (l.lanes.foldl (fun p x => deliverLane p l x.lane 7 false) y.2).acc.loads.length)) =
      some ([7], 0) := by decide +kernel

/-! #### Queues, atomics and ordering -/

/-- QueueInstructionsComplete: entries in front, a status word, drops that can be served, that exceed the depth, and that an ended producer leaves short. -/
theorem witness_queues :
    let s := exeS stocked
    let h := (viewOf s .execute).awake
    let o := exeS fun s => s.onPair 0 0 fun p => { p with acc := { p.acc with ended := true } }
    let q := (h.queue? 0).getD { dir := .fwd, depth := 0, entries := [], nf := false, re := false, addrs := [] }
    issues s .execute = true ∧ answers (prepare s h [(.v 4, false)] [] (h.active ⟨false, 0⟩)) = true ∧ answers (h.popReady 0 1) = true ∧ q.entries.length = 2 ∧
      (q.depth < 128 ∧ q.entries.length ≤ q.depth ∧ q.addrs.length < 128) ∧ (q.entries.all fun e => decide (e.missing = 0)) = true ∧
      (q.depth < 17 ∧ 2 ≤ q.entries.length ∧ q.entries.length < 3 ∧ 3 ≤ q.depth) ∧ issues o .execute = true ∧
      (((viewOf o .execute).pair.warp (producer .fwd)).ended = true ∧ ((viewOf o .execute).queue? 0).isSome = true) ∧
      servedIn s .execute (.qstat { g := ⟨false, 0⟩, nwb := false, d := .s 2, clr := true, n := 0 }) = true := by decide +kernel

/-- AtomicsReadAndWriteOneWord: `atom` and `acas` of both widths, and `acas` at a release. -/
theorem witness_atomics :
    let f := fun s => withC 3 0x8000 s
    let s := accS f
    let h := (viewOf s .access).awake
    let ok := fun (n : Nat) (r : Option Scope) => answers (h.pending [(.c 3, false), (.c 4, false), (.c 2, false)]) && (match checkGlobal s h 2 n .w [(0, 0x8000)] with
      | .ok [(_, t)] => answers (watch s h 2 n [(0, 0x8000)]) && answers (Here.atomReady s h (t.phys 0x8000) n r)
      | _ => false)
    issues s .access = true ∧ lowest (h.active ⟨false, 0⟩) = some 0 ∧ h.active ⟨false, 2⟩ = 0 ∧ ok 4 none = true ∧ ok 8 (some .die) = true ∧
      (s.drawers = [] ∧ s.pend = []) := by decide +kernel

/-- FencesAndCodeSynchronisation: with and without loads in flight; data of earlier stores present; a range and its lanes. -/
theorem witness_fences :
    let l := { loading1 with cur := some (unitOf .access) }
    let s := accS id
    let h := (viewOf s .access).awake
    let i := fun (all : Bool) => Instr.icinv { g := ⟨false, 0⟩, base := if all then .none else .a 1, len := if all then .none else .a 2, flag := all }
    (issues l .access = true ∧ (viewOf l .access).warp.loads ≠ []) ∧ (issues s .access = true ∧ h.warp.loads = [] ∧ h.warp.stores = []) ∧
      answers (h.awaitData h.warp.stores) = true ∧ h.active ⟨false, 0⟩ ≠ 0 ∧ h.active ⟨false, 2⟩ = 0 ∧ servedIn s .access (i false) = true ∧
      servedIn s .access (i true) = true := by decide +kernel

/-- Bytes from values and their widths. -/
def packed (l : List (Nat × Nat)) : List Byte := l.flatMap fun p => natToBytes p.1 p.2

/-- RegionsAndCachesAreMaintained: a free slot, a bound one, one with updates accepted. -/
theorem witness_regions :
    let s := accS fun s => withC 3 0x9000 (withMem 0x9000 (packed [(0x8000, 8), (0x1000, 8), (0x2_0000, 8), (0, 1), (0x0D, 1)]) s)
    let h := (viewOf s .access).awake
    let b := accS bound
    issues s .access = true ∧ lowest (h.active ⟨false, 0⟩) = some 0 ∧ answers (h.pending [(.c 3, false)]) = true ∧
      (match checkGlobal s h 0 32 .r [(0, 0x9000)] with
        | .ok [(_, t)] => answers (watch s h 0 32 [(0, 0x9000)]) && unowned (touch s 0 t false) .phys (t.phys 0x9000) 32 &&
          (match bindingOf ((touch s 0 t false).ctx 0) ((touch s 0 t false).viewBytes h.viewer .phys (t.phys 0x9000) 32) with
            | some b => answers (shadowPages (touch s 0 t false) h 0 b.sbase ((shadowBytes b.oper b.etype b.rlen.toNat + 4095) / 4096))
            | none => false)
        | _ => false) = true ∧ (bindingOf (s.ctx 0) (List.replicate 32 0)).isNone = true ∧
      (h.warp.stores = [] ∧ h.warp.loads = [] ∧ h.warp.maint = 0 ∧ s.drawers = [] ∧ s.pend = []) ∧ Tbl.get? (s.ctx 0).bindings 2 = none ∧
      (issues b .access = true ∧ ((Tbl.get? (b.ctx 0).bindings 2).map (·.leaving)) = some false ∧ slotBusy b 0 2 = false) ∧
      answers (h.pending [(.a 1, false), (.a 2, false)]) = true := by decide +kernel

/-! #### Matrix, attention and key-value blocks -/

/-- The stand-in's crew with four stamp slots, slot 3 holding an image of zeros of a kind. -/
def withStamps (sparse : Bool) (s : State) : State := s.onCrew 0 fun c => { c with
  kern := { c.kern with ns := 4 },
  stamps := [(3, { sparse := sparse, src := 0, img := [], lost := [], soft := [] })] }

/-- StampSlotsAreLoadedAndEmptied: offsets at both sides of the bounds; an image with and without a malformed nibble. -/
theorem witness_stamps :
    let s := exeS fun s => withS 2 (BitVec.ofNat 32 (65536 - 2112 - 64 + 0)) (withStamps false s)
    let h := (viewOf s .execute).awake
    let good := exeS fun s => withScratch 2048 (List.replicate 16 0xEE) (withStamps false s)
    let off := ((h.read (.s 2) false 0 false 0).setWidth 32 : W32).toNat
    issues s .execute = true ∧ lowest (h.active ⟨false, 0⟩) = some 0 ∧ h.active ⟨false, 2⟩ = 0 ∧ (3 < h.crew.kern.ns ∧ h.crew.kern.ns ≤ 4) ∧
      (off + 2112 ≤ h.crew.kern.scratch ∧ h.crew.kern.scratch < off + 2688 ∧ off % 64 = 0) ∧ stampWaits h off 2112 = false ∧
      (∀ k, k < 42 → unowned s (.scratch h.crew.core) (h.crew.scratch + off + 64 * k) 64 = true) ∧
      answers (watch s h 3 2112 [(0, BitVec.ofNat 64 off)]) = true ∧ (s.err 0).inj.getLsbD 8 = false ∧ h.pair.acc.stores = [] ∧
      good.viewBytes { agent := .warp 0 0 .access, core := 0, crew := 0 } (.scratch 0) 2048 4 = [0xEE, 0xEE, 0xEE, 0xEE] ∧ ((0xEE : Byte).extractLsb' 0 2 = 2 ∧ (0xEE : Byte).extractLsb' 2 2 = 3) := by
  decide +kernel

/-- ProductsWriteExactSums: a dense slot and a sparse one, rows in registers and in a queue, K-lengths at the ends of their ranges. -/
theorem witness_products :
    let at_ := fun sparse k => exeS fun s => withS 1 k (withQ 0 (List.replicate 16 (0, 0)) (withStamps sparse s))
    let h := (viewOf (at_ false 32) .execute).awake
    let regs : List Use := (List.range 8).map fun k => (.v (8 + BitVec.ofNat 8 k), false)
    issues (at_ false 32) .execute = true ∧ issues (at_ true 64) .execute = true ∧ (3 < h.crew.kern.ns ∧ (Tbl.get? h.crew.stamps 3).isSome = true ∧ (Tbl.get? h.crew.stamps 2).isNone = true) ∧
      ¬(h.crew.kern.nv < 8 + 8) ∧ h.crew.kern.nv < 250 + 8 ∧ (∀ l, l < 64 → (h.active ⟨false, 0⟩).getLsbD l = true → h.octet l < h.crew.kern.ta) ∧
      answers (fillRegs (at_ false 32) h (dedup (spilledRegs ((.s 1, false) :: regs)))) = true ∧ answers (h.serve [] regs) = true ∧
      answers (h.serve [] (List.replicate 8 (.q 0, false))) = true ∧ ((h.read (.s 1) false 0 false 0).toNat = 32 ∧
        ((viewOf (at_ true 64) .execute).read (.s 1) false 0 false 0).toNat = 64 ∧ ((viewOf (at_ false 33) .execute).read (.s 1) false 0 false 0).toNat = 33) ∧
      answers (h.markers regs 0xFF) = true ∧ (¬∃ l, l < 64 ∧ (h.active ⟨false, 2⟩).getLsbD l = true) := by decide +kernel

/-- TilesAreScaledClearedAndRead: tiles in every acting octet, and none; a slot, a register base, a queue with room for eight entries. -/
theorem witness_tiles :
    let s := exeS (withStamps false)
    let h := (viewOf s .execute).awake
    let none_ := exeS fun s => s.onCrew 0 fun c => { c with kern := { c.kern with ta := 0 } }
    issues s .execute = true ∧ (∀ l, l < 64 → (h.active ⟨false, 0⟩).getLsbD l = true → h.octet l < h.crew.kern.ta) ∧ issues none_ .execute = true ∧
      (viewOf none_ .execute).crew.kern.ta ≤ (viewOf none_ .execute).octet 0 ∧ answers (prepare s h [] [(.v 4, false)] 0xFF) = true ∧
      (Ty.readRegs .f32 = 8 ∧ Ty.readRegs .f16x2 = 4 ∧ 8 % Ty.readRegs .f32 = 0) ∧ answers (prepare s h (destUses (.v 8) 8) [(.s 3, false), (.v 4, false)] 0xFF) = true ∧
      spilledRegs (destUses (.v 8) 8) = [] ∧ answers (prepare s h [(.v 4, false)] [] 0xFF) = true ∧ spilledRegs [(.v 4, false)] = [] ∧
      ((h.queue? 12).map fun q => decide (q.entries.length + 8 ≤ q.depth)) = some true := by decide +kernel

/-- SoftmaxAndScalesComplete: an operation as its clauses describe it, and an input for each clause. -/
theorem witness_softmax :
    (fmtF32.input false 0x7FC00000).isNan = true ∧ (fmtF32.input false 0x3F800000).isNan = false ∧
      ∃ f : W64 → W64 → W64 → W32 × W32 × W32, ∀ r m c, f r m c = ((smxOp false r m c).1.setWidth 32, (smxOp false r m c).2.1.setWidth 32, (smxOp false r m c).2.2) :=
  ⟨by decide +kernel, by decide +kernel, fun r m c => ((smxOp false r m c).1.setWidth 32, (smxOp false r m c).2.1.setWidth 32, (smxOp false r m c).2.2), fun _ _ _ => rfl⟩

/-- A key-value header: three survivors, page 0 at 0xA000, budget `b`, weights at 0x8000. -/
def kvHeader (b : Nat) : List Byte :=
  packed [(7, 8), (0xA000, 8), (0xB000, 8), (0, 8), (0, 8), (0x8080808080808080, 8), (0, 8), (0, 8), (0, 8), (b, 2), (3, 1), (0, 1), (0, 4), (0, 8), (0x8000, 8), (0, 8)]

def withBlock (b : Nat) (s : State) : State := withC 2 0x9000 (withC 3 0xC000 (withMem 0x9000 (kvHeader b) (bound s)))

/-- One address passes its checks and is met by no watchpoint. -/
def placed (s : State) (h : Here) (a size : Nat) (n : Need) (va : W64) : Bool :=
  match checkGlobal s h a size n [(0, va)] with
  | .ok [(l, t)] => decide (l = (0, va)) && answers (watch s h a size [(0, va)]) && answers (Here.stepReady s h [(t.phys va, size)])
  | _ => false

/-- KeyValueBlocksComplete: a sound header within and beyond its budget, a corrupt one, a staged token, a page and a weight that can be written. -/
theorem witness_key_value :
    let s := accS (withBlock 2)
    let h := (viewOf s .access).awake
    let b := kvHeader 2
    issues s .access = true ∧ lowest (h.active ⟨false, 0⟩) = some 0 ∧ h.active ⟨false, 2⟩ = 0 ∧ h.uniform (.c 2) = 0x9000 ∧ h.uniform (.c 3) = 0xC000 ∧
      s.latestBytes .phys 0x9000 128 = b ++ List.replicate (128 - b.length) 0 ∧ kvCorrupt (kvSurv b) b = false ∧ kvCorrupt (kvSurv (kvHeader 0)) (kvHeader 0) = true ∧ kvUnpacked b = false ∧ kvFill b < 64 ∧
      kvPage b 0 ≠ 0 ∧ tokenBad (List.replicate 320 0) = false ∧ placed s h 2 128 .w 0x9000 = true ∧ placed s h 1 4096 .w 0xA000 = true ∧
      placed s h 1 4 .w (0x8000 + 12) = true ∧ answers (checkGlobal s h 0 64 .r ((List.range 5).map fun i => (0, 0xC000 + BitVec.ofNat 64 (64 * i)))) = true ∧
      answers (checkGlobal s h 0 4 .r ((List.range 64).map fun i => (0, 0x8000 + BitVec.ofNat 64 (4 * i)))) = true ∧
      (h.warp.maint = 0 ∧ h.warp.loads = [] ∧ s.drawers = [] ∧ s.pend = []) ∧ answers (h.pending [(.c 2, false), (.c 3, false), (.c 5, false)]) = true := by decide +kernel

theorem witness_key_value_weights :
    let s := accS fun s => withA 1 (List.replicate 8 0x9000) (withA 4 [0, 1, 2, 3, 64, -1, 0, 1] (stocked (withBlock 2 s)))
    let h := (viewOf s .access).awake
    let us : List Use := [(.a 1, false), (.a 4, false), (.q 6, false)]
    issues s .access = true ∧ answers (prepare s h [] us (h.active ⟨false, 0⟩)) = true ∧
      answers (checkGlobal s h 0 128 .r ((lanesOf (h.active ⟨false, 0⟩)).map fun l => (l, h.read (.a 1) true 0 false l))) = true ∧
      ((List.range 3).all fun i => weightBinding s 0 (0x8000 + BitVec.ofNat 64 (4 * i))) = true ∧ answers (h.releaseData none) = true ∧ answers h.storeRoom = true := by
  decide +kernel

/-! #### Engines -/

/-- A record that copies 2 rows of 32 bytes from memory at 0x8000 to the scratchpad at 0x400, with a barrier at `bar`. -/
def copyRecord (bar : Nat) : List Byte :=
  packed [(0x8000, 8), (0x400, 8), (32, 4), (2, 4), (64, 4), (32, 4), (0, 4), (bar, 4), (0, 8), (0, 4), (0, 2), (4, 2), (0, 8)]

/-- The records stand at 0x200; `xpost` posts one. -/
def posted1 (bar : Nat) : State :=
  after (fields 0x340 0 0 0x142 0 0) fun s => withScratch 0x100 (natToBytes (objInit 0 0).toNat 16) (withScratch 0x200 (copyRecord bar) (withC 2 0x200 s))

def then_ (s : State) (i : Instr) : State :=
  match exec i s with
  | .next t => t
  | _ => s

def accepted1 (bar : Nat) : State := then_ (posted1 bar) (.commandAcceptance 0)

/-- R286, R299, R135: a posted record is accepted, and its rows copy their bytes; the barrier's pending count rises and falls, and its phase flips. -/
theorem test_copy :
    let a := accepted1 0x100
    let id := ((a.core 0).cmds.map (·.id)).headD 99
    let f := then_ (then_ { a with mem := Cells.setList a.mem 0x8000 [1, 2, 3] } (.engineRowFinish 0 id 0 .ok [])) (.engineRowFinish 0 id 1 .ok [])
    (a.core 0).cmds.length = 1 ∧ readObj a stubCrew 0x100 = 64 ∧ readObj f stubCrew 0x100 = 0x100_0000_0000 ∧
      ((List.range 4).map fun i => f.latest (.scratch 0) (0x400 + i)) = [1, 2, 3, 0] ∧ (f.core 0).cmds = [] ∧ (pairOf f).status = 0 := by decide +kernel

/-- CommandsAndCopiesAreIssued: aligned offsets at the end of the allocation, a misaligned one, one beyond it; a gather and a copy with their checks passed. -/
theorem witness_commands :
    let s := accS fun s => withA 2 [0, 64, 128, 192, 256, 320, 384, 65472] (withA 5 (List.replicate 8 0x8000) (withA 6 (List.replicate 8 32) (withA 4 (List.replicate 8 0x200) s)))
    let h := (viewOf s .access).awake
    let off := fun (l : Nat) => ((h.read (.a 2) true 0 false l).setWidth 32 : W32).toNat
    let all := lanesOf (h.active ⟨false, 0⟩)
    issues s .access = true ∧ answers (h.pending [(.a 2, false)]) = true ∧ h.crew.scratch < 2 ^ 32 ∧ (∀ l ∈ all, off l % 64 = 0 ∧ off l + 64 ≤ h.crew.kern.scratch) ∧
      h.crew.kern.scratch < off 7 + 128 ∧ (h.warp.stores = [] ∧ h.warp.loads = [] ∧ h.warp.maint = 0) ∧ (0x400 + 4 * h.crew.grant ≤ h.crew.kern.scratch) ∧
      lowest (h.active ⟨false, 0⟩) = some 0 ∧ answers (h.pending [(.a 4, false), (.a 5, false), (.a 6, false)]) = true ∧
      (∀ l ∈ all, (h.read (.a 6) true 0 false l).toNat ≤ 32 ∧ ((h.read (.a 4) true 0 false l).setWidth 32 : W32).toNat % 32 = 0) ∧
      (match translateAll s h 0 .r (all.flatMap fun l => (pageHeads 0x8000 32).map fun a => (l, a)) with
        | .ok ts => answers (permitAll 0 .r ts)
        | .error _ => false) = true ∧ answers h.acquired = true ∧ h.pair.tagcnt = 0 := by decide +kernel

/-- The state with a copy in flight (`xcp`). -/
def copying1 : State := after 0x3430_0000_4028_3406 (withA 4 [0x200, 0x220, 0x240, 0x260, 0x280, 0x2A0, 0x2C0, 0x2E0])

theorem witness_copy_completes :
    ((placedPair copying1 0 0).map fun y => y.2.xcps.map fun x => decide (x.tag = 2) && decide (x.size = 32) && decide (x.lanes.length = 8) &&
      x.lanes.all fun l => decide (l.src.length ≤ x.size) && unowned copying1 (.scratch 0) l.dst x.size && !(l.src.any (updateBefore y.2 x.id))) = some [true] ∧
      (copying1.drawers = [] ∧ copying1.pend = [] ∧ copying1.faults = []) := by decide +kernel

/-- RecordsAreAccepted: a posted record that is well formed, with and without a barrier, and malformed ones. -/
theorem witness_records :
    let ok := fun (s : State) => match (s.core 0).posts with
      | p :: _ => (match placedPair s p.crew p.pair, p.kind with
        | some (c, _), .record off _ => decide ((CmdRec.ofBytes (crewBytes s p.crew c off 64)).malformed c.kern.scratch [] = none) && !p.resume && decide ((s.core 0).cmds.length < 256)
        | _, _ => false)
      | [] => false
    ok (posted1 0x100) = true ∧ ok (posted1 0xFFFFFFFF) = true ∧
      (objMode (readObj (posted1 0x100) stubCrew 0x100) < 3 ∧ fld (readObj (posted1 0x100) stubCrew 0x100) 42 6 = 0 ∧ objError (readObj (posted1 0x100) stubCrew 0x100) = false) ∧
      ((CmdRec.ofBytes ((copyRecord 0x100).set 52 9)).malformed 65536 [] = some 1) ∧ (0x108 % 16 ≠ 0 ∧ 65536 < 65536 + 16) ∧
      (readIndices (posted1 0x100) 0 0 stubCrew (CmdRec.ofBytes (copyRecord 0x100)) []).isSome = true := by decide +kernel

/-- EngineRowsFinish: a copy's row and a fill's, with their places free; a row of a command at a barrier; rows sent to another device. -/
theorem witness_rows :
    let a := accepted1 0xFFFFFFFF
    let c := (((placedPair a 0 0).map (·.1)).getD stubCrew)
    let k := (a.core 0).cmds.head?
    let r := CmdRec.ofBytes (copyRecord 0xFFFFFFFF)
    let sent := accepted1 0xFFFFFFFF |>.setCore 0 { a.core 0 with cyc := 40000000, cmds := (a.core 0).cmds.map fun k => { k with sent := [(0, 0)] } }
    (k.map fun k => decide (k.kind = .record 0x200 r) && decide (k.rows = r.rows) && k.done.isEmpty && k.sent.isEmpty && k.bar.isNone) = some true ∧
      (match sideBytes a c false r.src (r.rowLen 0) .r with
        | .ok (s₁, sp, as) => freeOf s₁ 0 0 (byteLines sp as) && (match sideBytes s₁ c true r.dst (r.rowLen 0) .w with
          | .ok (s₂, sp₂, as₂) => freeOf s₂ 0 ((k.map (·.id)).getD 0) (byteLines sp₂ as₂) && decide as₂.Nodup
          | .error _ => false)
        | .error _ => false) = true ∧
      ((accepted1 0x100).core 0).cmds.map (·.bar) = [some 0x100] ∧ objPending (readObj (accepted1 0x100) c 0x100) = 64 ∧
      (((sent.core 0).cmds.head?.map fun k => decide ((0, 0) ∈ k.sent)) = some true ∧ 0 + sent.dev.rtimeout.toNat ≤ (sent.core 0).cyc.toNat) ∧
      ((a.setCore 0 { a.core 0 with banks := [List.replicate 5 { crew := 0, slot := 0, opcode := 0x2C3, fa := .m4, fb := .m4, ftz := false }, []] }).core 0).banks.length = 2 := by
  decide +kernel

/-- OtherDevicesAndTheHostAccessMemory: a context whose entry holds the tag, addresses that its tables map, and ones that they do not. -/
theorem witness_remote :
    let s := exeS fun s => (s.setCtx 0 { s.ctx 0 with rtag := 0x10007 })
    (tagged s 7 = some 0 ∧ (∀ e ∈ s.ctxs, e.2.rtag.getLsbD 16 = false ∨ fld e.2.rtag 0 16 ≠ 8)) ∧
      (match visitBytes s 0 0x8000 .w 16 with
        | .ok (s₁, as) => unownedBytes s₁ none as && decide as.Nodup
        | .error _ => false) = true ∧ answers (visitBytes s 0 0x8000_0000 .r 4) = false ∧ s.dev.memActive = true ∧ State.reset.dev.memActive = true ∧
      ({ State.reset with dev := { State.reset.dev with memActive := false } } : State).dev.memActive = false := by decide +kernel

/-- BarrierInstructionsComplete: an object in mode 2 short of and at its count, in mode 0, with an error, corrupt; offsets at the end of the allocation and beyond. -/
theorem witness_barriers :
    let s := exeS fun s => withScratch 0x100 (natToBytes (objInit 2 2).toNat 16) (withS 3 0x100 s)
    let h := (viewOf s .execute).awake
    let o := readObj s h.crew 0x100
    issues s .execute = true ∧ h.active ⟨false, 0⟩ ≠ 0 ∧ h.active ⟨false, 2⟩ = 0 ∧ answers (h.pending [(.s 3, false)]) = true ∧
      (0x100 % 16 = 0 ∧ 0x100 + 16 ≤ h.crew.kern.scratch ∧ 65520 + 16 ≤ h.crew.kern.scratch ∧ h.crew.kern.scratch < 65536 + 16) ∧ answers (Here.objReady s h 0x100) = true ∧
      (objMode o = 2 ∧ fld o 42 6 = 0 ∧ objExpected o = 2 ∧ objWaiters o = 0 ∧ objError o = false ∧ objPhase o = false) ∧ answers h.drained = true ∧
      objMode (objInit 0 0) = 0 ∧ objError (objError' o 0x118 4) = true ∧ 3 ≤ objMode (objInit 3 0) ∧ objExpected (objInit 2 0) = 0 ∧ objWaiters (objWait o true) ≠ 0 ∧
      2 ^ 16 ≤ objArrived (setFld o 64 16 1) + 65535 := by decide +kernel

/-- A deque of the stand-in's launch at core 0 with two records, and one at core 1 of its cluster. -/
def dequeAt (core hd tl : Nat) (s : State) : State :=
  s.setCore core { s.core core with
    scratch := Cells.setList (Cells.setList (s.core core).scratch 0x20000 (packed [(hd, 8), (tl, 8), (16, 4)])) (0x20000 + 64 + 64 * (tl - 1)) (packed [(0, 4), (0, 4), (5, 8)]),
    deques := [{ launch := 0, off := 0x20000, cap := 16, stopped := false }] }

def withEntries (s : State) : State := s.onCrew 0 fun c => { c with entries := [(0, 0), (0x40, 0x80)] }

/-- WorkDequesMoveRecords: an empty deque, one with records, a full one, a corrupt one, none; a place for a packed warp pair. -/
theorem witness_deques :
    let f := fun s => withEntries (dequeAt 0 3 5 (dequeAt 1 3 5 s))
    let s := accS f
    let h := (viewOf s .access).awake
    let d : Deque := { launch := 0, off := 0x20000, cap := 16, stopped := false }
    issues s .access = true ∧ dequeOf (s.core 0) h.crew.launch = some d ∧ dequeOf (s.core 1) h.crew.launch = some d ∧ dequeOf (s.core 2) h.crew.launch = none ∧
      (dqHead s 0 d = 3 ∧ dqTail s 0 d = 5 ∧ dqCorrupt s 0 d = false) ∧ dqTail s 0 d - dqHead s 0 d + 8 ≤ d.cap ∧ dqCorrupt (accS (dequeAt 0 5 3)) 0 d = true ∧
      answers (h.pending ([(.a 1, false), (.a 2, false)] ++ aRegs 3 7)) = true ∧ answers (h.pending (aRegs 2 8)) = true ∧ answers h.drained = true ∧ answers h.acquired = true ∧
      (let p := s.setCtx 0 { s.ctx 0 with bspool := 0x100000, bssize := 0x100000 }
       (receiver p 0 0 0).map (·.1) = some 0 ∧ ((receiver p 0 0 0).bind fun e => packRoom p 0 e.1 e.2).isSome = true ∧ atCollective stubCrew = false) := by decide +kernel

/-- R301, R302: a lane emits a record and a lane takes it back. -/
theorem test_emit_and_pop :
    let s := after (fields 0x34A 2 0 0x003 0x004 0x5) fun s => withK 2 1 (withA 3 [0x10] (withA 4 [1] (withA 5 [77] (withEntries (dequeAt 0 3 5 s)))))
    let d : Deque := { launch := 0, off := 0x20000, cap := 16, stopped := false }
    let p := after (fields 0x34B 2 0x001 0 0 3) fun s => withK 2 3 (withEntries (dequeAt 0 4 5 s))
    dqTail s 0 d = 6 ∧ (bytesToNat (coreBytes s 0 (dqSlot d 5) 8), bytesToNat (coreBytes s 0 (dqSlot d 5 + 8) 8)) = (0x1_0000_0010, 77) ∧
      ((aOf p 1 0, aOf p 2 0) = (0, 5) ∧ aOf p 2 1 = 0 ∧ ((pairOf p).acc.pred 3) = 1 ∧ dqTail p 0 d = 4) := by decide +kernel

/-! #### Collectives -/

/-- Both warps of the crew stand parked at a collective. -/
def parkedAt' (i : Instr) (s : State) : State :=
  [Slice.access, Slice.execute].foldl (fun s sl => s.onSplit (unitOf sl) fun x => { x with wait := .collective i }) s

def setw16 : Instr := .setw { g := ⟨false, 0⟩, nwb := false, d := .none, req := 1 }
def setwV : Instr := .setw { g := ⟨false, 0⟩, nwb := false, d := .s 1, req := 1 }

def crewOf (s : State) : Crew := (s.crew? 0).getD stubCrew

/-- CollectivesMeet: a crew with nobody parked, and crews parked at each collective. -/
theorem witness_collectives :
    let s := fun i => exeS (parkedAt' i)
    let c := fun i => crewOf (s i)
    let bare : Instr := .cbar { g := ⟨false, 0⟩ }
    let y : Instr := .pyld { g := ⟨false, 0⟩, nwb := false, d := .s 1 }
    let r : Instr := .regroup { g := ⟨false, 0⟩, nwb := false, d := .v 1, key := .v 2, live := .s 4 }
    issues (exeS id) .execute = true ∧ answers ((exeH id).awake.pending [(.s 1, false)]) = true ∧ (crewOf (exeS id)).grant ∈ [8, 16, 32, 64] ∧
      ((crewOf (exeS id)).saving = false ∧ (crewOf (exeS id)).saved = none) ∧ crewReached (crewOf (exeS id)) = none ∧
      (crewReached (c setwV) = some 1 ∧ setwRequest (c setwV) = some 16 ∧ quiescent (c setwV) = true ∧ spilledRegs [(.s 1, false)] = []) ∧
      (crewReached (c y) = some 2 ∧ (c y).preq = false ∧ (c y).widthReq = none) ∧ (crewReached (c bare) = some 3 ∧ (c bare).drained = true) ∧
      (crewReached (c r) = some 4 ∧ regroupOk (c r) = true ∧ (∀ p ∈ (c r).pairs, p.2.acc.loads = []) ∧
        (regroupKeys (s r) 0 (c r)).map (·.1) = List.range (regroupKeys (s r) 0 (c r)).length) ∧
      regroupOk { c r with pairs := (c r).pairs.map fun p => (p.1, { p.2 with exe := { p.2.exe with dead := 1 } }) } = false ∧
      (chooseGrant (s setwV) 0 (some 0) ((c setwV).wanted 0) (fun _ => true) 16).isSome = true ∧
      quiescent (crewOf (exeS fun s => stocked (parkedAt' setwV s))) = false := by decide +kernel

/-- A kernel without scratchpad and with few registers, in a context with room for crews and their images. -/
def smallCrew (s : State) : State :=
  (s.setCtx 0 { s.ctx 0 with pool := 0x200000, psize := 0x100000, bspool := 0x100000, bssize := 0x100000 }).onCrew 0 fun c =>
    { c with kern := { c.kern with scratch := 0, nv := 8, ta := 0, queues := [] }, pairs := c.pairs.map fun p => (p.1, { p.2 with queues := [] }) }

/-- R165: with nothing else about, the request for 16 lanes is granted when both warps have arrived. -/
theorem test_setw :
    let s := completeCollective (exeS fun s => parkedAt' setwV (smallCrew s)) 0
    (crewOf s).grant = 16 ∧ (pairOf s).exe.getS 1 = 16 ∧ (split0 s .execute).pc = 0x10008 := by decide +kernel

/-- R213: three threads change places by their keys; the named registers go with them and v8 stays. -/
theorem test_regroup :
    let i : Instr := .regroup { g := ⟨false, 0⟩, nwb := false, d := .v 1, key := .v 2, live := .s 4 }
    let s := completeCollective (exeS fun s => withS 4 2 (withLanes 2 [3, 1, 3, 0, 1, 1, 0, 3] (withLanes 4 [0, 10, 20, 30, 40, 50, 60, 70]
      (withLanes 8 [9] (parkedAt' i s))))) 0
    (List.range 8).map (vOf s 1) = [3, 6, 1, 4, 5, 0, 2, 7] ∧ (List.range 8).map (vOf s 4) = [30, 60, 10, 40, 50, 0, 20, 70] ∧ vOf s 8 0 = 9 := by decide +kernel

/-! #### Cores and crews -/

def launchAt (nx placed : Nat) : Launch :=
  { queue := 0, ctx := 0, entry := { ctx := 0, addr := 0x10000, xaddr := 0x10000, kern := { stubKernel with scratch := 0, nv := 8, ta := 0, queues := [] }, entries := [], loadid := 1, model := 3 },
    width := 1, nx := nx, ny := 1, nz := 1, threads := 8, cap := 0, paddr := 0, plen := 0, params := [], caddr := 0, cval := 0, placed := placed, uids := [0], asked := [] }

/-- Queue 0 runs a launch of `nx` crews, `placed` of them placed. -/
def launching (nx placed : Nat) (s : State) : State :=
  { (smallCrew s).setHq 0 { s.hq 0 with cfg := 0x4000, tail := 1, res := true, run := some (.launch 0) } with
    launches := [(0, launchAt nx placed)], nextLaunch := 1, nextCrew := 1 }

/-- The crew with a request, a save that has begun, and one that has been saved. -/
def requested (d : W32) (s : State) : State := s.onCrew 0 fun c => { c with preq := true, deadline := d }
def savingCrew (s : State) : State := (launching 1 1 s).onCrew 0 fun c => { c with saving := true, room := some (0x1000, 0x4000) }

/-- CoreAndCrewEvents: an idle core, a gated one with a reason, a unit that has waited; a request to make, an expired deadline, a crew that can be saved. -/
theorem witness_core_events :
    let idle := (exeS (parkedAt' setw16)).setCore 0 { (exeS (parkedAt' setw16)).core 0 with idle := 16 }
    let gated := (exeS id).setCore 0 { (exeS id).core 0 with gated := true }
    let old := (exeS id).setCore 0 { (exeS id).core 0 with cyc := 2048 }
    (coreIdle idle 0 = true ∧ (idle.core 0).gated = false) ∧ (reasonHolds gated 0 1 = true ∧ reasonHolds gated 0 4 = true ∧ reasonHolds gated 0 5 = false) ∧
      ((viewOf old .execute).isReady = true ∧ (viewOf old .execute).split.boosted = none ∧ (viewOf old .execute).split.readyAt + 2048 ≤ (old.core 0).cyc.toNat) ∧
      ((crewOf (exeS (requested 0))).preq = true ∧ (crewOf (exeS (requested 0))).deadline = 0 ∧ (crewOf (exeS (requested 0))).saving = false) ∧
      ((exeH (fun s => s.onSplit (unitOf .execute) fun x => { x with mc := [(0x120, 5)] })).split.mc = [(0x120, 5)]) ∧
      (let p := { State.reset with faults := [(108, 0x20, 0x4000, false)] }
       faulty p 108 0x20 0x4000 = true ∧ isDevice (64 * 0x4000) = true ∧ 108 + dieOf (64 * 0x4000) = 108 + 0) ∧
      faulty State.reset 108 0x20 0x4000 = false ∧
      256 ≤ (Cells.get ({ State.reset.err 3 with perBank := [(31, 256)] } : ErrBlock).perBank 31).toNat := by decide +kernel

theorem witness_save :
    let s := savingCrew (placeWord State.reset 64 0)
    let c := crewOf s
    c.saving = true ∧ c.saved = none ∧ saveReady s 0 c = true ∧ (s.core c.core).cmds = [] ∧ (∀ p ∈ c.pairs, p.2.acc.acks = 0) ∧ (s.drawers = [] ∧ s.pend = []) ∧
      c.room = some (0x1000, 0x4000) ∧ (s.faults = [] ∧ s.errs = []) := by decide +kernel

/-- The header of the image of a crew without warps (Table 14.10), with a CRC. -/
def smallHeader (crc : Nat) : List Byte := packed [(3, 4), (crc, 4), (8, 2), (0, 2), (8, 4), (8, 2), (0, 2), (0, 2), (0, 2), (0, 4), (0, 4)] ++ zeros 224

theorem crc_first : ((smallHeader 0).take 32).foldl crc32Byte 0xFFFFFFFF = 0xc5b0e573 := by decide +kernel

theorem crc_zeros : ((zeros 32).foldl crc32Byte 0xc5b0e573 = 0x55a1f1df ∧ (zeros 32).foldl crc32Byte 0x55a1f1df = 0x7d2b8bec ∧
    (zeros 32).foldl crc32Byte 0x7d2b8bec = 0xc333ce93 ∧ (zeros 32).foldl crc32Byte 0xc333ce93 = 0x85337417 ∧ (zeros 32).foldl crc32Byte 0x85337417 = 0xdd1be291) ∧
    (zeros 32).foldl crc32Byte 0xdd1be291 = 0x36619786 ∧ (zeros 32).foldl crc32Byte 0x36619786 = 0x755b15be := by decide +kernel

/-- The CRC-32C of the header, in eight steps of 32 bytes. -/
theorem crc_small : crc32c (smallHeader 0) = 0x8AA4EA41 := by
  have e : smallHeader 0 = (smallHeader 0).take 32 ++ (zeros 32 ++ (zeros 32 ++ (zeros 32 ++ (zeros 32 ++ (zeros 32 ++ (zeros 32 ++ zeros 32)))))) := by decide +kernel
  obtain ⟨⟨a, b, c, d, f⟩, g, h⟩ := crc_zeros
  unfold crc32c
  rw [e]
  simp only [List.foldl_append]
  rw [crc_first, a, b, c, d, f, g, h]
  decide

def smallImage : SaveInfo := { image := 0x200000, size := 256, reslice := false, crc := 0x8AA4EA41, records := [], offs := [], corrupt := false }

/-- A crew that was saved with the image `l` at 200000h. -/
def savedWith (l : List Byte) : State :=
  let s := launching 1 1 (placeWord State.reset 64 0)
  { s.onCrew 0 fun c => { c with grant := 8, num := 0, threads := 8, pairs := [], kern := { c.kern with ns := 0 }, saved := some smallImage } with
    mem := Cells.setList s.mem 0x200000 l, cur := none }

theorem small_image_read : deviceLoad (savedWith (smallHeader 0x8AA4EA41)) 0x200000 256 = smallHeader 0x8AA4EA41 := by decide +kernel

theorem small_image_sound : imageFault (crewOf (savedWith (smallHeader 0x8AA4EA41))) (smallHeader 0x8AA4EA41) = none := by
  have e : patch (smallHeader 0x8AA4EA41) 4 (zeros 4) = smallHeader 0 := by decide +kernel
  unfold imageFault
  rw [e, crc_small, if_neg (by decide +kernel), if_neg (by decide +kernel), if_neg (by decide +kernel), if_neg (by decide +kernel)]

/-- CoreAndCrewEvents: a saved crew whose image is sound (above), and one whose image is not. -/
theorem witness_resume :
    let s := savedWith (smallHeader 0x8AA4EA41)
    let z := savedWith []
    let l := launchAt 1 1
    (crewOf s).saved = some smallImage ∧ ((savedWaiting 0 (crewOf s) smallImage l).spot s 0 l).isSome = true ∧
      imageFault (crewOf z) (deviceLoad z 0x200000 256) = some 0 ∧
      Tbl.get? s.launches (crewOf s).launch = some l ∧ (waitingOf s (crewOf s).launch l).bind (·.saved) = some 0 ∧ turnOf s (crewOf s).launch l = true := by decide +kernel

/-- R150: an image that is not the saved one is corrupt. -/
theorem test_resume : (crewOf (then_ (savedWith []) (.crewResume 0))).saved.map (·.corrupt) = some true := by decide +kernel

/-- CoreAndCrewEvents: a crew that can be placed, and one for which room must be made. -/
theorem witness_placement :
    let s := launching 2 1 (placeWord State.reset 64 0)
    let l := launchAt 2 1
    (s.runningLaunch 0).map (·.1) = some 0 ∧ ((waitingOf s 0 l).map fun w => w.saved.isNone && (w.spot s 0 l).isSome) = some true ∧ turnOf s 0 l = true := by decide +kernel

/-- R381: the next crew of a launch goes to a core, with its threads at the kernel's entry. -/
theorem test_placement :
    let s := then_ (launching 2 1 (placeWord State.reset 64 0)) (.crewPlacement 0)
    ((s.crew? 1).map fun c => (c.grant, c.num, c.threads)) = some (8, 1, 8) ∧ ((Tbl.get? s.launches 0).map (·.placed)) = some 2 ∧
      (((s.pair? 1 0).bind fun p => Tbl.get? p.acc.splits 0).map fun x => (x.pc, x.mask)) = some (0x10000, 0xFF) := by decide +kernel

/-! #### Host queues and the mailbox -/

/-- Queue 1 of context 0 is resident with one record to start. -/
def ringWith (r : List Byte) (s : State) : State :=
  (withMem 0x40000 r s).setHq 1 { s.hq 1 with ring := 0x40000, cfg := 0x4000, tail := 1, res := true }

def record1 (r : List Byte) : State := ringWith r { smallCrew (placeWord State.reset 64 0) with loads := [(launchAt 1 0).entry], objects := [{ ctx := 0, loadid := 1, model := 1 }], crews := [] }

/-- The record that queue 1 starts, with this operation. -/
def starts (s : State) (op : Nat) : Bool :=
  match startCommand s 1 with
  | .record _ r => decide (bytesAt r 0 2 = op)
  | _ => false

def launchRecord (addr : Nat) : List Byte := packed [(1, 2), (1, 2), (1, 2), (1, 2), (1, 2), (0, 2), (0, 2), (0, 2), (addr, 8), (0, 8), (0, 8), (0, 8), (0, 8), (0, 8)]
def eventRecord (op v : Nat) : List Byte := packed [(op, 2), (0, 8), (0, 6), (0x8000, 8), (v, 8), (0, 8), (0, 8), (0, 8), (0, 8)]

/-- HostQueuesAndTheMailbox: a record of each operation, sound and not; a context without a root; queues to switch in and out. -/
theorem witness_host_queues :
    starts (record1 []) 0 = true ∧ starts (record1 [0, 0, 1]) 0 = true ∧ (starts (record1 (eventRecord 2 5)) 2 = true ∧ eventRecordOk (eventRecord 2 5) = true ∧ eventRecordOk [2, 0, 1] = false) ∧
      starts (record1 (eventRecord 3 5)) 3 = true ∧ (starts (record1 (launchRecord 0x10000)) 1 = true ∧ launchRecordOk (launchRecord 0x10000) = true) ∧ starts (record1 [4]) 4 = true ∧
      (match startCommand ((record1 []).setCtx 0 Ctx.reset) 1 with
        | .error 7 => true
        | _ => false) = true ∧
      (loadedAt (record1 []) 0 0x10000).isSome = true ∧ (loadedAt (record1 []) 0 0x20000).isNone = true ∧ capOk (launchAt 1 0).entry.kern 0 = true ∧
      (match launchRead (record1 []) 0 0x8000 8 with
        | .ok (some (_, d)) => decide (bytesToNat d = 0)
        | _ => false) = true ∧ (match launchWrite (record1 []) 0 0x8000 [1] with
        | .ok (some _) => true
        | _ => false) = true ∧
      (neverFits (record1 []) (nextWaiting 1 (launchAt 1 0)).want = none ∧ neverFits ((record1 []).setCtx 0 { (record1 []).ctx 0 with bssize := 0 }) (nextWaiting 1 (launchAt 1 0)).want = some 8) ∧
      (let q := State.reset.setHq 5 { State.reset.hq 5 with cfg := 0x4000, tail := 1 }
       nextResident q = some 5 ∧ (q.hq 5).eligible = true ∧ residents q = 0) ∧
      (let l := (launching 1 1 (placeWord State.reset 64 0))
       (l.runningLaunch 0).map (·.1) = some 0 ∧ (∀ e ∈ ({ l with crews := [] } : State).crews, e.2.launch ≠ 0)) := by decide +kernel

/-- All slots of the launch engine are in use, and another queue waits. -/
theorem witness_switch_out :
    let s := (List.range 65).foldl (fun (s : State) n => s.setHq n { s.hq n with cfg := 0x4000, tail := if n = 64 then 1 else 0, res := decide (n < 64) }) State.reset
    nextResident s = some 64 ∧ 64 ≤ residents s ∧ (switchOut s (s.hq 64).prio).isSome = true := by decide +kernel

/-- R376: an event wait waits for its counter; a launch record starts its launch, whose crew is placed. -/
theorem test_commands :
    let w := then_ (record1 (eventRecord 2 5)) (.eventWait 1)
    let d := then_ { w with mem := Cells.setList w.mem 0x8000 [5] } (.eventWaitPoll 1)
    let e := then_ (record1 (eventRecord 3 0x77)) (.eventWrite 1)
    let l := then_ (then_ (record1 (launchRecord 0x10000)) (.launch 1)) (.crewPlacement 1)
    ((w.hq 1).progress, (d.hq 1).progress) = (0, 1) ∧ (e.latest .phys 0x8000, (e.hq 1).progress) = (0x77, 1) ∧ l.crews.length = 1 ∧
      (then_ (record1 (launchRecord 0x20000)) (.launch 1) |>.hq 1).err = 3 := by decide +kernel

/-- A request in the mailbox. -/
def mailed (op ctx id : Nat) (s : State) : State :=
  { s with dev := { s.dev with mailbox := Cells.setList [] 0 [BitVec.ofNat 64 (op + 2 ^ 16 * ctx + 2 ^ 32 * id), 0x8000, 64, 0, 0, 0, 0xFFFF] } }

/-- HostQueuesAndTheMailbox: requests whose object cannot be read or is none, a load to take away, one in use, none. A signed object stands at the end of the file. -/
theorem witness_mailbox :
    let s := fun op id => mailed op 0 id (record1 [])
    mailboxBusy (s 1 1) = true ∧ (requestOf (s 1 1)).op = 1 ∧ (requestOf (s 2 1)).op = 2 ∧ (match readObject (s 1 1) (requestOf (s 1 1)) with
      | .fails _ _ => true
      | _ => false) = true ∧ (∃ e ∈ (s 3 1).objects, e.ctx = (requestOf (s 3 1)).ctx ∧ e.loadid = (requestOf (s 3 1)).loadid) ∧
      (∀ e ∈ (s 3 2).objects, ¬(e.ctx = (requestOf (s 3 2)).ctx ∧ e.loadid = (requestOf (s 3 2)).loadid)) ∧ loadInUse (s 3 1) 1 = false ∧
      loadInUse { s 3 1 with launches := [(0, launchAt 1 0)] } 1 = true := by decide +kernel

/-- R436: an unload takes the kernels of its load away. -/
theorem test_unload :
    let s := then_ (mailed 3 0 1 (record1 [])) .mailboxUnload
    s.loads.length = 0 ∧ s.objects.length = 0 ∧ bytesAt (mailboxBytes s) 48 2 = 0 ∧ bytesAt (mailboxBytes (then_ (mailed 3 0 2 (record1 [])) .mailboxUnload)) 48 2 = 0x0E := by decide +kernel

/-- No error, no injection and no update record lies about, and no access waits for a line. -/
def clean (s : State) : Bool := decide (s.faults = [] ∧ s.errs = [] ∧ s.drawers = [] ∧ s.pend = [] ∧ s.held = [])

theorem clean_sound {s : State} (h : clean s = true) : Claims.NoErrors s ∧ s.drawers = [] ∧ s.pend = [] ∧ s.held = [] := by
  simp only [clean, decide_eq_true_eq] at h
  obtain ⟨hf, he, hd, hp, hh⟩ := h
  have : ∀ i, s.err i = ErrBlock.reset := by simp [State.err, he, Tbl.get?]
  exact ⟨⟨hf, fun i => by rw [this i]; rfl, fun i => by rw [this i]; rfl⟩, hd, hp, hh⟩

/-! #### Debug and the device -/

/-- A debug register block of context 0, and the execute split halted or not. -/
def debugging (sel mask data : W64) (halted : Bool) (s : State) : State :=
  ((s.onDebug 0 fun d => { d with dctl := 3, dsel := sel, dmask := mask, ddata := data }).onSplit (unitOf .execute) fun x => { x with halted := halted })

/-- A command on warp pair 0, execute slice, split 0 of crew 0. -/
def command (op : Nat) : W64 := BitVec.ofNat 64 op

/-- DebugCommandsAct: a target, no target, a saved crew's reason; a halted split, a running one; lanes to step; a register and a scratchpad word. -/
theorem witness_debug :
    let s := exeS (debugging 0 0x0F 8 true)
    let z := Claims.commanded s 0 (command 3) 0
    let h := viewOf z .execute
    fld (s.ctx 0).dbg.dstat 0 2 ≠ 1 ∧ (fld (command 3) 4 4 = 0 ∧ fld (command 3) 17 15 = 0) ∧ (fld (command 3 ||| 0x10) 4 4 ≠ 0) ∧
      (debugTarget s 0 (command 3) = .inr (unitOf .execute)) ∧ debugTarget s 0 (command 3 ||| 0x500000000) = .inl 1 ∧ h.split.halted = true ∧
      nextCollective z h = false ∧ (s.ctx 0).dbg.dmask &&& h.split.mask = 0x0F ∧ (Tbl.get? h.warp.splits 4).isNone = true ∧
      (debugValue z h 0 3 0).isSome = true ∧ (debugValue z h 99 3 0).isNone = true ∧ (debugPut z h 0 3 0 8).isSome = true ∧ (debugPut z h 99 3 0 8).isNone = true ∧
      (8 % 8 = 0 ∧ 8 + 8 ≤ h.crew.kern.scratch ∧ crewWaits z h.crew 8 8 = false ∧ 9 % 8 ≠ 0 ∧ h.crew.kern.scratch < 65536 + 8) ∧ clean s = true ∧ (exeH (debugging 0 0x0F 8 false)).split.halted = false ∧ (haltScope s 0 (unitOf .execute)).length = 1 := by decide +kernel

/-- R422, R423: a debug write of v3 in lane 2 and the read of it. -/
theorem test_debug :
    let s := then_ (exeS (debugging 0x02000300 0xFF 0x55 true)) (.debugWrite 0 (command 5))
    let r := then_ s (.debugRead 0 (command 4))
    vOf s 3 2 = 0x55 ∧ (r.ctx 0).dbg.ddata = 0x55 ∧ fld (r.ctx 0).dbg.dstat 0 2 = 2 := by decide +kernel

/-- A signature's first number (its secret number is 1, so it is the abscissa of the base point), and the signature of the empty image by the private key 1. -/
def sigR : List Byte := beBytes 0xaa87ca22be8b05378eb1c71ef320ad746e1d3b628ba79b9859f741e082542a385502f25dbf55296c3a545e3872760ab7 48
def emptySig : List Byte := sigR ++ beBytes 0xe3382aca10379b6fdb8af99da4d290de901af273a065a2dba604099fe64b0c127c51d11da6c48f680f6f3129bb0ec412 48

/-- The digest of the public key of the private key 1, which is the base point. -/
def baseDigest : List Byte := natToBytes 0x1dd5e1afb0969cd83edacd4c19820fc9a05bb4f440a2f442388caffb48d02f21e50d135a70067686edf9b71224264f8c 48

theorem base_digest : keyDigest g384 = baseDigest := by decide +kernel

/-- R427, R458: the signature that FIPS 186-4 gives for the digest of nothing verifies, and an altered one does not. -/
theorem test_ecdsa : ecdsaOk g384 (sha384 []) emptySig = true ∧ ecdsaOk g384 (sha384 []) (emptySig.set 95 0) = false := by decide +kernel

/-- A device whose fuses hold the digest of that key, and what a start meets: an empty image with its signature. -/
def fused (sig : List Byte) (s : State) : State :=
  { s with dev := { s.dev with vendorFuse := baseDigest },
           env := { s.env with fw := { image := [], version := 0, signers := [g384], translator := 1 }, fwKey := g384, fwSig := sig } }

/-- DeviceEvents: commands of the invalidation block at the bounds of their fields; context entries that may and may not change; starts that fail and succeed. That a raise is accepted hangs on a nonce, a free value (log 5). -/
theorem witness_device :
    let run := { State.reset with dev := { State.reset.dev with istatus := 1 } }
    (State.reset.dev.istatus ≠ 1 ∧ run.dev.istatus = 1 ∧ run.crews = []) ∧
      (fld (0x400 : W64) 12 52 = 0 ∧ bitAt (0x400 : W64) 10 = true ∧ fld (0x1000 : W64) 12 52 ≠ 0 ∧ fld (0 : W64) 6 4 = 0) ∧
      (entryOk State.reset 3 { Ctx.reset with rtag := 0x10007 } = true ∧ entryOk State.reset 3 { Ctx.reset with pool := 1 } = false ∧ ctxInUse State.reset 3 = false ∧
        ctxInUse (placeWord State.reset 64 0) 0 = true) ∧
      (fld (575 : W64) 10 54 = 0 ∧ fld (575 : W64) 0 10 < 576 ∧ fld (1023 : W64) 0 10 = 1023 ∧ ¬(fld (576 : W64) 0 10 < 576)) ∧
      (¬(State.reset.dev.fuse.toNat < State.reset.dev.rvalue.toNat)) ∧ (fld (4 : W64) 2 62 ≠ 0 ∧ fld (3 : W64) 2 62 = 0 ∧ bitAt (3 : W64) 1 = true) ∧
      selfTestFails StartEnv.reset = false ∧ (State.reset.dev.plimit.toNat < 1601 ∧ 12 < State.reset.dev.clock) ∧
      (State.reset.dev.session = false ∧ ({ State.reset.dev with session := true } : Device).session = true) := by decide +kernel

/-- R457, R459: a start that fails at its firmware, and one that succeeds. -/
theorem test_starts :
    let bad := then_ (fused (zeros 96) State.reset) .powerOn
    let good := then_ { fused emptySig (placeWord State.reset 64 0) with cur := none } .cxlReset
    (bad.dev.ready = false ∧ bad.dev.fail ≠ 0 ∧ bad.dev.memActive = false) ∧ good.dev.ready = true ∧ good.crews.length = 0 ∧ good.dev.domain = 1023 := by decide +kernel

/-- R369, R367: an injected error is met by the patrol, corrected and counted. -/
theorem test_patrol :
    let s := then_ { State.reset with faults := [(108, 0x20, 0x4000, false)] } (.patrolRead (.hbmUnit 0x100000))
    s.faults = [] ∧ (s.err 108).corrected = 1 := by decide +kernel

/-! #### Further hypotheses of the statements above -/

/-- The states of the witnesses above whose statements ask for it hold no error. -/
theorem witness_clean :
    ([exeS id, accS id, exeS stocked, accS (withC 3 0x8000), accS (eightAt 0x8000), accS bound, exeS (withStamps false), accS (withBlock 2), loading1, stored1, copying1,
      posted1 0x100, accepted1 0x100, exeS fun s => withScratch 0x100 (natToBytes (objInit 2 2).toNat 16) (withS 3 0x100 s),
      accS (fun s => withEntries (dequeAt 0 3 5 s)), savingCrew (placeWord State.reset 64 0), State.reset] : List State).all clean = true := by decide +kernel

/-- QueueInstructionsComplete: `qdrop.all` with an entry that is reserved. -/
theorem witness_drops :
    let s := exeS fun s => (stocked s).onPair 0 0 fun p => { p with queues := p.queues.map fun q => (q.1, { q.2 with entries := q.2.entries.map fun e => { e with missing := 1 } }) }
    issues s .execute = true ∧ ((((viewOf s .execute).queue? 0).map fun q => q.entries.any fun e => decide (e.missing ≠ 0)) = some true) := by decide +kernel

/-- A drawer of slot 2 of context 0, whose line is 0x8000 / 128, with or without a command that owns the line. -/
def drawn (own : Bool) (s : State) : State :=
  let s := { bound s with drawers := [{ key := 0x8000, va := 0x8000, ctx := 0, slot := 2, oper := 0, etype := 0x0D, val := 0, sh := [], used := 0 }] }
  if own then s.setCore 1 { s.core 1 with cmds := [{ id := 7, crew := 0, pair := 0, kind := .pack 0, bar := none, rows := 1, done := [], own := [(0x8000 / 128, 0)], index := [], crc := 0, diff := 0, sent := [] }] } else s

/-- RegionsAndCachesAreMaintained: a range that names the line of a record that can, and one that cannot, be applied; slots that can and cannot be freed. -/
theorem witness_records_of_regions :
    let s := accS (drawn false)
    let o := accS (drawn true)
    (lineNamed s 0 0 [(0x8000, 0x8004)] (0x8000 / 128) = true ∧ lineNamed s 0 0 [(0x9000, 0x9004)] (0x8000 / 128) = false) ∧
      (applyReady s 0x8000 = true ∧ applyReady o 0x8000 = false) ∧ (slotFree s 0 2 = true ∧ slotFree o 0 2 = false) ∧ (s.faults = [] ∧ s.errs = []) ∧
      (issues s .access = true ∧ issues o .access = true ∧ (viewOf o .access).u = unitOf .access) := by decide +kernel

/-- ProductsWriteExactSums: slots without and with lost words that a product reads, and one whose lost words it does not read; rows of a form that completes. -/
theorem witness_lost_words :
    let reads := fun (sparse : Bool) (w : Nat) => decide (w < 256) || (sparse && decide (w < 320))
    ([] : List Nat).filter (reads true) = [] ∧ [3, 400].filter (reads false) = [3] ∧ [256, 319].filter (reads true) = [256, 319] ∧ [256, 320].filter (reads false) = [] ∧
      ¬((MFmt.e2m1 = .e5m2 ∧ MFmt.m4 = .e5m2) ∨ (true = true ∧ false = true) ∨ ((true = true ∨ false = true) ∧ (2 : BitVec 2).toNat % 2 = 1)) ∧
      ((exeH (withStamps false)).crew.kern.ns = 4 ∧ (8 : BitVec 8).toNat + 8 ≤ (exeH (withStamps false)).crew.kern.nv) := by decide +kernel

/-- CollectivesMeet: a pre-emption request with and without room for the image; a grant that is not joinable; warps that have not emptied. -/
theorem witness_collectives_requests :
    let y : Instr := .pyld { g := ⟨false, 0⟩, nwb := false, d := .s 1 }
    let room := exeS fun s => parkedAt' y (requested 5 (smallCrew s))
    let none_ := exeS fun s => (fun s => s.setCtx 0 { s.ctx 0 with psize := 0 }) (parkedAt' y (requested 5 (smallCrew s)))
    let v := exeS fun s => parkedAt' setwV (smallCrew s)
    (crewReached (crewOf room) = some 2 ∧ (crewOf room).preq = true ∧ (saveRoom room 0 (crewOf room)).isSome = true) ∧
      (match writeGrant room 0 1 with
        | .ok z => (z.onCrew 0 fun c => { c with yielded := true }).crews.all fun e => (saveRoom room 0 e.2).isSome
        | .error _ => false) = true ∧
      (saveRoom none_ 0 (crewOf none_)).isNone = true ∧ joinable (crewOf v) 16 = true ∧ (crewOf v).emptied = true ∧
      ({ crewOf v with pairs := (crewOf v).pairs.map fun p => (p.1, { p.2 with acc := { p.2.acc with loads := [{ id := 0, seq := 0, split := 0, dest := .areg 1, sz := .b32, space := .phys, acq := none, remote := none, sent := 0, ro := false, lanes := [], ticket := 0, todo := [] }] } }) } : Crew).emptied = false := by
  decide +kernel

/-- CollectivesMeet: crews with two warp pairs parked at different places after which no warp of sixteen lanes can be joined. -/
theorem witness_not_joinable :
    let c := { crewOf (exeS fun s => parkedAt' setwV (smallCrew s)) with threads := 16 }
    let far : Pair → Pair := fun p => { p with exe := { p.exe with splits := p.exe.splits.map fun x => (x.1, { x.2 with pc := 0x20000 }) } }
    joinable { c with pairs := c.pairs ++ c.pairs.map fun p => (1, far p.2) } 16 = false := by decide +kernel

/-- Queue 1, more urgent than queue 0, runs a launch whose crew needs scratchpad, and on every core a crew of queue 0 has it all. -/
def pressing : Launch := let l := launchAt 1 0
  { l with queue := 1, uids := [], entry := { l.entry with kern := { l.entry.kern with scratch := 4096 } } }

def pressed : State :=
  let s := launching 1 1 (placeWord State.reset 64 0)
  let s := s.setHq 1 { s.hq 1 with cfg := 0x4010, tail := 1, res := true, run := some (.launch 1) }
  let c := crewOf s
  { s with launches := s.launches ++ [(1, pressing)], nextLaunch := 2, nextCrew := 96,
           crews := (List.range 96).map fun n => (n, { c with core := n, pairs := [], run := 0x400000, runLen := 0x1000, kern := { c.kern with scratch := scratchBytes } }) }

/-- CoreAndCrewEvents: a crew that fits nowhere, and whom it pre-empts. -/
theorem witness_preemption :
    pressed.runningLaunch 1 = some (1, pressing) ∧ pressing.asked = [] ∧
      ((waitingOf pressed 1 pressing).map fun w => (w.spot pressed 1 pressing).isNone && decide (victims pressed 1 pressing w = some (0, [0]))) = some true ∧
      ((pressed.crew? 0).map fun c => decide (c.preq = false ∧ c.saving = false ∧ c.saved = none)) = some true := by decide +kernel

/-! #### Rows -/

/-- A remote write of two rows to device 5 (its operation, flags and device from Table 5.3), posted and accepted, with the device reachable or not. -/
def remoteRecord : List Byte := packed [(0x8000, 8), (0xC000, 8), (32, 4), (2, 4), (64, 4), (32, 4), (0, 4), (0xFFFFFFFF, 4), (0, 8), (0, 4), (7, 2), (0, 2), (5, 8)]

def remoteWriting (up : Bool) : State :=
  let s := after (fields 0x340 0 0 0x142 0 0) fun s => withScratch 0x200 remoteRecord (withC 2 0x200 s)
  let s := { s with dev := { s.dev with domain := 3, endpoints := if up then [(5, 0x8001_0000_0000_0000)] else [] } }
  then_ s (.commandAcceptance 0)

/-- EngineRowsFinish: rows that are done, sent, and that end the command; a sent row in time and late; a late row; two passes of an `mmac`, and of equal instructions that wait behind another. -/
theorem witness_row_ends :
    let row := fun (s : State) => ((s.core 0).cmds.head?.bind fun k => (placedPair s k.crew k.pair).map fun y => match performRow s 0 y.1 k 0 (some (.ok, [])) with
      | .done _ _ _ => 1
      | .sent _ => 2
      | .fault _ _ _ => 3
      | .held => 4
      | .all _ => 5)
    row (accepted1 0xFFFFFFFF) = some 1 ∧ row (remoteWriting true) = some 2 ∧ row (remoteWriting false) = some 3 := by decide +kernel

/-- Row 0 of the command was sent at cycle 0, and the core stands at a cycle. -/
def sentRow (up : Bool) (cyc : W64) : State :=
  let s := remoteWriting up
  s.setCore 0 { s.core 0 with cyc := cyc, cmds := (s.core 0).cmds.map fun k => { k with sent := [(0, 0)] } }

theorem witness_acknowledgements :
    let found := fun (s : State) => (s.core 0).cmds.head?.map fun k => decide ((k.sent.find? fun e => e.1 == 0) = some (0, 0) ∧ (s.core 0).late = [] ∧ k.kind.remoteWrite = true)
    let expired := fun (s : State) => decide (0 + s.dev.rtimeout.toNat ≤ (s.core 0).cyc.toNat)
    (found (sentRow true 100) = some true ∧ reachable (sentRow true 100) 5 = true ∧ expired (sentRow true 100) = false) ∧
      (found (sentRow true 33000000) = some true ∧ expired (sentRow true 33000000) = true ∧ expired (sentRow true 32999999) = false) ∧
      (found (sentRow false 100) = some true ∧ reachable (sentRow false 100) 5 = false) ∧
      (let l : LateRow := { cmd := 9, row := 1, crew := 0, pair := 0, dev := 5, sent := 0 }
       let late := (remoteWriting true).setCore 0 { (remoteWriting true).core 0 with late := [l] }
       ((late.core 0).late.find? fun x => x.cmd == 9 && x.row == 1).isSome = true ∧ reachable late 5 = true) := by decide +kernel

/-- R456, R331: an acknowledgement in time finishes its row, and one of a device that cannot be reached ends the command. -/
theorem test_acknowledgement :
    let ok := then_ (sentRow true 100) (.remoteWriteAck 0 (((sentRow true 100).core 0).cmds.map (·.id)).head! 0 .ok)
    let lost := then_ (sentRow false 100) (.remoteWriteAck 0 (((sentRow false 100).core 0).cmds.map (·.id)).head! 0 .ok)
    (ok.core 0).cmds.map (·.done) = [[0]] ∧ (lost.core 0).cmds = [] ∧ fld (pairOf lost).status 10 9 = 0x118 := by decide +kernel

/-- R264: a pass takes the equal instructions that wait behind another one; an `mmac` comes again for its second pass. -/
theorem test_matrix_pass :
    let o : BankOp := { crew := 0, slot := 0, opcode := 0x2C3, fa := .m4, fb := .m4, ftz := false }
    let m := { o with opcode := 0x2C4 }
    let s := State.reset.setCore 0 { State.reset.core 0 with banks := [[o, m, o, o, o, o], [m, m, o]] }
    ((then_ s (.matrixPass 0 0)).core 0).banks[0]? = some [m, o] ∧
      ((then_ s (.matrixPass 0 1)).core 0).banks[1]? = some [{ m with second := true }, { m with second := true }, o] := by decide +kernel

/-- LoadedValuesArrive: a warp whose line request waits for the L1. -/
theorem witness_presented_again :
    let s := loading1.onWarp 0 0 .access fun w => { w with loads := w.loads.map fun l => { l with todo := [0x8000 / 128] } }
    ((placedPair s 0 0).map fun y => decide ((y.2.acc.loads.find? fun l => !l.todo.isEmpty).isSome = true) && agedTurn s 0 y.2.acc) = some true := by decide +kernel

/-- KeyValueBlocksComplete: the pieces of the page that an append writes meet no watchpoint. -/
theorem witness_append_watched :
    let s := accS (withBlock 2)
    answers (watch s (viewOf s .access).awake 1 32 ((appendPieces (kvHeader 2) (List.replicate 320 0) [] 0 3).map fun q => (0, 0xA000 + BitVec.ofNat 64 q.1))) = true := by decide +kernel

/-- OtherDevicesAndTheHostAccessMemory: addresses at the ends of device memory and of the host's own. -/
theorem witness_host_memory :
    inHostMem (2 ^ 39 - 1) 1 = false ∧ inHostMem (2 ^ 39 - 4) 8 = false ∧ (2 ^ 39 < 2 ^ 39 - 4 + 8) ∧ (2 ^ 39 - 8 + 8 ≤ 2 ^ 39) ∧ ((List.range 60).any fun k => inHostMem (2 ^ k) 64) = true := by decide +kernel

/-- RecordsAreAccepted: the posted record has no bytes of a save with it. -/
theorem witness_posted_bytes : ((posted1 0x100).core 0).posts.map (·.bytes) = [[]] ∧ ((posted1 0x100).core 0).posts.map (·.resume) = [false] := by decide +kernel

/-- HostQueuesAndTheMailbox: a stopped queue with nothing left to do, and a launch whose completion write is retried. -/
theorem witness_cleared_queues :
    let q := State.reset.setHq 3 { State.reset.hq 3 with cfg := 0x4000, err := 1 }
    let r := (launching 1 1 (placeWord State.reset 64 0)).setHq 0 { (launching 1 1 (placeWord State.reset 64 0)).hq 0 with run := some (.complete 0) }
    ((q.hq 3).en = true ∧ (q.hq 3).err ≠ 0 ∧ (q.hq 3).progress = (q.hq 3).tail ∧ (q.hq 3).run = none) ∧ ((r.hq 0).run = some (.complete 0) ∧ (r.hq 0).err = 0 ∧
      (match launchWrite r 0 0x8000 (natToBytes 5 8) with
        | .ok (some _) => true
        | _ => false) = true) := by decide +kernel

/-! #### A signed object -/

/-- An object of one kernel of two native words, with the signature by the private key 1 (FIPS 186-4, with the secret number 1) of its first 312 bytes. -/
def signedObject : List Byte :=
  packed [(0x4F445243, 4), (1, 2), (3, 2), (0, 2), (0, 2), (3, 4), (408, 8), (128, 8)] ++ baseDigest ++ zeros 48
    ++ packed [(1, 4), (0, 4), (200, 8), (96, 8), (2, 4), (0, 4), (296, 8), (16, 8), (10, 4), (0, 4), (312, 8), (96, 8)]
    ++ packed [(0, 4), (1, 2), (8, 1), (0, 1), (8, 2), (8, 2), (0, 2), (0, 2), (0, 4), (0, 4), (0, 8), (8, 8), (8, 8), (8, 8)] ++ zeros 32 ++ packed [(1, 2), (0, 2), (0, 4)]
    ++ packed [(0x1122, 8), (0x3344, 8)]
    ++ sigR ++ beBytes 0x6ea08ea6cbd9d60b6fed2f25d132e656661d8844fa363e3a1ba2bc8c3586540b014da595bff301c2cd1239c5299606fd 48

/-- The object stands at 0x9000, behind the page tables of the stand-in; a request names it, and the device's firmware knows the signer. -/
def mailedObject (op : Nat) (cbase : W64) : State :=
  let s := readOnlyPage (smallCrew (placeWord State.reset 64 0))
  let m := Cells.setList [] 0 [BitVec.ofNat 64 op, 0x9000, 408, cbase, 0, 0, 0xFFFF]
  { s with crews := [], mem := s.mem ++ (signedObject.zipIdx.filter fun e => e.1 != 0).map (fun e => (0x9000 + e.2, e.1)),
           dev := { s.dev with fw := { image := [], version := 0, signers := [g384], translator := 1 }, mailbox := m } }

/-- HostQueuesAndTheMailbox: the object passes its checks in their order: header, sections, signer, signature (R425 to R427). -/
theorem witness_signed_object :
    headerOk signedObject 408 = true ∧ sectionsOk signedObject = true ∧ sliceOf signedObject 32 48 = baseDigest ∧
      ecdsaOk g384 (sha384 (signedObject.take 312)) (bytesOf signedObject (sectionsOf signedObject) 10) = true := by decide +kernel

/-- The object as it is read. -/
def readSigned : Obj15 := { bytes := signedObject, secs := sectionsOf signedObject, digest := [] }

/-- HostQueuesAndTheMailbox: its kernel is ready, and its code may be placed on a page that is executed and not written, and on no page that may be written. -/
theorem witness_loadable :
    let s := mailedObject 2 0x40000000
    mailboxBusy s = true ∧ (requestOf s).op = 2 ∧ (match checkObject s readSigned with
      | (y, .inr ks) => let r := requestOf y
        decide (readSigned.model = 3 ∧ ks.length = 1 ∧ y.loads.length + ks.length ≤ 4096) && regionsOk y r readSigned (loadSizes readSigned ks) &&
          !regionsOk y { r with cbase := 0x8000 } readSigned (loadSizes readSigned ks)
      | _ => false) = true := by decide +kernel

/-! #### Hypotheses of the later clauses -/

/-- FloatResultsAreRoundedOnce: numbers of each sign, zero, a subnormal kept and flushed, a quiet and a signalling NaN beside an infinity. -/
theorem witness_rounded :
    (Claims.inputOf fmtF32 false 0x40400000 = some 3 ∧ Claims.inputOf fmtF16 false 0xC000 = some (-2) ∧ Claims.inputOf fmtF32 false 0x80000000 = some 0 ∧
      Claims.inputOf fmtF32 true 0x007FFFFF = some 0 ∧ (Claims.inputOf fmtF32 false 0x00400000).isSome = true) ∧
      (Claims.numberOf fmtF32 0x7FC00000 = none ∧ Claims.infinite fmtF32 0x7FC00000 = false ∧ Claims.signalling fmtF32 0x7FC00000 = false) ∧
      (Claims.numberOf fmtF16 0x7C01 = none ∧ Claims.infinite fmtF16 0x7C01 = false ∧ Claims.signalling fmtF16 0x7C01 = true) ∧
      Claims.infinite fmtF64 0x7FF0000000000000 = true ∧ Fmt.ofTy .bf16 = some fmtBf16 ∧
      (Claims.overflows fmtF16 .rn (Claims.exact 65520) = true ∧ Claims.overflows fmtF16 .rn (Claims.exact 65519) = false) := by decide +kernel

/-- ConversionsComplete: a number, an infinity and a NaN of formats with and without them; both sides of an integer's bounds; blocks with a NaN, an infinity, only zeros, and values whose greatest lies from 2^2 to 2^3. -/
theorem witness_conversions :
    (Claims.inputOf fmtE4m3 false 0x7E = some 448 ∧ Claims.numberOf fmtE4m3 0x7F = none ∧ Claims.infinite fmtE4m3 0x7F = false ∧
      Claims.inputOf fmtE2m1 false 0xF = some (-6) ∧ Claims.infinite fmtF32 0xFF800000 = true) ∧
      (Claims.inputOf fmtF32 false 0x43000000 = some 128 ∧ (Claims.toInteger .rn 128 : Int) > Claims.greatest .s8 ∧
        Claims.toInteger .rn (5 / 2) = 2 ∧ Claims.toInteger .rz (-5 / 2) = -2 ∧ Claims.toInteger .ru (-5 / 2) = -2 ∧ Claims.toInteger .rd (-5 / 2) = -3) ∧
      ((∀ s, FVal.nan s ∉ [FVal.num false 3 0, .inf true]) ∧ FVal.inf true ∈ [FVal.num false 3 0, .inf true]) ∧
      (∀ v ∈ [FVal.num false 0 0, .num true 0 5], ∃ n k, v = FVal.num n 0 k) ∧
      ((2 : Rat) ^ (2 : Int) ≤ (7 : Nat) * 2 ^ (0 : Int) ∧ ((7 : Nat) : Rat) * 2 ^ (0 : Int) < 2 ^ ((2 : Int) + 1) ∧
        ∀ v ∈ [FVal.num false 7 0, .num true 5 (-1)], ∃ n m k, v = FVal.num n m k ∧ (m : Rat) * 2 ^ k ≤ (7 : Nat) * 2 ^ (0 : Int)) := by
  refine ⟨by decide +kernel, by decide +kernel, ⟨by simp, by simp⟩, by simp, by decide +kernel, by decide +kernel, ?_⟩
  intro v hv
  simp only [List.mem_cons, List.not_mem_nil, or_false] at hv
  obtain rfl | rfl := hv
  · exact ⟨_, _, _, rfl, by decide +kernel⟩
  · exact ⟨_, _, _, rfl, by decide +kernel⟩

/-- The core's TLB holds the translation of a pair's backing store, a and d set. -/
def warm (s : State) : State :=
  match use s 0 0 (regPlace (exeH id) 200) .w with
  | .ok (t, _, _) => t
  | .error _ => s

/-- No command of any core owns a line. -/
def ownerless (s : State) : Bool := s.cores.all fun e => e.2.cmds.isEmpty

theorem ownerless_sound {s : State} (h : ownerless s = true) (l : Nat) : owned s none l = false := by
  simp only [ownerless, List.all_eq_true, List.isEmpty_iff] at h
  simp only [owned, List.any_eq_false, Bool.not_eq_true]
  intro e he c hc
  rw [h e he] at hc
  cases hc

/-- RegisterInstructionsTouchNothingElse: registers above the bound, their places under a translation that the TLB holds. -/
theorem witness_spilled_frame :
    let i : Instr := .iadd { g := ⟨false, 0⟩, nwb := false, d := .v 200, a := .v 100, b := .v 3, c := .none, ty := .s32, rnd := .rn, ftz := false, flag := false }
    let s := exeS warm
    let h := exeH warm
    issues s .execute && answers (prepare s h.awake (i.uses .execute).1 (i.uses .execute).2 0xFF) && clean s && ownerless s &&
      decide (spilledRegs ((i.uses .execute).1 ++ (i.uses .execute).2) = [200, 100] ∧ spilledRegs (i.uses .execute).1 = [200] ∧ h.crew.grant = 8) &&
      (match exec i s with
        | .next _ => true
        | _ => false) &&
      (match (s.core 0).tlb with
        | [e] => [200, 100].all fun n => e.covers 0 (regPlace h n) && e.pte.getLsbD 7 && e.pte.getLsbD 8 &&
            gives (check s 0 0 (regPlace h n) .r) e && gives (check s 0 0 (regPlace h n) .w) e
        | _ => false) = true := by decide +kernel

/-- ControlTransfersComplete: an indirect call whose third lane is misaligned, and none below it. -/
theorem witness_misaligned_call :
    let t := exeS (withLanes 6 [0x10100, 0x10200, 0x10104, 0x10100, 0x10104, 0x10100, 0x10100, 0x10100])
    let h := viewOf t .execute
    let c : CalxArgs := { g := ⟨false, 0⟩, nwb := false, link := .v 2, t := .v 6 }
    servedIn t .execute (.calx c) = true ∧ (List.range 4).map (fun l => ((h.src ((Instr.calx c).uses .execute).2 0 false l).extractLsb' 0 3 : BitVec 3)) = [0, 0, 4, 0] ∧
      bitAt (h.awake.active c.g) 2 = true := by decide +kernel

/-- The split's lanes shared with a second split. -/
def twoSplits (s : State) : State := s.onWarp 0 0 .execute fun w =>
  { w with splits := [(0, Split.start 0x10000 0x0F), (1, { Split.start 0x10200 0xF0 with wait := .arrived 0x2080 0xFF 0xF0 })] }

/-- NopRcvAndExitComplete: `rcv` at sixteen entries that spills and at 256 that traps; an `exit` that ends a split and leaves another, that goes on at a deferred path, that waits at a reconvergence point where lane 4 has arrived. -/
theorem witness_exits :
    let full := fun n => withStack .execute (List.replicate n deferred)
    let point : StackEntry := { tag := 0, pc := 0x2040, low := 0, mask := 0xFF, arr := 0x10 }
    let h := exeH twoSplits
    let act := h.awake.active ⟨false, 0⟩
    let low := exeH (fun s => withStack .execute [deferred, point] (withK 2 0xF0 s))
    let e := { deferred with mask := 0xF0 }
    (issues (exeS (full 16)) .execute = true ∧ answers (pushEntry (exeS (full 16)) (exeH (full 16)).awake deferred) = true ∧
      answers (pushEntry (exeS (full 256)) (exeH (full 256)).awake deferred) = false) ∧
      (issues (exeS twoSplits) .execute = true ∧ h.split.mask &&& ~~~act = 0 ∧ h.split.stack = [] ∧
        (h.warp.splits.any fun y => decide (y.1 = 1 ∧ y.2.mask &&& ~~~act ≠ 0)) = true) ∧
      (low.split.stack.length = 2 ∧ e.corrupt 8 = false ∧ point.corrupt 8 = false ∧ e.tag = 1 ∧ e.mask &&& ~~~(0x0F : W64) ≠ 0 ∧
        point.tag = 0 ∧ point.arr &&& ~~~(0x0F : W64) ≠ 0) := by decide +kernel

/-- StacksSpillBeyondSixteen: sixteen entries of which the last was spilled to the place in memory, or kept by the device; a corrupt one of each kind; the last that stays resident. -/
theorem witness_read_back :
    let full := fun (e : StackEntry) (inside : Bool) (s : State) => (withStack .execute (List.replicate 15 deferred ++ [e, deferred]) s).onSplit (unitOf .execute) fun x => { x with inside := inside }
    let h := exeH (full deferred false)
    let stored := match bsStore (exeS (full deferred false)) h (h.pair.area + BitVec.ofNat 64 (roundUp (bsBytes h.crew.grant h.crew.kern.nv) 64)) deferred.bytes with
      | .ok t => t
      | .error _ => exeS id
    let loaded := bsLoad stored h (h.pair.area + BitVec.ofNat 64 (roundUp (bsBytes h.crew.grant h.crew.kern.nv) 64 + 3840 * h.u.split)) 16
    (h.u.split < 4 ∧ placeTaken h = false ∧ deferred.corrupt 8 = false ∧ (exeH (full deferred true)).split.inside = true ∧
      { deferred with tag := 2 }.corrupt 8 = true ∧ { deferred with mask := 0x100 }.corrupt 8 = true ∧ trapEntry.corrupt 8 = false) ∧
      (match loaded with
        | .ok (_, bytes) => decide (bytes = deferred.bytes)
        | .error _ => false) = true ∧
      (match bsLoad (exeS id) h (h.pair.area + BitVec.ofNat 64 (roundUp (bsBytes h.crew.grant h.crew.kern.nv) 64)) 16 with
        | .ok (_, bytes) => decide (bytes = zeros 16)
        | .error _ => false) = true ∧
      answers (bsLoad (exeS id) { h with pair := { h.pair with area := 0x100000000000 } } 0x100000000000 16) = false := by decide +kernel

/-- TrapsEnterTheHandler, UnhandledTrapsEndTheSplit: no error stands, no record lies about; a stack of sixteen sound entries. -/
theorem witness_quiet_traps :
    clean (exeS noHandler) = true ∧ clean (exeS id) = true ∧
      ((exeH (withStack .execute (List.replicate 16 deferred))).split.stack.all fun e => !e.corrupt 8) = true := by decide +kernel

/-- ReturnsFromTraps: entries with a lane above the grant, with only dead lanes but one, and a split that holds the others and the pair and is stepped. -/
theorem witness_returns_held :
    let f := fun (s : State) => (withStack .execute [trapEntry, deferred] s).onWarp 0 0 .execute fun w =>
      { w with tctl := 0x17, holdSplits := some 0, holdPair := some 0, dead := 0x07 }
    let h := exeH f
    issues (exeS f) .execute = true ∧ h.warp.holdSplits = some 0 ∧ h.warp.holdPair = some 0 ∧ trapEntry.mask &&& ~~~h.warp.dead = 0x08 ∧
      h.crew.grant = 8 ∧ bitAt ({ trapEntry with mask := 0x1F0 } : StackEntry).mask 8 = true ∧ trapEntry.low = 0 ∧ (exeH id).warp.holdPair ≠ some 0 := by decide +kernel

/-- The word of $qcfg for the queues of a pair, bit by bit. -/
def qcfgOf (p : Pair) : W64 := maskOf ((List.range 64).filter fun b =>
  match Tbl.get? p.queues (b % 16) with
  | none => false
  | some q => decide (b / 16 = 0) || (decide (b / 16 = 1) && decide (q.dir ≠ .fwd)) || (decide (b / 16 = 2) && decide (q.dir = .sd)))

/-- SpecialRegistersAreRead: $qcfg in the execute slice; $tpc, $tmask and an access destination; a queue destination of the access slice. -/
theorem witness_special_access :
    let s := accS (withStack .access [trapEntry])
    let h := viewOf s .access
    let e := exeH id
    let x : RdsArgs := { g := ⟨false, 0⟩, nwb := false, d := .q 6, idx := 0x21 }
    (∀ n, n < 16 → (qcfgOf e.pair).getLsbD n = (Tbl.get? e.pair.queues n).isSome ∧
      (qcfgOf e.pair).getLsbD (16 + n) = ((Tbl.get? e.pair.queues n).map fun q => decide (q.dir ≠ .fwd)).getD false ∧
      (qcfgOf e.pair).getLsbD (32 + n) = ((Tbl.get? e.pair.queues n).map fun q => decide (q.dir = .sd)).getD false ∧ (qcfgOf e.pair).getLsbD (48 + n) = false) ∧
      (e.pair.queues.map (·.1)).Nodup ∧ (∀ q ∈ e.pair.queues, q.1 < 16) ∧ issues s .access = true ∧ h.split.stack.find? (fun e => e.isTrap) = some trapEntry ∧
      answers (prepare s h.awake [(.a 3, false)] [] 0xFF) = true ∧ x.d.isQueue = true ∧ x.g.live = true := by decide +kernel

/-- SpecialRegistersAreWritten: a reserved bit in the second lane, and no trap entry on the stack. -/
theorem witness_special_reserved :
    let f := withStack .execute [deferred]
    let s := exeS fun s => withStack .execute [deferred] (withLanes 2 [0x3F3F, 0x4000, 0xC0] s)
    let h := viewOf s .execute
    issues s .execute = true ∧ answers (prepare s h.awake [] [(.v 2, false)] h.awake.mask) = true ∧
      (List.range 3).map (fun l => (h.read (.v 2) false 0 false l).setWidth 32 &&& 0xFFFFC0C0) = [(0 : W32), 0x4000, 0xC0] ∧
      bitAt (h.awake.active ⟨false, 0⟩) 1 = true ∧ (h.split.stack.all fun e => !e.isTrap) = true ∧
      answers (prepare (exeS f) (exeH f).awake [] [(.s 4, true)] (exeH f).awake.mask) = true := by decide +kernel

/-- A command of another core owns this line. -/
def owning (line : Nat) (s : State) : State :=
  s.setCore 1 { s.core 1 with cmds := ((accepted1 0x100).core 0).cmds.map fun c => { c with own := [(line, 0)] } }

/-- FetchedWordsComeFromMemory, AccessesAreChecked: the line that the walk or the fetch needs is owned, and no line is. -/
theorem witness_owned_lines :
    let s := placeWord State.reset 64 (fields 0x060 0 7 3 0 5)
    let o := owning (0x10000 / 128) s
    let t := owning (0x3000 / 128) (accS id)
    (match use o 0 0 0x10000 .x with
      | .ok (o', pa, _) => (cachedLine (o'.core 0) 0 (0x10000 / 128)).isNone && decide (lineWaits o' .phys (pa / 128 * 128) 128 = [0x10000 / 128])
      | .error _ => false) = true ∧
      (match use s 0 0 0x10000 .x with
        | .ok (s', pa, _) => decide (lineWaits s' .phys (pa / 128 * 128) 128 = [] ∧ s'.drawers = [] ∧ s'.pend = [] ∧ pa % 128 = 0)
        | .error _ => false) = true ∧
      (match check4 t 0 0 0x8000 .w with
        | .error f => decide (f.line? = some (0x3000 / 128))
        | .ok _ => false) = true ∧
      (match check4 (accS id) 0 0 0x8000_0000 .w with
        | .error f => decide (f.line? = none)
        | .ok _ => false) = true := by decide +kernel

/-- The access warp's threads stand as four portable threads; the third one's lane issues, its v2 pair holding `b` and v4 holding 9. -/
def threadS (b : W32) : State :=
  { threaded (withV [(2, b), (3, 0), (4, 9), (5, 0)] (placeWord State.reset 64 0)) with cur := some { unitOf .execute with split := 2 } }
def threadH (b : W32) : Here := ((threadS b).here? { unitOf .execute with split := 2 }).getD (exeH id)

/-- A memory instruction of a thread is served, its checks pass and it waits for nothing. -/
def threadReady (b : W32) (i : Instr) (scratch : Bool) (a size : Nat) (n : Need) (off : W64) : Bool :=
  let s := threadS b
  let h := threadH b
  let sp := if scratch then Space.scratch 0 else .phys
  (s.here? { unitOf .execute with split := 2 }).isSome && h.split.flight.isEmpty && clean s && s.wide.isEmpty &&
    (match prepare s h.awake (threadUses i).1 (threadUses i).2 (h.awake.active ⟨false, 0⟩) with
      | .ok (t, k) => (match checkAccess t k scratch a size n ((lanesOf (k.active ⟨false, 0⟩)).map fun l => (l, k.read (.v 2) true 0 false l + off)) with
        | .ok ([p], ts) => answers (Here.threadWaits t k true sp p.pa size) && answers (spillRegs (touchAll t 0 false ts) k (dedup (spilledRegs (threadUses i).1)))
        | _ => false)
      | .error _ => false)

/-- LoadsAreSent, StoresEnterTheQueue, AtomicsReadAndWriteOneWord: a thread's load, scratchpad load, store and atomic. -/
theorem witness_thread_memory :
    threadReady 0x8000 (.la (mem0 (.v 6) (.v 2) .none)) false 0 4 .r 0 = true ∧
      threadReady 0x40 (.lsa (mem0 (.v 6) (.v 2) .none)) true 0 4 .r (BitVec.ofNat 64 (threadH 0).crew.scratch) = true ∧
      threadReady 0x8000 (.sd (mem0 .none (.v 2) (.v 4))) false 1 4 .w 0 = true ∧
      threadReady 0x40 (.sd { mem0 .none (.v 2) (.v 4) with x := true }) true 1 4 .w (BitVec.ofNat 64 (threadH 0).crew.scratch) = true ∧
      threadReady 0x8000 (.atom { g := ⟨false, 0⟩, d := .v 6, base := .v 2, v := .v 4, op := .add, ty := .s32, ord := .none, scope := .thread, disp := 0 }) false 2 4 .w 0 = true := by decide +kernel

/-- LoadsAreSent, StoresEnterTheQueue: loads wait for nothing, a data queue has no orphan before it. PrefetchAddressesAndRemoteLoads: the bytes that a remote load reads are all there. -/
theorem witness_loads_wait_for_nothing :
    let s := accS (eightAt 0x8000)
    let h := (viewOf s .access).awake
    let r := accS fun s => withC 5 5 (eightAt 0x8000 { s with dev := { s.dev with domain := 3 } })
    let k := (viewOf r .access).awake
    let all := (lanesOf (k.active ⟨false, 0⟩)).map fun l => (l, k.read (.a 1) true 0 false l)
    let place := fun (a : LaneVa) => remotePlace r ((r.ctx 0).rtag.extractLsb' 0 16).toNat ((k.read (.c 5) true 0 false a.1).setWidth 10 : BitVec 10).toNat a.2
    (h.warp.stores.all fun e => e.paired || !(e.q == 12) || !h.orphanOf e) = true ∧ (h.warp.loads = [] ∧ (h.queue? 1).isSome = true) ∧
      answers (k.awaitBytes .phys 4 (all.map fun a => { lane := a.1, va := a.2, pa := place a })) = true := by decide +kernel

/-- StoresPairAndDrain, LoadedValuesArrive: no line is owned or held, no scratchpad word is failed or met by another lane first; a reply to the device itself that is overdue; a warp in its turn to present lines again. -/
theorem witness_arrivals_alone :
    let late := remoteLoading1.setCore 0 { remoteLoading1.core 0 with cyc := 40000000 }
    let own := { late with dev := { late.dev with domain := 5 } }
    (clean stored1 && clean loading1) = true ∧
      ((placedPair stored1 0 0).map fun y => y.2.acc.stores.map fun e => e.lanes.map fun x => copyReads y.2 e.seq x.pa e.size) = some [List.replicate 8 false] ∧
      ((lane3 loading1).map fun y => decide (0x800C / 128 ∉ y.1.todo)) = some true ∧ ((loading1.core 0).l1.all fun m => m.bits.isEmpty) = true ∧
      ((lane3 own).map fun y => decide (y.1.remote = some own.dev.domain.toNat) && overdue own 0 y.1.sent) = some true ∧
      ((lane3 late).map fun y => overdue late 0 y.1.sent) = some true ∧ ((lane3 remoteLoading1).map fun y => overdue remoteLoading1 0 y.1.sent) = some false := by
  decide +kernel

/-- RegionsAndCachesAreMaintained: a slot that is leaving, a descriptor whose lines are free. -/
theorem witness_leaving_slots :
    let s := accS fun s => withC 3 0x9000 (withMem 0x9000 (packed [(0x8000, 8), (0x1000, 8), (0x2_0000, 8), (0, 1), (0x0D, 1)]) s)
    let g := accS fun s => (fun s => s.setCtx 0 { s.ctx 0 with bindings := (s.ctx 0).bindings.map fun b => (b.1, { b.2 with leaving := true }) }) (bound s)
    (match checkGlobal s (viewOf s .access).awake 0 32 .r [(0, 0x9000)] with
      | .ok [(_, t)] => decide (lineWaits (touch s 0 t false) .phys (t.phys 0x9000) 32 = [])
      | _ => false) = true ∧ issues g .access = true ∧ ((Tbl.get? (g.ctx 0).bindings 2).map (·.leaving)) = some true ∧ clean s = true := by decide +kernel

/-- StampSlotsAreLoadedAndEmptied, DebugCommandsAct: scratchpad that no command owns a line of, and a line that one owns. -/
theorem witness_scratch_lines :
    let s := exeS (withStamps false)
    let a := { accepted1 0x100 with cur := some (unitOf .execute) }
    let c := viewOf a .execute
    lineWaits s (.scratch 0) (65536 - 2688) 2688 = [] ∧ crewWaits a c.crew 0x400 8 = true ∧ crewWaits a c.crew 0x800 8 = false := by decide +kernel

/-- CommandsAndCopiesAreIssued, RecordsAreAccepted, EngineRowsFinish: copies whose lines are free; a record that waits behind nothing; a barrier's object that is free. -/
theorem witness_lines_of_commands :
    let a := accepted1 0x100
    ((placedPair copying1 0 0).map fun y => y.2.xcps.all fun x => unownedBytes copying1 none (x.lanes.flatMap (·.src))) = some true ∧
      (posted1 0x100).held = [] ∧ ownerless (posted1 0x100) = true ∧
      ((placedPair a 0 0).map fun y => (a.core 0).cmds.map fun k => barFree a 0 k.id y.1 k.bar) = some [true] := by decide +kernel

/-- OtherDevicesAndTheHostAccessMemory: a walk that meets an owned line, and a page that is absent. -/
theorem witness_visits :
    let s := exeS fun s => (s.setCtx 0 { s.ctx 0 with rtag := 0x10007 })
    let o := s.setCore 1 { s.core 1 with cmds := ((accepted1 0x100).core 0).cmds.map fun c => { c with own := [(0x3000 / 128, 0)] } }
    (match visitBytes o 0 0x8000 .r 16 with
      | .error f => decide (f = .waits (0x3000 / 128))
      | .ok _ => false) = true ∧
      (match visitBytes s 0 0x8000_0000 .r 16 with
        | .error f => decide (f.line? = none)
        | .ok _ => false) = true ∧ clean s = true ∧ ownerless s = true := by decide +kernel

/-- WorkDequesMoveRecords, CoreAndCrewEvents: registers in the register file alone; no release fence before a deque instruction; no line owned or waited for. -/
theorem witness_packing :
    let f := fun s => withEntries (dequeAt 0 3 5 (dequeAt 1 3 5 s))
    let s := accS f
    let p := s.setCtx 0 { s.ctx 0 with bspool := 0x100000, bssize := 0x100000 }
    ownerless p = true ∧ p.held = [] ∧ answers (viewOf s .access).awake.unfenced = true ∧
      nextDeque p 0 = some 0 ∧ (s.core 0).deques.length = 1 := by decide +kernel

/-- CoreAndCrewEvents: a crew that can be saved with no split at a barrier; a split that meets its machine check at a barrier, parked, and at its boundary; a launch of small kernels. -/
theorem witness_checked_splits :
    let s := savingCrew (placeWord State.reset 64 0)
    let at_ := fun (w : Wait) => exeS fun s => (withScratch 0x100 (natToBytes (objWait (objInit 2 2) true).toNat 16) s).onSplit (unitOf .execute) fun x => { x with mc := [(0x120, 5)], wait := w }
    let b := at_ (.barrier 0x100 true 0x10008)
    (ownerless s = true ∧ s.held = [] ∧ (crewUnits 0 (crewOf s)).all (fun x => !x.2.wait.atBarrier) = true ∧ (launchAt 2 1).entry.kern.nv ≤ 80 ∧ (launchAt 2 1).entry.kern.prog.isNone = true) ∧
      (crewWaits b (crewOf b) 0x100 16 = false ∧ ((viewOf b .execute).split.halted = false ∧ (viewOf b .execute).crew.saving = false ∧ (viewOf b .execute).split.mc = [(0x120, 5)])) ∧
      ((Wait.qEmpty 1 1).restarts = true ∧ (Wait.qEmpty 1 1).atBarrier = false ∧ Wait.ready.restarts = true) ∧
      (clean (savedWith []) && ownerless (savedWith [])) = true := by decide +kernel

/-- DeviceEvents: temperatures at both sides of each bound; ports that go down with nothing sent through them, and a lane that only they reached. -/
theorem witness_device_bounds :
    let z := { remoteLoading1 with dev := { remoteLoading1.dev with ports := remoteLoading1.dev.ports &&& ~~~(BitVec.twoPow 8 0) } }
    (State.reset.dev.clock > 12 ∧ (1839 : Nat) < 1840 ∧ (1680 : Nat) ≤ 1839 ∧ (1840 : Nat) < 2 ^ 16) ∧
      (z.cores.all fun k => k.2.late.isEmpty && k.2.cmds.all fun c => c.sent.isEmpty || Cmd.reached z c) = true ∧
      (reachable remoteLoading1 5 = true ∧ reachable z 5 = false ∧ ((lane3 z).map fun y => y.1.remote) = some (some 5)) := by decide +kernel

end Sys2Proof.Tests
end

section
/-! SUPPORT. What an instruction over operands leaves of its view: `finish` changes the destination's registers, the flags, the latches, the pc and the queues it names, and nothing else. -/
namespace Sys2Proof.Machine

/-! ### Lanes and lists -/

theorem mem_lanesOf {m : W64} {l : Nat} : l ∈ lanesOf m ↔ l < 64 ∧ bitAt m l = true := by
  simp [lanesOf]

theorem mem_dedup {α : Type} [BEq α] [LawfulBEq α] {l : List α} {x : α} : x ∈ dedup l ↔ x ∈ l := by
  have go : ∀ (l acc : List α), x ∈ l.foldl (fun acc x => if acc.contains x then acc else acc ++ [x]) acc ↔ x ∈ acc ∨ x ∈ l := by
    intro l
    induction l with
    | nil => simp
    | cons y l ih =>
      intro acc
      rw [List.foldl_cons, ih]
      by_cases hy : y ∈ acc
      · simp only [List.contains_iff_mem, hy, if_true, List.mem_cons]
        exact ⟨fun h => h.imp_right .inr, fun h => h.elim .inl (·.elim (fun e => .inl (e ▸ hy)) .inr)⟩
      · simp [hy, or_assoc]
  exact (go l []).trans (by simp)

/-- A property that every step of a fold keeps. -/
theorem foldl_keeps {α β γ : Type} (p : β → γ) {f : β → α → β} {l : List α} (hf : ∀ b, ∀ x ∈ l, p (f b x) = p b) (b : β) :
    p (l.foldl f b) = p b :=
  List.foldlRecOn (motive := fun c => p c = p b) l f rfl fun c hc x hx => (hf c x hx).trans hc

/-- A fold whose steps change nothing. -/
theorem foldl_fixed {α β : Type} {f : β → α → β} {b : β} (hf : ∀ x, f b x = b) (l : List α) : l.foldl f b = b :=
  List.foldlRecOn (motive := fun c => c = b) l f rfl fun c hc x _ => by rw [hc, hf]

/-! ### The part of a view that no register instruction changes -/

/-- A warp without its registers, flags and the pushes it has seen. -/
def Warp.frame (w : Warp) : Warp := { w with v := [], s := [], a := [], c := [], fflags := [], seen := 0 }
/-- A view without those, its pair's queues, and its split's pc and latches. -/
def Here.frame (h : Here) : Here :=
  { h with warp := h.warp.frame, pair := { h.pair with queues := [] }, split := { h.split with pc := 0, lat := [] } }

theorem Warp.frame_pred {w w' : Warp} (hw : w'.frame = w.frame) (n : Nat) : w'.pred n = w.pred n := by
  have hk : w'.frame.k = w.frame.k := congrArg Warp.k hw
  change w'.k = w.k at hk
  simp [Warp.pred, hk]

/-! ### The queues that are popped -/

theorem mem_queuesOf {us : List Use} {n : Nat} (hn : n ∈ queuesOf us) : namings n us ≠ 0 := by
  simp only [queuesOf, mem_dedup, List.mem_filterMap] at hn
  obtain ⟨u, hu, hq⟩ := hn
  exact Nat.ne_of_gt (List.length_pos_of_mem (List.mem_filter.mpr ⟨hu, by simp [hq]⟩))

theorem Here.drop_frame (h : Here) (qn n : Nat) : (h.drop qn n).frame = h.frame := by
  unfold Here.drop
  split <;> rfl

theorem Here.drop_regs (h : Here) (qn n : Nat) : ∃ m, (h.drop qn n).warp = { h.warp with seen := m } := by
  unfold Here.drop
  split <;> exact ⟨_, rfl⟩

theorem Here.queue?_drop_other (h : Here) {qn m : Nat} (n : Nat) (hm : m ≠ qn) : (h.drop qn n).queue? m = h.queue? m := by
  unfold Here.drop
  split
  · rfl
  · exact Here.queue?_setQueue_other h _ hm

@[simp] theorem Here.popAll_frame (h : Here) (srcs : List Use) : (h.popAll srcs).frame = h.frame :=
  foldl_keeps Here.frame (fun k _ _ => k.drop_frame _ _) h

theorem Here.popAll_split (h : Here) (srcs : List Use) : (h.popAll srcs).split = h.split :=
  foldl_keeps Here.split (fun k n _ => by unfold Here.drop; split <;> rfl) h

/-- Popping leaves every register alone. -/
theorem Here.popAll_warp (h : Here) (srcs : List Use) : ∃ m, (h.popAll srcs).warp = { h.warp with seen := m } := by
  refine List.foldlRecOn (motive := fun (k : Here) => ∃ m, k.warp = { h.warp with seen := m }) _ _ ⟨h.warp.seen, rfl⟩ ?_
  rintro k ⟨m, hm⟩ n -
  obtain ⟨m', hm'⟩ := k.drop_regs n (namings n srcs)
  exact ⟨m', by rw [hm', hm]⟩

theorem Here.queue?_popAll (h : Here) {srcs : List Use} {m : Nat} (hm : namings m srcs = 0) : (h.popAll srcs).queue? m = h.queue? m :=
  foldl_keeps (·.queue? m) (fun k _ hn => k.queue?_drop_other _ fun he => mem_queuesOf hn (he ▸ hm)) h

/-! ### The destination -/

/-- What writing a result does: it sets registers of the destination in active lanes, or pushes one entry to it. -/
theorem Here.write_induct {P : Here → Prop} {h : Here} {d : Opnd} {wide nwb : Bool} {act : W64} (val : Nat → W64) (keep : P h)
    (setV : ∀ n w m l x, nwb = false → d = .v n → (m = n.toNat ∨ wide = true ∧ m = n.toNat + 1) → l < 64 → bitAt act l = true →
      P { h with warp := w } → P { h with warp := w.setV m l x })
    (setS : ∀ n w m l x, nwb = false → d = .s n → (m = n.toNat ∨ wide = true ∧ m = n.toNat + 1) → lowest act = some l →
      P { h with warp := w } → P { h with warp := w.setS m x })
    (setA : ∀ n w l x, nwb = false → d = .a n → l < 64 → bitAt act l = true → P { h with warp := w } → P { h with warp := w.setA n.toNat l x })
    (setC : ∀ n l x, nwb = false → d = .c n → lowest act = some l → P { h with warp := h.warp.setC n.toNat x })
    (push : ∀ n q, nwb = false → d = .q n → P (h.setQueue n.toNat q)) : P (h.write d wide nwb act val) := by
  unfold Here.write
  cases nwb with
  | true => exact keep
  | false =>
    cases d with
    | none | l n => exact keep
    | v n =>
      refine List.foldlRecOn (motive := fun w => P { h with warp := w }) _ _ keep fun w hw l hl => ?_
      obtain ⟨hl, ha⟩ := mem_lanesOf.mp hl
      have low := setV n w _ l ((val l).setWidth 32) rfl rfl (.inl rfl) hl ha hw
      cases wide with
      | false => exact low
      | true => exact setV n _ _ l _ rfl rfl (.inr ⟨rfl, rfl⟩) hl ha low
    | s n =>
      cases hl : lowest act with
      | none => exact keep
      | some l =>
        have low := setS n _ _ l ((val l).setWidth 32) rfl rfl (.inl rfl) hl keep
        cases wide with
        | false => exact low
        | true => exact setS n _ _ l _ rfl rfl (.inr ⟨rfl, rfl⟩) hl low
    | a n =>
      refine List.foldlRecOn (motive := fun w => P { h with warp := w }) _ _ keep fun w hw l hl => ?_
      obtain ⟨hl, ha⟩ := mem_lanesOf.mp hl
      exact setA n w l _ rfl rfl hl ha hw
    | c n =>
      cases hl : lowest act with
      | none => exact keep
      | some l => exact setC n l _ rfl rfl hl
    | q n =>
      cases hq : h.queue? n.toNat with
      | none => simpa [Here.push, hq] using keep
      | some q => simpa [Here.push, hq] using push n _ rfl rfl

section
variable (h : Here) (d : Opnd) (wide nwb : Bool) (act : W64) (val : Nat → W64)

@[simp] theorem Here.write_frame : (h.write d wide nwb act val).frame = h.frame :=
  Here.write_induct (P := fun k => k.frame = h.frame) val rfl (fun _ _ _ _ _ _ _ _ _ _ hw => hw) (fun _ _ _ _ _ _ _ _ _ hw => hw)
    (fun _ _ _ _ _ _ _ _ hw => hw) (fun _ _ _ _ _ _ => rfl) (fun _ _ _ _ => rfl)

theorem Here.write_split : (h.write d wide nwb act val).split = h.split :=
  Here.write_induct (P := fun k => k.split = h.split) val rfl (fun _ _ _ _ _ _ _ _ _ _ hw => hw) (fun _ _ _ _ _ _ _ _ _ hw => hw)
    (fun _ _ _ _ _ _ _ _ hw => hw) (fun _ _ _ _ _ _ => rfl) (fun _ _ _ _ => rfl)

theorem Here.write_fflags : (h.write d wide nwb act val).warp.fflags = h.warp.fflags :=
  Here.write_induct (P := fun k => k.warp.fflags = h.warp.fflags) val rfl (fun _ _ _ _ _ _ _ _ _ _ hw => hw) (fun _ _ _ _ _ _ _ _ _ hw => hw)
    (fun _ _ _ _ _ _ _ _ hw => hw) (fun _ _ _ _ _ _ => rfl) (fun _ _ _ _ => rfl)

variable {h d wide nwb act}

theorem Here.getV_write {m l : Nat} (hl : l < 64)
    (hd : ¬(nwb = false ∧ bitAt act l = true ∧ ∃ n, d = .v n ∧ (m = n.toNat ∨ (wide = true ∧ m = n.toNat + 1)))) :
    (h.write d wide nwb act val).warp.getV m l = h.warp.getV m l := by
  refine Here.write_induct (P := fun k => k.warp.getV m l = h.warp.getV m l) val rfl ?_ (fun _ _ _ _ _ _ _ _ _ hw => hw) (fun _ _ _ _ _ _ _ _ hw => hw)
    (fun _ _ _ _ _ _ => rfl) (fun _ _ _ _ => rfl)
  intro n w m' l' x hn hv hm hl' ha hw
  refine (Warp.getV_setV_other w m' l' m l x hl' hl ?_).trans hw
  by_cases he : l = l'
  · exact .inl fun e => hd ⟨hn, he ▸ ha, n, hv, e ▸ hm⟩
  · exact .inr he

theorem Here.getA_write {m l : Nat} (hl : l < 64) (hd : ¬(nwb = false ∧ bitAt act l = true ∧ ∃ n, d = .a n ∧ m = n.toNat)) :
    (h.write d wide nwb act val).warp.getA m l = h.warp.getA m l := by
  refine Here.write_induct (P := fun k => k.warp.getA m l = h.warp.getA m l) val rfl (fun _ _ _ _ _ _ _ _ _ _ hw => hw)
    (fun _ _ _ _ _ _ _ _ _ hw => hw) ?_ (fun _ _ _ _ _ _ => rfl) (fun _ _ _ _ => rfl)
  intro n w l' x hn hv hl' ha hw
  refine (Warp.getA_setA_other w n.toNat l' m l x hl' hl ?_).trans hw
  by_cases he : l = l'
  · exact .inl fun e => hd ⟨hn, he ▸ ha, n, hv, e⟩
  · exact .inr he

theorem Here.getS_write {m : Nat} (hd : ¬(nwb = false ∧ ∃ n, d = .s n ∧ (m = n.toNat ∨ (wide = true ∧ m = n.toNat + 1)))) :
    (h.write d wide nwb act val).warp.getS m = h.warp.getS m := by
  refine Here.write_induct (P := fun k => k.warp.getS m = h.warp.getS m) val rfl (fun _ _ _ _ _ _ _ _ _ _ hw => hw)
    ?_ (fun _ _ _ _ _ _ _ _ hw => hw) (fun _ _ _ _ _ _ => rfl) (fun _ _ _ _ => rfl)
  intro n w m' l x hn hv hm ha hw
  exact (Warp.getS_setS_other w x fun he => hd ⟨hn, n, hv, by rwa [he]⟩).trans hw

theorem Here.getC_write {m : Nat} (hd : ¬(nwb = false ∧ ∃ n, d = .c n ∧ m = n.toNat)) :
    (h.write d wide nwb act val).warp.getC m = h.warp.getC m := by
  refine Here.write_induct (P := fun k => k.warp.getC m = h.warp.getC m) val rfl (fun _ _ _ _ _ _ _ _ _ _ hw => hw)
    (fun _ _ _ _ _ _ _ _ _ hw => hw) (fun _ _ _ _ _ _ _ _ hw => hw) ?_ (fun _ _ _ _ => rfl)
  intro n l x hn hv ha
  exact Warp.getC_setC_other h.warp x fun he => hd ⟨hn, n, hv, he⟩

theorem Here.queue?_write {m : Nat} (hd : nwb = true ∨ queueNo d ≠ some m) : (h.write d wide nwb act val).queue? m = h.queue? m := by
  refine Here.write_induct (P := fun k => k.queue? m = h.queue? m) val rfl (fun _ _ _ _ _ _ _ _ _ _ hw => hw)
    (fun _ _ _ _ _ _ _ _ _ hw => hw) (fun _ _ _ _ _ _ _ _ hw => hw) (fun _ _ _ _ _ _ => rfl) ?_
  intro n q hn hv
  refine Here.queue?_setQueue_other h q fun he => ?_
  subst hn hv he
  simp [queueNo] at hd

end

/-! ### Flags and the whole of `finish` -/

@[simp] theorem Here.latch_frame (h : Here) (v : Cells 64) : (h.latch v).frame = h.frame := by
  unfold Here.latch
  split <;> rfl

section
variable (h : Here) (d : Opnd) (wide nwb : Bool) (act : W64) (val : Nat → W64)

@[simp] theorem Here.result_warp : (h.result d wide nwb act val).warp = (h.write d wide nwb act val).warp := by
  unfold Here.result
  dsimp only
  split <;> simp

@[simp] theorem Here.result_pair : (h.result d wide nwb act val).pair = (h.write d wide nwb act val).pair := by
  unfold Here.result
  dsimp only
  split <;> simp

@[simp] theorem Here.result_pc : (h.result d wide nwb act val).split.pc = h.split.pc := by
  unfold Here.result
  dsimp only
  split <;> simp [Here.write_split]

@[simp] theorem Here.result_frame : (h.result d wide nwb act val).frame = h.frame := by
  unfold Here.result
  dsimp only
  split <;> simp

end

/-- Setting flags changes nothing but the flags. -/
theorem Here.flags_eq (h : Here) (act : W64) (fl : Nat → W32) : ∃ f, h.flags act fl = { h with warp := { h.warp with fflags := f } } := by
  unfold Here.flags
  split
  · suffices hs : ∃ f, (lanesOf act).foldl (fun w l => w.orF l (fl l)) h.warp = { h.warp with fflags := f } by
      obtain ⟨f, hf⟩ := hs
      exact ⟨f, by rw [hf]⟩
    refine List.foldlRecOn (motive := fun (w : Warp) => ∃ f, w = { h.warp with fflags := f }) _ _ ⟨h.warp.fflags, rfl⟩ ?_
    rintro _ ⟨f, rfl⟩ l -
    unfold Warp.orF
    split <;> exact ⟨_, rfl⟩
  · exact ⟨_, rfl⟩

/-- Flags only gather (R45). -/
theorem Warp.getF_orF (w : Warp) (i l : Nat) (f : W32) : (w.orF i f).getF l &&& w.getF l = w.getF l := by
  unfold Warp.orF
  split
  · exact BitVec.and_self
  · by_cases he : l = i
    · subst he
      simp only [Warp.getF, Cells.get_set_same]
      ext
      simp +contextual
    · simp [Warp.getF, Cells.get_set_other _ _ he]

theorem Here.getF_flags (h : Here) (act : W64) (fl : Nat → W32) (l : Nat) :
    (h.flags act fl).warp.getF l &&& h.warp.getF l = h.warp.getF l := by
  unfold Here.flags
  split
  · refine List.foldlRecOn (motive := fun (w : Warp) => w.getF l &&& h.warp.getF l = h.warp.getF l) _ _ BitVec.and_self fun w hw i _ => ?_
    rw [← hw, ← BitVec.and_assoc, Warp.getF_orF]
  · exact BitVec.and_self

section
variable (h : Here) (i : Instr) (srcs : List Use) (d : Opnd) (wide nwb : Bool) (act : W64) (r : Nat → Res)

/-- `finish` leaves in the registers what its write puts there. -/
theorem finish_warp : ∃ f, (finish h i srcs d wide nwb act r).warp =
    { ((h.popAll srcs).write d wide nwb act fun l => (r l).val).warp with fflags := f } := by
  obtain ⟨f, hf⟩ := Here.flags_eq ((h.popAll srcs).result d wide nwb act fun l => (r l).val) act fun l => (r l).flags
  exact ⟨f, by rw [finish, hf, Here.advance_warp, Here.result_warp]⟩

theorem finish_pair : (finish h i srcs d wide nwb act r).pair = ((h.popAll srcs).write d wide nwb act fun l => (r l).val).pair := by
  obtain ⟨f, hf⟩ := Here.flags_eq ((h.popAll srcs).result d wide nwb act fun l => (r l).val) act fun l => (r l).flags
  rw [finish, hf, Here.advance_pair, Here.result_pair]

/-- No instruction over operands changes the frame of its view. -/
@[simp] theorem finish_frame : (finish h i srcs d wide nwb act r).frame = h.frame := by
  obtain ⟨f, hf⟩ := Here.flags_eq ((h.popAll srcs).result d wide nwb act fun l => (r l).val) act fun l => (r l).flags
  calc (finish h i srcs d wide nwb act r).frame
      = ((h.popAll srcs).result d wide nwb act fun l => (r l).val).frame := by rw [finish, hf]; rfl
    _ = h.frame := by rw [Here.result_frame, Here.popAll_frame]

theorem finish_pc : (finish h i srcs d wide nwb act r).split.pc = h.split.pc + BitVec.ofNat 64 i.length := by
  obtain ⟨f, hf⟩ := Here.flags_eq ((h.popAll srcs).result d wide nwb act fun l => (r l).val) act fun l => (r l).flags
  rw [finish, hf, Here.advance_pc, Here.result_pc, Here.popAll_split]

theorem finish_getF (l : Nat) : (finish h i srcs d wide nwb act r).warp.getF l &&& h.warp.getF l = h.warp.getF l := by
  obtain ⟨m, hp⟩ := h.popAll_warp srcs
  have hw : ((h.popAll srcs).result d wide nwb act fun l => (r l).val).warp.getF l = h.warp.getF l := by
    rw [Warp.getF, Here.result_warp, Here.write_fflags, hp]
    rfl
  have hf := Here.getF_flags ((h.popAll srcs).result d wide nwb act fun l => (r l).val) act (fun l => (r l).flags) l
  rwa [hw] at hf

variable {h i srcs d wide nwb act r}

theorem finish_getV {m l : Nat} (hl : l < 64)
    (hd : ¬(nwb = false ∧ bitAt act l = true ∧ ∃ n, d = .v n ∧ (m = n.toNat ∨ (wide = true ∧ m = n.toNat + 1)))) :
    (finish h i srcs d wide nwb act r).warp.getV m l = h.warp.getV m l := by
  obtain ⟨f, hf⟩ := finish_warp h i srcs d wide nwb act r
  obtain ⟨m', hp⟩ := h.popAll_warp srcs
  rw [hf]
  exact (Here.getV_write (fun l => (r l).val) hl hd).trans (by rw [hp]; rfl)

theorem finish_getA {m l : Nat} (hl : l < 64) (hd : ¬(nwb = false ∧ bitAt act l = true ∧ ∃ n, d = .a n ∧ m = n.toNat)) :
    (finish h i srcs d wide nwb act r).warp.getA m l = h.warp.getA m l := by
  obtain ⟨f, hf⟩ := finish_warp h i srcs d wide nwb act r
  obtain ⟨m', hp⟩ := h.popAll_warp srcs
  rw [hf]
  exact (Here.getA_write (fun l => (r l).val) hl hd).trans (by rw [hp]; rfl)

theorem finish_getS {m : Nat} (hd : ¬(nwb = false ∧ ∃ n, d = .s n ∧ (m = n.toNat ∨ (wide = true ∧ m = n.toNat + 1)))) :
    (finish h i srcs d wide nwb act r).warp.getS m = h.warp.getS m := by
  obtain ⟨f, hf⟩ := finish_warp h i srcs d wide nwb act r
  obtain ⟨m', hp⟩ := h.popAll_warp srcs
  rw [hf]
  exact (Here.getS_write (fun l => (r l).val) hd).trans (by rw [hp]; rfl)

theorem finish_getC {m : Nat} (hd : ¬(nwb = false ∧ ∃ n, d = .c n ∧ m = n.toNat)) :
    (finish h i srcs d wide nwb act r).warp.getC m = h.warp.getC m := by
  obtain ⟨f, hf⟩ := finish_warp h i srcs d wide nwb act r
  obtain ⟨m', hp⟩ := h.popAll_warp srcs
  rw [hf]
  exact (Here.getC_write (fun l => (r l).val) hd).trans (by rw [hp]; rfl)

theorem finish_queue? {m : Nat} (hs : namings m srcs = 0) (hd : nwb = true ∨ queueNo d ≠ some m) :
    (finish h i srcs d wide nwb act r).queue? m = h.queue? m := by
  rw [Here.queue?, finish_pair]
  exact (Here.queue?_write _ hd).trans (h.queue?_popAll hs)

end

end Sys2Proof.Machine
end

section
/-! SUPPORT. The common layout: each such instruction serves its operands and ends in `finish` with the destination of its word. -/
namespace Sys2Proof.Machine

/-- The one destination that the operands of an instruction name. -/
def Writes (i : Instr) (d : Opnd) : Prop := ∀ sl, ∃ w, (i.uses sl).1 = [(d, w)]

/-- An instruction of the common layout: its one destination is the word's, and its own effect is `finish`. -/
def CommonForm (i : Instr) (x : AluArgs) : Prop :=
  Writes i x.d ∧ ∃ f, (∀ s, exec i s = runInstr s i x.g f) ∧ ∀ h act srcs, ∃ wide r, f h act srcs = .ok (finish h i srcs x.d wide x.nwb act r)

section
variable {i : Instr} {x : AluArgs}

theorem laneOp_form {dflt : Dflt} {wideD : Ty → Bool} {op : Ty → W64 → W64 → W64 → Res} (hw : Writes i x.d)
    (he : ∀ s, exec i s = laneOp i x dflt wideD op s) : CommonForm i x :=
  ⟨hw, _, he, fun _ _ _ => ⟨_, _, rfl⟩⟩

theorem intInstr_form {op : Ty → Bool → W64 → W64 → W64 → Res} (hw : Writes i x.d) (he : ∀ s, exec i s = intInstr i x op s) : CommonForm i x :=
  laneOp_form hw he

theorem bitInstr_form {op : Ty → Bool → W64 → W64 → W64 → Res} (hw : Writes i x.d) (he : ∀ s, exec i s = bitInstr i x op s) : CommonForm i x :=
  laneOp_form hw he

theorem floatInstr_form {dflt : Dflt} {op : Rnd → Bool → Fmt → W64 → W64 → W64 → Res} (hw : Writes i x.d)
    (he : ∀ s, exec i s = floatInstr i x dflt op s) : CommonForm i x :=
  laneOp_form hw he

end

theorem fclass_form (x : AluArgs) : CommonForm (.fclass x) x := laneOp_form (fun _ => ⟨_, rfl⟩) fun _ => (rfl : _ = execFclass x _)
theorem fdot2_form (x : AluArgs) : CommonForm (.fdot2 x) x := laneOp_form (fun _ => ⟨_, rfl⟩) fun _ => (rfl : _ = execFdot2 x _)
theorem bfq_form (x : AluArgs) : CommonForm (.bfq x) x := ⟨fun _ => ⟨_, rfl⟩, _, fun _ => (rfl : _ = execBfq x _), fun _ _ _ => ⟨_, _, rfl⟩⟩
theorem bfd_form (x : AluArgs) : CommonForm (.bfd x) x := ⟨fun _ => ⟨_, rfl⟩, _, fun _ => (rfl : _ = execBfd x _), fun _ _ _ => ⟨_, _, rfl⟩⟩
theorem bcast_form (x : AluArgs) : CommonForm (.bcast x) x := ⟨fun _ => ⟨_, rfl⟩, _, fun _ => (rfl : _ = execBcast x _), fun _ _ _ => ⟨_, _, rfl⟩⟩
theorem matchL_form (x : AluArgs) : CommonForm (.matchL x) x := ⟨fun _ => ⟨_, rfl⟩, _, fun _ => (rfl : _ = execMatchL x _), fun _ _ _ => ⟨_, _, rfl⟩⟩

theorem commonForms_form : ∀ mk ∈ Claims.commonForms, ∀ x, CommonForm (mk x) x := by
  unfold Claims.commonForms
  simp only [List.forall_mem_cons]
  iterate 13 refine ⟨fun x => intInstr_form (fun _ => ⟨_, rfl⟩) fun _ => rfl, ?_⟩
  iterate 16 refine ⟨fun x => bitInstr_form (fun _ => ⟨_, rfl⟩) fun _ => rfl, ?_⟩
  refine ⟨fclass_form, ?_⟩
  iterate 13 refine ⟨fun x => floatInstr_form (fun _ => ⟨_, rfl⟩) fun _ => rfl, ?_⟩
  refine ⟨fdot2_form, ?_⟩
  iterate 14 refine ⟨fun x => floatInstr_form (fun _ => ⟨_, rfl⟩) fun _ => rfl, ?_⟩
  exact ⟨bfq_form, bfd_form, bcast_form, matchL_form, fun _ h => absurd h List.not_mem_nil⟩

/-- With its operands served and its results stored, such an instruction answers the state with what `finish` makes of the view. -/
theorem CommonForm.completes {i : Instr} {x : AluArgs} (c : CommonForm i x) {s s₁ : State} {u : UnitRef} {h h₁ : Here} (I : Issuing s u h)
    (v : Served i x.g s h s₁ h₁) : ∃ wide r,
      ∀ s₂, Stored i u.slice s₁ (finish h₁ i (i.uses u.slice).2 x.d wide x.nwb (h₁.active x.g) r) s₂ →
        exec i s = .next (s₂.put (finish h₁ i (i.uses u.slice).2 x.d wide x.nwb (h₁.active x.g) r)) := by
  obtain ⟨-, f, he, hf⟩ := c
  obtain rfl := I.unit
  obtain ⟨hu, -⟩ := v.unit
  obtain ⟨wide, hw⟩ := Classical.axiomOfChoice fun h : Here => hf h (h.active x.g) (i.uses h.u.slice).2
  obtain ⟨r, hr⟩ := Classical.axiomOfChoice hw
  have hc := runInstr_completes he (F := fun h => finish h i (i.uses h.u.slice).2 x.d (wide h) x.nwb (h.active x.g) (r h)) hr s h.u h s₁ h₁
  simp only [hu] at hc
  exact ⟨_, _, fun s₂ st => hc s₂ I v st⟩

theorem spilledRegs_append (a b : List Use) : spilledRegs (a ++ b) = spilledRegs a ++ spilledRegs b := by
  simp [spilledRegs]

/-- An instruction of the common layout that names no register above the bound changes its view alone. -/
theorem CommonForm.next {i : Instr} {x : AluArgs} (c : CommonForm i x) {s t : State} {u : UnitRef} {h : Here} (I : Issuing s u h)
    (hn : spilledRegs ((i.uses u.slice).1 ++ (i.uses u.slice).2) = []) (v : Served i x.g s h s h.awake) (he : exec i s = .next t) :
    ∃ wide r, t = s.put (finish h.awake i (i.uses u.slice).2 x.d wide x.nwb (h.awake.active x.g) r) := by
  obtain ⟨wide, r, hc⟩ := c.completes I v
  have hd : spilledRegs (i.uses u.slice).1 = [] := (List.append_eq_nil_iff.mp (spilledRegs_append .. ▸ hn)).1
  have st := hc s (by rw [Stored, hd]; rfl)
  rw [he] at st
  exact ⟨wide, r, Host.Outcome.next.inj st⟩

/-- What views of one frame have in common. -/
theorem Here.frame_parts {h k : Here} (hf : k.frame = h.frame) :
    k.u = h.u ∧ k.crew = h.crew ∧ k.warp.frame = h.warp.frame ∧ k.pair.area = h.pair.area ∧ k.pair.packed = h.pair.packed ∧
      k.split.mask = h.split.mask ∧ k.split.stack = h.split.stack :=
  ⟨(congrArg Here.u hf :), (congrArg Here.crew hf :), (congrArg Here.warp hf :), (congrArg (fun h => h.pair.area) hf :),
    (congrArg (fun h => h.pair.packed) hf :), (congrArg (fun h => h.split.mask) hf :), (congrArg (fun h => h.split.stack) hf :)⟩

/-- A view as it is found once it has been put back (`State.here?_put`). -/
def Here.back (h : Here) : Here :=
  let w := { h.warp with splits := Tbl.set h.warp.splits h.u.split h.split }
  { h with crew := h.joined, pair := h.pair.setWarp h.u.slice w, warp := w }

section
variable (h : Here)

theorem Here.back_queue? (m : Nat) : h.back.queue? m = h.queue? m := by
  simp only [Here.queue?, Here.back]
  cases h.u.slice <;> rfl

theorem Here.back_pairs_other {p : Nat} (hp : p ≠ h.u.pair) : Tbl.get? h.back.crew.pairs p = Tbl.get? h.crew.pairs p :=
  Tbl.get?_set_other _ _ hp

end

/-- The destination is among the operands that an instruction of the common layout names. -/
theorem CommonForm.queueNo_ne {i : Instr} {x : AluArgs} (c : CommonForm i x) {sl : Slice} {m : Nat}
    (hm : namings m ((i.uses sl).1 ++ (i.uses sl).2) = 0) : queueNo x.d ≠ some m ∧ namings m (i.uses sl).2 = 0 := by
  obtain ⟨w, hw⟩ := c.1 sl
  rw [hw] at hm
  simp only [namings, List.singleton_append, List.filter_cons] at hm
  split at hm
  · cases hm
  · rename_i hne
    exact ⟨fun he => hne (by simp [he]), hm⟩

/-- The issuing split is found where its view was put back with its frame. -/
theorem Issuing.here?_put {s : State} {u : UnitRef} {h h' : Here} (I : Issuing s u h) (hf : h'.frame = h.awake.frame) :
    (s.put h').here? u = some h'.back := by
  obtain ⟨hu, hc, -⟩ := Here.frame_parts hf
  obtain ⟨-, -, -, -, -, hsv⟩ := State.here?_parts I.here
  rw [← I.unit, ← show h'.u = h.u from hu]
  refine State.here?_put s h' ?_
  rw [hc]
  exact congrArg Option.isSome hsv

end Sys2Proof.Machine
end

section
/-! SUPPORT. Memory where nothing stands in the way: a store of the device changes the bytes it writes, and a use of a cached translation changes nothing but the order of the TLBs. -/
namespace Sys2Proof.Machine

/-! ### What the device keeps -/

/-- No error stands or is armed, no update record lies about, no line is owned and no access waits for one. -/
structure Quiet (s : State) : Prop where
  errors : Claims.NoErrors s
  drawers : s.drawers = []
  pend : s.pend = []
  held : s.held = []
  free : ∀ l, owned s none l = false

/-- `t` holds what `s` holds outside memory, its caches and the order of its TLBs. -/
structure Kept (s t : State) : Prop where
  crews : t.crews = s.crews
  ctxs : t.ctxs = s.ctxs
  queues : t.queues = s.queues
  dev : t.dev = s.dev
  launches : t.launches = s.launches
  faults : t.faults = s.faults
  errs : t.errs = s.errs
  drawers : t.drawers = s.drawers
  pend : t.pend = s.pend
  held : t.held = s.held
  free : ∀ l, owned s none l = false → owned t none l = false
  tlb : ∀ n e, e ∈ (t.core n).tlb ↔ e ∈ (s.core n).tlb
  short : ∀ n, (s.core n).tlb.length ≤ 128 → (t.core n).tlb.length ≤ 128

/-- Memory and the scratchpads read the same last in coherence order, but for some bytes. -/
structure KeptBut (W : Space → Nat → Prop) (s t : State) : Prop extends Kept s t where
  latest : ∀ sp a, ¬W sp a → t.latest sp a = s.latest sp a

theorem Kept.refl (s : State) : Kept s s :=
  ⟨rfl, rfl, rfl, rfl, rfl, rfl, rfl, rfl, rfl, rfl, fun _ h => h, fun _ _ => .rfl, fun _ h => h⟩

theorem Kept.trans {s t r : State} (h : Kept s t) (k : Kept t r) : Kept s r where
  crews := k.crews.trans h.crews
  ctxs := k.ctxs.trans h.ctxs
  queues := k.queues.trans h.queues
  dev := k.dev.trans h.dev
  launches := k.launches.trans h.launches
  faults := k.faults.trans h.faults
  errs := k.errs.trans h.errs
  drawers := k.drawers.trans h.drawers
  pend := k.pend.trans h.pend
  held := k.held.trans h.held
  free l hl := k.free l (h.free l hl)
  tlb n e := (k.tlb n e).trans (h.tlb n e)
  short n hn := k.short n (h.short n hn)

theorem Kept.quiet {s t : State} (k : Kept s t) (q : Quiet s) : Quiet t where
  errors := by
    obtain ⟨hf, hi, hb⟩ := q.errors
    have he : t.err = s.err := by funext i; simp [State.err, k.errs]
    exact ⟨k.faults.trans hf, he ▸ hi, he ▸ hb⟩
  drawers := k.drawers.trans q.drawers
  pend := k.pend.trans q.pend
  held := k.held.trans q.held
  free l := k.free l (q.free l)

section
variable {W : Space → Nat → Prop}

theorem KeptBut.refl (s : State) : KeptBut W s s := ⟨.refl s, fun _ _ _ => rfl⟩

theorem KeptBut.trans {s t r : State} (h : KeptBut W s t) (k : KeptBut W t r) : KeptBut W s r :=
  ⟨h.toKept.trans k.toKept, fun sp a hw => (k.latest sp a hw).trans (h.latest sp a hw)⟩

/-- Steps that keep quiet states keep them one after another. -/
theorem KeptBut.foldl {α : Type} {f : State → α → State} {l : List α} (hf : ∀ s, Quiet s → ∀ x ∈ l, KeptBut W s (f s x)) {s : State} (q : Quiet s) :
    KeptBut W s (l.foldl f s) :=
  List.foldlRecOn (motive := KeptBut W s) l f (.refl s) fun t k x hx => k.trans (hf t (k.quiet q) x hx)

end

/-- What is last in coherence order hangs on what is pending and on what memory holds. -/
theorem State.latest_congr {s t : State} (hw : t.wide = s.wide) (hm : t.mem = s.mem) (hc : ∀ n, (t.core n).scratch = (s.core n).scratch)
    (sp : Space) (a : Nat) : t.latest sp a = s.latest sp a := by
  have hb : t.base sp a = s.base sp a := by cases sp <;> simp [State.base, hm, hc]
  rw [State.latest, State.latest, hw, hb]

/-! ### Cores -/

theorem State.core_setCore_if (s : State) (n m : Nat) (c : Core) : (s.setCore n c).core m = if m = n then c else s.core m := by
  split
  · subst_vars; exact s.core_setCore m c
  · exact s.core_setCore_other c ‹_›

/-- Commands own what they owned when a core is put with the commands it had. -/
theorem owned_setCore {s : State} {n : Nat} {c : Core} (hc : c.cmds = (s.core n).cmds) {l : Nat} (hl : owned s none l = false) :
    owned (s.setCore n c) none l = false := by
  simp only [owned, List.any_eq_false] at hl ⊢
  intro e he
  rcases Tbl.mem_set he with rfl | he
  · simp only [hc, State.core]
    cases hg : Tbl.get? s.cores n with
    | none => simp [Core.reset]
    | some d => simpa using hl _ (Tbl.mem_of_get? hg)
  · exact hl e he

theorem Kept.setCore {s : State} {n : Nat} {c : Core} (hc : c.cmds = (s.core n).cmds) (ht : ∀ e, e ∈ c.tlb ↔ e ∈ (s.core n).tlb)
    (hl : (s.core n).tlb.length ≤ 128 → c.tlb.length ≤ 128) : Kept s (s.setCore n c) :=
  { Kept.refl s with
    free := fun _ => owned_setCore hc
    tlb := fun m e => by
      rw [State.core_setCore_if]
      split
      · subst_vars; exact ht e
      · exact .rfl
    short := fun m => by
      rw [State.core_setCore_if]
      split
      · subst_vars; exact hl
      · exact id }

theorem KeptBut.setCore {W : Space → Nat → Prop} {s : State} {n : Nat} {c : Core} (hc : c.cmds = (s.core n).cmds)
    (hs : c.scratch = (s.core n).scratch) (ht : ∀ e, e ∈ c.tlb ↔ e ∈ (s.core n).tlb)
    (hl : (s.core n).tlb.length ≤ 128 → c.tlb.length ≤ 128) : KeptBut W s (s.setCore n c) :=
  have same : ∀ m, ((s.setCore n c).core m).scratch = (s.core m).scratch := fun m => by
    rw [State.core_setCore_if]
    split
    · subst_vars; exact hs
    · rfl
  ⟨Kept.setCore hc ht hl, fun sp a _ => State.latest_congr (State.setCore_wide ..) (State.setCore_mem ..) same sp a⟩

/-! ### The L2 slices -/

section
variable {W : Space → Nat → Prop}

theorem Tbl.get?_map {α : Type} {f : Nat × α → Nat × α} (hf : ∀ e, (f e).1 = e.1) (t : Tbl α) (k : Nat) :
    Tbl.get? (t.map f) k = (Tbl.get? t k).map fun x => (f (k, x)).2 := by
  induction t with
  | nil => rfl
  | cons e r ih =>
    obtain ⟨a, x⟩ := e
    have ha := hf (a, x)
    rw [List.map_cons]
    generalize hy : f (a, x) = y at ha ⊢
    obtain ⟨b, z⟩ := y
    obtain rfl : b = a := ha
    simp only [Tbl.get?]
    split
    · subst_vars; simp [hy]
    · split
      · rfl
      · exact ih

/-- Where a line leaves the L1, the core keeps the rest. -/
theorem l1Drop_core (s : State) (p : Nat → Bool) (line n : Nat) : ∃ l, (l1Drop s p line).core n = { s.core n with l1 := l } := by
  unfold l1Drop
  split
  · exact ⟨_, rfl⟩
  · simp only [State.core]
    rw [Tbl.get?_map (fun e => by split <;> rfl)]
    cases Tbl.get? s.cores n with
    | none => exact ⟨Core.reset.l1, rfl⟩
    | some c =>
      simp only [Option.map_some, Option.getD_some]
      split <;> exact ⟨_, rfl⟩

theorem l1Drop_eq (s : State) (p : Nat → Bool) (line : Nat) : ∃ cs, l1Drop s p line = { s with cores := cs } := by
  unfold l1Drop
  split <;> exact ⟨_, rfl⟩

theorem owned_l1Drop (s : State) (p : Nat → Bool) (line l : Nat) : owned (l1Drop s p line) none l = owned s none l := by
  unfold l1Drop
  split
  · rfl
  · simp only [owned, List.any_map]
    congr 1
    funext e
    simp only [Function.comp]
    split <;> rfl

theorem l1Drop_kept (s : State) (p : Nat → Bool) (line : Nat) : KeptBut W s (l1Drop s p line) := by
  have hc := l1Drop_core s p line
  have hf := owned_l1Drop s p line
  obtain ⟨cs, he⟩ := l1Drop_eq s p line
  rw [he] at hc hf ⊢
  have ht : ∀ n, (State.core { s with cores := cs } n).tlb = (s.core n).tlb := fun n => by obtain ⟨l, hl⟩ := hc n; rw [hl]
  have hs : ∀ n, (State.core { s with cores := cs } n).scratch = (s.core n).scratch := fun n => by obtain ⟨l, hl⟩ := hc n; rw [hl]
  have hl := State.latest_congr (s := s) (t := { s with cores := cs }) rfl rfl hs
  exact { Kept.refl s with
    free := fun l hl => (hf l).trans hl, tlb := fun n e => by rw [ht], short := fun n => by rw [ht]; exact id,
    latest := fun sp a _ => hl sp a }

theorem dropFaults_quiet {s : State} (q : Quiet s) (n line : Nat) : dropFaults s n line = s := by
  simp [dropFaults, q.errors.1]

/-- What changes the lists of cached lines alone keeps everything. -/
theorem KeptBut.caches (s : State) (l2 : Tbl (List Nat)) (dirty : List Dirty) (host : List Nat) :
    KeptBut W s { s with l2 := l2, dirty := dirty, hostCopies := host } :=
  { Kept.refl s with latest := fun _ _ _ => rfl }

theorem l2Drop_kept {s : State} (q : Quiet s) (n line : Nat) : KeptBut W s (l2Drop s n line) := by
  unfold l2Drop
  split
  · exact .refl s
  · simp only [dropFaults_quiet q]
    exact (KeptBut.caches s _ _ _).trans (l1Drop_kept _ _ _)

theorem l2Use_kept {s : State} (q : Quiet s) (n line : Nat) : KeptBut W s (l2Use s n line) := by
  unfold l2Use
  dsimp only
  split
  · exact .caches _ _ _ _
  · exact (l2Drop_kept q n _).trans (.caches _ _ _ _)

theorem l2Write_kept {s : State} (q : Quiet s) (n line : Nat) : KeptBut W s (l2Write s n line) := by
  unfold l2Write
  have others : ∀ s m, Quiet s → KeptBut W s (if m = n then s else l2Drop s m line) := fun s m q => by
    split
    · exact .refl s
    · exact l2Drop_kept q m line
  have first := KeptBut.caches (W := W) s s.l2 (s.dirty.filter (·.line != line)) (s.hostCopies.filter (· != line))
  have second := KeptBut.foldl (l := Tbl.keys s.l2) (fun s q m _ => others s m q) (first.quiet q)
  have both := first.trans second
  exact (both.trans (l2Use_kept (both.quiet q) n line)).trans (.caches _ _ _ _)

theorem uncache_kept {s : State} (q : Quiet s) (line : Nat) : KeptBut W s (uncache s line) :=
  (KeptBut.foldl (fun _ q m _ => l2Drop_kept q m line) q).trans (.caches _ _ _ _)

theorem claimLines_kept {s : State} (q : Quiet s) (w : Wide) : KeptBut W s (claimLines s w) := by
  unfold claimLines
  split
  · exact .refl s
  · refine KeptBut.foldl (fun s q l _ => ?_) q
    split
    · exact uncache_kept q l
    · exact l2Write_kept q _ l

/-! ### Stores -/

/-- A store that enters memory has the value that it had while it was pending. -/
theorem settleOne_base (s : State) (w : Wide) (sp : Space) (a : Nat) : (settleOne s w).base sp a = (w.byte? sp a).getD (s.base sp a) := by
  have hget : ∀ m : Cells 8, (m.setList w.addr w.data).get a = ((if w.addr ≤ a then w.data[a - w.addr]? else none).getD (m.get a)) := by
    intro m
    rw [Cells.get_setList]
    by_cases h1 : w.addr ≤ a
    · by_cases h2 : a < w.addr + w.data.length
      · have h3 : a - w.addr < w.data.length := by omega
        simp [h1, h2, h3]
      · have h3 : ¬a - w.addr < w.data.length := by omega
        simp [h1, h2, h3]
    · simp [h1]
  unfold settleOne
  cases hw : w.space with
  | phys => cases sp with
    | phys => simp [State.base, hget, Wide.byte?, hw]
    | scratch c => simp [State.base, Wide.byte?, hw, State.core]
  | scratch d => cases sp with
    | phys => simp [State.base, Wide.byte?, hw]
    | scratch c =>
      by_cases hd : c = d
      · subst hd; simp [State.base, hget, Wide.byte?, hw]
      · simp [State.base, Wide.byte?, hw, State.core_setCore_other _ _ hd, Ne.symm hd]

theorem settleOne_kept (s : State) (w : Wide) : Kept s (settleOne s w) := by
  unfold settleOne
  split
  · exact { Kept.refl s with }
  · exact Kept.setCore rfl (fun _ => .rfl) id

theorem settle_kept (ws : List Wide) (s : State) : Kept s (settle s ws) := by
  induction ws generalizing s with
  | nil => exact { Kept.refl s with }
  | cons w ws ih =>
    simp only [settle]
    split
    · exact (settleOne_kept s w).trans (ih _)
    · exact { Kept.refl s with }

/-- Whether a store is pending or in memory, it counts the same in coherence order. -/
theorem settle_latest (ws : List Wide) (s : State) (sp : Space) (a : Nat) :
    (settle s ws).latest sp a = ws.foldl (fun b w => (w.byte? sp a).getD b) (s.base sp a) := by
  induction ws generalizing s with
  | nil => rfl
  | cons w ws ih =>
    simp only [settle]
    split
    · rw [ih, settleOne_base, List.foldl_cons]
    · rfl

theorem settled_kept (s : State) : KeptBut W s s.settled := ⟨settle_kept _ _, fun sp a _ => settle_latest _ _ sp a⟩

/-- A run of bytes of a space. -/
def inRun (sp : Space) (a n : Nat) : Space → Nat → Prop := fun sp' x => sp' = sp ∧ a ≤ x ∧ x < a + n

theorem Wide.byte?_none {w : Wide} {sp : Space} {a : Nat} (h : ¬inRun w.space w.addr w.data.length sp a) : w.byte? sp a = none := by
  unfold Wide.byte?
  split
  · rename_i hw
    refine List.getElem?_eq_none (Nat.le_of_not_lt fun hl => h ⟨hw.1.symm, hw.2, by omega⟩)
  · rfl

theorem enterWide_kept {s : State} (q : Quiet s) (w : Wide) : KeptBut (inRun w.space w.addr w.data.length) s (enterWide s w) := by
  have claim : KeptBut (inRun w.space w.addr w.data.length) s (if 4 ≤ w.scope.code then claimLines s w else s) := by
    split
    · exact claimLines_kept q w
    · exact .refl s
  unfold enterWide
  dsimp only
  generalize (if 4 ≤ w.scope.code then claimLines s w else s) = t at claim
  refine (claim.trans ?_).trans (settled_kept _)
  refine { Kept.refl t with latest := fun sp a hb => ?_ }
  have hw : Wide.byte? { w with id := t.nextStore } sp a = none := Wide.byte?_none hb
  simp only [State.latest, List.foldl_append, List.foldl_cons, List.foldl_nil, hw, Option.getD_none]
  rfl

theorem writeInto_quiet {s : State} (q : Quiet s) (whole : Bool) (i array idx : Nat) : writeInto s whole i array idx = s := by
  have hi : bitAt (s.err i).inj 8 = false := q.errors.2.1 i
  simp [writeInto, hi, q.errors.1]

theorem meetWrites_quiet {s : State} (q : Quiet s) (w : Wide) : meetWrites s w = s := by
  have hw : ∀ b i array idx, writeInto s b i array idx = s := fun b i array idx => writeInto_quiet q b i array idx
  have hi : ∀ i array idx, injectWrite s i array idx = s := fun i array idx => writeInto_quiet q true i array idx
  unfold meetWrites
  split
  · rfl
  · cases w.space <;> simp [hw, hi, foldl_fixed]

theorem storeAt_kept {s : State} (q : Quiet s) (w : Wide) : KeptBut (inRun w.space w.addr w.data.length) s (storeAt s w) := by
  rw [storeAt, meetWrites_quiet q]
  exact enterWide_kept q w

theorem KeptBut.mono {W V : Space → Nat → Prop} {s t : State} (k : KeptBut W s t) (h : ∀ sp a, W sp a → V sp a) : KeptBut V s t :=
  ⟨k.toKept, fun sp a hv => k.latest sp a fun hw => hv (h sp a hw)⟩

theorem applyLines_quiet {s : State} (q : Quiet s) (a n : Nat) : applyLines s a n = s := by
  simp [applyLines, q.drawers, q.pend]

theorem partialCheck_quiet {s : State} (q : Quiet s) (ctx a n : Nat) : partialCheck s ctx a n = s := by
  simp [partialCheck, q.errors.1]

/-- The runs that a store is cut into lie in it. -/
theorem lineRuns_within {s : State} {a : Nat} {d : List Byte} {r : Nat × List Byte} (hr : r ∈ lineRuns s a d) {x : Nat}
    (hx : r.1 ≤ x) (hx' : x < r.1 + r.2.length) : a ≤ x ∧ x < a + d.length := by
  simp only [lineRuns, List.mem_map] at hr
  obtain ⟨b, -, rfl⟩ := hr
  simp only [List.length_take, List.length_drop] at hx'
  dsimp only at hx hx'
  omega

/-- The device's own store changes the bytes it writes. -/
theorem deviceStore_kept {s : State} (q : Quiet s) (ctx : Nat) (ms : Bool) (a : Nat) (d : List Byte) :
    KeptBut (inRun .phys a d.length) s (deviceStore s ctx ms a d) := by
  rw [deviceStore, applyLines_quiet q, partialCheck_quiet q]
  refine KeptBut.foldl (fun t qt r hr => (storeAt_kept qt _).mono ?_) q
  rintro sp x ⟨hsp, hx, hx'⟩
  exact ⟨hsp, lineRuns_within hr hx hx'⟩

end

end Sys2Proof.Machine
end

section
/-! SUPPORT. Uses of translations that a core's TLB holds with a and d set, and the backing store behind them (R32, R360, R361, R442). -/
namespace Sys2Proof.Machine

/-! ### Cached translations -/

/-- A TLB within its capacity that gives an address of a context one translation. -/
structure SoundTlb (l : List TlbEntry) (ctx : Nat) : Prop where
  short : l.length ≤ 128
  unique : ∀ e ∈ l, ∀ f ∈ l, ∀ va, e.covers ctx va = true → f.covers ctx va = true → e = f

/-- The core's TLB holds the translation of an address with a and d set, and reads and writes pass its checks. -/
structure Warm (s : State) (core ctx : Nat) (va : W64) (t : TlbEntry) : Prop where
  mem : t ∈ (s.core core).tlb
  covers : t.covers ctx va = true
  accessed : t.pte.getLsbD 7 = true
  dirty : t.pte.getLsbD 8 = true
  read : check s core ctx va .r = .ok t
  write : check s core ctx va .w = .ok t

theorem TlbEntry.covers_iff {t : TlbEntry} {ctx : Nat} {va : W64} :
    t.covers ctx va = true ↔ t.ctx = ctx ∧ t.va = fld va 0 57 / 2 ^ t.lg * 2 ^ t.lg := by
  simp [TlbEntry.covers]

/-- A translation that covers an address covers its page's base. -/
theorem TlbEntry.covers_base {t : TlbEntry} {ctx : Nat} {va : W64} (h : t.covers ctx va = true) : t.covers ctx (BitVec.ofNat 64 t.va) = true := by
  obtain ⟨hc, hv⟩ := TlbEntry.covers_iff.mp h
  have hlt : fld va 0 57 < 2 ^ 57 := Nat.mod_lt _ (by decide)
  have hle : t.va ≤ fld va 0 57 := hv ▸ Nat.div_mul_le_self _ _
  have hf : fld (BitVec.ofNat 64 t.va) 0 57 = t.va := by
    simp only [fld, BitVec.toNat_ofNat, Nat.shiftRight_zero]
    omega
  refine TlbEntry.covers_iff.mpr ⟨hc, ?_⟩
  have hd : t.va / 2 ^ t.lg = fld va 0 57 / 2 ^ t.lg := by rw [hv, Nat.mul_div_cancel _ (Nat.two_pow_pos _)]
  rw [hf, hd]
  exact hv

theorem cached_of_mem {s : State} {core ctx : Nat} {va : W64} {t : TlbEntry} (l : SoundTlb (s.core core).tlb ctx) (hm : t ∈ (s.core core).tlb)
    (hc : t.covers ctx va = true) : cached s core ctx va = some t := by
  unfold cached
  cases hf : (s.core core).tlb.find? (·.covers ctx va) with
  | none => exact absurd hc (by simpa using List.find?_eq_none.mp hf t hm)
  | some e => rw [l.unique e (List.mem_of_find?_eq_some hf) t hm va (by simpa using List.find?_some hf) hc]

/-- What a check answers under a cached translation with d set does not hang on the rest of the state. -/
theorem check_cached {s : State} {core ctx : Nat} {va : W64} {t : TlbEntry} (hc : cached s core ctx va = some t) (hd : t.pte.getLsbD 8 = true) (n : Need) :
    check s core ctx va n = if !canonical va then .error .nonCanonical else if isHole (t.phys va) then .error .badPhys
      else if permits t.pte n then .ok t else .error .protection := by
  have hb : pteBit t.pte 8 = true := hd
  simp only [check, check4, lookup, hc, hb, Bool.not_true, Bool.and_false, Bool.false_eq_true, if_false]
  cases canonical va <;> cases isHole (t.phys va) <;> rfl

theorem Kept.sound {s t : State} (k : Kept s t) {core ctx : Nat} (l : SoundTlb (s.core core).tlb ctx) : SoundTlb (t.core core).tlb ctx where
  short := k.short core l.short
  unique e he f hf := l.unique e ((k.tlb core e).mp he) f ((k.tlb core f).mp hf)

theorem Kept.warm {s s' : State} (k : Kept s s') {core ctx : Nat} {va : W64} {t : TlbEntry} (l : SoundTlb (s.core core).tlb ctx)
    (w : Warm s core ctx va t) : Warm s' core ctx va t := by
  have hm := (k.tlb core t).mpr w.mem
  have same : ∀ n, check s' core ctx va n = check s core ctx va n := fun n => by
    rw [check_cached (cached_of_mem (k.sound l) hm w.covers) w.dirty, check_cached (cached_of_mem l w.mem w.covers) w.dirty]
  exact { w with mem := hm, read := (same .r).trans w.read, write := (same .w).trans w.write }

/-! ### Uses of cached translations -/

theorem parityWrite_quiet {s : State} (q : Quiet s) (i array idx ctx : Nat) : parityWrite s i array idx ctx = (s, false, 0) := by
  have hi : injectWrite s i array idx = s := writeInto_quiet q true i array idx
  simp [parityWrite, hi, faulty, q.errors.1]

/-- Bits that are set already change nothing. -/
theorem or_eq_self_of_bits {x y : W64} (h : ∀ i, y.getLsbD i = true → x.getLsbD i = true) : x ||| y = x := by
  refine BitVec.eq_of_getLsbD_eq fun i _ => ?_
  rw [BitVec.getLsbD_or]
  cases hy : y.getLsbD i with
  | false => exact Bool.or_false _
  | true => rw [h i hy]; rfl

/-- A use sets the bits a, and for a write d; where both are set, none. -/
theorem useBits_set {e : W64} (ha : e.getLsbD 7 = true) (hd : e.getLsbD 8 = true) (w : Bool) : e ||| (0x80 ||| (if w then 0x100 else 0)) = e := by
  refine or_eq_self_of_bits fun i hi => ?_
  have h7 : (0x80 : W64) = BitVec.twoPow 64 7 := by decide
  have h8 : (0x100 : W64) = BitVec.twoPow 64 8 := by decide
  by_cases h : i = 7
  · rwa [h]
  · by_cases h' : i = 8
    · rwa [h']
    · cases w <;> simp [h7, h8, BitVec.getLsbD_twoPow, Ne.symm h, Ne.symm h'] at hi

theorem tlbAdd_mem {l : List TlbEntry} {ctx : Nat} {t : TlbEntry} (hl : SoundTlb l ctx) (ht : t ∈ l) {va : W64} (hc : t.covers ctx va = true) :
    (∀ e, e ∈ tlbAdd l t 128 ↔ e ∈ l) ∧ (tlbAdd l t 128).length ≤ 128 := by
  have same : ∀ e ∈ l, (e.ctx == t.ctx && e.va == t.va && e.lg == t.lg) = true → e = t := by
    intro e he h
    simp only [Bool.and_eq_true, beq_iff_eq] at h
    obtain ⟨⟨h1, h2⟩, h3⟩ := h
    refine hl.unique e he t ht va ?_ hc
    rw [TlbEntry.covers_iff, h1, h2, h3]
    exact TlbEntry.covers_iff.mp hc
  have short : (t :: l.filter fun e => !(e.ctx == t.ctx && e.va == t.va && e.lg == t.lg)).length ≤ 128 := by
    have : (l.filter fun e => !(e.ctx == t.ctx && e.va == t.va && e.lg == t.lg)).length < l.length :=
      List.length_filter_lt_length_iff_exists.mpr ⟨t, ht, by simp⟩
    have := hl.short
    simp only [List.length_cons]
    omega
  rw [tlbAdd, List.take_of_length_le short]
  refine ⟨fun e => ⟨fun he => ?_, fun he => ?_⟩, short⟩
  · rcases List.mem_cons.mp he with rfl | he
    · exact ht
    · exact (List.mem_filter.mp he).1
  · by_cases h : (e.ctx == t.ctx && e.va == t.va && e.lg == t.lg) = true
    · rw [same e he h]
      exact List.mem_cons_self
    · exact List.mem_cons_of_mem _ (List.mem_filter.mpr ⟨he, by rw [eq_false_of_ne_true h]; rfl⟩)

/-- A use of such a translation changes nothing but the order of the TLBs. -/
theorem touch_kept {W : Space → Nat → Prop} {s : State} {core ctx : Nat} {va : W64} {t : TlbEntry} (q : Quiet s)
    (l : SoundTlb (s.core core).tlb ctx) (w : Warm s core ctx va t) (write : Bool) : KeptBut W s (touch s core t write) := by
  have hctx := (TlbEntry.covers_iff.mp w.covers).1
  have hb : pteBit t.pte 8 = true := w.dirty
  have hc : cached s core t.ctx (BitVec.ofNat 64 t.va) = some t := hctx ▸ cached_of_mem l w.mem (TlbEntry.covers_base w.covers)
  have hm : markLeaf s t write = s := by rw [markLeaf]; exact if_pos (useBits_set w.accessed w.dirty write)
  have ht : t.pte ||| 0x80 ||| (if write then 0x100 else 0) = t.pte := (BitVec.or_assoc ..).trans (useBits_set w.accessed w.dirty write)
  obtain ⟨hmem, hshort⟩ := tlbAdd_mem l w.mem w.covers
  have hx : { t with pte := t.pte ^^^ 0 } = t := by rw [show t.pte ^^^ 0 = t.pte from BitVec.xor_zero]
  have put : KeptBut W s (s.setCore core { s.core core with tlb := tlbAdd (s.core core).tlb t 128 }) :=
    .setCore rfl rfl hmem fun _ => hshort
  simp only [touch, hc, hb, Bool.not_true, Bool.and_false, Bool.false_eq_true, if_false, hm, parityWrite_quiet q, ht, hx,
    parityWrite_quiet (put.quiet q)]
  exact put.trans { Kept.refl _ with latest := fun _ _ _ => rfl }

/-! ### Bytes behind a cached translation -/

theorem lineWaits_quiet {s : State} (q : Quiet s) (sp : Space) (a n : Nat) : lineWaits s sp a n = [] := by
  have hb : ∀ me l, blockedFor s me l = false := fun me l => by simp [blockedFor, q.free l, q.held]
  cases sp <;> simp [lineWaits, lineWaitsFor, hb, q.drawers, q.pend]

theorem unitsRead_quiet {s : State} (q : Quiet s) (us : List Nat) (ctx : Nat) : unitsRead s us ctx = (s, [], none) := by
  have hu : ∀ u, unitRead s u ctx = (s, none) := fun u => by simp [unitRead, q.errors.1]
  exact foldl_fixed (fun u => by simp only [hu]) us

theorem loadWith_quiet {s : State} (q : Quiet s) (ctx pa n : Nat) (read : State → List Byte) (report : State → Nat → W64 → State) :
    (loadWith s ctx pa n read report).1 = s := by
  simp only [loadWith, unitsRead_quiet q]

section
variable {W : Space → Nat → Prop} {s : State} {h : Here} {va : W64} {t : TlbEntry}

/-- A read of the backing store under such a translation changes no byte. -/
theorem bsLoad_kept (q : Quiet s) (l : SoundTlb (s.core h.crew.core).tlb h.crew.ctx) (w : Warm s h.crew.core h.crew.ctx va t) (n : Nat) :
    ∃ r, bsLoad s h va n = .ok r ∧ KeptBut W s r.1 := by
  have k := touch_kept (W := W) q l w false
  have q' := k.quiet q
  refine ⟨loadWith (touch s h.crew.core t false) h.crew.ctx (t.phys va) n (fun s => deviceLoad s (t.phys va) n) fun s c x => splitCheck s h.crew.ctx h.u c x, ?_, ?_⟩
  · simp [bsLoad, readAt, use, w.read, lineWaits_quiet q', applyLines_quiet q']
  · rwa [loadWith_quiet q']

/-- A write to it changes the bytes behind the translation. -/
theorem bsStore_kept (q : Quiet s) (l : SoundTlb (s.core h.crew.core).tlb h.crew.ctx) (w : Warm s h.crew.core h.crew.ctx va t) {d : List Byte}
    (hd : ∀ b, b < d.length → W .phys (t.phys va + b)) : ∃ s', bsStore s h va d = .ok s' ∧ KeptBut W s s' := by
  have k := touch_kept (W := W) q l w true
  have q' := k.quiet q
  refine ⟨_, ?_, k.trans ((deviceStore_kept q' h.crew.ctx (pteBit t.pte 5) (t.phys va) d).mono ?_)⟩
  · simp [bsStore, writeAt, use, w.write, lineWaits_quiet q']
  · rintro _ x ⟨rfl, hx, hx'⟩
    obtain ⟨b, rfl⟩ := Nat.exists_eq_add_of_le hx
    exact hd b (by omega)

/-! ### Runs of pieces -/

/-- The pieces of a run of the backing store from an address on have warm translations, and their bytes lie in `W`. -/
def Pieces (W : Space → Nat → Prop) (s : State) (h : Here) (va : W64) (n : Nat) : Prop :=
  ∀ k, k < n → ∃ t, Warm s h.crew.core h.crew.ctx (va + BitVec.ofNat 64 (32 * k)) t ∧
    ∀ b, b < 32 → W .phys (t.phys (va + BitVec.ofNat 64 (32 * k)) + b)

theorem Pieces.head {n : Nat} (p : Pieces W s h va (n + 1)) :
    ∃ t, Warm s h.crew.core h.crew.ctx va t ∧ ∀ b, b < 32 → W .phys (t.phys va + b) := by
  simpa using p 0 (Nat.succ_pos n)

theorem Pieces.tail {n : Nat} (p : Pieces W s h va (n + 1)) : Pieces W s h (va + 32) n := by
  intro k hk
  have he : va + 32 + BitVec.ofNat 64 (32 * k) = va + BitVec.ofNat 64 (32 * (k + 1)) := by
    rw [Nat.mul_add, BitVec.ofNat_add, BitVec.add_comm (BitVec.ofNat 64 (32 * k)), BitVec.add_assoc]
    rfl
  rw [he]
  exact p (k + 1) (by omega)

theorem Pieces.kept {s' : State} {n : Nat} (p : Pieces W s h va n) (k : Kept s s') (l : SoundTlb (s.core h.crew.core).tlb h.crew.ctx) :
    Pieces W s' h va n := fun i hi => by
  obtain ⟨t, w, hw⟩ := p i hi
  exact ⟨t, k.warm l w, hw⟩

theorem bsLoadN_kept {V : Space → Nat → Prop} {n : Nat} (q : Quiet s) (l : SoundTlb (s.core h.crew.core).tlb h.crew.ctx) (p : Pieces V s h va n) :
    ∃ r, bsLoadN s h va n = .ok r ∧ KeptBut W s r.1 := by
  induction n generalizing s va with
  | zero => exact ⟨_, rfl, .refl s⟩
  | succ n ih =>
    obtain ⟨t, w, -⟩ := p.head
    obtain ⟨r, hr, k⟩ := bsLoad_kept (W := W) q l w 32
    obtain ⟨r', hr', k'⟩ := ih (k.quiet q) (k.sound l) (p.tail.kept k.toKept l)
    exact ⟨(r'.1, r.2 ++ r'.2), by simp only [bsLoadN, hr, hr'], k.trans k'⟩

theorem bsStoreN_kept {n : Nat} (q : Quiet s) (l : SoundTlb (s.core h.crew.core).tlb h.crew.ctx) (p : Pieces W s h va n)
    {lane : Nat → List Byte} (hl : ∀ i, (lane i).length = 4) (k : Nat) : ∃ s', bsStoreN s h va lane k n = .ok s' ∧ KeptBut W s s' := by
  induction n generalizing s va k with
  | zero => exact ⟨s, rfl, .refl s⟩
  | succ n ih =>
    obtain ⟨t, w, hw⟩ := p.head
    have hd : ((List.range 8).flatMap fun i => lane (8 * k + i)).length = 32 := by
      simp only [List.length_flatMap, hl]
      rfl
    obtain ⟨r, hr, kr⟩ := bsStore_kept q l w fun b hb => hw b (hd ▸ hb)
    obtain ⟨r', hr', kr'⟩ := ih (kr.quiet q) (kr.sound l) (p.tail.kept kr.toKept l) (k + 1)
    exact ⟨r', by simp only [bsStoreN, hr, hr'], kr.trans kr'⟩

/-! ### Registers above the bound -/

theorem natToBytes_length (x n : Nat) : (natToBytes x n).length = n := by
  induction n generalizing x with
  | zero => rfl
  | succ n ih => simp [natToBytes, ih]

/-- Filling registers changes no byte. -/
theorem fillRegs_kept {V : Space → Nat → Prop} {ns : List Nat} (q : Quiet s) (l : SoundTlb (s.core h.crew.core).tlb h.crew.ctx)
    (p : ∀ n ∈ ns, Pieces V s h (regPlace h n) (h.crew.grant / 8)) {s' : State} {h' : Here} (hf : fillRegs s h ns = .ok (s', h')) :
    KeptBut W s s' := by
  induction ns generalizing s h with
  | nil => cases hf; exact .refl _
  | cons n ns ih =>
    obtain ⟨r, hr, k⟩ := bsLoadN_kept q l (p n List.mem_cons_self)
    simp only [fillRegs, hr] at hf
    split at hf
    · cases hf; exact .refl _
    · refine k.trans (ih (k.quiet q) ?_ ?_ hf)
      · exact k.sound l
      · exact fun m hm => (p m (List.mem_cons_of_mem _ hm)).kept k.toKept l

/-- Spilling registers changes the bytes of their places. -/
theorem spillRegs_kept {ns : List Nat} (q : Quiet s) (l : SoundTlb (s.core h.crew.core).tlb h.crew.ctx)
    (p : ∀ n ∈ ns, Pieces W s h (regPlace h n) (h.crew.grant / 8)) : ∃ s', spillRegs s h ns = .ok s' ∧ KeptBut W s s' := by
  induction ns generalizing s with
  | nil => exact ⟨s, rfl, .refl s⟩
  | cons n ns ih =>
    obtain ⟨r, hr, k⟩ := bsStoreN_kept q l (p n List.mem_cons_self) (lane := fun i => natToBytes (h.warp.getV n i).toNat 4)
      (fun _ => natToBytes_length _ 4) 0
    obtain ⟨r', hr', k'⟩ := ih (k.quiet q) (k.sound l) fun m hm => (p m (List.mem_cons_of_mem _ hm)).kept k.toKept l
    simp only [spillRegs, hr, hr']
    split
    · exact ⟨s, rfl, .refl s⟩
    · exact ⟨r', rfl, k.trans k'⟩

end

end Sys2Proof.Machine
end

section
/-! SUPPORT. What register instructions change beyond their view, and their frame (R12, R31, R32, R151, R442). -/
namespace Sys2Proof.Machine

/-- The bytes of the places of the destination's registers above the bound, 32 at a time, each where its translation puts it. -/
def SpillBytes (h : Here) (T : Nat → Nat → TlbEntry) (ds : List Use) (sp : Space) (a : Nat) : Prop :=
  ∃ n ∈ spilledRegs ds, ∃ k, k < h.crew.grant / 8 ∧ ∃ b, b < 32 ∧ sp = .phys ∧ a = (T n k).phys (regPlace h n + BitVec.ofNat 64 (32 * k)) + b

/-- What a register instruction that names registers above the bound changes of memory: bytes of the places of the destination's. -/
theorem CommonForm.spills {V W : Space → Nat → Prop} {i : Instr} {x : AluArgs} (c : CommonForm i x) {s t : State} {u : UnitRef} {h : Here} (I : Issuing s u h)
    (v : ∃ s₁ h₁, Served i x.g s h s₁ h₁) (he : exec i s = .next t) (q : Quiet s) (l : SoundTlb (s.core h.crew.core).tlb h.crew.ctx)
    (p : ∀ n ∈ spilledRegs ((i.uses u.slice).1 ++ (i.uses u.slice).2), Pieces V s h (regPlace h n) (h.crew.grant / 8))
    (pd : ∀ n ∈ spilledRegs (i.uses u.slice).1, Pieces W s h (regPlace h n) (h.crew.grant / 8)) :
    t.ctxs = s.ctxs ∧ t.queues = s.queues ∧ t.dev = s.dev ∧ t.launches = s.launches ∧ (∀ c, c ≠ u.crew → t.crew? c = s.crew? c) ∧
      ∀ sp a, ¬W sp a → t.latest sp a = s.latest sp a := by
  obtain ⟨s₁, h₁, v⟩ := v
  obtain ⟨wide, r, hc⟩ := c.completes I v
  obtain rfl := I.unit
  obtain ⟨-, hcr, hpr, -⟩ := v.unit
  have fill : KeptBut W s s₁ := fillRegs_kept (h := h.awake) q l (fun n hn => p n (mem_dedup.mp hn)) (prepare_parts v).1
  have hf := finish_frame h₁ i (i.uses h.u.slice).2 x.d wide x.nwb (h₁.active x.g) r
  generalize finish h₁ i (i.uses h.u.slice).2 x.d wide x.nwb (h₁.active x.g) r = h₂ at hc hf
  obtain ⟨hu, hcr', -, har, -⟩ := Here.frame_parts hf
  replace hu : h₂.u = h.u := hu.trans v.unit.1
  replace hcr' : h₂.crew = h.crew := hcr'.trans hcr
  have hplace : ∀ n, regPlace h₂ n = regPlace h n := fun n => by rw [regPlace, regPlace, har, hcr', hpr]
  obtain ⟨s₂, st, k⟩ := spillRegs_kept (h := h₂) (ns := dedup (spilledRegs (i.uses h.u.slice).1)) (fill.quiet q) (by rw [hcr']; exact fill.sound l)
    fun n hn => by
      rw [hplace, Pieces, hcr']
      exact (pd n (mem_dedup.mp hn)).kept fill.toKept l
  have kept := fill.trans k
  obtain rfl : t = s₂.put h₂ := Host.Outcome.next.inj (he.symm.trans (hc s₂ st))
  refine ⟨kept.ctxs, kept.queues, kept.dev, kept.launches, fun c hne => ?_, kept.latest⟩
  rw [State.crew?_put_other s₂ h₂ (hu ▸ hne), State.crew?, State.crew?, kept.crews]

/-- Settles O12: such an instruction ends in `finish`, whose frame is all of its view but its destination, flags, latches and queues; beyond its view it
changes what filling and spilling registers change, which under warm translations is the bytes of the places it spills to. -/
theorem registerInstructionsTouchNothingElse : Obligations.RegisterInstructionsTouchNothingElse := by
  rintro x _ ⟨mk, hmk, rfl⟩ s u h t I
  have c := commonForms_form mk hmk x
  refine ⟨fun hn v he => ?_, fun v he errors drawers pend held free short unique T hT => ?_⟩
  · obtain ⟨wide, r, rfl⟩ := c.next I hn v he
    obtain rfl := I.unit
    have hf := finish_frame h.awake (mk x) ((mk x).uses h.u.slice).2 x.d wide x.nwb (h.awake.active x.g) r
    obtain ⟨hu, hc, hw, -, -, hm, hst⟩ := Here.frame_parts hf
    refine ⟨fun _ _ _ => rfl, rfl, rfl, rfl, rfl, rfl, fun c hne => State.crew?_put_other s _ fun e => hne (e.trans (congrArg UnitRef.crew hu)), _,
      I.here?_put hf, finish_pc .., hm, hst, (Warp.frame_pred hw :), (congrArg Warp.tctl hw :), (congrArg Warp.role hw :), (congrArg Crew.mt hc :), (congrArg Crew.pt hc :),
      (congrArg Crew.acst hc :), (congrArg Crew.stamps hc :), fun p hp => ?_, fun m hm => ?_, fun l _ => finish_getF .., fun m l hl hd => ?_,
      fun m l hl hd => ?_, fun m hd => ?_, fun m hd => ?_⟩
    · rw [Here.back_pairs_other _ fun e => hp (e.trans (congrArg UnitRef.pair hu)), hc]
      rfl
    · obtain ⟨hd, hs⟩ := c.queueNo_ne hm
      rw [Here.back_queue?, finish_queue? hs (.inr hd)]
      rfl
    · refine finish_getV hl ?_
      rintro ⟨-, ha, n, hn, hm⟩
      exact hd ⟨ha, n, hn, hm.imp_right (·.2)⟩
    · refine finish_getA hl ?_
      rintro ⟨-, ha, n, hn, hm⟩
      exact hd ⟨ha, BitVec.eq_of_toNat_eq hm ▸ hn⟩
    · refine finish_getS ?_
      rintro ⟨-, n, hn, hm⟩
      exact hd ⟨n, hn, hm.imp_right (·.2)⟩
    · refine finish_getC ?_
      rintro ⟨-, n, hn, hm⟩
      exact hd (BitVec.eq_of_toNat_eq hm ▸ hn)
  · have warm : ∀ n ∈ spilledRegs (((mk x).uses u.slice).1 ++ ((mk x).uses u.slice).2), ∀ k, k < h.crew.grant / 8 →
        Warm s h.crew.core h.crew.ctx (regPlace h n + BitVec.ofNat 64 (32 * k)) (T n k) := fun n hn k hk => by
      obtain ⟨mem, covers, accessed, dirty, read, write⟩ := hT n hn k hk
      exact ⟨mem, covers, accessed, dirty, read, write⟩
    obtain ⟨hctxs, hqueues, hdev, hlaunches, hcrews, hlatest⟩ := c.spills (V := fun _ _ => True) (W := SpillBytes h T ((mk x).uses u.slice).1)
      I v he ⟨errors, drawers, pend, held, free⟩ ⟨short, unique⟩
      (fun n hn k hk => ⟨T n k, warm n hn k hk, fun _ _ => trivial⟩)
      (fun n hn k hk => ⟨T n k, warm n (spilledRegs_append .. ▸ List.mem_append_left _ hn) k hk, fun b hb => ⟨n, hn, k, hk, b, hb, rfl, rfl⟩⟩)
    refine ⟨hctxs, hqueues, hdev, hlaunches, hcrews, fun sp a hout => hlatest sp a ?_⟩
    rintro ⟨n, hn, k, hk, b, hb, hx⟩
    exact hout n hn k hk b hb hx

end Sys2Proof.Machine
end

section
/-! SUPPORT. What an instruction over operands puts into its view: the results of the active lanes in the destination, its latch and the flags (R36, R45, R60, R151, R186). -/
namespace Sys2Proof.Machine

/-! ### Folds over lanes -/

theorem nodup_lanesOf (m : W64) : (lanesOf m).Nodup := List.nodup_range.filter _

/-- A fold over distinct elements does to what one of them alone changes what that element does. -/
theorem foldl_at {α β γ : Type} (p : β → γ) {f : β → α → β} {g : γ → γ} {l : List α} (hl : l.Nodup) {x : α} (hx : x ∈ l)
    (here : ∀ b, p (f b x) = g (p b)) (other : ∀ b, ∀ y ∈ l, y ≠ x → p (f b y) = p b) (b : β) : p (l.foldl f b) = g (p b) := by
  induction l generalizing b with
  | nil => cases hx
  | cons y l ih =>
    obtain ⟨hy, hl⟩ := List.nodup_cons.mp hl
    rw [List.foldl_cons]
    by_cases he : y = x
    · subst he
      exact (foldl_keeps p (fun b z hz => other b z (List.mem_cons_of_mem _ hz) fun e => hy (e ▸ hz)) _).trans (here b)
    · have hx : x ∈ l := (List.mem_cons.mp hx).resolve_left (Ne.symm he)
      rw [ih hl hx (fun b z hz => other b z (List.mem_cons_of_mem _ hz)), other b y List.mem_cons_self he]

/-- What a fold over the lanes of a mask leaves of what one lane alone changes. -/
theorem foldl_lanesOf {β γ : Type} (p : β → γ) {f : β → Nat → β} {g : γ → γ} {act : W64} {l : Nat} (hl : l < 64)
    (here : ∀ b, p (f b l) = g (p b)) (other : ∀ b i, i < 64 → i ≠ l → p (f b i) = p b) (b : β) :
    p ((lanesOf act).foldl f b) = if bitAt act l then g (p b) else p b := by
  split
  · exact foldl_at p (nodup_lanesOf act) (mem_lanesOf.mpr ⟨hl, ‹_›⟩) here (fun b i hi => other b i (mem_lanesOf.mp hi).1) b
  · refine foldl_keeps p (fun b i hi => ?_) b
    obtain ⟨hi, ha⟩ := mem_lanesOf.mp hi
    exact other b i hi fun e => ‹¬_› (e ▸ ha)

theorem get_cellsOf {w : Nat} (act : W64) (val : Nat → BitVec w) (l : Nat) :
    Cells.get (cellsOf act val) l = if l < 64 ∧ bitAt act l = true then val l else 0 := by
  by_cases hl : l < 64
  · have := foldl_lanesOf (act := act) (fun m => Cells.get m l) (f := fun m i => Cells.set m i (val i)) (g := fun _ => val l) hl
      (fun m => Cells.get_set_same m l _) (fun m i _ hi => Cells.get_set_other m _ (Ne.symm hi)) []
    simpa [cellsOf, hl, Cells.get_nil] using this
  · have : Cells.get (cellsOf act val) l = Cells.get ([] : Cells w) l :=
      foldl_keeps (fun m => Cells.get m l) (fun m i hi => Cells.get_set_other m _ fun e => hl (e ▸ (mem_lanesOf.mp hi).1)) []
    simpa [hl, Cells.get_nil] using this

theorem lowest_ne_zero {act : W64} {l : Nat} (hl : lowest act = some l) : act ≠ 0 := by
  rintro rfl
  have := List.find?_some hl
  simp [bitAt] at this

/-! ### The destination holds the results -/

/-- The registers of one lane take a result: its low half, and with 64 bits its high half in the next register (R31, R102). -/
def Warp.putV (w : Warp) (n : Nat) (wide : Bool) (l : Nat) (x : W64) : Warp :=
  let w := w.setV n l (x.setWidth 32)
  if wide then w.setV (n + 1) l (x.extractLsb' 32 32) else w

section
variable (w : Warp) (n : Nat) (wide : Bool) {i l : Nat} (x : W64)

theorem Warp.getV_putV_low (hl : l < 64) : (w.putV n wide l x).getV n l = x.setWidth 32 := by
  cases wide with
  | false => exact Warp.getV_setV ..
  | true => exact (Warp.getV_setV_other _ _ _ _ _ _ hl hl (.inl (by omega))).trans (Warp.getV_setV ..)

theorem Warp.getV_putV_other (hi : i < 64) (hl : l < 64) (m : Nat) (hn : i ≠ l) : (w.putV n wide i x).getV m l = w.getV m l := by
  have low := Warp.getV_setV_other w n i m l (x.setWidth 32) hi hl (.inr hn.symm)
  cases wide with
  | false => exact low
  | true => exact (Warp.getV_setV_other _ _ _ _ _ _ hi hl (.inr hn.symm)).trans low

end

section
variable {h : Here} {wide : Bool} {act : W64} (val : Nat → W64)

theorem Here.write_v (n : BitVec 8) : h.write (.v n) wide false act val =
    { h with warp := (lanesOf act).foldl (fun w l => w.putV n.toNat wide l (val l)) h.warp } := rfl

section
variable {l : Nat} (hl : l < 64) (ha : bitAt act l = true)
include hl ha

theorem Here.getV_write_low (n : BitVec 8) : (h.write (.v n) wide false act val).warp.getV n.toNat l = (val l).setWidth 32 :=
  (foldl_lanesOf (Warp.getV · n.toNat l) (g := fun _ => (val l).setWidth 32) hl (fun w => w.getV_putV_low n.toNat wide (val l) hl)
    (fun w i hi hn => w.getV_putV_other n.toNat wide (val i) hi hl n.toNat hn) h.warp).trans (if_pos ha)

theorem Here.getV_write_high (n : BitVec 8) :
    (h.write (.v n) true false act val).warp.getV (n.toNat + 1) l = (val l).extractLsb' 32 32 :=
  (foldl_lanesOf (Warp.getV · (n.toNat + 1) l) (g := fun _ => (val l).extractLsb' 32 32) hl (fun _ => Warp.getV_setV ..)
    (fun w i hi hn => w.getV_putV_other n.toNat true (val i) hi hl (n.toNat + 1) hn) h.warp).trans (if_pos ha)

theorem Here.getA_write_same (n : BitVec 4) : (h.write (.a n) wide false act val).warp.getA n.toNat l = val l :=
  (foldl_lanesOf (Warp.getA · n.toNat l) (g := fun _ => val l) hl (fun _ => Warp.getA_setA ..)
    (fun w i hi hn => w.getA_setA_other n.toNat i n.toNat l (val i) hi hl (.inr hn.symm)) h.warp).trans (if_pos ha)

end

section
variable {l : Nat} (hl : lowest act = some l)
include hl

theorem Here.getS_write_low (n : BitVec 6) : (h.write (.s n) wide false act val).warp.getS n.toNat = (val l).setWidth 32 := by
  simp only [Here.write, hl, Bool.false_eq_true, if_false]
  split
  · exact (Warp.getS_setS_other _ _ (by omega)).trans (Warp.getS_setS ..)
  · exact Warp.getS_setS ..

theorem Here.getS_write_high (n : BitVec 6) : (h.write (.s n) true false act val).warp.getS (n.toNat + 1) = (val l).extractLsb' 32 32 := by
  simp [Here.write, hl]

theorem Here.getC_write_same (n : BitVec 4) : (h.write (.c n) wide false act val).warp.getC n.toNat = val l := by
  simp [Here.write, hl]

end

/-- Of uniform registers, without an active lane nothing is written. -/
theorem Here.write_idle {d : Opnd} {nwb : Bool} (hd : d.isUniform = true) : h.write d wide nwb 0 val = h := by
  have hl : lowest 0 = none := by simp [lowest, bitAt]
  unfold Here.write
  cases d <;> simp_all [Opnd.isUniform]

theorem Here.queue?_write_same {n : BitVec 4} {q : Queue} (hq : h.queue? n.toNat = some q) :
    ∃ e, (h.write (.q n) wide false act val).queue? n.toNat = some { q with entries := q.entries ++ [e] } ∧ e.missing = 0 ∧ e.tags = 0 ∧
      ∀ l, Cells.get e.vals l = if l < 64 ∧ bitAt act l = true then (val l).setWidth 32 else 0 := by
  refine ⟨{ id := h.warp.seq, vals := cellsOf act fun l => (val l).setWidth 32, tags := 0, missing := 0 }, ?_, rfl, rfl, get_cellsOf act _⟩
  simp only [Here.write, Here.push, hq, Bool.false_eq_true, if_false, Here.queue?_setQueue]

end

/-! ### Flags and latches -/

theorem Warp.getF_orF_same (w : Warp) (l : Nat) (f : W32) : (w.orF l f).getF l = w.getF l ||| f := by
  unfold Warp.orF
  split
  · simp_all
  · exact Cells.get_set_same ..

theorem Warp.getF_orF_other (w : Warp) {i l : Nat} (f : W32) (hl : l ≠ i) : (w.orF i f).getF l = w.getF l := by
  unfold Warp.orF
  split
  · rfl
  · exact Cells.get_set_other _ _ hl

/-- The flags of a lane gather in the execute slice where the lane is active (R45, R186). -/
theorem Here.getF_flags_eq (h : Here) (act : W64) (fl : Nat → W32) {l : Nat} (hl : l < 64) :
    (h.flags act fl).warp.getF l = if h.u.slice = .execute ∧ bitAt act l = true then h.warp.getF l ||| fl l else h.warp.getF l := by
  unfold Here.flags
  split
  · exact (foldl_lanesOf (Warp.getF · l) (g := (· ||| fl l)) hl (fun w => w.getF_orF_same l (fl l))
      (fun w i _ hn => w.getF_orF_other (fl i) hn.symm) h.warp).trans (by simp [*])
  · simp [*]

section
variable (h : Here) (d : Opnd) (wide nwb : Bool) (act : W64) (val : Nat → W64)

/-- A result shifts the latches of the execute slice where it has a destination (R36). -/
theorem Here.result_lat : (h.result d wide nwb act val).split.lat = if h.u.slice = .execute ∧ d ≠ .none then
    ((cellsOf act fun l => if wide then val l else ((val l).setWidth 32).setWidth 64) :: h.split.lat).take 4 else h.split.lat := by
  have hu : (h.write d wide nwb act val).u = h.u := (congrArg Here.u (h.write_frame d wide nwb act val) :)
  unfold Here.result Here.latch
  by_cases hd : d = .none <;> by_cases hs : h.u.slice = .execute <;> simp [hd, hs, hu, Here.write_split]

end

section
variable (h : Here) (i : Instr) (srcs : List Use) (d : Opnd) (wide nwb : Bool) (act : W64) (r : Nat → Res)

theorem finish_getF_eq {l : Nat} (hl : l < 64) : (finish h i srcs d wide nwb act r).warp.getF l =
    if h.u.slice = .execute ∧ bitAt act l = true then h.warp.getF l ||| (r l).flags else h.warp.getF l := by
  obtain ⟨m, hp⟩ := h.popAll_warp srcs
  have hf : ((h.popAll srcs).result d wide nwb act fun l => (r l).val).frame = h.frame := by simp
  have hu := (Here.frame_parts hf).1
  have hw : ((h.popAll srcs).result d wide nwb act fun l => (r l).val).warp.getF l = h.warp.getF l := by
    rw [Warp.getF, Here.result_warp, Here.write_fflags, hp]
    rfl
  rw [finish, Here.advance_warp, Here.getF_flags_eq _ _ _ hl, hu, hw]

theorem finish_lat : (finish h i srcs d wide nwb act r).split.lat = if h.u.slice = .execute ∧ d ≠ .none then
    ((cellsOf act fun l => if wide then (r l).val else ((r l).val.setWidth 32).setWidth 64) :: h.split.lat).take 4 else h.split.lat := by
  obtain ⟨f, hf⟩ := Here.flags_eq ((h.popAll srcs).result d wide nwb act fun l => (r l).val) act fun l => (r l).flags
  have hu : (h.popAll srcs).u = h.u := (congrArg Here.u (h.popAll_frame srcs) :)
  rw [finish, hf, Here.advance_split_lat, Here.result_lat, Here.popAll_split, hu]

end

/-- Settles O10: a fold over the active lanes does in each of them what its own step does. -/
theorem resultsReachTheirDestination : Obligations.ResultsReachTheirDestination := by
  intro h i srcs d wide nwb act r h'
  obtain ⟨f, hw⟩ := finish_warp h i srcs d wide nwb act r
  have hp : ∀ m, h'.queue? m = ((h.popAll srcs).write d wide nwb act fun l => (r l).val).queue? m := fun m => by
    rw [Here.queue?, finish_pair]
    rfl
  refine ⟨finish_pc h i srcs d wide nwb act r, ?_, fun hs l hl => ?_, fun hs hd => ?_, fun hs => ?_⟩
  · rintro rfl
    refine ⟨?_, ?_, ?_, ?_, ?_⟩
    · rintro n rfl l hl ha
      rw [show h'.warp = _ from hw]
      refine ⟨Here.getV_write_low _ hl ha n, ?_⟩
      rintro rfl
      exact Here.getV_write_high _ hl ha n
    · rintro n rfl l hl ha
      rw [show h'.warp = _ from hw]
      exact Here.getA_write_same _ hl ha n
    · rintro n l rfl hl
      rw [show h'.warp = _ from hw]
      refine ⟨Here.getS_write_low _ hl n, ?_⟩
      rintro rfl
      exact Here.getS_write_high _ hl n
    · rintro n l rfl hl
      rw [show h'.warp = _ from hw]
      exact Here.getC_write_same _ hl n
    · rintro n q rfl hq hn
      rw [hp]
      exact Here.queue?_write_same _ ((h.queue?_popAll hn).trans hq)
  · rw [finish_getF_eq h i srcs d wide nwb act r hl]
    cases bitAt act l <;> simp [hs]
  · exact ⟨_, (finish_lat h i srcs d wide nwb act r).trans (if_pos ⟨hs, hd⟩), get_cellsOf act _⟩
  · refine (finish_lat h i srcs d wide nwb act r).trans (if_neg ?_)
    rcases hs with hs | hs <;> simp [hs]

/-- Settles O11: `finish` keeps the frame of its view, and of its registers, flags and queues those that are not the destination's. -/
theorem resultsLeaveTheRestAlone : Obligations.ResultsLeaveTheRestAlone := by
  intro h i srcs d wide nwb act r h'
  have hf : h'.frame = h.frame := finish_frame h i srcs d wide nwb act r
  obtain ⟨hu, hc, hw, -, -, hm, hst⟩ := Here.frame_parts hf
  obtain ⟨f, hwr⟩ := finish_warp h i srcs d wide nwb act r
  obtain ⟨m', hp⟩ := h.popAll_warp srcs
  have idle : act = 0 → d.isUniform = true → h'.warp = { h.warp with fflags := f, seen := m' } := by
    rintro rfl hd
    rw [show h'.warp = _ from hwr, Here.write_idle _ hd, hp]
  refine ⟨fun m l hl hd => finish_getV hl hd, fun m l hl hd => finish_getA hl hd, fun m hd => ?_, fun m hd => ?_, fun l hl hd => ?_,
    Warp.frame_pred hw, fun m hs hd => finish_queue? hs hd, (congrArg Warp.role hw :), (congrArg Warp.tctl hw :), (congrArg Warp.stores hw :),
    (congrArg Warp.loads hw :), hm, hst, (congrArg (fun h => h.split.record) hf :), hc, hu⟩
  · by_cases hn : nwb = false ∧ ∃ n, d = .s n ∧ (m = n.toNat ∨ wide = true ∧ m = n.toNat + 1)
    · obtain ⟨hn, n, rfl, hmn⟩ := hn
      rw [idle (Classical.not_not.mp fun ha => hd ⟨hn, ha, n, rfl, hmn⟩) rfl]
      rfl
    · exact finish_getS hn
  · by_cases hn : nwb = false ∧ ∃ n, d = .c n ∧ m = n.toNat
    · obtain ⟨hn, n, rfl, hmn⟩ := hn
      rw [idle (Classical.not_not.mp fun ha => hd ⟨hn, ha, n, rfl, hmn⟩) rfl]
      rfl
    · exact finish_getC hn
  · refine (finish_getF_eq h i srcs d wide nwb act r hl).trans (if_neg ?_)
    rcases hd with hd | hd <;> simp [hd]

end Sys2Proof.Machine
end

section
/-! SUPPORT. Instructions that name their operands themselves: once they are served the instruction answers its view (R60, R68). -/
namespace Sys2Proof.Machine

/-- An instruction over operands completes with its view once they are served and its results stored. -/
theorem runUses_next {s s₁ s₂ : State} {u : UnitRef} {h h₁ h₂ : Here} (I : Issuing s u h) {g : Guard} {ds ss : List Use} {f : Here → W64 → Part Here}
    (hp : prepare s h.awake ds ss (h.awake.active g) = .ok (s₁, h₁)) (hf : f h₁ (h₁.active g) = .ok h₂)
    (hs : spillRegs s₁ h₂ (dedup (spilledRegs ds)) = .ok s₂) : runUses s g ds ss f = .next (s₂.put h₂) := by
  apply runOn_ok I
  simp only [hp, hf, hs]

/-- The guard that always holds leaves a split's lanes active (R71). -/
theorem Here.active_always (h : Here) : h.active { neg := false, k := 0 } = h.mask :=
  BitVec.and_allOnes

/-- Settles O14: `runSlot` of each slot reads the view before the word. -/
theorem pairWordSlotsReadBeforeTheyWrite : Obligations.PairWordSlotsReadBeforeTheyWrite := by
  intro x s u h s₁ h₁ s₂ I hp slot h₂ hs
  rw [← Here.active_always] at hp
  exact runUses_next (f := fun h _ => .ok ((runSlot h (runSlot h h x.s0) x.s1).advance 8)) I hp rfl hs

end Sys2Proof.Machine
end

section
/-! SUPPORT. Pushing and popping entries of a stack: what stays in the hardware, what goes to the backing store and what comes back (R28, R29, R442). -/
namespace Sys2Proof.Machine

/-- A class 0 code is the odd one of its kind in the access slice (R392). -/
theorem cause0_eq (kind : Nat) (sl : Slice) : cause0 kind sl = if sl = .access then 2 * kind + 1 else 2 * kind := by
  cases sl <;> rfl

/-! ### Corrupt entries -/

theorem getLsbD_maskN (g l : Nat) : (maskN g).getLsbD l = (decide (l < 64) && decide (l < g)) := by
  simp only [maskN, BitVec.getLsbD_ofNat, Nat.testBit_two_pow_sub_one]

/-- The lanes of a mask at or above a grant. -/
theorem beyond_grant_iff {m : W64} {g : Nat} : m &&& ~~~(maskN g) ≠ 0 ↔ ∃ l, g ≤ l ∧ l < 64 ∧ bitAt m l = true := by
  have bit : ∀ l, l < 64 → (m &&& ~~~(maskN g)).getLsbD l = (bitAt m l && !decide (l < g)) := fun l hl => by
    simp only [BitVec.getLsbD_and, BitVec.getLsbD_not, getLsbD_maskN, hl, decide_true, Bool.true_and]
    rfl
  constructor
  · refine fun hne => Classical.byContradiction fun hno => ?_
    refine hne (BitVec.eq_of_getLsbD_eq fun l hl => (bit l hl).trans ((Bool.eq_false_iff.mpr fun hb => hno ?_).trans BitVec.getLsbD_zero.symm))
    obtain ⟨hm, hg⟩ := Bool.and_eq_true_iff.mp hb
    exact ⟨l, by simpa using hg, hl, hm⟩
  · rintro ⟨l, hg, hl, hb⟩ hz
    have hf := (bit l hl).symm.trans (congrArg (BitVec.getLsbD · l) hz)
    simp only [hb, Bool.true_and] at hf
    exact absurd hg (by simpa using hf)

/-- An entry is corrupt when its tag is reserved or its mask names a lane beyond the grant (R29, Table 1.3). -/
theorem StackEntry.corrupt_iff {e : StackEntry} {g : Nat} : e.corrupt g = true ↔
    ¬(e.tag.toNat ≤ 1 ∨ 0x200 ≤ e.tag.toNat ∧ e.tag.toNat ≤ 0x37F) ∨ ∃ l, g ≤ l ∧ l < 64 ∧ bitAt e.mask l = true := by
  rw [← beyond_grant_iff, StackEntry.corrupt, Bool.or_eq_true, decide_eq_true_iff]
  refine or_congr_left ?_
  simp only [StackEntry.reserved, StackEntry.isTrap, Bool.and_eq_true, Bool.not_eq_true', Bool.and_eq_false_iff, decide_eq_false_iff_not]
  omega

/-- The fields of an entry read back: tag [127:118], address [117:64], mask [63:0]. -/
theorem StackEntry.ofBytes_eq (l : List Byte) (low : BitVec 3) (arr : W64) : StackEntry.ofBytes l low arr =
    let n := BitVec.ofNat 128 (bytesToNat l)
    { tag := n.extractLsb' 118 10, pc := n.extractLsb' 64 54, low := low, mask := n.extractLsb' 0 64, arr := arr } := by
  have field : ∀ (x i w : Nat), i + w ≤ 128 → BitVec.ofNat w (x / 2 ^ i) = (BitVec.ofNat 128 x).extractLsb' i w := fun x i w h => by
    refine BitVec.eq_of_getLsbD_eq fun j hj => ?_
    have : i + j < 128 := by omega
    simp only [BitVec.getLsbD_ofNat, BitVec.getLsbD_extractLsb', Nat.testBit_div_two_pow, hj, this, Nat.add_comm, decide_true, Bool.true_and]
  dsimp only
  rw [← field _ 118 10 (by decide), ← field _ 64 54 (by decide), ← field _ 0 64 (by decide), Nat.pow_zero, Nat.div_one]
  rfl

/-! ### Pushing -/

section
variable (s : State) (h : Here) (e : StackEntry)

/-- Fewer than sixteen entries leave room in the hardware. -/
theorem pushEntry_room (hd : h.split.stack.length < 16) :
    pushEntry s h e = .ok (s, { h with split := { h.split with stack := e :: h.split.stack } }) := by
  have h256 : ¬256 ≤ h.split.stack.length := by omega
  have h16 : h.split.stack.length ≠ 16 := by omega
  have none : h.split.stack[15]? = none := List.getElem?_eq_none (by omega)
  simp only [pushEntry, h256, h16, none, if_false]

/-- A push to depth 257 traps. -/
theorem pushEntry_full (hd : 256 ≤ h.split.stack.length) :
    pushEntry s h e = .error (.trap { cause := if h.u.slice = .access then 0x35 else 0x34 }) := by
  simp only [pushEntry, hd, if_true, raise, overflowTrap, cause0_eq]

/-- A view whose split keeps what it spills with the device or not. -/
def Here.keeping (h : Here) (inside : Bool) : Here := { h with split := { h.split with inside := inside } }

/-- The view with which a push spills: the push onto sixteen entries settles where the split keeps them. -/
def Here.spilling (h : Here) : Here := h.keeping (if h.split.stack.length = 16 then placeTaken h else h.split.inside)

/-- A push onto sixteen entries or more spills the oldest resident one. -/
theorem pushEntry_spills (hd : 16 ≤ h.split.stack.length) (hd' : h.split.stack.length < 256) {o : StackEntry} (ho : h.split.stack[15]? = some o) :
    (∀ t, spillEntry s h.spilling (h.split.stack.length - 16) o = .ok t →
      pushEntry s h e = .ok (t, { h.spilling with split := { h.spilling.split with stack := e :: h.split.stack } })) ∧
    ∀ r, spillEntry s h.spilling (h.split.stack.length - 16) o = .error r → pushEntry s h e = .error r := by
  have h256 : ¬256 ≤ h.split.stack.length := by omega
  have he : (if h.split.stack.length = 16 then { h with split := { h.split with inside := placeTaken h } } else h) = h.spilling := by
    unfold Here.spilling
    split <;> rfl
  have ho : h.spilling.split.stack[15]? = some o := ho
  simp only [pushEntry, h256, he, ho, if_false]
  exact ⟨fun t ht => by simp only [ht]; rfl, fun r hr => by simp only [hr]⟩

end

/-! ### Popping -/

/-- The trap of a corrupt entry (R29). -/
def corruptTrap (sl : Slice) (reads : List (Space × Nat × Nat)) : Trap := { cause := if sl = .access then 0x37 else 0x36, reads := reads }

theorem corruptTrap_eq (sl : Slice) (reads : List (Space × Nat × Nat)) : { cause := cause0 27 sl, reads := reads } = corruptTrap sl reads := by
  rw [cause0_eq, corruptTrap]

section
variable (s : State) {h : Here}

theorem popEntry_empty (hs : h.split.stack = []) : popEntry s h = .ok (s, h, none) := by
  simp only [popEntry, hs]

variable {e : StackEntry} {rest : List StackEntry} (hs : h.split.stack = e :: rest)
include hs

theorem popEntry_corrupt (hc : e.corrupt h.crew.grant = true) : popEntry s h = .error (.trap (corruptTrap h.u.slice [])) := by
  simp only [popEntry, hs, hc, if_true, raise, corruptTrap_eq]

/-- A pop that leaves fifteen entries or fewer reads nothing back. -/
theorem popEntry_resident (hc : e.corrupt h.crew.grant = false) (hr : rest.length ≤ 15) :
    popEntry s h = .ok (s, { h with split := { h.split with stack := rest } }, some e) := by
  have none : rest[15]? = none := List.getElem?_eq_none hr
  simp only [popEntry, hs, hc, none, Bool.false_eq_true, if_false]

variable (hc : e.corrupt h.crew.grant = false) {o : StackEntry} (ho : rest[15]? = some o)
include hc ho

/-- A pop that leaves more fills the newest spilled entry. -/
theorem popEntry_fills {s' : State} {f : StackEntry} (hf : fillEntry s h (rest.length - 16) o = .ok (s', f)) :
    (f.corrupt h.crew.grant = true → popEntry s h = .error (.trap (corruptTrap h.u.slice (readPlace s' h (rest.length - 16))))) ∧
    (f.corrupt h.crew.grant = false → popEntry s h = .ok (s', { h with split := { h.split with
      stack := rest.set 15 { f with mask := f.mask &&& if f.tag = 1 then o.mask else ~~~h.warp.dead } } }, some e)) := by
  simp only [popEntry, hs, hc, ho, hf, Bool.false_eq_true, if_false, raise, corruptTrap_eq]
  exact ⟨fun h => if_pos h, fun h => if_neg (by simp [h])⟩

theorem popEntry_fill_fails {r : Stop} (hf : fillEntry s h (rest.length - 16) o = .error r) : popEntry s h = .error r := by
  simp only [popEntry, hs, hc, ho, hf, Bool.false_eq_true, if_false]

end

/-! ### Where spilled entries are -/

section
variable (s : State) {h : Here} (j : Nat) (o : StackEntry)

section
variable (hi : h.split.inside = true)
include hi

theorem spillEntry_inside : spillEntry s h j o = .ok s := if_pos hi
theorem fillEntry_inside : fillEntry s h j o = .ok (s, o) := if_pos hi
theorem readPlace_inside : readPlace s h j = [] := if_pos hi

end

section
variable (hi : h.split.inside = false)
include hi

theorem spillEntry_outside : spillEntry s h j o = bsStore s h (spillAddr h j) o.bytes := if_neg (by simp [hi])

theorem fillEntry_outside {t : State} {l : List Byte} (hl : bsLoad s h (spillAddr h j) 16 = .ok (t, l)) :
    fillEntry s h j o = .ok (t, StackEntry.ofBytes l o.low o.arr) := by
  simp only [fillEntry, hi, hl, Bool.false_eq_true, if_false]

theorem fillEntry_fails {r : Stop} (hl : bsLoad s h (spillAddr h j) 16 = .error r) : fillEntry s h j o = .error r := by
  simp only [fillEntry, hi, hl, Bool.false_eq_true, if_false]

end

end

/-- The place of R442 is free where the split of that number in the other slice has spilled nothing. -/
theorem placeTaken_free {h : Here} (hu : h.u.split < 4)
    (hx : ∀ x, Tbl.get? (h.pair.warp h.u.slice.other).splits h.u.split = some x → x.stack.length ≤ 16) : placeTaken h = false := by
  have h4 : ¬4 ≤ h.u.split := by omega
  unfold placeTaken
  cases hg : Tbl.get? (h.pair.warp h.u.slice.other).splits h.u.split with
  | none => simp [h4]
  | some x =>
    have h16 : ¬16 < x.stack.length := by have := hx x hg; omega
    simp [h4, h16]

/-- Settles O19: each case is one of the ways in which an entry is pushed or popped. -/
theorem stacksSpillBeyondSixteen : Obligations.StacksSpillBeyondSixteen := by
  intro s h e st h' inside
  refine ⟨pushEntry_room s h e, pushEntry_full s h e, ?_, placeTaken_free, popEntry_empty s, ?_⟩
  · intro o h16 h256 ho k place
    obtain ⟨ok, fails⟩ := pushEntry_spills s h e h16 h256 ho
    refine ⟨fun hi => ?_, fun hi => ok s (spillEntry_inside s (h := h.spilling) _ o hi)⟩
    have hp := spillEntry_outside s (h := h.spilling) (st.length - 16) o hi
    exact ⟨fun t ht => ok t (hp.trans ht), fun r hr => fails r (hp.trans hr)⟩
  · intro corrupt refused
    have sound : ∀ x, ¬corrupt x → x.corrupt h.crew.grant = false := fun x hx => Bool.eq_false_iff.mpr (mt StackEntry.corrupt_iff.mp hx)
    refine ⟨fun hc => popEntry_corrupt s (h := h') rfl (StackEntry.corrupt_iff.mpr hc), fun hc => popEntry_resident s (h := h') rfl (sound e hc), ?_⟩
    intro o hc h16 ho place back
    refine ⟨fun hi => ?_, fun hi => ⟨fun r hr => ?_, fun t bytes hb => ?_⟩⟩
    · obtain ⟨bad, good⟩ := popEntry_fills s (h := h') rfl (sound e hc) ho (fillEntry_inside s _ o hi)
      refine ⟨fun hf => ?_, fun hf => good (sound o hf)⟩
      rw [bad (StackEntry.corrupt_iff.mpr hf), readPlace_inside s (h := h') _ hi]
      rfl
    · exact popEntry_fill_fails s (h := h') rfl (sound e hc) ho (fillEntry_fails s _ o hi hr)
    · obtain ⟨bad, good⟩ := popEntry_fills s (h := h') rfl (sound e hc) ho (fillEntry_outside s _ o hi hb)
      rw [StackEntry.ofBytes_eq] at bad good
      exact ⟨fun hf => ⟨_, bad (StackEntry.corrupt_iff.mpr hf)⟩, fun hf => good (sound _ hf)⟩

end Sys2Proof.Machine
end

section
/-! SUPPORT. What the way into a handler leaves as it is: with no error in an array the reads before a trap and the walk it reports change caches alone (R352, R365, R367, R400). -/
namespace Sys2Proof.Machine

/-! ### States that differ in caches -/

/-- `t` is `s` but for its caches, pipes and TLBs. -/
structure Alike (s t : State) : Prop where
  crews : t.crews = s.crews
  ctxs : t.ctxs = s.ctxs
  faults : t.faults = s.faults
  errs : t.errs = s.errs
  drawers : t.drawers = s.drawers
  pend : t.pend = s.pend
  wide : t.wide = s.wide
  mem : t.mem = s.mem
  scratch : ∀ n, (t.core n).scratch = (s.core n).scratch

theorem Alike.refl (s : State) : Alike s s := ⟨rfl, rfl, rfl, rfl, rfl, rfl, rfl, rfl, fun _ => rfl⟩

theorem Alike.trans {s t r : State} (h : Alike s t) (k : Alike t r) : Alike s r where
  crews := k.crews.trans h.crews
  ctxs := k.ctxs.trans h.ctxs
  faults := k.faults.trans h.faults
  errs := k.errs.trans h.errs
  drawers := k.drawers.trans h.drawers
  pend := k.pend.trans h.pend
  wide := k.wide.trans h.wide
  mem := k.mem.trans h.mem
  scratch n := (k.scratch n).trans (h.scratch n)

/-- What observers see hangs on what is pending and on what memory and scratchpads hold. -/
theorem SameMemory.of_eq {s t : State} (hw : t.wide = s.wide) (hm : t.mem = s.mem) (hc : ∀ n, (t.core n).scratch = (s.core n).scratch) :
    SameMemory s t := fun v sp a => by
  have hb : t.base sp a = s.base sp a := by cases sp <;> simp [State.base, hm, hc]
  rw [State.view, State.view, hw, hb]

theorem SameMemory.trans {s t r : State} (h : SameMemory s t) (k : SameMemory t r) : SameMemory s r :=
  fun v sp a => (k v sp a).trans (h v sp a)

theorem Alike.sameMemory {s t : State} (h : Alike s t) : SameMemory s t := .of_eq h.wide h.mem h.scratch

theorem Alike.noErrors {s t : State} (h : Alike s t) (e : Claims.NoErrors s) : Claims.NoErrors t := by
  obtain ⟨hf, hi, hb⟩ := e
  have he : t.err = s.err := by funext i; simp [State.err, h.errs]
  exact ⟨h.faults.trans hf, he ▸ hi, he ▸ hb⟩

/-- A split is found by the crews alone. -/
theorem State.here?_congr {s t : State} (h : t.crews = s.crews) (u : UnitRef) : t.here? u = s.here? u := by
  simp only [State.here?, h]

/-- A core whose scratchpad stays. -/
theorem Alike.setCore {s : State} {n : Nat} {c : Core} (hs : c.scratch = (s.core n).scratch) : Alike s (s.setCore n c) :=
  { Alike.refl s with
    scratch := fun m => by
      rw [State.core_setCore_if]
      split
      · subst_vars; exact hs
      · rfl }

/-! ### Reads without errors -/

section
variable {s : State} (e : Claims.NoErrors s)
include e

theorem unitRead_sound (u ctx : Nat) : unitRead s u ctx = (s, none) := by
  simp [unitRead, e.1]

theorem loadWith_sound (ctx pa n : Nat) (read : State → List Byte) (report : State → Nat → W64 → State) :
    (loadWith s ctx pa n read report).1 = s := by
  have hr : unitsRead s (blocksOf pa n 64) ctx = (s, [], none) := foldl_fixed (fun u => by simp only [unitRead_sound e]) _
  simp only [loadWith, hr]

/-- With no error in an array what has been read has nothing to report. -/
theorem meetReads_sound (ctx : Nat) (u : UnitRef) (l : List (Space × Nat × Nat)) : meetReads s ctx u l = s := by
  refine foldl_fixed (fun x => ?_) l
  obtain ⟨sp, a, n⟩ := x
  cases sp with
  | phys => exact loadWith_sound e ..
  | scratch k =>
    have hs : scratchSound s k = true := by simp [scratchSound, e.1, e.2.2 k]
    simp only [scratchMet, hs, if_true]

theorem writeInto_sound (whole : Bool) (i array idx : Nat) : writeInto s whole i array idx = s := by
  have hi : bitAt (s.err i).inj 8 = false := e.2.1 i
  simp [writeInto, hi, e.1]

theorem l2Drop_alike (n line : Nat) : Alike s (l2Drop s n line) := by
  have hf : dropFaults s n line = s := by simp [dropFaults, e.1]
  unfold l2Drop
  split
  · exact .refl s
  · rw [hf]
    dsimp only
    generalize hl : ({ s with l2 := _, dirty := _ } : State) = s'
    have hc := l1Drop_core s' (fun c => clusterOf c == n) line
    obtain ⟨cs, he⟩ := l1Drop_eq s' (fun c => clusterOf c == n) line
    rw [he] at hc ⊢
    subst hl
    exact { Alike.refl s with scratch := fun m => by obtain ⟨l, hl⟩ := hc m; rw [hl]; rfl }

theorem l2Use_alike (n line : Nat) : Alike s (l2Use s n line) := by
  unfold l2Use
  dsimp only
  split
  · exact { Alike.refl s with }
  · exact (l2Drop_alike e n _).trans { Alike.refl _ with }

theorem l2Read'_alike (n line : Nat) : Alike s (l2Read' s n line) := by
  have hw : ∀ i array idx, injectWrite s i array idx = s := fun i array idx => writeInto_sound e true i array idx
  have he : l2Enter s n line = s := by
    unfold l2Enter
    split
    · rfl
    · simp only [hw, ite_self]
  have first : Alike s { s with dirty := s.dirty.filter fun d => !(d.line == line && d.slice != n) } := { Alike.refl s with }
  rw [l2Read', he]
  exact first.trans (l2Use_alike (first.noErrors e) n line)

end

/-- A walk that meets no record and no error brings its lines into their home slices. -/
theorem walkReads_alike {s : State} (e : Claims.NoErrors s) (hd : s.drawers = []) (hp : s.pend = []) (ctx : Nat) (va : W64) :
    Alike s (walkReads s ctx va) := by
  refine List.foldlRecOn (motive := Alike s) _ _ (.refl s) fun t k a _ => ?_
  have et := k.noErrors e
  have ha : applyLines t a 8 = t := by simp [applyLines, k.drawers, k.pend, hd, hp]
  simp only [ha, unitRead_sound et]
  split
  · exact k
  · exact k.trans (l2Read'_alike et _ _)

theorem reportWalk_alike {s : State} (e : Claims.NoErrors s) {t : Trap} (hq : 0x4C ≤ t.cause → t.cause < 0x60 → s.drawers = [] ∧ s.pend = [])
    (ctx : Nat) : Alike s (reportWalk s ctx t) := by
  unfold reportWalk
  split
  · rename_i hc
    obtain ⟨hd, hp⟩ := hq hc.1 hc.2
    have first := walkReads_alike e hd hp ctx t.addr
    dsimp only
    split
    · exact first.trans (walkReads_alike (first.noErrors e) (first.drawers.trans hd) (first.pend.trans hp) ctx t.addr2)
    · exact first
  · exact .refl s

/-! ### A unit that blocks -/

/-- A record put where it stands changes nothing. -/
theorem Tbl.set_same {α : Type} {t : Tbl α} {k : Nat} {x : α} (h : Tbl.get? t k = some x) : Tbl.set t k x = t := by
  induction t with
  | nil => cases h
  | cons f r ih =>
    obtain ⟨a, y⟩ := f
    simp only [Tbl.get?] at h
    simp only [Tbl.set]
    split at h
    · cases h
      subst_vars
      simp
    · split at h
      · cases h
      · rename_i h1 h2
        rw [if_neg h2, if_neg (Ne.symm h1), ih h]

/-- A change of a split that leaves it as it is changes nothing. -/
theorem State.onSplit_same {s : State} {u : UnitRef} {h : Here} (hh : s.here? u = some h) {f : Split → Split} (hf : f h.split = h.split) :
    s.onSplit u f = s := by
  obtain ⟨-, hc, hp, hw, hx, -⟩ := State.here?_parts hh
  rw [hw] at hx
  have hs : h.pair.setWarp u.slice (h.pair.warp u.slice) = h.pair := by cases u.slice <;> rfl
  simp only [State.onSplit, State.onWarp, State.onPair, State.onCrew, State.crew?, State.setCrew, Crew.onPair, hc, hp, hx, hf, Tbl.set_same hx, hs,
    Tbl.set_same hp, Tbl.set_same hc]

/-- A unit whose latches are empty blocks: its pipe selects anew (R24). -/
theorem blockUnit_alike {s : State} {u : UnitRef} {h : Here} (hh : s.here? u = some h) (hl : h.split.lat = []) : Alike s (blockUnit s u) := by
  have block : ∀ n c, c.scratch = (s.core n).scratch → Alike s ((s.setCore n c).onSplit u fun x => { x with lat := [] }) := fun n c hc => by
    rw [State.onSplit_same ((State.here?_congr (State.setCore_crews ..) u).trans hh) (by rw [← hl])]
    exact .setCore hc
  unfold blockUnit
  split
  · exact .refl s
  · split
    · exact .refl s
    · exact block _ _ rfl

/-! ### The trap record (Table 14.7) -/

section
variable (t : Trap)

/-- The lane field of $tcause with its valid bit. -/
def Trap.laneField (t : Trap) : Nat := match t.lane with
  | none => 0
  | some l => 64 + l % 64

theorem Trap.record_tcause : t.record.tcause.toNat = t.cause % 512 + 512 * t.laneField := by
  unfold Trap.record Trap.laneField
  cases t.lane with
  | none => simp only [BitVec.toNat_ofNat]; omega
  | some l => simp only [BitVec.toNat_ofNat]; omega

theorem Trap.record_field (lo w : Nat) :
    (t.record.tcause.extractLsb' lo w).toNat = (t.cause % 512 + 512 * t.laneField) / 2 ^ lo % 2 ^ w := by
  rw [BitVec.extractLsb'_toNat, t.record_tcause, Nat.shiftRight_eq_div_pow]

theorem Trap.record_cause : t.record.tcause.extractLsb' 0 9 = BitVec.ofNat 9 t.cause :=
  BitVec.eq_of_toNat_eq (by rw [t.record_field, BitVec.toNat_ofNat]; omega)

theorem Trap.record_top : t.record.tcause.extractLsb' 16 16 = (0 : BitVec 16) := by
  have hl : t.laneField < 128 := by unfold Trap.laneField; split <;> omega
  exact BitVec.eq_of_toNat_eq (by rw [t.record_field, show (0 : BitVec 16).toNat = 0 from rfl]; omega)

theorem Trap.record_valid : t.record.tcause.getLsbD 15 = t.lane.isSome := by
  rw [BitVec.getLsbD, t.record_tcause, Nat.testBit_eq_decide_div_mod_eq]
  unfold Trap.laneField
  cases t.lane with
  | none => simp only [Option.isSome_none, decide_eq_false_iff_not]; omega
  | some l => simp only [Option.isSome_some, decide_eq_true_iff]; omega

theorem Trap.record_lane {l : Nat} (h : t.lane = some l) (_ : l < 64) : t.record.tcause.extractLsb' 9 6 = BitVec.ofNat 6 l :=
  BitVec.eq_of_toNat_eq (by simp only [t.record_field, BitVec.toNat_ofNat, Trap.laneField, h]; omega)

end

/-! ### The handler is entered -/

/-- The view at a handler's entry point: the trap's entry is pushed, its record written, the latches are empty, and a breakpoint or watchpoint sets the skip bit. -/
def Here.handling (h : Here) (t : Trap) (base : W64) : Here :=
  { h with
    warp := { h.warp with tctl := if 0x144 ≤ t.cause ∧ t.cause < 0x160 then h.warp.tctl ||| 1 else h.warp.tctl }
    split := { h.split with
      stack := trapEntry1 t.cause (t.resume.getD h.split.pc) (t.mask.getD h.split.mask) :: h.split.stack
      pc := base + BitVec.ofNat 64 (64 * (t.cause / 64)), record := t.record, lat := [], wait := .ready
      step := false, stepDue := h.split.dstep.isSome } }

theorem enterHandler_room {s : State} {h : Here} {t : Trap} (hH : (s.ctx h.crew.ctx).handler h.u.slice ≠ 0) (hd : h.split.stack.length < 16) :
    enterHandler s h t = some (blockUnit (s.put (h.handling t ((s.ctx h.crew.ctx).handler h.u.slice))) h.u) := by
  simp only [enterHandler, hH, if_false, pushEntry_room s h _ hd]
  unfold Here.handling
  split <;> rfl

/-- A view that is put back is found so. -/
theorem State.here?_back (s : State) {h : Here} (hs : h.crew.saved = none) : (s.put h).here? h.u = some h.back :=
  s.here?_put h (by rw [hs]; rfl)

/-- With a handler, room and nothing to report a trap enters the handler in a state that differs in caches. -/
theorem takeTrap_enters {s : State} {u : UnitRef} {h : Here} {t : Trap} (hh : s.here? u = some h) (hH : (s.ctx h.crew.ctx).handler u.slice ≠ 0)
    (ht : t.halt = false) (hd : h.split.stack.length < 16) (e : Claims.NoErrors s)
    (hq : 0x4C ≤ t.cause → t.cause < 0x60 → s.drawers = [] ∧ s.pend = []) :
    ∃ s', Alike s s' ∧ Alike (s'.put (h.handling t ((s.ctx h.crew.ctx).handler u.slice))) (takeTrap s u t) := by
  have k := reportWalk_alike e hq h.crew.ctx
  refine ⟨_, k, ?_⟩
  obtain ⟨hu, -, -, -, -, hs⟩ := State.here?_parts hh
  have hctx : (reportWalk s h.crew.ctx t).ctx h.crew.ctx = s.ctx h.crew.ctx := by rw [State.ctx, State.ctx, k.ctxs]
  have hr := enterHandler_room (s := reportWalk s h.crew.ctx t) (t := t) (by rwa [hctx, hu]) hd
  rw [hctx, hu] at hr
  simp only [takeTrap, hh, ht, hH, decide_false, Bool.false_and, Bool.or_false, Bool.false_eq_true, if_false, meetReads_sound (k.noErrors e), hr,
    Option.getD_some]
  subst hu
  exact blockUnit_alike (State.here?_back _ (h := h.handling t _) hs) rfl

/-- Settles O20: the view that enters the handler is found in the state with its view put back, which a blocking unit leaves so. -/
theorem trapsEnterTheHandler : Obligations.TrapsEnterTheHandler := by
  intro s u h t hh H hH ht hc hd e hq
  have base : (s.ctx h.crew.ctx).handler u.slice = H := by cases hs : u.slice <;> simp [H, hs, Ctx.handler]
  obtain ⟨s', k, b⟩ := takeTrap_enters hh (by rwa [base]) ht hd e hq
  obtain ⟨hu, -, -, -, -, hs⟩ := State.here?_parts hh
  rw [base] at b
  refine ⟨(h.handling t H).back, trapEntry1 t.cause (t.resume.getD h.split.pc) (t.mask.getD h.split.mask), ?_, rfl, ?_, rfl, rfl, ?_, rfl, rfl, rfl,
    t.record_cause, t.record_valid, fun l => t.record_lane, t.record_top, rfl, rfl, rfl, rfl, rfl, rfl, rfl, rfl, rfl, rfl, fun n hn => ?_, ?_,
    b.ctxs.trans k.ctxs, fun c hc => ?_⟩
  · rw [State.here?_congr b.crews]
    subst hu
    exact State.here?_back s' (h := h.handling t H) hs
  · simp only [trapEntry1, BitVec.toNat_ofNat]
    omega
  · exact congrArg (H + ·) (BitVec.ofNat_mul ..)
  · exact Tbl.get?_set_other _ _ (hu ▸ hn)
  · exact k.sameMemory.trans ((SameMemory.of_eq rfl rfl fun _ => rfl).trans b.sameMemory)
  · rw [State.crew?, b.crews, ← State.crew?, State.crew?_put_other s' (h.handling t H) (hu ▸ hc), State.crew?, k.crews]
    rfl

end Sys2Proof.Machine
end

section
/-! SUPPORT. A warp pair whose queues stand in falling order in its table: $qcfg counts each entry of the table, where a search for a number stops at the first higher one (Table 1.4). -/
namespace Sys2Proof.Machine

/-- Two queues from access to execute, 5 before 3. -/
def fallingQueues : Tbl Queue :=
  let q : Queue := { dir := .fwd, depth := 16, entries := [], nf := false, re := false, addrs := [] }
  [(5, q), (3, q)]

/-- The execute split of the stand-in's crew. -/
def fallingUnit : UnitRef := { crew := 0, pair := 0, slice := .execute, split := 0 }

/-- The stand-in's pair with these queues. -/
def fallingPair : Pair := { startPair stubCrew stubPc stubPc 0xFF 0 0 0x100000 [] with queues := fallingQueues }

/-- That split issues in a device that runs nothing else. -/
def fallingState : State := { State.reset with crews := [(0, { stubCrew with pairs := [(0, fallingPair)] })], cur := some fallingUnit }

def fallingView : Here :=
  { u := fallingUnit, crew := { stubCrew with pairs := [(0, fallingPair)] }, pair := fallingPair, warp := fallingPair.exe
    split := Split.start stubPc 0xFF }

/-- `rds` of $qcfg into s4 and s5. -/
def readQcfg : RdsArgs := { g := ⟨false, 0⟩, nwb := false, d := .s 4, idx := 0x1C }

theorem fallingView_issues : Issuing fallingState fallingUnit fallingView := ⟨rfl, rfl⟩

/-- A search finds queue 5 alone. -/
theorem fallingPair_word : Claims.QcfgWord fallingPair 0x20 := by
  unfold Claims.QcfgWord
  decide

/-- s4 of the split after an instruction. -/
def s4After (o : Host.Outcome State Fault Refusal) : Option W32 :=
  match o with
  | .next t => (t.here? fallingUnit).map (·.warp.getS 4)
  | _ => none

/-- $qcfg declares both queues. -/
theorem s4After_readQcfg : s4After (exec (.rds readQcfg) fallingState) = some 0x28 := by decide

/-- Refutes O24: the table [(5, q), (3, q)] has distinct numbers below 16, yet `Tbl.get?` finds no queue 3 in it, since it stops at the 5; $qcfg, which `rds` reads,
has bit 3 set, so the word that agrees with the search, 0x20, is not what `rds` writes, 0x28. -/
theorem not_specialRegistersAreRead : ¬ Obligations.SpecialRegistersAreRead := by
  intro claim
  obtain ⟨-, exe, -⟩ := claim readQcfg fallingState fallingUnit fallingView fallingState fallingView.awake fallingState fallingView_issues
  obtain ⟨-, -, -, reads⟩ := exe rfl rfl (fun _ => by decide) (fun h => nomatch h) (fun _ => rfl)
  have answer := reads rfl (by decide) (by decide) 0x20 fallingPair_word rfl
  have s4 := s4After_readQcfg.symm.trans (congrArg s4After answer)
  exact absurd s4 (by decide)

end Sys2Proof.Machine
end

section
/-! SUPPORT. The state right after a cold start (R457, R459, Tables 16.3 and 16.6). -/
namespace Sys2Proof.Machine

/-- Memory that lists nothing reads zero to every observer while no store is pending. -/
theorem State.byteAt_empty {s : State} (hw : s.wide = []) (hm : s.mem = []) (v : Viewer) (a : Nat) : s.byteAt v a = 0 := by
  simp [State.byteAt, State.view, State.base, hw, hm, Cells.get_nil]

/-- Without a crew no split is found. -/
theorem State.here?_no_crews {s : State} (hc : s.crews = []) (u : UnitRef) : s.here? u = none := by
  simp [State.here?, hc, Tbl.get?]

/-- A host queue starts disabled, with the deadline of Table 13.1. -/
theorem HostQueue.reset_cfg : HostQueue.reset.cfg.getLsbD 14 = false ∧ HostQueue.reset.cfg >>> 32 = 200000 := by decide

/-- Settles O31: the reset state lists no core, context, queue or crew, so each reads as its own reset value. -/
theorem resetState : Obligations.ResetState :=
  ⟨⟨fun _ => ⟨rfl, rfl, rfl⟩, State.here?_no_crews rfl, rfl, rfl, rfl, rfl, fun _ => ⟨rfl, rfl⟩, fun _ => HostQueue.reset_cfg,
    fun v a _ => State.byteAt_empty rfl rfl v a, rfl, rfl, rfl, rfl, rfl, rfl, rfl, rfl⟩, rfl, fun _ he => nomatch he⟩

end Sys2Proof.Machine
end
